-- ==== Sys2Proof/Word.lean ====
section
/-! DEFINITION. The word types of the block: 32-bit registers and FIFO words (spec R21, R26), bytes of buffer
memory (R70), 32-bit buffer addresses (P_AW = 32, R7), and the indexes of the two register pools (R6). -/

namespace Sys2Proof

/-- A 32-bit register or FIFO word (R21, R26). -/
abbrev Word := BitVec 32
/-- One byte of buffer memory (R70). -/
abbrev Byte := BitVec 8
/-- A buffer-memory address; P_AW = 32 (R7, R71), so address arithmetic is modulo 2^32. -/
abbrev Addr := BitVec 32
/-- A host channel number, N_HC = 12 (R6). -/
abbrev Ch := Fin 12
/-- A device endpoint number, N_EP = 8 per direction (R6). -/
abbrev EpIx := Fin 8

end Sys2Proof
end

