-- ==== Sys2Proof/Syntax.lean ====
section
/-! DEFINITION. The instruction set: one constructor per row of spec/opcode_table.json. The 23 command words (R100
to R103) carry the fields of the word their format uses (R101); the operands in ARG0..ARG3 are read from State. The
13 setup-packet rows (R112 to R114) carry the free bits of `bRequest ++ bmRequestType`; wValue, wIndex and wLength are
read from the scratch region (R38; entry 18). -/

namespace Sys2Proof

/-- `dir` (R105): 0 OUT, 1 IN. -/
inductive Dir where
  | OUT
  | IN
  deriving DecidableEq, Repr

/-- `epType` (R105): 0 CONTROL, 1 ISOCHRONOUS, 2 BULK, 3 INTERRUPT. -/
inductive EpType where
  | CONTROL
  | ISOCHRONOUS
  | BULK
  | INTERRUPT
  deriving DecidableEq, Repr

/-- The instructions. In PIPEGET `dir` is bit 19, the selector `sel` in host mode (R182). -/
inductive Instr where
  | init
  | portreset
  | rdpkt
  | wrpkt (num : BitVec 4)
  | chopen (num : BitVec 4) (dir : Dir) (type : EpType) (epn : BitVec 4) (mps : BitVec 11)
  | epact (num : BitVec 4) (dir : Dir) (type : EpType) (mps : BitVec 11)
  | chhalt (num : BitVec 4)
  | xferen (num : BitVec 4) (dir : Dir) (type : EpType) (pid : BitVec 2) (mps : BitVec 11)
  | chena (num : BitVec 4)
  | epstall (num : BitVec 4) (dir : Dir)
  | epclrstall (num : BitVec 4) (dir : Dir)
  | challoc
  | chfree (num : BitVec 4)
  | pipeget (num : BitVec 4) (dir : Dir)
  | ctrlopen (mps : BitVec 11)
  | ctrlsubmit
  | ctrlpoll
  | ctrlreq
  | ctrlin
  | ctrlout
  | ctrlstall
  | enumpoll
  | cfgparse
  | getStatus (dir : Dir) (recipient : BitVec 5)
  | clearFeature (dir : Dir) (recipient : BitVec 5)
  | setFeature (dir : Dir) (recipient : BitVec 5)
  | setAddress (dir : Dir) (recipient : BitVec 5)
  | getDescriptor (dir : Dir) (recipient : BitVec 5)
  | setDescriptor (dir : Dir) (recipient : BitVec 5)
  | getConfiguration (dir : Dir) (recipient : BitVec 5)
  | setConfiguration (dir : Dir) (recipient : BitVec 5)
  | getInterface (dir : Dir) (recipient : BitVec 5)
  | setInterface (dir : Dir) (recipient : BitVec 5)
  | classRequest (bRequest : BitVec 8) (dir : Dir) (recipient : BitVec 5)
  | vendorRequest (bRequest : BitVec 8) (dir : Dir) (recipient : BitVec 5)
  | reservedTypeRequest (bRequest : BitVec 8) (dir : Dir) (recipient : BitVec 5)
  deriving DecidableEq, Repr

end Sys2Proof
end

