-- ==== Sys2Proof/WellFormed.lean ====
section
/-! DEFINITION. Well-formedness of an instruction: the static operand ranges of spec R102, those that need no state
(entry 22). An ill-formed command is encodable; executing it is `refuse BadOperand` (R104). A setup-packet row has no
range: a reserved recipient is accepted and stalls (R222). -/

namespace Sys2Proof

/-- `num <= 11` (R102, channel commands). -/
def isChannel (num : BitVec 4) : Bool := num.toNat ≤ 11

/-- `num <= 7` (R102, endpoint commands). -/
def isEndpoint (num : BitVec 4) : Bool := num.toNat ≤ 7

/-- The four endpoint-0 packet sizes (R117, R154). -/
def isEp0Size (mps : BitVec 11) : Bool := mps = 8 || mps = 16 || mps = 32 || mps = 64

/-- The operand ranges of R102. For a command of both modes the wider range (a channel number) counts. -/
def Instr.wellFormed : Instr → Bool
  | .init | .portreset | .rdpkt => true
  | .wrpkt num => isChannel num
  | .chopen num _ _ _ mps => isChannel num && mps ≠ 0
  | .epact num _ _ mps => isEndpoint num && mps ≠ 0 && (num ≠ 0 || isEp0Size mps)
  | .chhalt num => isChannel num
  | .xferen num _ _ pid mps => isChannel num && pid ≠ 3 && mps ≠ 0
  | .chena num => isChannel num
  | .epstall num _ => isEndpoint num
  | .epclrstall num _ => isEndpoint num
  | .challoc => true
  | .chfree num => isChannel num
  | .pipeget num _ => isChannel num
  | .ctrlopen mps => mps ≠ 0
  | .ctrlsubmit | .ctrlpoll | .ctrlreq | .ctrlin | .ctrlout | .ctrlstall | .enumpoll | .cfgparse => true
  | .getStatus _ _ | .clearFeature _ _ | .setFeature _ _ | .setAddress _ _ | .getDescriptor _ _ => true
  | .setDescriptor _ _ | .getConfiguration _ _ | .setConfiguration _ _ | .getInterface _ _ => true
  | .setInterface _ _ | .classRequest _ _ _ | .vendorRequest _ _ _ | .reservedTypeRequest _ _ _ => true

end Sys2Proof
end

