-- ==== Sys2Proof/Decode.lean ====
section
/-! DEFINITION. Decoding and encoding (spec R100 to R104, R112 to R114). A command is one 32-bit word written to CMD;
a request is the 16-bit value `bRequest ++ bmRequestType` of a setup packet, byte 0 (bmRequestType) in bits 7:0. Both
decoders are total and reject by name. -/

namespace Sys2Proof

/-- Why a word decodes to no instruction. -/
inductive Reject where
  /-- `op` is in no row of R103 (R104 (a)). -/
  | unlistedOp
  /-- a must-be-zero field of the command's format is not zero (R104 (a)). -/
  | mustBeZero
  /-- a Standard request code of no row: 2, 4, 12..255 (R114, R234). -/
  | unrecognizedRequest
  /-- not the four bytes of a command word, or fewer than the eight bytes of a setup packet (R100, R112). -/
  | wrongLength
  deriving DecidableEq, Repr

/-- The two encodings: a command word, or the first 16 bits of a setup packet. -/
inductive Code where
  | command (w : BitVec 32)
  | setup (w : BitVec 16)
  deriving DecidableEq, Repr

/-! ## Enumeration codes of the operand fields (R105) -/

def Dir.ofBit (b : BitVec 1) : Dir := if b = 1 then .IN else .OUT

def Dir.bit : Dir → BitVec 1
  | .OUT => 0
  | .IN => 1

def EpType.ofBits (b : BitVec 2) : EpType :=
  if b = 0 then .CONTROL else if b = 1 then .ISOCHRONOUS else if b = 2 then .BULK else .INTERRUPT

def EpType.bits : EpType → BitVec 2
  | .CONTROL => 0
  | .ISOCHRONOUS => 1
  | .BULK => 2
  | .INTERRUPT => 3

/-! ## The command word (R100) -/

/-- The fields of a command word (R100). -/
structure CmdFields where
  op   : BitVec 8
  num  : BitVec 4
  dir  : BitVec 1
  type : BitVec 2
  pid  : BitVec 2
  epn  : BitVec 4
  mps  : BitVec 11
  deriving DecidableEq, Repr

/-- Bits 31:24, 23:20, 19, 18:17, 16:15, 14:11, 10:0 (R100). -/
def CmdFields.unpack (w : BitVec 32) : CmdFields where
  op := w.extractLsb' 24 8
  num := w.extractLsb' 20 4
  dir := w.extractLsb' 19 1
  type := w.extractLsb' 17 2
  pid := w.extractLsb' 15 2
  epn := w.extractLsb' 11 4
  mps := w.extractLsb' 0 11

def CmdFields.pack (f : CmdFields) : BitVec 32 :=
  f.op ++ f.num ++ f.dir ++ f.type ++ f.pid ++ f.epn ++ f.mps

/-- Formats N, M, R, S, D: every field but `op` is zero (R101). -/
def CmdFields.onlyOp (f : CmdFields) : Bool :=
  f.num = 0 && f.dir = 0 && f.type = 0 && f.pid = 0 && f.epn = 0 && f.mps = 0
/-- Formats U, W: `num` only. -/
def CmdFields.onlyNum (f : CmdFields) : Bool :=
  f.dir = 0 && f.type = 0 && f.pid = 0 && f.epn = 0 && f.mps = 0
/-- Format E: `num`, `dir`. -/
def CmdFields.onlyNumDir (f : CmdFields) : Bool := f.type = 0 && f.pid = 0 && f.epn = 0 && f.mps = 0
/-- Format O: everything but `pid`. -/
def CmdFields.noPid (f : CmdFields) : Bool := f.pid = 0
/-- Format A: neither `pid` nor `epn`. -/
def CmdFields.noPidEpn (f : CmdFields) : Bool := f.pid = 0 && f.epn = 0
/-- Format X: everything but `epn`. -/
def CmdFields.noEpn (f : CmdFields) : Bool := f.epn = 0
/-- Format C: `mps` only. -/
def CmdFields.onlyMps (f : CmdFields) : Bool :=
  f.num = 0 && f.dir = 0 && f.type = 0 && f.pid = 0 && f.epn = 0

/-- The instruction, when the must-be-zero fields of its format are zero. -/
def accept (zero : Bool) (i : Instr) : Except Reject Instr := if zero then .ok i else .error .mustBeZero

/-- The opcode map of R103 on the fields of a command word. -/
def decodeFields (f : CmdFields) : Except Reject Instr :=
  if f.op = 0x01 then accept f.onlyOp .init
  else if f.op = 0x02 then accept f.onlyOp .portreset
  else if f.op = 0x10 then accept f.onlyOp .rdpkt
  else if f.op = 0x11 then accept f.onlyNum (.wrpkt f.num)
  else if f.op = 0x20 then accept f.noPid (.chopen f.num (.ofBit f.dir) (.ofBits f.type) f.epn f.mps)
  else if f.op = 0x21 then accept f.noPidEpn (.epact f.num (.ofBit f.dir) (.ofBits f.type) f.mps)
  else if f.op = 0x22 then accept f.onlyNum (.chhalt f.num)
  else if f.op = 0x23 then accept f.noEpn (.xferen f.num (.ofBit f.dir) (.ofBits f.type) f.pid f.mps)
  else if f.op = 0x24 then accept f.onlyNum (.chena f.num)
  else if f.op = 0x25 then accept f.onlyNumDir (.epstall f.num (.ofBit f.dir))
  else if f.op = 0x26 then accept f.onlyNumDir (.epclrstall f.num (.ofBit f.dir))
  else if f.op = 0x30 then accept f.onlyOp .challoc
  else if f.op = 0x31 then accept f.onlyNum (.chfree f.num)
  else if f.op = 0x32 then accept f.onlyNumDir (.pipeget f.num (.ofBit f.dir))
  else if f.op = 0x40 then accept f.onlyMps (.ctrlopen f.mps)
  else if f.op = 0x41 then accept f.onlyOp .ctrlsubmit
  else if f.op = 0x42 then accept f.onlyOp .ctrlpoll
  else if f.op = 0x43 then accept f.onlyOp .ctrlreq
  else if f.op = 0x50 then accept f.onlyOp .ctrlin
  else if f.op = 0x51 then accept f.onlyOp .ctrlout
  else if f.op = 0x52 then accept f.onlyOp .ctrlstall
  else if f.op = 0x60 then accept f.onlyOp .enumpoll
  else if f.op = 0x61 then accept f.onlyOp .cfgparse
  else .error .unlistedOp

/-- Decode a command word (R103, R104 (a)). -/
def decodeCommand (w : BitVec 32) : Except Reject Instr := decodeFields (.unpack w)

/-! ## The setup packet (R112 to R114) -/

/-- The fields of `bRequest ++ bmRequestType` (R113). -/
structure SetupFields where
  bRequest  : BitVec 8
  dir       : BitVec 1
  type      : BitVec 2
  recipient : BitVec 5
  deriving DecidableEq, Repr

/-- Bits 15:8, 7, 6:5, 4:0 (R113, R114). -/
def SetupFields.unpack (w : BitVec 16) : SetupFields where
  bRequest := w.extractLsb' 8 8
  dir := w.extractLsb' 7 1
  type := w.extractLsb' 5 2
  recipient := w.extractLsb' 0 5

def SetupFields.pack (f : SetupFields) : BitVec 16 := f.bRequest ++ f.dir ++ f.type ++ f.recipient

/-- A request of type Standard, by `bRequest` (R114). -/
def decodeStandard (f : SetupFields) : Except Reject Instr :=
  if f.bRequest = 0 then .ok (.getStatus (.ofBit f.dir) f.recipient)
  else if f.bRequest = 1 then .ok (.clearFeature (.ofBit f.dir) f.recipient)
  else if f.bRequest = 3 then .ok (.setFeature (.ofBit f.dir) f.recipient)
  else if f.bRequest = 5 then .ok (.setAddress (.ofBit f.dir) f.recipient)
  else if f.bRequest = 6 then .ok (.getDescriptor (.ofBit f.dir) f.recipient)
  else if f.bRequest = 7 then .ok (.setDescriptor (.ofBit f.dir) f.recipient)
  else if f.bRequest = 8 then .ok (.getConfiguration (.ofBit f.dir) f.recipient)
  else if f.bRequest = 9 then .ok (.setConfiguration (.ofBit f.dir) f.recipient)
  else if f.bRequest = 10 then .ok (.getInterface (.ofBit f.dir) f.recipient)
  else if f.bRequest = 11 then .ok (.setInterface (.ofBit f.dir) f.recipient)
  else .error .unrecognizedRequest

/-- The decode table of R114 on the fields of a setup packet. -/
def decodeSetupFields (f : SetupFields) : Except Reject Instr :=
  if f.type = 0 then decodeStandard f
  else if f.type = 1 then .ok (.classRequest f.bRequest (.ofBit f.dir) f.recipient)
  else if f.type = 2 then .ok (.vendorRequest f.bRequest (.ofBit f.dir) f.recipient)
  else .ok (.reservedTypeRequest f.bRequest (.ofBit f.dir) f.recipient)

/-- Decode `bRequest ++ bmRequestType` of a received setup packet (R114). -/
def decodeSetup (w : BitVec 16) : Except Reject Instr := decodeSetupFields (.unpack w)

/-- Decode either kind of word. -/
def decode : Code → Except Reject Instr
  | .command w => decodeCommand w
  | .setup w => decodeSetup w

/-! ## Bytes: little-endian, first byte in bits 7:0 (R72, R112) -/

/-- The command word that four bytes spell. -/
def decodeCommandBytes : List Byte → Except Reject Instr
  | [b0, b1, b2, b3] => decodeCommand (b3 ++ b2 ++ b1 ++ b0)
  | _ => .error .wrongLength

/-- The request that the eight bytes of a setup packet spell: bmRequestType, bRequest, then the six operand bytes. -/
def decodeSetupBytes : List Byte → Except Reject Instr
  | [bmRequestType, bRequest, _, _, _, _, _, _] => decodeSetup (bRequest ++ bmRequestType)
  | _ => .error .wrongLength

/-! ## Encoding -/

/-- A command word from the fields its format uses; every other field is zero (R100, R101). -/
def commandWord (op : BitVec 8) (num : BitVec 4 := 0) (dir : BitVec 1 := 0) (type : BitVec 2 := 0)
    (pid : BitVec 2 := 0) (epn : BitVec 4 := 0) (mps : BitVec 11 := 0) : Code :=
  .command (CmdFields.pack ⟨op, num, dir, type, pid, epn, mps⟩)

/-- The first 16 bits of a setup packet (R113, R114). -/
def setupWord (bRequest : BitVec 8) (dir : Dir) (type : BitVec 2) (recipient : BitVec 5) : Code :=
  .setup (SetupFields.pack ⟨bRequest, dir.bit, type, recipient⟩)

/-- The word of an instruction (R103, R114). -/
def encode : Instr → Code
  | .init => commandWord 0x01
  | .portreset => commandWord 0x02
  | .rdpkt => commandWord 0x10
  | .wrpkt num => commandWord 0x11 (num := num)
  | .chopen num dir type epn mps =>
    commandWord 0x20 (num := num) (dir := dir.bit) (type := type.bits) (epn := epn) (mps := mps)
  | .epact num dir type mps => commandWord 0x21 (num := num) (dir := dir.bit) (type := type.bits) (mps := mps)
  | .chhalt num => commandWord 0x22 (num := num)
  | .xferen num dir type pid mps =>
    commandWord 0x23 (num := num) (dir := dir.bit) (type := type.bits) (pid := pid) (mps := mps)
  | .chena num => commandWord 0x24 (num := num)
  | .epstall num dir => commandWord 0x25 (num := num) (dir := dir.bit)
  | .epclrstall num dir => commandWord 0x26 (num := num) (dir := dir.bit)
  | .challoc => commandWord 0x30
  | .chfree num => commandWord 0x31 (num := num)
  | .pipeget num dir => commandWord 0x32 (num := num) (dir := dir.bit)
  | .ctrlopen mps => commandWord 0x40 (mps := mps)
  | .ctrlsubmit => commandWord 0x41
  | .ctrlpoll => commandWord 0x42
  | .ctrlreq => commandWord 0x43
  | .ctrlin => commandWord 0x50
  | .ctrlout => commandWord 0x51
  | .ctrlstall => commandWord 0x52
  | .enumpoll => commandWord 0x60
  | .cfgparse => commandWord 0x61
  | .getStatus dir r => setupWord 0 dir 0 r
  | .clearFeature dir r => setupWord 1 dir 0 r
  | .setFeature dir r => setupWord 3 dir 0 r
  | .setAddress dir r => setupWord 5 dir 0 r
  | .getDescriptor dir r => setupWord 6 dir 0 r
  | .setDescriptor dir r => setupWord 7 dir 0 r
  | .getConfiguration dir r => setupWord 8 dir 0 r
  | .setConfiguration dir r => setupWord 9 dir 0 r
  | .getInterface dir r => setupWord 10 dir 0 r
  | .setInterface dir r => setupWord 11 dir 0 r
  | .classRequest bReq dir r => setupWord bReq dir 1 r
  | .vendorRequest bReq dir r => setupWord bReq dir 2 r
  | .reservedTypeRequest bReq dir r => setupWord bReq dir 3 r

/-! ## The opcode table (spec/opcode_table.json), as rows of match and mask -/

/-- The row (match, mask) of an instruction in the table, R103 and R114. -/
def tableRow : Instr → Nat × Nat
  | .init => (0x01000000, 0xFFFFFFFF)
  | .portreset => (0x02000000, 0xFFFFFFFF)
  | .rdpkt => (0x10000000, 0xFFFFFFFF)
  | .wrpkt _ => (0x11000000, 0xFF0FFFFF)
  | .chopen _ _ _ _ _ => (0x20000000, 0xFF018000)
  | .epact _ _ _ _ => (0x21000000, 0xFF01F800)
  | .chhalt _ => (0x22000000, 0xFF0FFFFF)
  | .xferen _ _ _ _ _ => (0x23000000, 0xFF007800)
  | .chena _ => (0x24000000, 0xFF0FFFFF)
  | .epstall _ _ => (0x25000000, 0xFF07FFFF)
  | .epclrstall _ _ => (0x26000000, 0xFF07FFFF)
  | .challoc => (0x30000000, 0xFFFFFFFF)
  | .chfree _ => (0x31000000, 0xFF0FFFFF)
  | .pipeget _ _ => (0x32000000, 0xFF07FFFF)
  | .ctrlopen _ => (0x40000000, 0xFFFFF800)
  | .ctrlsubmit => (0x41000000, 0xFFFFFFFF)
  | .ctrlpoll => (0x42000000, 0xFFFFFFFF)
  | .ctrlreq => (0x43000000, 0xFFFFFFFF)
  | .ctrlin => (0x50000000, 0xFFFFFFFF)
  | .ctrlout => (0x51000000, 0xFFFFFFFF)
  | .ctrlstall => (0x52000000, 0xFFFFFFFF)
  | .enumpoll => (0x60000000, 0xFFFFFFFF)
  | .cfgparse => (0x61000000, 0xFFFFFFFF)
  | .getStatus _ _ => (0x0000, 0xFF60)
  | .clearFeature _ _ => (0x0100, 0xFF60)
  | .setFeature _ _ => (0x0300, 0xFF60)
  | .setAddress _ _ => (0x0500, 0xFF60)
  | .getDescriptor _ _ => (0x0600, 0xFF60)
  | .setDescriptor _ _ => (0x0700, 0xFF60)
  | .getConfiguration _ _ => (0x0800, 0xFF60)
  | .setConfiguration _ _ => (0x0900, 0xFF60)
  | .getInterface _ _ => (0x0A00, 0xFF60)
  | .setInterface _ _ => (0x0B00, 0xFF60)
  | .classRequest _ _ _ => (0x0020, 0x0060)
  | .vendorRequest _ _ _ => (0x0040, 0x0060)
  | .reservedTypeRequest _ _ _ => (0x0060, 0x0060)

/-- A word selects a row iff `w & mask = match` (R103). -/
def Code.selects : Code → Nat × Nat → Bool
  | .command w, (m, k) => w &&& BitVec.ofNat 32 k == BitVec.ofNat 32 m
  | .setup w, (m, k) => w &&& BitVec.ofNat 16 k == BitVec.ofNat 16 m

/-- The instruction the decoder reads from a word numbered as spec/opcode_table.json numbers it: the word's bytes,
lowest first, then zero operand bytes up to the eight of a setup packet. -/
def decodeTableWord (nbits w : Nat) : Option Instr :=
  let bytes := fun n => (List.range n).map fun k => BitVec.ofNat 8 (w % 2 ^ nbits / 2 ^ (8 * k))
  let r := if nbits = 32 then decodeCommandBytes (bytes 4)
    else if nbits = 16 then decodeSetupBytes (bytes 8)
    else .error .wrongLength
  match r with
  | .ok i => some i
  | .error _ => none

end Sys2Proof
end

