-- ==== Sys2Proof/Machine/Arith.lean ====
section
/-! DEFINITION. The arithmetic helpers of spec R9 and the bit and byte helpers of R8 and R72. -/

namespace Sys2Proof.Machine

/-- `ceil_div(a, b)` of R9, defined for b > 0. -/
def ceilDiv (a b : Nat) : Nat := (a + b - 1) / b

/-- `words(n)`: FIFO words that hold n bytes (R9). -/
def wordsOf (n : Nat) : Nat := ceilDiv n 4

/-- `pkt_count(L, M)` of R9, defined for M > 0 (entry 15). -/
def pktCount (len mps : Nat) : Nat := if len = 0 then 1 else ceilDiv len mps

/-- Packets and length programmed for a request of `len` bytes: the clamp of R159, MAX_PKT = 256 (R6). -/
def clampPackets (len mps : Nat) : Nat × Nat :=
  if pktCount len mps > 256 then (256, 256 * mps) else (pktCount len mps, len)

/-- `dec_sat(x)` of R9 on a packet count. -/
def decSat (x : BitVec 10) : BitVec 10 := if x = 0 then 0 else x - 1

/-- `v` with bit `i` set to `b`. -/
def putBit {n : Nat} (v : BitVec n) (i : Nat) (b : Bool) : BitVec n :=
  if b then v ||| BitVec.twoPow n i else v &&& ~~~BitVec.twoPow n i

/-- Does a buffer of `len` bytes at `a` pass the top of the address space (R71)? -/
def wraps (a : Addr) (len : Nat) : Bool := decide (a.toNat + len > 2 ^ 32)

/-- Byte `k` of a word: bits 8k+7..8k (R72). -/
def byteOf (w : Word) (k : Nat) : Byte := w.extractLsb' (8 * k) 8

/-- The word whose bytes, least significant first, are b0, b1, b2, b3 (R72). -/
def wordOfBytes (b0 b1 b2 b3 : Byte) : Word := b3 ++ b2 ++ b1 ++ b0

/-- A word of the given width with only bit 0 possibly set. -/
def bitWord {n : Nat} (b : Bool) : BitVec n := if b then 1 else 0

end Sys2Proof.Machine
end

