-- ==== Sys2Proof/Config.lean ====
section
/-! DEFINITION. The parameters of spec R6 and R7: the values the spec decides as constants, the values it leaves
open as the record `Params` (carried by State, so that every statement over states covers all their values; entry 3),
and the free values (R7, R44, R45; U13 and U16 of 93_implementation_defined.md). -/

namespace Sys2Proof

namespace Config

/-- Retry budget of a control transfer (R6, R199). -/
def ctrlRetry : Nat := 2
/-- The "no channel" sentinel in RES (R7, R180). -/
def noChannel : Word := 0xFF#32
/-- The value of RES after a refusal (R104). -/
def refusedRes : Word := 0xFFFFFFFF#32
/-- Bytes reserved for the cached configuration descriptor (R7). -/
def cfgBuf : Nat := 256
/-- Bytes reserved for each cached string descriptor (R7). -/
def strBuf : Nat := 256
/-- Interface slots in the parsed configuration (R7). -/
def maxItf : Nat := 2
/-- Endpoint slots per interface (R7). -/
def maxEp : Nat := 2
/-- The address the host assigns (R7, R273). -/
def hostDevAddr : BitVec 7 := 1#7
/-- wIndex of string-descriptor requests (R7, R277). -/
def langId : BitVec 16 := 0x0409#16
/-- wLength of string-descriptor requests (R7, R277). -/
def strReqLen : BitVec 16 := 255#16
/-- Device endpoint 0 max packet size (R7, R350). -/
def devEp0Mps : Nat := 64

end Config

/-- A region of buffer memory, its address and its length in bytes: a descriptor table of R45, or a region of R77. -/
structure Table where
  addr : Addr
  len  : Nat
  deriving DecidableEq, Repr

/-- The parameters R7 and R45 leave open. No step of the machine writes them (entry 3). -/
structure Params where
  /-- P_RXFIFO_WORDS -/
  rxFifoWords : Nat
  /-- P_NPTX_WORDS, like the next three any number: R7 gives no range (entry 31) -/
  npTxWords   : Nat
  /-- P_PTX_WORDS -/
  pTxWords    : Nat
  /-- P_DTX_WORDS -/
  dTxWords    : Nat
  /-- P_Q_DEPTH -/
  qDepth      : Nat
  /-- P_SCRATCH_BASE -/
  scratchBase : Addr
  /-- P_ENUM_BASE -/
  enumBase    : Addr
  /-- P_FRIVL(LOW), P_FRIVL(FULL), P_FRIVL(HIGH) -/
  frivlLow    : BitVec 16
  frivlFull   : BitVec 16
  frivlHigh   : BitVec 16
  /-- P_TX_DEFER_REST, default true -/
  txDeferRest : Bool
  /-- `tbl.device`, `tbl.configuration`, `tbl.qualifier` (length 0 = absent), `tbl.string[k]` (R45) -/
  tblDevice        : Table
  tblConfiguration : Table
  tblQualifier     : Table
  tblStrings       : List Table
  /-- is a setDescriptor hook configured (R229) -/
  setDescriptorHook : Bool
  deriving DecidableEq, Repr

/-! ## The layout of buffer memory (R77; entry 33) -/

/-- Two regions have no byte in common; neither passes the top of the address space. -/
def Table.apart (a b : Table) : Bool :=
  decide (a.addr.toNat + a.len ≤ 2 ^ 32) && decide (b.addr.toNat + b.len ≤ 2 ^ 32) &&
    (decide (a.addr.toNat + a.len ≤ b.addr.toNat) || decide (b.addr.toNat + b.len ≤ a.addr.toNat))

/-- No two regions of a list overlap. -/
def regionsApart : List Table → Bool
  | [] => true
  | r :: l => l.all r.apart && regionsApart l

/-- The regions the platform places (R77): the 16-byte scratch region (R38), the descriptor cache of
`32 + P_CFG_BUF + 3 * P_STR_BUF` bytes (R43), the descriptor tables (R45). -/
def Params.regions (p : Params) : List Table :=
  [⟨p.scratchBase, 16⟩, ⟨p.enumBase, 32 + Config.cfgBuf + 3 * Config.strBuf⟩, p.tblDevice, p.tblConfiguration,
    p.tblQualifier] ++ p.tblStrings

/-- The constraint of R77 on the platform's placements: a table of length 0 is absent and takes no room. -/
def Params.apart (p : Params) : Bool := regionsApart (p.regions.filter fun r => r.len != 0)

/-- The answer of `classRequest`, `vendorRequest` or `setDescriptor` (R44). -/
inductive HookResult where
  | Stall
  | NoData
  | DataIn (addr : Addr) (len : Nat)
  | DataOut (addr : Addr) (len : Nat)
  deriving DecidableEq, Repr, Inhabited

namespace Config

/-- FREE VALUE (entry 11): the padding of the last FIFO word of a packet, `pad` of R141, "any value" (U13). -/
opaque freePad : Nat → Word
/-- FREE VALUE (entry 12): the answer of a request hook for which the run supplies none (R44, U16). -/
opaque freeHookResult : Nat → HookResult
/-- FREE VALUE (entry 12): whether `ctrlOutDone` answers `Ack`, where the run supplies no answer (R44, U16). -/
opaque freeAck : Nat → Bool

/-- The parameters of `State.reset` (DESIGN CHOICE, entries 3 and 4): the settings that 95_test_vectors.md uses ("settings
of open parameters chosen for the vectors, not values from the document"), but for P_ENUM_BASE. The vectors' 0x0E00 puts
their scratch region at 0x0F00 inside the descriptor cache, which R77 forbids; 0x8000 keeps them apart (entry 33). -/
def resetParams : Params where
  rxFifoWords := 64
  npTxWords := 64
  pTxWords := 64
  dTxWords := 64
  qDepth := 8
  scratchBase := 0x0F00#32
  enumBase := 0x8000#32
  frivlLow := 0
  frivlFull := 0
  frivlHigh := 0
  txDeferRest := true
  tblDevice := ⟨0x3000#32, 18⟩
  tblConfiguration := ⟨0, 0⟩
  tblQualifier := ⟨0, 0⟩
  tblStrings := []
  setDescriptorHook := false

end Config

end Sys2Proof
end

