-- ==== Sys2Proof/Machine/State.lean ====
section
/-! DEFINITION. The state of one instance (spec R20) as plain data, its enumerations (R105), the reasons a step can
stop, and the state after reset (R47). -/

namespace Sys2Proof.Machine

/-! ## Enumerations (R105). The reserved codes are no members: no rule writes one (entry 21). -/

/-- R23 -/
inductive Mode where
  | DEVICE
  | HOST
  deriving DecidableEq, Repr

/-- `pid` / `dpid` -/
inductive Pid where
  | DATA0
  | DATA1
  | SETUP
  deriving DecidableEq, Repr

inductive Speed where
  | LOW
  | FULL
  | HIGH
  deriving DecidableEq, Repr

inductive UrbStatus where
  | IDLE
  | NOREADY
  | STALL
  | ERROR
  | PING
  | OK
  deriving DecidableEq, Repr

inductive PipeState where
  | OK
  | HALTED
  | NAK
  | NYET
  | STALL
  | XACTERR
  | BBLERR
  | DATATGLERR
  deriving DecidableEq, Repr

inductive CtrlState where
  | SETUP
  | DATA_IN
  | DATA_OUT
  | STATUS_IN
  | STATUS_OUT
  | STALL
  | ERROR
  | COMPLETE
  deriving DecidableEq, Repr

inductive Verdict where
  | BUSY
  | STALL
  | ERROR
  | COMPLETE
  deriving DecidableEq, Repr

inductive XferState where
  | START
  | WAITING
  | OK
  deriving DecidableEq, Repr

inductive DevState where
  | DEFAULT
  | ADDRESS
  | CONFIGURED
  deriving DecidableEq, Repr

inductive EnumState where
  | IDLE
  | GET_DEV_DESC8
  | SET_ADDR
  | GET_DEV_DESC
  | GET_CFG_DESC9
  | GET_CFG_DESC
  | GET_MFC_STR
  | GET_PROD_STR
  | GET_SER_STR
  | SET_CFG
  | CONFIGURED
  deriving DecidableEq, Repr

/-- The derived run state of a channel (R32); never stored. -/
inductive RunState where
  | IDLE
  | ACTIVE
  | HALTING
  deriving DecidableEq, Repr

/-- The global interrupt flags (R24), in the bit order of R109. -/
inductive GFlag where
  | RXFLVL
  | NPTXFE
  | PTXFE
  | HCINT
  | HPRTINT
  | DISCINT
  | SOF
  | USBRST
  | ENUMDNE
  | IEPINT
  | OEPINT
  | USBSUSP
  | WKUPINT
  deriving DecidableEq, Repr

/-- The channel interrupt flags (R31), in the bit order of R108. -/
inductive ChFlag where
  | XFRC
  | CHH
  | AHBERR
  | STALL
  | NAK
  | ACK
  | NYET
  | XACTERR
  | BBLERR
  | FRMOR
  | DTERR
  deriving DecidableEq, Repr

/-- The space classes of the transmit queues (R27). -/
inductive TxClass where
  | NP
  | P
  | EP (n : Fin 12)
  deriving DecidableEq, Repr

/-- The faults of R370. -/
inductive FaultName where
  | RxUnderflow
  | TxOverflow
  | RxOverrun
  | RxBadStatus
  deriving DecidableEq, Repr

/-- The refusals of R371. -/
inductive RefuseName where
  | IllegalCommand
  | WrongMode
  | BadOperand
  | AddrWrap
  | ChannelBusy
  | NotActive
  | NotOpen
  | CtrlBusy
  | NoChannel
  deriving DecidableEq, Repr

/-! ## Events, moves and the history -/

/-- Output events: `emit` and hook calls (R10, R44). -/
inductive Event where
  | portReset
  | deviceAttached
  | deviceDetached
  | deviceSpeedDetected (speed : Speed)
  | enumDone
  | reset
  | suspend
  | wakeup
  | classInit (cfg : Byte)
  | classDeInit (cfg : Byte)
  | classCore (dir : Dir) (n : EpIx)
  | classRequest (req : BitVec 64)
  | vendorRequest (req : BitVec 64)
  | setDescriptor (req : BitVec 64)
  | ctrlOutDone (req : BitVec 64)
  deriving DecidableEq, Repr

/-- The moves of the BUS agent (R405 to R413 and R157). -/
inductive BusMove where
  /-- B1 (R405): append a status word and its data words to the RxFIFO -/
  | rxPush (status : Word) (data : List Word)
  /-- B1 (R405): lower `hc[i].pktCnt` and `xferSize` -/
  | lowerHc (i : Ch) (pktCnt : BitVec 10) (xferSize : BitVec 19)
  /-- B1 (R405): lower `ep[OUT][n].pktCnt` and `xferSize` -/
  | lowerEp (n : EpIx) (pktCnt : BitVec 10) (xferSize : BitVec 19)
  /-- B2 (R406): take `count` words from the head of `txq[num]` -/
  | txTake (num : Ch) (count : Nat)
  /-- B3 (R407): set a channel flag other than CHH -/
  | chFlag (i : Ch) (f : ChFlag)
  /-- B4 (R157): complete a halt -/
  | haltDone (i : Ch)
  /-- B5 (R409) -/
  | connect
  | portEnable (speed : Speed)
  | portDisable
  /-- B6 (R410) -/
  | disconnect
  /-- B7 (R412) -/
  | frame
  /-- B8 (R411) -/
  | busReset
  | enumDone (speed : Speed)
  | suspend
  | resume
  | setupDone
  | outDone (n : EpIx)
  | inDone (n : EpIx)
  /-- B9 (R413) -/
  | slots (np p : Nat)
  deriving DecidableEq, Repr

/-- One step of one agent (R5), as the schedule holds it (entry 1). -/
inductive Move where
  /-- FG writes a command word to CMD (R100) -/
  | cmd (w : Word)
  /-- FG writes ARG0..ARG3 (R21, R121 SETARG) -/
  | setArg (k : Fin 4) (v : Word)
  /-- software writes one byte of buffer memory (R70) -/
  | poke (a : Addr) (b : Byte)
  /-- FG reads a register of the register space (R106) -/
  | regRead (off : Nat)
  /-- FG writes a register of the register space (R106) -/
  | regWrite (off : Nat) (w : Word)
  /-- IRQ: one dispatcher pass (R300) -/
  | irq
  | bus (m : BusMove)
  deriving DecidableEq, Repr

/-- What the event history records (R85; entry 13). The first group marks a step: every step of an agent begins with
one of these, and what the step did follows up to the next one. -/
inductive LogEntry where
  /-- FG: a word written to CMD, with ARG0..ARG3 -/
  | command (w a0 a1 a2 a3 : Word)
  /-- FG: the other accesses -/
  | argWrite (k : Fin 4) (v : Word)
  | poke (a : Addr) (b : Byte)
  | regRead (off : Nat)
  | regWrite (off : Nat) (w : Word)
  /-- IRQ: a dispatcher pass -/
  | pass
  /-- BUS: the move taken -/
  | bus (m : BusMove)
  /-- what a step did -/
  | refused (r : RefuseName)
  | source (f : GFlag)
  | channel (i : Ch) (f : ChFlag)
  /-- OUT endpoint `n` is armed for `packets` packets (R158, R223; read by R411) -/
  | armed (n : EpIx) (packets : Nat)
  | memRead (a : Addr) (n : Nat) (v : Word)
  | memWrite (a : Addr) (n : Nat) (v : Word)
  | rxPop (w : Word)
  | txPush (num : Ch) (w : Word)
  | txTaken (num : Ch) (ws : List Word)
  | event (e : Event)
  | hookAnswer (r : HookResult)
  | ackAnswer (a : Bool)
  deriving DecidableEq, Repr

/-! ## Parts of the state -/

/-- The command port (R21). -/
structure CmdPort where
  cmd  : Word
  arg0 : Word
  arg1 : Word
  arg2 : Word
  arg3 : Word
  res  : Word
  deriving DecidableEq, Repr

/-- The latched bits of `gintsts` (R24). -/
structure Latched where
  discint : Bool
  sof     : Bool
  usbrst  : Bool
  enumdne : Bool
  usbsusp : Bool
  wkupint : Bool
  deriving DecidableEq, Repr

/-- The host port register (R29). -/
structure HPort where
  pcsts   : Bool
  pcdet   : Bool
  pena    : Bool
  penchng : Bool
  prst    : Bool
  pspd    : Speed
  deriving DecidableEq, Repr

/-- The RxFIFO and the transmit queues (R26, R27). -/
structure Fifos where
  rxq      : List Word
  txq      : Vector (List Word) 12
  qSlotsNP : Nat
  qSlotsP  : Nat
  qFlushNP : Bool
  qFlushP  : Bool
  deriving DecidableEq, Repr

/-- A channel register set (R30) with its flags and mask (R31). -/
structure HostChannel where
  mps      : BitVec 11
  epNum    : BitVec 4
  dir      : Dir
  epType   : EpType
  devAddr  : BitVec 7
  oddFrame : Bool
  chDis    : Bool
  chEna    : Bool
  xferSize : BitVec 19
  pktCnt   : BitVec 10
  dpid     : Pid
  doPing   : Bool
  int      : BitVec 11
  intMsk   : BitVec 11
  deriving DecidableEq, Repr

/-- The part of a pipe record that an endpoint-buffer record has too (R33, R37). -/
structure XferBuf where
  bufPtr    : Addr
  bufLen    : BitVec 32
  xferCount : BitVec 32
  pktCnt    : BitVec 10
  toggle    : Bool
  urbStatus : UrbStatus
  pipeState : PipeState
  deriving DecidableEq, Repr

/-- A pipe record (R33); `alloc` is USED. -/
structure Pipe where
  alloc  : Bool
  dir    : Dir
  mps    : BitVec 11
  epType : EpType
  buf    : XferBuf
  deriving DecidableEq, Repr

/-- A device endpoint register set (R35) with its latched flags and mask (R36). `mps` is the register field: for
endpoint 0 it holds the code of R117. `stup` is used in the OUT direction only; `mAux` masks TXFE (IN) or STUP (OUT). -/
structure DevEp where
  active   : Bool
  mps      : BitVec 11
  epType   : EpType
  stall    : Bool
  epEna    : Bool
  xferSize : BitVec 19
  pktCnt   : BitVec 10
  dpid     : Pid
  oddFrame : Bool
  xfrc     : Bool
  stup     : Bool
  mXfrc    : Bool
  mAux     : Bool
  deriving DecidableEq, Repr

/-- The device endpoint block (R35 to R37). -/
structure DevEps where
  epOut       : Vector DevEp 8
  epIn        : Vector DevEp 8
  daintmskOut : BitVec 8
  daintmskIn  : BitVec 8
  epbOut      : Vector XferBuf 8
  epbIn       : Vector XferBuf 8
  deriving DecidableEq, Repr

/-- An interface slot of the parsed configuration (R43). -/
structure ItfSlot where
  raw     : Vector Byte 9
  epCount : BitVec 8
  ep      : Vector (Vector Byte 7) 2
  deriving DecidableEq, Repr

/-- Host control-transfer state, session and enumeration state (R39, R42, R43). `none` is NO_CHANNEL (entry 17). -/
structure HostSess where
  ctrlState   : CtrlState
  ctrlWait    : Bool
  xferState   : XferState
  errCnt      : BitVec 2
  verdict     : Verdict
  ctrlBuf     : Addr
  ctrlLen     : BitVec 16
  hcCtlOut    : Option Ch
  hcCtlIn     : Option Ch
  ctrlMps     : BitVec 11
  connected   : Bool
  portEnabled : Bool
  speed       : Speed
  devAddr     : BitVec 7
  enumState   : EnumState
  itfCount    : BitVec 8
  itf         : Vector ItfSlot 2
  deriving DecidableEq, Repr

/-- Device control state and session (R40, R41). -/
structure DevSess where
  ctrlState        : CtrlState
  zlpPending       : Bool
  addr             : BitVec 7
  curConfiguration : Byte
  devState         : DevState
  speed            : Speed
  curInterface     : Byte
  curAltSetting    : Byte
  remoteWakeup     : Bool
  selfPowered      : Bool
  deriving DecidableEq, Repr

/-- The sticky fault latch (R46). -/
structure FaultLatch where
  rxUnderflow : Bool
  txOverflow  : Bool
  rxOverrun   : Bool
  rxBadStatus : Bool
  deriving DecidableEq, Repr

/-- Buffer memory (R71): the listed bytes, addresses strictly rising, none equal to `unlistedByte`. -/
abbrev Memory := List Host.Cell

/-- What an address that memory does not list reads as. R47 leaves buffer memory unspecified after reset:
DESIGN CHOICE, unsafe (entry 5). -/
def unlistedByte : Byte := 0

/-- Addresses strictly rising from `lo` on and below 2^32, no entry equal to `unlistedByte`. -/
def memWfFrom : Nat → Memory → Bool
  | _, [] => true
  | lo, (a, b) :: m => decide (lo ≤ a) && decide (a < 2 ^ 32) && b != unlistedByte && memWfFrom (a + 1) m

/-- The canonical form of memory. -/
def memWf (m : Memory) : Bool := memWfFrom 0 m

/-- The MODEL's own fields: not state the spec gives the block. -/
structure Env where
  /-- the open parameters, constant (entry 3) -/
  par         : Params
  /-- the answers of request hooks to come, then free values (entry 12) -/
  hookAnswers : List HookResult
  /-- the answers of `ctrlOutDone` to come, `true` = Ack, then free values (entry 12) -/
  ackAnswers  : List Bool
  /-- the number of free values drawn so far (entries 11 and 12) -/
  draws       : Nat
  /-- the event history, newest first (R85; entry 13) -/
  log         : List LogEntry
  /-- the word the last register read returned (entry 19) -/
  rdata       : Word
  /-- the foreground is stuck (R285, U4; entry 10) -/
  fgStuck     : Bool
  /-- the moves still to be made, next first (entry 1) -/
  sched       : List Move
  deriving DecidableEq, Repr

end Sys2Proof.Machine

namespace Sys2Proof.Machine

/-- The state of one instance (R20). -/
structure State where
  port          : CmdPort
  mode          : Mode
  lat           : Latched
  gintmsk       : BitVec 13
  fifo          : Fifos
  frameNum      : BitVec 16
  frameInterval : BitVec 16
  hostClkSel    : Speed
  hprt          : HPort
  hc            : Vector HostChannel 12
  haintmsk      : BitVec 12
  pipe          : Vector Pipe 12
  dep           : DevEps
  host          : HostSess
  dev           : DevSess
  fault         : FaultLatch
  mem           : Memory
  env           : Env
  deriving DecidableEq, Repr

/-- Why the machine stops with a fault. -/
inductive Fault where
  /-- Raised by `runMove` for a foreground move (a command, an ARG write, a register access, a memory write) scheduled
  after CFGPARSE or ENUMPOLL met a descriptor of length 0: the foreground has no further step (R285, U4). Safe: the
  spec gives no step here either (entry 10). -/
  | foregroundStuck
  /-- Raised by `regWrite` for a foreground write of HCCHAR(i) that disables channel `i` while it is not IDLE, which
  "corrupts hardware state": "a model that adds a raw register-write path treats it as fault" (U5). The spec gives no
  state after it. Safe (entry 36). -/
  | channelDisabledInFlight (i : Ch)
  deriving DecidableEq, Repr

/-- Why a step has no meaning. -/
inductive Refusal where
  /-- An instruction that has no meaning yet; raised by `exec`. Safe. -/
  | notModelled (mnemonic : String)
  /-- A scheduled BUS move that R157 and R405 to R413 do not allow in this state; raised by `busMove`. Safe: it is no
  step of the environment the spec describes (entry 20). -/
  | busMoveNotAllowed (m : BusMove)
  /-- A foreground write of a register for which the spec gives no foreground write; raised by `regWrite`. Safe: the
  model stops where the spec gives no effect (entry 19). -/
  | registerWriteNotDescribed (off : Nat)
  deriving DecidableEq, Repr

/-! ## Reset (R47): every stored bit zero, NO_CHANNEL in the two channel numbers -/

/-- Latched flags all clear. -/
def Latched.zero : Latched := ⟨false, false, false, false, false, false⟩

/-- A transfer-buffer record of zeros: urbStatus IDLE, pipeState OK, toggle DATA0. -/
def XferBuf.zero : XferBuf := ⟨0, 0, 0, 0, false, .IDLE, .OK⟩

def Pipe.zero : Pipe := ⟨false, .OUT, 0, .CONTROL, .zero⟩

def HostChannel.zero : HostChannel :=
  ⟨0, 0, .OUT, .CONTROL, 0, false, false, false, 0, 0, .DATA0, false, 0, 0⟩

def DevEp.zero : DevEp :=
  ⟨false, 0, .CONTROL, false, false, 0, 0, .DATA0, false, false, false, false, false⟩

def DevEps.zero : DevEps where
  epOut := .replicate 8 .zero
  epIn := .replicate 8 .zero
  daintmskOut := 0
  daintmskIn := 0
  epbOut := .replicate 8 .zero
  epbIn := .replicate 8 .zero

def ItfSlot.zero : ItfSlot := ⟨.replicate 9 0, 0, .replicate 2 (.replicate 7 0)⟩

def HostSess.zero : HostSess where
  ctrlState := .SETUP
  ctrlWait := false
  xferState := .START
  errCnt := 0
  verdict := .BUSY
  ctrlBuf := 0
  ctrlLen := 0
  hcCtlOut := none
  hcCtlIn := none
  ctrlMps := 0
  connected := false
  portEnabled := false
  speed := .LOW
  devAddr := 0
  enumState := .IDLE
  itfCount := 0
  itf := .replicate 2 .zero

def DevSess.zero : DevSess :=
  ⟨.SETUP, false, 0, 0, .DEFAULT, .LOW, 0, 0, false, false⟩

/-- The state right after hardware reset (R47), for any setting of the open parameters. `qSlots` and `frameNum` are
BUS-owned and unspecified there (entry 6); buffer memory is unspecified (entry 5). -/
def State.resetWith (p : Params) : State where
  port := ⟨0, 0, 0, 0, 0, 0⟩
  mode := .DEVICE
  lat := .zero
  gintmsk := 0
  fifo := ⟨[], .replicate 12 [], p.qDepth, p.qDepth, false, false⟩
  frameNum := 0
  frameInterval := 0
  hostClkSel := .LOW
  hprt := ⟨false, false, false, false, false, .LOW⟩
  hc := .replicate 12 .zero
  haintmsk := 0
  pipe := .replicate 12 .zero
  dep := .zero
  host := .zero
  dev := .zero
  fault := ⟨false, false, false, false⟩
  mem := []
  env := ⟨p, [], [], 0, [], 0, false, []⟩

/-- The machine right after reset, with the parameters named in entry 3. -/
def State.reset : State := .resetWith Config.resetParams

end Sys2Proof.Machine
end

