-- ==== Sys2Proof/Machine/Ops.lean ====
section
/-! DEFINITION. The named operations over registers, memory and queues: the primitives of spec R10, the computations
they run in, and taking a fault (R370). Every meaning is written over these. -/

namespace Sys2Proof.Machine

/-! ## Registers and records by index -/

/-- The channel numbers in ascending order. -/
def allCh : List Ch := [0, 1, 2, 3, 4, 5, 6, 7, 8, 9, 10, 11]
/-- The endpoint numbers in ascending order. -/
def allEp : List EpIx := [0, 1, 2, 3, 4, 5, 6, 7]

/-- `hc[i]` (R30) -/
def State.hcAt (s : State) (i : Ch) : HostChannel := s.hc[i]
def State.setHc (s : State) (i : Ch) (c : HostChannel) : State := { s with hc := s.hc.set i c }

/-- `pipe[i]` (R33) -/
def State.pipeAt (s : State) (i : Ch) : Pipe := s.pipe[i]
def State.setPipe (s : State) (i : Ch) (p : Pipe) : State := { s with pipe := s.pipe.set i p }

/-- `ep[d][n]` (R35) -/
def State.epAt (s : State) (d : Dir) (n : EpIx) : DevEp :=
  match d with
  | .OUT => s.dep.epOut[n]
  | .IN => s.dep.epIn[n]
def State.setEp (s : State) (d : Dir) (n : EpIx) (e : DevEp) : State :=
  match d with
  | .OUT => { s with dep.epOut := s.dep.epOut.set n e }
  | .IN => { s with dep.epIn := s.dep.epIn.set n e }

/-- `epb[d][n]` (R37) -/
def State.epbAt (s : State) (d : Dir) (n : EpIx) : XferBuf :=
  match d with
  | .OUT => s.dep.epbOut[n]
  | .IN => s.dep.epbIn[n]
def State.setEpb (s : State) (d : Dir) (n : EpIx) (b : XferBuf) : State :=
  match d with
  | .OUT => { s with dep.epbOut := s.dep.epbOut.set n b }
  | .IN => { s with dep.epbIn := s.dep.epbIn.set n b }

/-- `txq[num]` (R27) -/
def State.txqAt (s : State) (num : Ch) : List Word := s.fifo.txq[num]
def State.setTxq (s : State) (num : Ch) (q : List Word) : State := { s with fifo.txq := s.fifo.txq.set num q }

/-- What a transfer runs on (R158): a host channel or a device endpoint. -/
inductive Tgt where
  | ch (c : Ch)
  | ep (d : Dir) (n : EpIx)
  deriving DecidableEq, Repr

/-- The transmit-queue number of a target ("the FIFO selected by channel/endpoint number", R27). -/
def Tgt.num : Tgt → Ch
  | .ch c => c
  | .ep _ n => n.castLE (by decide)

/-- The bookkeeping record B of a target (R158): `pipe[num]` or `epb[dir][num]`. -/
def State.bufAt (s : State) : Tgt → XferBuf
  | .ch c => (s.pipeAt c).buf
  | .ep d n => s.epbAt d n
def State.setBuf (s : State) (t : Tgt) (b : XferBuf) : State :=
  match t with
  | .ch c => s.setPipe c { s.pipeAt c with buf := b }
  | .ep d n => s.setEpb d n b

/-- Record an entry of the event history (R85). -/
def State.logged (s : State) (e : LogEntry) : State := { s with env.log := e :: s.env.log }

/-! ## Buffer memory (R70 to R73) -/

/-- The byte at an address. -/
def memGet : Memory → Nat → Byte
  | [], _ => unlistedByte
  | (k, b) :: m, a => if a = k then b else memGet m a

/-- Memory with one byte written, in canonical form again. -/
def memPut : Memory → Nat → Byte → Memory
  | [], a, b => if b = unlistedByte then [] else [(a, b)]
  | (k, c) :: m, a, b =>
    if a < k then (if b = unlistedByte then (k, c) :: m else (a, b) :: (k, c) :: m)
    else if a = k then (if b = unlistedByte then m else (a, b) :: m)
    else (k, c) :: memPut m a b

/-- `Mem[a]` -/
def State.byte (s : State) (a : Addr) : Byte := memGet s.mem a.toNat
def State.setByte (s : State) (a : Addr) (b : Byte) : State := { s with mem := memPut s.mem a.toNat b }

/-- `MemRead(a, 2)` and `MemRead(a, 4)`: little-endian, addresses modulo 2^32 (R71, R72). -/
def State.half (s : State) (a : Addr) : BitVec 16 := s.byte (a + 1) ++ s.byte a
def State.word (s : State) (a : Addr) : Word :=
  wordOfBytes (s.byte a) (s.byte (a + 1)) (s.byte (a + 2)) (s.byte (a + 3))

/-- `MemWrite(a, 2, v)` and `MemWrite(a, 4, v)`: byte accesses in increasing address order (R72, R73). -/
def State.setHalf (s : State) (a : Addr) (v : BitVec 16) : State :=
  (s.setByte a (v.extractLsb' 0 8)).setByte (a + 1) (v.extractLsb' 8 8)
def State.setWord (s : State) (a : Addr) (w : Word) : State :=
  (((s.setByte a (byteOf w 0)).setByte (a + 1) (byteOf w 1)).setByte (a + 2) (byteOf w 2)).setByte (a + 3)
    (byteOf w 3)

/-! ## Computations: a step's pseudocode as a function of the state that ends normally or early -/

/-- Why a computation ends early. -/
inductive Stop where
  /-- `refuse Name` (R371): the command is not executed -/
  | refuse (r : RefuseName)
  /-- `raise Name` (R370): the step ends here, effects so far stay -/
  | raised
  /-- the foreground is stuck (R285, U4) -/
  | stuck
  deriving DecidableEq, Repr

/-- A computation over the state. An early end keeps the state reached (R370). -/
abbrev M := EStateM Stop State

/-- Apply a change to the state. -/
def upd (f : State → State) : M Unit := fun s => .ok () (f s)

/-- Read a function of the state. -/
def look {α : Type} (f : State → α) : M α := fun s => .ok (f s) s

/-- `if c then refuse r` -/
def refuseIf (c : Prop) [Decidable c] (r : RefuseName) : M Unit := fun s =>
  if c then .error (.refuse r) s else .ok () s

/-- The latch with one fault recorded (R46). -/
def FaultLatch.record (l : FaultLatch) : FaultName → FaultLatch
  | .RxUnderflow => { l with rxUnderflow := true }
  | .TxOverflow => { l with txOverflow := true }
  | .RxOverrun => { l with rxOverrun := true }
  | .RxBadStatus => { l with rxBadStatus := true }

/-- TAKING A FAULT, `raise f` (R370): "the step ends there, effects before the raise stay, the bit `Name` of the sticky
`fault` latch is set, and no interrupt is raised." There is no saved state, no vector and no return (R302). -/
def raise {α : Type} (f : FaultName) : M α := fun s => .error .raised { s with fault := s.fault.record f }

/-- `if c then raise f` -/
def raiseIf (c : Prop) [Decidable c] (f : FaultName) : M Unit := if c then raise f else pure ()

/-- The foreground does not return from this step (R285, U4). -/
def stuck {α : Type} : M α := fun s => .error .stuck s

/-- `refuse r` at a state: "A refusal changes no state except `RES <- 0xFFFFFFFF`" (R104). The name goes to the model's
log (R371). -/
def State.refuse (s : State) (r : RefuseName) : State := { s.logged (.refused r) with port.res := Config.refusedRes }

/-- The state after a computation, however it ends. -/
def finalState {α : Type} (m : M α) (s : State) : State :=
  match m s with
  | .ok _ t => t
  | .error _ t => t

/-- The state after a command whose pseudocode is `m`, which answers the value of RES (R104). A refusal discards every
change, the history's included; after a fault or a stuck command RES is not written (entries 8 and 10). -/
def afterCommand (m : M Word) (s : State) : State :=
  match m s with
  | .ok r t => { t with port.res := r }
  | .error (.refuse r) _ => s.refuse r
  | .error .raised t => t
  | .error .stuck t => { t with env.fgStuck := true }

/-- The step of a command: a refusal and a fault of the block are next states (entries 8 and 9). -/
def commandOutcome (m : M Word) (s : State) : Host.Outcome State Fault Refusal := .next (afterCommand m s)

/-- The step of the IRQ agent, or of a request run by it: RES is never written (R21), and nothing is restored when it
ends (R302). -/
def handlerOutcome (m : M Unit) (s : State) : Host.Outcome State Fault Refusal := .next (finalState m s)

/-! ## Memory accesses, events and free values inside a computation -/

def memRead8 (a : Addr) : M Byte := fun s => .ok (s.byte a) (s.logged (.memRead a 1 ((s.byte a).setWidth 32)))
def memRead16 (a : Addr) : M (BitVec 16) := fun s =>
  .ok (s.half a) (s.logged (.memRead a 2 ((s.half a).setWidth 32)))
def memRead32 (a : Addr) : M Word := fun s => .ok (s.word a) (s.logged (.memRead a 4 (s.word a)))
def memWrite8 (a : Addr) (b : Byte) : M Unit := upd fun s => (s.setByte a b).logged (.memWrite a 1 (b.setWidth 32))
def memWrite16 (a : Addr) (v : BitVec 16) : M Unit :=
  upd fun s => (s.setHalf a v).logged (.memWrite a 2 (v.setWidth 32))
def memWrite32 (a : Addr) (w : Word) : M Unit := upd fun s => (s.setWord a w).logged (.memWrite a 4 w)

/-- `emit Event(args)`, and a hook call that needs no answer (R10, R44). -/
def emit (e : Event) : M Unit := upd fun s => s.logged (.event e)

/-- The next free padding word (R141, U13; entry 11). -/
def drawPad : M Word := fun s => .ok (Config.freePad s.env.draws) { s with env.draws := s.env.draws + 1 }

/-- Call a request hook and take its answer (R44, U16; entry 12). -/
def askHook (call : Event) : M HookResult := fun s =>
  match s.env.hookAnswers with
  | r :: rest => .ok r { (s.logged (.event call)).logged (.hookAnswer r) with env.hookAnswers := rest }
  | [] =>
    .ok (Config.freeHookResult s.env.draws)
      { (s.logged (.event call)).logged (.hookAnswer (Config.freeHookResult s.env.draws)) with
        env.draws := s.env.draws + 1 }

/-- Call `ctrlOutDone` and take its answer, `true` = Ack (R44, R240; entry 12). -/
def askAck (call : Event) : M Bool := fun s =>
  match s.env.ackAnswers with
  | a :: rest => .ok a { (s.logged (.event call)).logged (.ackAnswer a) with env.ackAnswers := rest }
  | [] =>
    .ok (Config.freeAck s.env.draws)
      { (s.logged (.event call)).logged (.ackAnswer (Config.freeAck s.env.draws)) with
        env.draws := s.env.draws + 1 }

/-! ## FIFOs (R26, R27, R74, R75) -/

/-- `RxPop()` (R74): the read is destructive; an empty RxFIFO is `raise RxUnderflow`. -/
def rxPop : M Word := fun s =>
  match s.fifo.rxq with
  | [] => raise .RxUnderflow s
  | w :: q => .ok w ({ s with fifo.rxq := q }.logged (.rxPop w))

/-- `class(num)` (R27). -/
def State.classOf (s : State) (num : Ch) : TxClass :=
  match s.mode with
  | .DEVICE => .EP num
  | .HOST =>
    match (s.hcAt num).epType with
    | .CONTROL => .NP
    | .BULK => .NP
    | .ISOCHRONOUS => .P
    | .INTERRUPT => .P

/-- Words queued in the queues of a host class. -/
def State.queued (s : State) (k : TxClass) : Nat :=
  (allCh.map fun c => if s.classOf c = k then (s.txqAt c).length else 0).sum

/-- `occ(k)` (R27). -/
def State.occ (s : State) : TxClass → Nat
  | .NP => s.queued .NP
  | .P => s.queued .P
  | .EP n => (s.txqAt n).length

/-- `cap(k)` (R27). -/
def State.cap (s : State) : TxClass → Nat
  | .NP => s.env.par.npTxWords
  | .P => s.env.par.pTxWords
  | .EP _ => s.env.par.dTxWords

/-- `txSpace(k)`: free words of class k (R27); 0 when more words are queued than fit (entry 16). -/
def State.txSpace (s : State) (k : TxClass) : Nat := s.cap k - s.occ k

/-- `TxPush(num, w)` (R75): "writing beyond available space is undefined at the hardware level", `raise TxOverflow`. -/
def txPush (num : Ch) (w : Word) : M Unit := fun s =>
  if s.txSpace (s.classOf num) = 0 then raise .TxOverflow s
  else .ok () ((s.setTxq num (s.txqAt num ++ [w])).logged (.txPush num w))

end Sys2Proof.Machine
end

