-- ==== Sys2Proof/Machine/Operands.lean ====
section
/-! DEFINITION. Operand forms: enumeration codes (spec R105), operand ranges (R102), the endpoint-0 size code (R117),
the RxFIFO status word (R110), the request descriptor (R38, R112, R113) and the parameter tables (R7). -/

namespace Sys2Proof.Machine

/-! ## Codes (R105) -/

/-- A toggle bit `t` is the PID code `t`; code 3 is reserved and refused before this is used. -/
def pidOf (b : BitVec 2) : Pid := if b = 0 then .DATA0 else if b = 1 then .DATA1 else .SETUP

def Mode.code : Mode → BitVec 1
  | .DEVICE => 0
  | .HOST => 1

def Pid.code : Pid → BitVec 2
  | .DATA0 => 0
  | .DATA1 => 1
  | .SETUP => 2

def Speed.code : Speed → BitVec 2
  | .LOW => 0
  | .FULL => 1
  | .HIGH => 2

def UrbStatus.code : UrbStatus → BitVec 3
  | .IDLE => 0
  | .NOREADY => 1
  | .STALL => 2
  | .ERROR => 3
  | .PING => 4
  | .OK => 5

def PipeState.code : PipeState → BitVec 3
  | .OK => 0
  | .HALTED => 1
  | .NAK => 2
  | .NYET => 3
  | .STALL => 4
  | .XACTERR => 5
  | .BBLERR => 6
  | .DATATGLERR => 7

def CtrlState.code : CtrlState → BitVec 3
  | .SETUP => 0
  | .DATA_IN => 1
  | .DATA_OUT => 2
  | .STATUS_IN => 3
  | .STATUS_OUT => 4
  | .STALL => 5
  | .ERROR => 6
  | .COMPLETE => 7

def XferState.code : XferState → BitVec 2
  | .START => 0
  | .WAITING => 1
  | .OK => 2

def DevState.code : DevState → BitVec 2
  | .DEFAULT => 0
  | .ADDRESS => 1
  | .CONFIGURED => 2

/-- The `ctrlState` codes of the terminal members, 0 for BUSY, as the word a command answers. -/
def Verdict.code : Verdict → Word
  | .BUSY => 0
  | .STALL => 5
  | .ERROR => 6
  | .COMPLETE => 7

/-- As the word ENUMPOLL answers. -/
def EnumState.code : EnumState → Word
  | .IDLE => 0
  | .GET_DEV_DESC8 => 1
  | .SET_ADDR => 2
  | .GET_DEV_DESC => 3
  | .GET_CFG_DESC9 => 4
  | .GET_CFG_DESC => 5
  | .GET_MFC_STR => 6
  | .GET_PROD_STR => 7
  | .GET_SER_STR => 8
  | .SET_CFG => 9
  | .CONFIGURED => 10

/-- 0 IDLE, 1 ACTIVE, 2 HALTING (R182). -/
def RunState.code : RunState → BitVec 2
  | .IDLE => 0
  | .ACTIVE => 1
  | .HALTING => 2

/-- A channel number, or NO_CHANNEL = 0xFF, as the 8-bit field of R39. -/
def chCode : Option Ch → BitVec 8
  | some c => BitVec.ofNat 8 c.val
  | none => 0xFF

/-! ## Operand ranges (R102) -/

/-- `if num > 11 then refuse BadOperand` -/
def chOperand (num : BitVec 4) : M Ch := fun s =>
  if h : num.toNat < 12 then .ok ⟨num.toNat, h⟩ s else .error (.refuse .BadOperand) s

/-- `if num > 7 then refuse BadOperand` -/
def epOperand (num : BitVec 4) : M EpIx := fun s =>
  if h : num.toNat < 8 then .ok ⟨num.toNat, h⟩ s else .error (.refuse .BadOperand) s

/-- ARG0[6:0], the devAddr operand of formats O and C (R101). -/
def State.devAddrArg (s : State) : BitVec 7 := s.port.arg0.extractLsb' 0 7

/-! ## Endpoint 0 packet size (R117, R154) -/

/-- `ep0_code(mps)`, in the 11-bit register field whose bits 10:2 read 0 (R119). -/
def ep0Code (mps : BitVec 11) : BitVec 11 :=
  if mps = 64 then 0 else if mps = 32 then 1 else if mps = 16 then 2 else 3

/-- `ep0_mps(code)` -/
def ep0Mps (field : BitVec 11) : BitVec 11 :=
  let code := field.extractLsb' 0 2
  if code = 0 then 64 else if code = 1 then 32 else if code = 2 then 16 else 8

/-- The register field that holds packet size `mps` of endpoint `n`. -/
def mpsField (n : EpIx) (mps : BitVec 11) : BitVec 11 := if n = 0 then ep0Code mps else mps

/-- `ep[d][n].mps`: "every rule that reads `ep[d][0].mps` reads the decoded size" (R154). -/
def State.epMps (s : State) (d : Dir) (n : EpIx) : BitVec 11 :=
  if n = 0 then ep0Mps (s.epAt d n).mps else (s.epAt d n).mps

/-- `m0`: the endpoint-0 packet size of 44_dev_ctrl.md. -/
def State.m0 (s : State) : Nat := (s.epMps .IN 0).toNat

/-! ## The RxFIFO status word (R110) -/

def stNum (w : Word) : BitVec 4 := w.extractLsb' 0 4
def stBcnt (w : Word) : BitVec 11 := w.extractLsb' 4 11
def stDpid (w : Word) : BitVec 2 := w.extractLsb' 15 2
def stPktsts (w : Word) : BitVec 4 := w.extractLsb' 17 4

/-- A status word from its fields (R110). -/
def statusWord (num : BitVec 4) (bcnt : BitVec 11) (dpid : BitVec 2) (pktsts : BitVec 4) : Word :=
  (0 : BitVec 11) ++ pktsts ++ dpid ++ bcnt ++ num

/-! ## The request descriptor and the stage (R38) -/

def State.scratch (s : State) : Addr := s.env.par.scratchBase
/-- `stage = P_SCRATCH_BASE + 8` -/
def State.stage (s : State) : Addr := s.scratch + 8

/-- `bRequest ++ bmRequestType` (R114) -/
def State.reqCode (s : State) : BitVec 16 := s.half s.scratch
def State.reqValue (s : State) : BitVec 16 := s.half (s.scratch + 2)
def State.reqIndex (s : State) : BitVec 16 := s.half (s.scratch + 4)
def State.reqLength (s : State) : BitVec 16 := s.half (s.scratch + 6)
/-- The eight bytes handed to a hook (R44). -/
def State.reqBytes (s : State) : BitVec 64 := s.word (s.scratch + 4) ++ s.word s.scratch

/-- The request read for a hook call. -/
def readRequest : M (BitVec 64) := do
  let a ← look State.scratch
  let w0 ← memRead32 a
  let w1 ← memRead32 (a + 4)
  pure (w1 ++ w0)

/-- The fields read afresh from the scratch region (R83). -/
def readCode : M (BitVec 16) := do memRead16 (← look State.scratch)
def readValue : M (BitVec 16) := do memRead16 ((← look State.scratch) + 2)
def readIndex : M (BitVec 16) := do memRead16 ((← look State.scratch) + 4)
def readLength : M (BitVec 16) := do memRead16 ((← look State.scratch) + 6)

/-- Endpoint number and direction of an endpoint address in `wIndex` (R115). -/
def idxEp (w : BitVec 16) : BitVec 4 := w.extractLsb' 0 4
def idxDir (w : BitVec 16) : Dir := Dir.ofBit (w.extractLsb' 7 1)

/-! ## Parameter tables (R7) -/

/-- P_FRIVL(speed) -/
def frivlOf (p : Params) : Speed → BitVec 16
  | .LOW => p.frivlLow
  | .FULL => p.frivlFull
  | .HIGH => p.frivlHigh

/-- P_CLKSEL(speed): identity. -/
def clkSel (sp : Speed) : Speed := sp

/-- P_CTRL_MPS_INIT(speed) -/
def ctrlMpsInit : Speed → BitVec 11
  | .LOW => 8
  | .FULL => 64
  | .HIGH => 64

/-! ## The descriptor cache (R43, R270) -/

/-- DEV -/
def State.devDesc (s : State) : Addr := s.env.par.enumBase
/-- CFG -/
def State.cfgDesc (s : State) : Addr := s.env.par.enumBase + 32
/-- STR(k) -/
def State.strDesc (s : State) (k : Nat) : Addr :=
  s.env.par.enumBase + 32 + BitVec.ofNat 32 (Config.cfgBuf + k * Config.strBuf)

end Sys2Proof.Machine
end

