-- ==== Sys2Proof/Machine/Flags.lean ====
section
/-! DEFINITION. Flags: bit positions (spec R108, R109), the level flags of `gintsts` (R24) and of the device endpoints
(R36), the interrupt line (R25), channel run state (R32) and the channel enable sets (R152). -/

namespace Sys2Proof.Machine

/-- Bit of GINTSTS and GINTMSK (R109). -/
def GFlag.bit : GFlag → Nat
  | .RXFLVL => 0
  | .NPTXFE => 1
  | .PTXFE => 2
  | .HCINT => 3
  | .HPRTINT => 4
  | .DISCINT => 5
  | .SOF => 6
  | .USBRST => 7
  | .ENUMDNE => 8
  | .IEPINT => 9
  | .OEPINT => 10
  | .USBSUSP => 11
  | .WKUPINT => 12

/-- Bit of HCINT(i) and HCINTMSK(i) (R108). -/
def ChFlag.bit : ChFlag → Nat
  | .XFRC => 0
  | .CHH => 1
  | .AHBERR => 2
  | .STALL => 3
  | .NAK => 4
  | .ACK => 5
  | .NYET => 6
  | .XACTERR => 7
  | .BBLERR => 8
  | .FRMOR => 9
  | .DTERR => 10

/-- The global flags in bit order. -/
def allGFlags : List GFlag :=
  [.RXFLVL, .NPTXFE, .PTXFE, .HCINT, .HPRTINT, .DISCINT, .SOF, .USBRST, .ENUMDNE, .IEPINT, .OEPINT, .USBSUSP, .WKUPINT]

/-! ## Masks and raw flags as fields -/

def State.gmask (s : State) (f : GFlag) : Bool := s.gintmsk.getLsbD f.bit
/-- `gintmsk.F <- b` -/
def State.setGmask (s : State) (f : GFlag) (b : Bool) : State := { s with gintmsk := putBit s.gintmsk f.bit b }

/-- `hc[i].int.F` -/
def HostChannel.flag (c : HostChannel) (f : ChFlag) : Bool := c.int.getLsbD f.bit
/-- `hc[i].int.F <- b` -/
def HostChannel.setFlag (c : HostChannel) (f : ChFlag) (b : Bool) : HostChannel :=
  { c with int := putBit c.int f.bit b }
/-- `hc[i].int & hc[i].intMsk` -/
def HostChannel.pending (c : HostChannel) : BitVec 11 := c.int &&& c.intMsk

def State.clearChFlag (s : State) (i : Ch) (f : ChFlag) : State := s.setHc i ((s.hcAt i).setFlag f false)

/-- `gintsts.F <- 0` for a latched flag; a level flag is not stored (R24). -/
def State.clearLatched (s : State) : GFlag → State
  | .DISCINT => { s with lat.discint := false }
  | .SOF => { s with lat.sof := false }
  | .USBRST => { s with lat.usbrst := false }
  | .ENUMDNE => { s with lat.enumdne := false }
  | .USBSUSP => { s with lat.usbsusp := false }
  | .WKUPINT => { s with lat.wkupint := false }
  | .RXFLVL | .NPTXFE | .PTXFE | .HCINT | .HPRTINT | .IEPINT | .OEPINT => s

/-! ## Derived flags -/

/-- `runState(i)` (R32) -/
def HostChannel.runState (c : HostChannel) : RunState :=
  if c.chEna = false then .IDLE else if c.chDis = false then .ACTIVE else .HALTING
def State.runState (s : State) (i : Ch) : RunState := (s.hcAt i).runState

/-- `haint[i]` (R31) -/
def State.haint (s : State) (i : Ch) : Bool := (s.hcAt i).pending != 0

/-- `ep[IN][n].int.TXFE`: 1 iff `txq[n]` is empty (R36). -/
def State.epTxfe (s : State) (n : EpIx) : Bool := (s.txqAt (n.castLE (by decide))).isEmpty

/-- A masked flag of IN endpoint `n` is pending (R36). -/
def State.inPending (s : State) (n : EpIx) : Bool :=
  ((s.epAt .IN n).xfrc && (s.epAt .IN n).mXfrc) || (s.epTxfe n && (s.epAt .IN n).mAux)
/-- A masked flag of OUT endpoint `n` is pending (R36). -/
def State.outPending (s : State) (n : EpIx) : Bool :=
  ((s.epAt .OUT n).xfrc && (s.epAt .OUT n).mXfrc) || ((s.epAt .OUT n).stup && (s.epAt .OUT n).mAux)

/-- The raw value of a global interrupt flag, recomputed whenever it is read (R24; entry 23). -/
def State.gintsts (s : State) : GFlag → Bool
  | .RXFLVL => !s.fifo.rxq.isEmpty
  | .NPTXFE => s.queued .NP == 0
  | .PTXFE => s.queued .P == 0
  | .HCINT => allCh.any fun i => s.haintmsk.getLsbD i.val && s.haint i
  | .HPRTINT => s.hprt.pcdet || s.hprt.penchng
  | .DISCINT => s.lat.discint
  | .SOF => s.lat.sof
  | .USBRST => s.lat.usbrst
  | .ENUMDNE => s.lat.enumdne
  | .IEPINT => allEp.any fun n => s.dep.daintmskIn.getLsbD n.val && s.inPending n
  | .OEPINT => allEp.any fun n => s.dep.daintmskOut.getLsbD n.val && s.outPending n
  | .USBSUSP => s.lat.usbsusp
  | .WKUPINT => s.lat.wkupint

/-- `(gintsts.F and gintmsk.F) = 1` -/
def State.pending (s : State) (f : GFlag) : Bool := s.gintsts f && s.gmask f

/-- `irq = ((gintsts & gintmsk) != 0)` (R25) -/
def State.irq (s : State) : Bool := allGFlags.any s.pending

/-! ## Enable sets -/

/-- `P_CHMASK(type, dir)`: the channel interrupt-enable set of R152. -/
def chMask : EpType → Dir → BitVec 11
  | .CONTROL, .IN => 0x49F
  | .CONTROL, .OUT => 0x4DF
  | .BULK, .IN => 0x59F
  | .BULK, .OUT => 0x4DF
  | .INTERRUPT, .IN => 0x79F
  | .INTERRUPT, .OUT => 0x69F
  | .ISOCHRONOUS, .IN => 0x3A7
  | .ISOCHRONOUS, .OUT => 0x227

/-- The mask INIT writes: RXFLVL, HCINT, HPRTINT in host mode; RXFLVL, USBRST, ENUMDNE, IEPINT, OEPINT, USBSUSP,
WKUPINT in device mode (R185). -/
def initMask : Mode → BitVec 13
  | .HOST => 0x0019
  | .DEVICE => 0x1F81

/-- `EnableTxfe` (R161), on the target of the transfer. -/
def State.enableTxfe (s : State) : Tgt → State
  | .ch c =>
    match s.classOf c with
    | .NP => s.setGmask .NPTXFE true
    | .P => s.setGmask .PTXFE true
    | .EP _ => s
  | .ep _ n => s.setEp .IN n { s.epAt .IN n with mAux := true }

/-- `qSlots[q]` and `qFlush[q] <- 1` for the queue of a channel (R155). -/
def State.qSlots (s : State) (periodic : Bool) : Nat := if periodic then s.fifo.qSlotsP else s.fifo.qSlotsNP
def State.setQFlush (s : State) (periodic b : Bool) : State :=
  if periodic then { s with fifo.qFlushP := b } else { s with fifo.qFlushNP := b }

/-- Endpoint types isochronous and interrupt (R12). -/
def periodicType : EpType → Bool
  | .CONTROL => false
  | .BULK => false
  | .ISOCHRONOUS => true
  | .INTERRUPT => true

end Sys2Proof.Machine
end

