-- ==== Sys2Proof/Machine/Fifo.lean ====
section
/-! DEFINITION. FIFO transport: RDPKT and WRPKT (spec R140, R141), and the same transfers as internal primitives. An
internal `ReadPacket` or `WritePacket` is never refused; its addresses are modulo 2^32 (entry 14). -/

namespace Sys2Proof.Machine

/-- The whole words of `ReadPacket` (R140): pop, then write four bytes. -/
def readWords (dst : Addr) : Nat → M Unit
  | 0 => pure ()
  | n + 1 => do
    let w ← rxPop
    memWrite32 dst w
    readWords (dst + 4) n

/-- The tail of `ReadPacket`: the low `r` bytes of the last word, by shifting it (R140). -/
def readTail (dst : Addr) (w : Word) : Nat → M Unit
  | 0 => pure ()
  | r + 1 => do
    memWrite8 dst (byteOf w 0)
    readTail (dst + 1) (w >>> 8) r

/-- `ReadPacket(dst, len)` (R140): `words(len)` pops, exactly `len` bytes written. -/
def readPacket (dst : Addr) (len : Nat) : M Unit := do
  readWords dst (len / 4)
  if len % 4 = 0 then pure ()
  else do
    let w ← rxPop
    readTail (dst + BitVec.ofNat 32 (4 * (len / 4))) w (len % 4)

/-- The whole words of `WritePacket` (R141). -/
def writeWords (num : Ch) (src : Addr) : Nat → M Unit
  | 0 => pure ()
  | n + 1 => do
    let w ← memRead32 src
    txPush num w
    writeWords num (src + 4) n

/-- The `r` bytes at `src`, first one least significant. -/
def gatherTail (src : Addr) : Nat → M Word
  | 0 => pure 0
  | r + 1 => do
    let b ← memRead8 src
    let rest ← gatherTail (src + 1) r
    pure (rest <<< 8 ||| b.setWidth 32)

/-- The tail of `WritePacket`: `w[31:8r] <- pad`, any value (R141). -/
def writeTail (num : Ch) (src : Addr) (r : Nat) : M Unit := do
  let low ← gatherTail src r
  let pad ← drawPad
  txPush num (pad <<< (8 * r) ||| low)

/-- `WritePacket(num, src, len)` (R141): `words(len)` pushes, exactly the `len` bytes at `src` read. -/
def writePacket (num : Ch) (src : Addr) (len : Nat) : M Unit := do
  writeWords num src (len / 4)
  if len % 4 = 0 then pure ()
  else writeTail num (src + BitVec.ofNat 32 (4 * (len / 4))) (len % 4)

/-- RDPKT (R140): len = ARG0, dst = ARG1. -/
def rdpkt : M Word := do
  let s ← get
  refuseIf (wraps s.port.arg1 s.port.arg0.toNat) .AddrWrap
  readPacket s.port.arg1 s.port.arg0.toNat
  pure 0

def execRdpkt (s : State) : Host.Outcome State Fault Refusal := commandOutcome rdpkt s

/-- WRPKT (R141): num 0..11 in host mode, 0..7 in device mode; len = ARG0, src = ARG1. -/
def wrpkt (num : BitVec 4) : M Word := do
  let s ← get
  let c ← chOperand num
  refuseIf (wraps s.port.arg1 s.port.arg0.toNat) .AddrWrap
  refuseIf (s.mode = .DEVICE ∧ 7 < c.val) .BadOperand
  writePacket c s.port.arg1 s.port.arg0.toNat
  pure 0

def execWrpkt (num : BitVec 4) (s : State) : Host.Outcome State Fault Refusal := commandOutcome (wrpkt num) s

end Sys2Proof.Machine
end

