-- ==== Sys2Proof/Machine/ChepDriver.lean ====
section
/-! DEFINITION. The channel and endpoint register driver (spec R150 to R166): CHOPEN, EPACT, CHHALT, XFEREN, CHENA,
EPSTALL, EPCLRSTALL, each also as an internal primitive. -/

namespace Sys2Proof.Machine

/-- `if mode != HOST then refuse WrongMode` -/
def needHost : M Unit := fun s => if s.mode ≠ .HOST then .error (.refuse .WrongMode) s else .ok () s
/-- `if mode != DEVICE then refuse WrongMode` -/
def needDevice : M Unit := fun s => if s.mode ≠ .DEVICE then .error (.refuse .WrongMode) s else .ok () s

/-! ## Opening -/

/-- `doPing` is set exactly for "high-speed bulk/control OUT" (R151). -/
def pingFor (sp : Speed) (type : EpType) (dir : Dir) : Bool :=
  decide (sp = .HIGH) && decide (dir = .OUT) && (decide (type = .CONTROL) || decide (type = .BULK))

/-- The register writes of CHOPEN (R150). -/
def State.openChannel (s : State) (c : Ch) (devAddr : BitVec 7) (type : EpType) (mps : BitVec 11) (dir : Dir)
    (epn : BitVec 4) : State :=
  let s := s.setHc c { s.hcAt c with
    mps := mps, epNum := epn, dir := dir, epType := type, devAddr := devAddr
    doPing := pingFor s.host.speed type dir, int := 0, intMsk := chMask type dir }
  let s := { s with haintmsk := putBit s.haintmsk c.val true }
  let s := s.setGmask .HCINT true
  s.setPipe c { s.pipeAt c with dir := dir, mps := mps, epType := type }

/-- `OpenChannel` (R150) on a channel number in range. -/
def openChannel (c : Ch) (devAddr : BitVec 7) (type : EpType) (mps : BitVec 11) (dir : Dir) (epn : BitVec 4) :
    M Unit := do
  let s ← get
  refuseIf (s.runState c ≠ .IDLE) .ChannelBusy
  upd fun s => s.openChannel c devAddr type mps dir epn

/-- CHOPEN (R150) -/
def chopen (num : BitVec 4) (dir : Dir) (type : EpType) (epn : BitVec 4) (mps : BitVec 11) : M Word := do
  needHost
  let s ← get
  let c ← chOperand num
  refuseIf (mps = 0 ∨ s.port.arg0 >>> 7 ≠ 0) .BadOperand
  openChannel c s.devAddrArg type mps dir epn
  pure 0

def execChopen (num : BitVec 4) (dir : Dir) (type : EpType) (epn : BitVec 4) (mps : BitVec 11) (s : State) :
    Host.Outcome State Fault Refusal := commandOutcome (chopen num dir type epn mps) s

/-- `ActivateEndpoint` (R153): the register writes of EPACT. -/
def State.activateEp (s : State) (n : EpIx) (type : EpType) (mps : BitVec 11) (dir : Dir) : State :=
  let s := s.setEp dir n { s.epAt dir n with
    active := true, epType := type, mps := mpsField n mps, stall := false, dpid := .DATA0
    xfrc := false, stup := false, mXfrc := true
    mAux := match dir with
      | .IN => false
      | .OUT => decide (n = 0) }
  match dir with
  | .IN => { s with dep.daintmskIn := putBit s.dep.daintmskIn n.val true }
  | .OUT => { s with dep.daintmskOut := putBit s.dep.daintmskOut n.val true }

/-- EPACT (R153, R154) -/
def epact (num : BitVec 4) (dir : Dir) (type : EpType) (mps : BitVec 11) : M Word := do
  needDevice
  let n ← epOperand num
  refuseIf (mps = 0) .BadOperand
  refuseIf (n = 0 ∧ isEp0Size mps = false) .BadOperand
  let s ← get
  refuseIf ((s.epAt dir n).epEna = true) .ChannelBusy
  upd fun s => s.activateEp n type mps dir
  pure 0

def execEpact (num : BitVec 4) (dir : Dir) (type : EpType) (mps : BitVec 11) (s : State) :
    Host.Outcome State Fault Refusal := commandOutcome (epact num dir type mps) s

/-! ## Halting -/

/-- `Halt(channel)` (R155, R156): acts only on an ACTIVE channel; a full queue is flushed first. -/
def State.halt (s : State) (c : Ch) : State :=
  if s.runState c = .ACTIVE then
    let p := periodicType (s.hcAt c).epType
    let s := if s.qSlots p = 0 then s.setQFlush p true else s
    s.setHc c { s.hcAt c with chDis := true }
  else s

/-- CHHALT (R155) -/
def chhalt (num : BitVec 4) : M Word := do
  needHost
  let c ← chOperand num
  upd fun s => s.halt c
  pure 0

def execChhalt (num : BitVec 4) (s : State) : Host.Outcome State Fault Refusal := commandOutcome (chhalt num) s

/-! ## Enabling a transfer -/

/-- "program the registers" and "enable" of R158: T.xferSize, T.pktCnt, T.dpid, T.oddFrame and the enable bits. The
odd-frame bit is the parity of the next frame (R160). The history records that an OUT endpoint is armed: the condition of
R411 on its completion counts packets from there. -/
def State.programRegs (s : State) (t : Tgt) (len pk : Nat) (pid : Pid) : State :=
  match t with
  | .ch c => s.setHc c { s.hcAt c with
      xferSize := BitVec.ofNat 19 len, pktCnt := BitVec.ofNat 10 pk, dpid := pid
      oddFrame := !s.frameNum.getLsbD 0, chEna := true, chDis := false }
  | .ep d n =>
    let s := s.setEp d n { s.epAt d n with
      xferSize := BitVec.ofNat 19 len, pktCnt := BitVec.ofNat 10 pk, dpid := pid
      oddFrame := !s.frameNum.getLsbD 0, epEna := true }
    match d with
    | .OUT => s.logged (.armed n pk)
    | .IN => s

/-- "bookkeeping" of R158 and R162: in host mode `urbStatus` and `pipeState` are reset too. -/
def State.submitBuf (s : State) (t : Tgt) (len pk : Nat) (buf : Addr) : State :=
  let b := { s.bufAt t with
    bufPtr := buf, bufLen := BitVec.ofNat 32 len, xferCount := 0, pktCnt := BitVec.ofNat 10 pk }
  match t with
  | .ch _ => s.setBuf t { b with urbStatus := .IDLE, pipeState := .OK }
  | .ep _ _ => s.setBuf t b

/-- `bufPtr + n`, `bufLen - n`, `xferCount + n` -/
def XferBuf.advance (b : XferBuf) (n : Nat) : XferBuf :=
  { b with
    bufPtr := b.bufPtr + BitVec.ofNat 32 n, bufLen := b.bufLen - BitVec.ofNat 32 n
    xferCount := b.xferCount + BitVec.ofNat 32 n }

/-- One packet of `n` bytes from a target's buffer into its queue, and the bookkeeping after it. -/
def sendPacket (t : Tgt) (n : Nat) : M Unit := do
  let b ← look fun s => s.bufAt t
  writePacket t.num b.bufPtr n
  upd fun s => s.setBuf t ((s.bufAt t).advance n)

/-- `TxFirstPacket` (R161): the first packet now if it fits, else the FIFO-empty interrupt. -/
def txFirstPacket (t : Tgt) (len mps : Nat) : M Unit := do
  let s ← get
  if len = 0 then pure ()
  else if wordsOf (min len mps) ≤ s.txSpace (s.classOf t.num) then do
    sendPacket t (min len mps)
    upd fun s => if (s.bufAt t).bufLen ≠ 0 ∧ s.env.par.txDeferRest = true then s.enableTxfe t else s
  else upd fun s => s.enableTxfe t

/-- Is this the transmit direction: host OUT or device IN (R12, R158)? -/
def Tgt.transmits (t : Tgt) (dir : Dir) : Bool :=
  match t with
  | .ch _ => decide (dir = .OUT)
  | .ep _ _ => decide (dir = .IN)

/-- The body of XFEREN after the packet-count step (R158), with the length and packet count already clamped. -/
def startTransfer (t : Tgt) (dir : Dir) (pid : Pid) (mps len pk : Nat) (buf : Addr) : M Word := do
  upd fun s => s.programRegs t len pk pid
  upd fun s => s.submitBuf t len pk buf
  if t.transmits dir then txFirstPacket t len mps else pure ()
  pure (BitVec.ofNat 32 len)

/-- The packet-count step, the wrap check and the rest of XFEREN (R158, R159). -/
def submitTransfer (t : Tgt) (dir : Dir) (pid : Pid) (mps len : Nat) (buf : Addr) : M Word := do
  let (pk, len) := clampPackets len mps
  refuseIf (wraps buf len) .AddrWrap
  startTransfer t dir pid mps len pk buf

/-- `EnableTransfer` on a host channel, with its checks (R158). -/
def enableChannelTransfer (c : Ch) (dir : Dir) (type : EpType) (pid : Pid) (mps : BitVec 11) (len : Nat) (buf : Addr) :
    M Word := do
  let s ← get
  refuseIf (mps = 0) .BadOperand
  refuseIf (dir ≠ (s.hcAt c).dir ∨ type ≠ (s.hcAt c).epType ∨ mps ≠ (s.hcAt c).mps) .BadOperand
  refuseIf (s.runState c ≠ .IDLE) .ChannelBusy
  submitTransfer (.ch c) dir pid mps.toNat len buf

/-- `EnableTransfer` on a device endpoint, with its checks (R158). -/
def enableEndpointTransfer (n : EpIx) (dir : Dir) (type : EpType) (pid : Pid) (mps : BitVec 11) (len : Nat)
    (buf : Addr) : M Word := do
  let s ← get
  refuseIf (mps = 0) .BadOperand
  refuseIf ((s.epAt dir n).active = false) .NotActive
  refuseIf (type ≠ (s.epAt dir n).epType ∨ mps ≠ s.epMps dir n) .BadOperand
  refuseIf ((s.epAt dir n).epEna = true) .ChannelBusy
  submitTransfer (.ep dir n) dir pid mps.toNat len buf

/-- XFEREN (R158): len = ARG0, buf = ARG1; RES is the programmed length. -/
def xferen (num : BitVec 4) (dir : Dir) (type : EpType) (pid : BitVec 2) (mps : BitVec 11) : M Word := do
  let s ← get
  refuseIf (pid = 3 ∨ mps = 0) .BadOperand
  match s.mode with
  | .HOST => do
    let c ← chOperand num
    enableChannelTransfer c dir type (pidOf pid) mps s.port.arg0.toNat s.port.arg1
  | .DEVICE => do
    let n ← epOperand num
    enableEndpointTransfer n dir type (pidOf pid) mps s.port.arg0.toNat s.port.arg1

def execXferen (num : BitVec 4) (dir : Dir) (type : EpType) (pid : BitVec 2) (mps : BitVec 11) (s : State) :
    Host.Outcome State Fault Refusal := commandOutcome (xferen num dir type pid mps) s

/-- `EnableChannel(channel)` (R163) -/
def State.enableChannel (s : State) (c : Ch) : State :=
  s.setHc c { s.hcAt c with chEna := true, chDis := false }

/-- CHENA (R163) -/
def chena (num : BitVec 4) : M Word := do
  needHost
  let c ← chOperand num
  upd fun s => s.enableChannel c
  pure 0

def execChena (num : BitVec 4) (s : State) : Host.Outcome State Fault Refusal := commandOutcome (chena num) s

/-! ## Endpoint stall -/

/-- `ep[dir][num].stall <- 1` (R164) -/
def State.stallEp (s : State) (d : Dir) (n : EpIx) : State := s.setEp d n { s.epAt d n with stall := true }
/-- `ep[dir][num].stall <- 0 ; ep[dir][num].dpid <- DATA0` (R165) -/
def State.clearStallEp (s : State) (d : Dir) (n : EpIx) : State :=
  s.setEp d n { s.epAt d n with stall := false, dpid := .DATA0 }

/-- EPSTALL (R164) -/
def epstall (num : BitVec 4) (dir : Dir) : M Word := do
  needDevice
  let n ← epOperand num
  upd fun s => s.stallEp dir n
  pure 0

def execEpstall (num : BitVec 4) (dir : Dir) (s : State) : Host.Outcome State Fault Refusal :=
  commandOutcome (epstall num dir) s

/-- EPCLRSTALL (R165) -/
def epclrstall (num : BitVec 4) (dir : Dir) : M Word := do
  needDevice
  let n ← epOperand num
  upd fun s => s.clearStallEp dir n
  pure 0

def execEpclrstall (num : BitVec 4) (dir : Dir) (s : State) : Host.Outcome State Fault Refusal :=
  commandOutcome (epclrstall num dir) s

end Sys2Proof.Machine
end

