-- ==== Sys2Proof/Machine/Bookkeeping.lean ====
section
/-! DEFINITION. Pipe and endpoint bookkeeping: CHALLOC, CHFREE, PIPEGET, INIT (spec R180 to R185), and the
reset-to-defaults primitives (R184). -/

namespace Sys2Proof.Machine

/-- The least channel whose pipe is FREE (R180). -/
def State.firstFree (s : State) : Option Ch := allCh.find? fun i => !(s.pipeAt i).alloc

/-- `pipe[i].alloc <- USED` -/
def State.usePipe (s : State) (i : Ch) : State := s.setPipe i { s.pipeAt i with alloc := true }

/-- CHALLOC (R180): first fit, or NO_CHANNEL. -/
def challoc : M Word := do
  needHost
  let s ← get
  match s.firstFree with
  | some i => do
    upd fun s => s.usePipe i
    pure (BitVec.ofNat 32 i.val)
  | none => pure Config.noChannel

def execChalloc (s : State) : Host.Outcome State Fault Refusal := commandOutcome challoc s

/-- CHFREE (R181): every field of the pipe record to zero; no channel register changes. -/
def chfree (num : BitVec 4) : M Word := do
  needHost
  let c ← chOperand num
  upd fun s => s.setPipe c .zero
  pure 0

def execChfree (num : BitVec 4) (s : State) : Host.Outcome State Fault Refusal := commandOutcome (chfree num) s

/-- The `sel = 0` result of PIPEGET in host mode (R182). -/
def State.pipeStatus (s : State) (c : Ch) : Word :=
  (s.pipeAt c).buf.urbStatus.code.setWidth 32 ||| (s.pipeAt c).buf.pipeState.code.setWidth 32 <<< 4
    ||| bitWord (s.pipeAt c).buf.toggle <<< 8 ||| bitWord (s.pipeAt c).alloc <<< 9
    ||| (s.runState c).code.setWidth 32 <<< 10

/-- PIPEGET (R182): bit 19 is the selector `sel` in host mode and the direction in device mode. -/
def pipeget (num : BitVec 4) (dir : Dir) : M Word := do
  let s ← get
  match s.mode with
  | .HOST => do
    let c ← chOperand num
    match dir with
    | .OUT => pure (s.pipeStatus c)
    | .IN => pure (s.pipeAt c).buf.xferCount
  | .DEVICE => do
    let n ← epOperand num
    pure (s.epbAt dir n).xferCount

def execPipeget (num : BitVec 4) (dir : Dir) (s : State) : Host.Outcome State Fault Refusal :=
  commandOutcome (pipeget num dir) s

/-- `ResetPipes()` (R184): `alloc`, `dir`, `mps` and `epType` are kept. -/
def State.resetPipes (s : State) : State := { s with pipe := s.pipe.map fun p => { p with buf := .zero } }

/-- `ResetEndpoints()` (R184): endpoint registers, flags, masks, records and `daintmsk` to 0, `txq[0..7]` emptied. -/
def State.resetEndpoints (s : State) : State :=
  { s with
    dep := .zero
    fifo.txq := s.fifo.txq.mapFinIdx fun i q _ => if i < 8 then [] else q }

/-- The register writes of INIT (R185): every piece of block state to its reset value, except CMD, ARG0..ARG3, the fault
latch, the BUS-owned fields, buffer memory (outside the block, R70) and the model's own fields (entry 24). -/
def State.initialise (s : State) (m : Mode) : State :=
  let r := State.resetWith s.env.par
  { r with
    port := { s.port with res := 0 }
    mode := m
    gintmsk := initMask m
    fifo := { r.fifo with qSlotsNP := s.fifo.qSlotsNP, qSlotsP := s.fifo.qSlotsP }
    frameNum := s.frameNum
    hprt := { r.hprt with pcsts := s.hprt.pcsts, pena := s.hprt.pena, pspd := s.hprt.pspd }
    fault := s.fault
    mem := s.mem
    env := s.env }

/-- INIT (R185): the side to run is ARG0[0]; ARG0[31:1] must be 0. -/
def init : M Word := do
  let s ← get
  refuseIf (s.port.arg0 >>> 1 ≠ 0) .BadOperand
  upd fun s => s.initialise (if s.port.arg0.getLsbD 0 then .HOST else .DEVICE)
  pure 0

def execInit (s : State) : Host.Outcome State Fault Refusal := commandOutcome init s

end Sys2Proof.Machine
end

