-- ==== Sys2Proof/Machine/Port.lean ====
section
/-! DEFINITION. PORTRESET (spec R341): an event to BUS; `hprt.prst` is a pulse inside the step and reads 0 after it. -/

namespace Sys2Proof.Machine

/-- `PortReset()` (R341) -/
def portReset : M Unit := emit .portReset

def portreset : M Word := do
  needHost
  portReset
  pure 0

def execPortreset (s : State) : Host.Outcome State Fault Refusal := commandOutcome portreset s

end Sys2Proof.Machine
end

