-- ==== Sys2Proof/Machine/HostCtrl.lean ====
section
/-! DEFINITION. The host control-transfer sequencer (spec R190 to R207): CTRLOPEN, CTRLSUBMIT, CTRLPOLL, CTRLREQ. -/

namespace Sys2Proof.Machine

/-- Open both channels of the pair and record the packet size (R190). -/
def openPair (o i : Ch) (mps : BitVec 11) (devAddr : BitVec 7) : M (Option (Ch × Ch)) := do
  openChannel o devAddr .CONTROL mps .OUT 0
  openChannel i devAddr .CONTROL mps .IN 0
  upd fun s => { s with host.ctrlMps := mps }
  pure (some (o, i))

/-- The two lowest free channels, allocated (R190). -/
def State.allocPair (s : State) : Option (Ch × Ch) :=
  match s.firstFree with
  | none => none
  | some o =>
    match (s.usePipe o).firstFree with
    | none => none
    | some i => some (o, i)

/-- The session writes of a first open (R190). -/
def State.claimPair (s : State) (o i : Ch) : State :=
  { (s.usePipe o).usePipe i with
    host.hcCtlOut := some o
    host.hcCtlIn := some i
    host.ctrlState := .SETUP
    host.ctrlWait := false
    host.errCnt := 0
    host.xferState := .START
    host.verdict := .COMPLETE }

/-- `CtrlOpen(mps, devAddr)` (R190); `none` is NO_CHANNEL. The pair is open when both numbers are held (entry 17). -/
def ctrlOpen (mps : BitVec 11) (devAddr : BitVec 7) : M (Option (Ch × Ch)) := do
  let s ← get
  refuseIf (mps = 0) .BadOperand
  match s.host.hcCtlOut, s.host.hcCtlIn with
  | some o, some i => do
    refuseIf (s.host.verdict = .BUSY) .CtrlBusy
    refuseIf (s.runState o ≠ .IDLE ∨ s.runState i ≠ .IDLE) .ChannelBusy
    openPair o i mps devAddr
  | _, _ =>
    match s.allocPair with
    | none => pure none
    | some (o, i) => do
      upd fun s => s.claimPair o i
      openPair o i mps devAddr

/-- `o | i << 8`, or NO_CHANNEL (R190). -/
def pairCode : Option (Ch × Ch) → Word
  | some (o, i) => BitVec.ofNat 32 o.val ||| BitVec.ofNat 32 i.val <<< 8
  | none => Config.noChannel

/-- CTRLOPEN (R190) -/
def ctrlopen (mps : BitVec 11) : M Word := do
  needHost
  let s ← get
  refuseIf (s.port.arg0 >>> 7 ≠ 0) .BadOperand
  let r ← ctrlOpen mps s.devAddrArg
  pure (pairCode r)

def execCtrlopen (mps : BitVec 11) (s : State) : Host.Outcome State Fault Refusal := commandOutcome (ctrlopen mps) s

/-- The control pair, or `refuse NotOpen` (R191, R192). -/
def needPair : M (Ch × Ch) := fun s =>
  match s.host.hcCtlOut, s.host.hcCtlIn with
  | some o, some i => .ok (o, i) s
  | _, _ => .error (.refuse .NotOpen) s

/-- The body of CTRLSUBMIT (R191): setup bytes 0..3 in `w0`, 4..7 in `w1`, data-stage buffer `buf`. -/
def ctrlSubmit (buf : Addr) (w0 w1 : Word) : M Unit := do
  needHost
  let _ ← needPair
  let s ← get
  refuseIf (s.host.verdict = .BUSY) .CtrlBusy
  refuseIf (wraps buf (w1.extractLsb' 16 16).toNat) .AddrWrap
  memWrite32 s.scratch w0
  memWrite32 (s.scratch + 4) w1
  upd fun s => { s with
    host.ctrlBuf := buf
    host.ctrlLen := w1.extractLsb' 16 16
    host.ctrlState := .SETUP
    host.ctrlWait := false
    host.errCnt := 0
    host.verdict := .BUSY }

/-- CTRLSUBMIT (R191) -/
def ctrlsubmit : M Word := do
  let s ← get
  ctrlSubmit s.port.arg1 s.port.arg2 s.port.arg3
  pure 0

def execCtrlsubmit (s : State) : Host.Outcome State Fault Refusal := commandOutcome ctrlsubmit s

/-- `PhaseChannel` (R193); STALL, ERROR and COMPLETE are never current between steps (entry 25). -/
def phaseChannel (o i : Ch) : CtrlState → Option Ch
  | .SETUP => some o
  | .DATA_IN => some i
  | .DATA_OUT => some o
  | .STATUS_IN => some i
  | .STATUS_OUT => some o
  | .STALL | .ERROR | .COMPLETE => none

/-- `pipe[c].toggle <- 1` -/
def State.toggleOne (s : State) (c : Ch) : State :=
  s.setPipe c { s.pipeAt c with buf := { (s.pipeAt c).buf with toggle := true } }

/-- `IssuePhase` (R193 to R195). -/
def issuePhase (o i : Ch) : M Unit := do
  let s ← get
  let m := s.host.ctrlMps
  match s.host.ctrlState with
  | .SETUP => do
    upd fun s => (s.toggleOne o).toggleOne i
    let _ ← enableChannelTransfer o .OUT .CONTROL .SETUP m 8 s.scratch
    pure ()
  | .DATA_IN => do
    let _ ← enableChannelTransfer i .IN .CONTROL .DATA1 m s.host.ctrlLen.toNat s.host.ctrlBuf
    pure ()
  | .DATA_OUT => do
    let _ ← enableChannelTransfer o .OUT .CONTROL .DATA1 m s.host.ctrlLen.toNat s.host.ctrlBuf
    pure ()
  | .STATUS_IN => do
    let _ ← enableChannelTransfer i .IN .CONTROL .DATA1 m 0 s.host.ctrlBuf
    pure ()
  | .STATUS_OUT => do
    let _ ← enableChannelTransfer o .OUT .CONTROL .DATA1 m 0 s.host.ctrlBuf
    pure ()
  | .STALL | .ERROR | .COMPLETE => pure ()

/-- `host.ctrlState <- c ; host.ctrlWait <- 0` -/
def State.toPhase (s : State) (c : CtrlState) : State := { s with host.ctrlState := c, host.ctrlWait := false }

/-- A verdict is surfaced and the machine is back in SETUP for reuse (R198 to R200, C10). -/
def State.surface (s : State) (v : Verdict) : State := { s.toPhase .SETUP with host.verdict := v, host.errCnt := 0 }

/-- The row of `URB_OK` (R198). -/
def urbOk : M Unit := do
  let s ← get
  match s.host.ctrlState with
  | .SETUP => do
    let b ← memRead8 s.scratch
    upd fun s =>
      if b.getLsbD 7 = true ∧ s.host.ctrlLen ≠ 0 then s.toPhase .DATA_IN
      else if b.getLsbD 7 = false ∧ s.host.ctrlLen ≠ 0 then s.toPhase .DATA_OUT
      else if b.getLsbD 7 = true then s.toPhase .STATUS_OUT
      else s.toPhase .STATUS_IN
  | .DATA_OUT => upd fun s => s.toPhase .STATUS_IN
  | .DATA_IN => upd fun s => s.toPhase .STATUS_OUT
  | .STATUS_IN => upd fun s => s.surface .COMPLETE
  | .STATUS_OUT => upd fun s => s.surface .COMPLETE
  | .STALL | .ERROR | .COMPLETE => pure ()

/-- The row of `URB_ERROR` (R199): at most CTRL_RETRY retries. -/
def State.urbError (s : State) : State :=
  if s.host.errCnt.toNat + 1 ≤ Config.ctrlRetry then
    { s.toPhase .SETUP with host.errCnt := s.host.errCnt + 1 }
  else s.surface .ERROR

/-- The row of `URB_NOREADY` (R201). -/
def State.urbNoReady (s : State) : State :=
  if s.host.ctrlState = .DATA_OUT then { s with host.ctrlWait := false } else s

/-- The row of the transition table that the phase channel's `urbStatus` selects (R198 to R202). -/
def urbRow : UrbStatus → M Unit
  | .OK => urbOk
  | .ERROR => upd State.urbError
  | .STALL => upd fun s => s.surface .STALL
  | .NOREADY => upd State.urbNoReady
  | .IDLE => pure ()
  | .PING => pure ()

/-- The body of CTRLPOLL (R192, R207): issue the current phase, or take one row of the table. -/
def ctrlPoll : M Unit := do
  needHost
  let (o, i) ← needPair
  let s ← get
  if s.host.verdict ≠ .BUSY then pure ()
  else
    match phaseChannel o i s.host.ctrlState with
    | none => pure ()
    | some c =>
      if s.host.ctrlWait = false then do
        issuePhase o i
        upd fun s => { s with host.ctrlWait := true }
      else urbRow (s.pipeAt c).buf.urbStatus

/-- CTRLPOLL (R192): RES is the verdict. -/
def ctrlpoll : M Word := do
  ctrlPoll
  let s ← get
  pure s.host.verdict.code

def execCtrlpoll (s : State) : Host.Outcome State Fault Refusal := commandOutcome ctrlpoll s

/-- The `xferState` after a poll that left verdict `v` (R203). -/
def xferAfter (x : XferState) : Verdict → XferState
  | .BUSY => x
  | .COMPLETE => .OK
  | .STALL => .START
  | .ERROR => .START

/-- The body of CTRLREQ (R203): load the request, or poll it once; answers the verdict. -/
def ctrlReq (buf : Addr) (w0 w1 : Word) : M Verdict := do
  needHost
  let _ ← needPair
  let s ← get
  match s.host.xferState with
  | .WAITING => do
    ctrlPoll
    upd fun s => { s with host.xferState := xferAfter s.host.xferState s.host.verdict }
    look fun s => s.host.verdict
  | .START | .OK => do
    ctrlSubmit buf w0 w1
    upd fun s => { s with host.xferState := .WAITING }
    pure .BUSY

/-- CTRLREQ (R203) -/
def ctrlreq : M Word := do
  let s ← get
  let v ← ctrlReq s.port.arg1 s.port.arg2 s.port.arg3
  pure v.code

def execCtrlreq (s : State) : Host.Outcome State Fault Refusal := commandOutcome ctrlreq s

end Sys2Proof.Machine
end

