-- ==== Sys2Proof/Machine/DevCtrl.lean ====
section
/-! DEFINITION. The device endpoint-0 engine (spec R220 to R243): the reply primitives (R223), the data-stage commands
CTRLIN, CTRLOUT, CTRLSTALL, and one meaning per setup-packet row of the opcode table. The stage machine that runs them
is in Irq.lean. -/

namespace Sys2Proof.Machine

/-! ## Data-stage engine -/

/-- `CtrlStall()` (R235), without the command's RES. -/
def State.ctrlStall (s : State) : State :=
  let s := s.setEp .IN 0 { s.epAt .IN 0 with stall := true }
  let s := s.setEp .OUT 0 { s.epAt .OUT 0 with stall := true }
  { s with dev.ctrlState := .STALL, dev.zlpPending := false }

/-- `Ep0Arm(d, len, buf)` (R223): XFEREN's body from the packet-count step onward; a handler cannot be refused. -/
def ep0Arm (d : Dir) (len : Nat) (buf : Addr) : M Word := do
  let s ← get
  let (pk, n) := clampPackets len s.m0
  startTransfer (.ep d 0) d .DATA1 s.m0 n pk buf

/-- The trailing zero-length-packet condition (R237). -/
def zlpNeeded (len m0 wLength : Nat) : Bool := decide (0 < len) && decide (len % m0 = 0) && decide (len < wLength)

/-- `CtrlInData(buf, len)` (R236) -/
def ctrlInData (buf : Addr) (len : Nat) : M Word := do
  let wLength ← readLength
  upd fun s => { s with dev.ctrlState := .DATA_IN, dev.zlpPending := zlpNeeded len s.m0 wLength.toNat }
  ep0Arm .IN len buf

/-- `CtrlOutData(buf, len)` (R238) -/
def ctrlOutData (buf : Addr) (len : Nat) : M Word := do
  upd fun s => { s with dev.ctrlState := .DATA_OUT }
  ep0Arm .OUT len buf

/-- The checks of CTRLIN and CTRLOUT as commands (R236, R238). -/
def ep0Command (d : Dir) : M Unit := do
  needDevice
  let s ← get
  refuseIf ((s.epAt d 0).active = false) .NotActive
  refuseIf ((s.epAt d 0).epEna = true) .ChannelBusy
  refuseIf (wraps s.port.arg1 s.port.arg0.toNat) .AddrWrap

/-- CTRLIN (R236): len = ARG0, buf = ARG1. -/
def ctrlin : M Word := do
  ep0Command .IN
  let s ← get
  ctrlInData s.port.arg1 s.port.arg0.toNat

def execCtrlin (s : State) : Host.Outcome State Fault Refusal := commandOutcome ctrlin s

/-- CTRLOUT (R238): len = ARG0, buf = ARG1. -/
def ctrlout : M Word := do
  ep0Command .OUT
  let s ← get
  ctrlOutData s.port.arg1 s.port.arg0.toNat

def execCtrlout (s : State) : Host.Outcome State Fault Refusal := commandOutcome ctrlout s

/-- CTRLSTALL (R235) -/
def ctrlstall : M Word := do
  needDevice
  upd State.ctrlStall
  pure 0

def execCtrlstall (s : State) : Host.Outcome State Fault Refusal := commandOutcome ctrlstall s

/-! ## Reply primitives (R223) -/

/-- `CtrlStall()` inside a request. -/
def stallRequest : M Unit := upd State.ctrlStall

/-- `SendStatus()`: the zero-length IN status stage. -/
def sendStatus : M Unit := do
  upd fun s => { s with dev.ctrlState := .STATUS_IN }
  let s ← get
  let _ ← ep0Arm .IN 0 s.stage
  pure ()

/-- The zero-length OUT status stage. -/
def awaitStatus : M Unit := do
  upd fun s => { s with dev.ctrlState := .STATUS_OUT }
  let s ← get
  let _ ← ep0Arm .OUT 0 s.stage
  pure ()

/-- `SendData(addr, len)`: clamped to what the host asked for. -/
def sendData (addr : Addr) (len : Nat) : M Unit := do
  let wLength ← readLength
  if wLength = 0 then awaitStatus
  else do
    let _ ← ctrlInData addr (min len wLength.toNat)
    pure ()

/-- `ReceiveData(addr, len)` -/
def receiveData (addr : Addr) (len : Nat) : M Unit := do
  let wLength ← readLength
  let _ ← ctrlOutData addr (min len wLength.toNat)
  pure ()

/-! ## Standard requests. A recipient that is not in the request's row of R222 stalls. -/

/-- GET_STATUS (R224) -/
def getStatus (recipient : BitVec 5) : M Unit := do
  let s ← get
  if recipient = 0 then do
    memWrite16 s.stage (bitWord s.dev.selfPowered ||| bitWord s.dev.remoteWakeup <<< 1)
    sendData s.stage 2
  else if recipient = 2 then do
    let w ← readIndex
    if h : (idxEp w).toNat < 8 then do
      memWrite16 s.stage (bitWord (s.epAt (idxDir w) ⟨(idxEp w).toNat, h⟩).stall)
      sendData s.stage 2
    else stallRequest
  else stallRequest

def execGetStatus (_dir : Dir) (recipient : BitVec 5) (s : State) : Host.Outcome State Fault Refusal :=
  handlerOutcome (getStatus recipient) s

/-- What SET_FEATURE and CLEAR_FEATURE share (R225, R226): the remote-wakeup branch, and the endpoint-halt branch under
its guard "only while *unconfigured*" (C9, U7); endpoint 0 is acknowledged without a change. -/
def featureRequest (recipient : BitVec 5) (wake : Bool) (onEp : State → Dir → EpIx → State) : M Unit := do
  let v ← readValue
  if recipient = 0 ∧ v = 1 then do
    upd fun s => { s with dev.remoteWakeup := wake }
    sendStatus
  else if recipient = 2 ∧ v = 0 then do
    let s ← get
    if s.dev.curConfiguration ≠ 0 then stallRequest
    else do
      let w ← readIndex
      if h : (idxEp w).toNat < 8 then do
        upd fun s => if (idxEp w) ≠ 0 then onEp s (idxDir w) ⟨(idxEp w).toNat, h⟩ else s
        sendStatus
      else stallRequest
  else stallRequest

/-- CLEAR_FEATURE (R225) -/
def execClearFeature (_dir : Dir) (recipient : BitVec 5) (s : State) : Host.Outcome State Fault Refusal :=
  handlerOutcome (featureRequest recipient false State.clearStallEp) s

/-- SET_FEATURE (R226) -/
def execSetFeature (_dir : Dir) (recipient : BitVec 5) (s : State) : Host.Outcome State Fault Refusal :=
  handlerOutcome (featureRequest recipient true State.stallEp) s

/-- SET_ADDRESS (R227) -/
def setAddress (recipient : BitVec 5) : M Unit := do
  if recipient = 0 then do
    let s ← get
    if s.dev.devState = .CONFIGURED then stallRequest
    else do
      let v ← readValue
      if 127 < v.toNat then stallRequest
      else do
        upd fun s => { s with
          dev.addr := v.extractLsb' 0 7
          dev.devState := if v.extractLsb' 0 7 ≠ 0 then .ADDRESS else .DEFAULT }
        sendStatus
  else stallRequest

def execSetAddress (_dir : Dir) (recipient : BitVec 5) (s : State) : Host.Outcome State Fault Refusal :=
  handlerOutcome (setAddress recipient) s

/-- The table a descriptor type and index select, or none (R228; type codes R115). -/
def descriptorTable (p : Params) (type index : Nat) : Option Table :=
  if type = 1 then some p.tblDevice
  else if type = 2 then some p.tblConfiguration
  else if type = 3 then p.tblStrings[index]?
  else if type = 6 then (if p.tblQualifier.len = 0 then none else some p.tblQualifier)
  else none

/-- GET_DESCRIPTOR (R228) -/
def getDescriptor (recipient : BitVec 5) : M Unit := do
  if recipient = 0 then do
    let s ← get
    let v ← readValue
    match descriptorTable s.env.par (v.extractLsb' 8 8).toNat (v.extractLsb' 0 8).toNat with
    | some t => sendData t.addr t.len
    | none => stallRequest
  else stallRequest

def execGetDescriptor (_dir : Dir) (recipient : BitVec 5) (s : State) : Host.Outcome State Fault Refusal :=
  handlerOutcome (getDescriptor recipient) s

/-- `ApplyHook(r)` (R241): an answer that contradicts the request's direction stalls. `NoData` for an IN request with
wLength = 0 sends the IN status stage, as the pseudocode of R241 says; R242 lists STATUS_OUT for such a request
(DEDUCED, entry 35). -/
def applyHook (dir : Dir) (r : HookResult) : M Unit := do
  let wLength ← readLength
  match r with
  | .Stall => stallRequest
  | .NoData => if wLength = 0 ∨ dir = .OUT then sendStatus else stallRequest
  | .DataIn addr len => if dir = .IN then sendData addr len else stallRequest
  | .DataOut addr len => if dir = .OUT ∧ wLength ≠ 0 then receiveData addr len else stallRequest

/-- SET_DESCRIPTOR (R229): "always stalls unless a user hook handles it". -/
def setDescriptor (dir : Dir) (recipient : BitVec 5) : M Unit := do
  if recipient = 0 then do
    let s ← get
    if s.env.par.setDescriptorHook = true then do
      let req ← readRequest
      let r ← askHook (.setDescriptor req)
      applyHook dir r
    else stallRequest
  else stallRequest

def execSetDescriptor (dir : Dir) (recipient : BitVec 5) (s : State) : Host.Outcome State Fault Refusal :=
  handlerOutcome (setDescriptor dir recipient) s

/-- GET_CONFIGURATION (R230) -/
def getConfiguration (recipient : BitVec 5) : M Unit := do
  if recipient = 0 then do
    let s ← get
    memWrite8 s.stage s.dev.curConfiguration
    sendData s.stage 1
  else stallRequest

def execGetConfiguration (_dir : Dir) (recipient : BitVec 5) (s : State) : Host.Outcome State Fault Refusal :=
  handlerOutcome (getConfiguration recipient) s

/-- SET_CONFIGURATION (R231) -/
def setConfiguration (recipient : BitVec 5) : M Unit := do
  if recipient = 0 then do
    let w ← readValue
    let v := w.extractLsb' 0 8
    let s ← get
    match s.dev.devState with
    | .DEFAULT => stallRequest
    | .ADDRESS => do
      if v ≠ 0 then do
        upd fun s => { s with dev.curConfiguration := v, dev.devState := .CONFIGURED }
        emit (.classInit v)
      else pure ()
      sendStatus
    | .CONFIGURED => do
      if v = 0 then do
        emit (.classDeInit s.dev.curConfiguration)
        upd fun s => { s with dev.curConfiguration := 0, dev.devState := .ADDRESS }
      else if v ≠ s.dev.curConfiguration then do
        emit (.classDeInit s.dev.curConfiguration)
        upd fun s => { s with dev.curConfiguration := v }
        emit (.classInit v)
      else pure ()
      sendStatus
  else stallRequest

def execSetConfiguration (_dir : Dir) (recipient : BitVec 5) (s : State) : Host.Outcome State Fault Refusal :=
  handlerOutcome (setConfiguration recipient) s

/-- GET_INTERFACE (R232) -/
def getInterface (recipient : BitVec 5) : M Unit := do
  if recipient = 1 then do
    let s ← get
    memWrite8 s.stage s.dev.curAltSetting
    sendData s.stage 1
  else stallRequest

def execGetInterface (_dir : Dir) (recipient : BitVec 5) (s : State) : Host.Outcome State Fault Refusal :=
  handlerOutcome (getInterface recipient) s

/-- SET_INTERFACE (R233) -/
def setInterface (recipient : BitVec 5) : M Unit := do
  if recipient = 1 then do
    let w ← readIndex
    let v ← readValue
    upd fun s => { s with dev.curInterface := w.extractLsb' 0 8, dev.curAltSetting := v.extractLsb' 0 8 }
    sendStatus
  else stallRequest

def execSetInterface (_dir : Dir) (recipient : BitVec 5) (s : State) : Host.Outcome State Fault Refusal :=
  handlerOutcome (setInterface recipient) s

/-! ## Class, vendor and reserved requests -/

/-- A class request goes to the hook (R221, R241). -/
def classRequest (dir : Dir) : M Unit := do
  let req ← readRequest
  let r ← askHook (.classRequest req)
  applyHook dir r

def execClassRequest (_bRequest : BitVec 8) (dir : Dir) (_recipient : BitVec 5) (s : State) :
    Host.Outcome State Fault Refusal := handlerOutcome (classRequest dir) s

/-- A vendor request goes to the hook (R221, R241). -/
def vendorRequest (dir : Dir) : M Unit := do
  let req ← readRequest
  let r ← askHook (.vendorRequest req)
  applyHook dir r

def execVendorRequest (_bRequest : BitVec 8) (dir : Dir) (_recipient : BitVec 5) (s : State) :
    Host.Outcome State Fault Refusal := handlerOutcome (vendorRequest dir) s

/-- A request of reserved type stalls (R221). -/
def execReservedTypeRequest (_bRequest : BitVec 8) (_dir : Dir) (_recipient : BitVec 5) (s : State) :
    Host.Outcome State Fault Refusal := handlerOutcome stallRequest s

end Sys2Proof.Machine
end

