-- ==== Sys2Proof/Machine/HostEnum.lean ====
section
/-! DEFINITION. Host enumeration (spec R270 to R284): ENUMPOLL, and the configuration parser (R285 to R287): CFGPARSE. -/

namespace Sys2Proof.Machine

/-! ## The configuration parser (R285) -/

/-- A byte of the buffer, addresses modulo 2^32. -/
def bufByte (buf : Addr) (p : Nat) : M Byte := memRead8 (buf + BitVec.ofNat 32 p)

/-- The bytes `buf+p .. buf+p+min(bl, n)-1`, zero-filled to n bytes. -/
def State.rawBytes (s : State) (n : Nat) (buf : Addr) (p bl : Nat) : Vector Byte n :=
  .ofFn fun k => if k.val < bl then s.byte (buf + BitVec.ofNat 32 (p + k.val)) else 0

/-- The reads of the bytes `buf+p .. buf+p+n-1`, in ascending order, as the history records them (R85). -/
def State.loggedBytes (s : State) (buf : Addr) (p : Nat) : Nat → State
  | 0 => s
  | n + 1 =>
    (s.loggedBytes buf p n).logged (.memRead (buf + BitVec.ofNat 32 (p + n)) 1
      ((s.byte (buf + BitVec.ofNat 32 (p + n))).setWidth 32))

/-- Read the bytes of a descriptor into a slot of `n` bytes. -/
def readRaw (n : Nat) (buf : Addr) (p bl : Nat) : M (Vector Byte n) := fun s =>
  .ok (s.rawBytes n buf p bl) (s.loggedBytes buf p (min bl n))

/-- `host.itf[j].raw`, with no endpoint yet, in the next slot. -/
def State.addInterface (s : State) (j : Fin 2) (raw : Vector Byte 9) : State :=
  { s with
    host.itf := s.host.itf.set j { s.host.itf[j] with raw := raw, epCount := 0 }
    host.itfCount := s.host.itfCount + 1 }

/-- `host.itf[j].ep[k]`, counted. -/
def State.addEndpoint (s : State) (j k : Fin 2) (raw : Vector Byte 7) : State :=
  { s with
    host.itf := s.host.itf.set j { s.host.itf[j] with
      ep := s.host.itf[j].ep.set k raw, epCount := s.host.itf[j].epCount + 1 } }

/-- Keep an interface descriptor while slots remain (R285); the answer is `cur`, the slot kept. -/
def keepInterface (buf : Addr) (p bl : Nat) : M (Option (Fin 2)) := do
  let s ← get
  if h : s.host.itfCount.toNat < 2 then do
    let raw ← readRaw 9 buf p bl
    upd fun s => s.addInterface ⟨_, h⟩ raw
    pure (some ⟨_, h⟩)
  else pure none

/-- Keep an endpoint descriptor in the latest interface kept while slots remain (R285). -/
def keepEndpoint (cur : Option (Fin 2)) (buf : Addr) (p bl : Nat) : M Unit := do
  let s ← get
  match cur with
  | none => pure ()
  | some j =>
    if h : s.host.itf[j].epCount.toNat < 2 then do
      let raw ← readRaw 7 buf p bl
      upd fun s => s.addEndpoint j ⟨_, h⟩ raw
    else pure ()

/-- The walk of R285 from offset `p`, with `fuel` descriptors at most; each descriptor advances at least one byte. -/
def walk (buf : Addr) (stop : Nat) : (fuel : Nat) → (p : Nat) → (cur : Option (Fin 2)) → M Unit
  | 0, _, _ => pure ()
  | fuel + 1, p, cur =>
    if stop < p + 2 then pure ()
    else do
      let bl ← bufByte buf p
      let ty ← bufByte buf (p + 1)
      if bl = 0 then stuck
      else if stop < p + bl.toNat then pure ()
      else if ty = 4 then do
        let cur' ← keepInterface buf p bl.toNat
        walk buf stop fuel (p + bl.toNat) cur'
      else if ty = 5 then do
        keepEndpoint cur buf p bl.toNat
        walk buf stop fuel (p + bl.toNat) cur
      else walk buf stop fuel (p + bl.toNat) cur

/-- `CfgParse(buf, len)` (R285), as CFGPARSE and ENUMPOLL (R276) run it. -/
def cfgParse (buf : Addr) (len : Nat) : M Unit := do
  needHost
  refuseIf (wraps buf len) .AddrWrap
  upd fun s => { s with host.itfCount := 0, host.itf := s.host.itf.map fun t => { t with epCount := 0 } }
  if len < 4 then pure ()
  else do
    let total ← memRead16 (buf + 2)
    walk buf (min total.toNat len) (min total.toNat len) 0 none

/-- CFGPARSE (R285): len = ARG0, buf = ARG1; RES is `host.itfCount`. -/
def cfgparse : M Word := do
  let s ← get
  cfgParse s.port.arg1 s.port.arg0.toNat
  let s ← get
  pure (s.host.itfCount.setWidth 32)

def execCfgparse (s : State) : Host.Outcome State Fault Refusal := commandOutcome cfgparse s

/-! ## The sequencer (R270) -/

/-- `host.enumState <- e` -/
def toEnum (e : EnumState) : M Unit := upd fun s => { s with host.enumState := e }

/-- `Step(setup, buf, done)` (R270): anything but COMPLETE leaves the state (R283). -/
def enumStep (w0 w1 : Word) (buf : Addr) (done : M Unit) : M Unit := do
  let v ← ctrlReq buf w0 w1
  if v = .COMPLETE then done else pure ()

/-- A setup packet in wire order as the two words of CTRLSUBMIT (R101, R112). -/
def setup0 (bmRequestType bRequest vLo vHi : Byte) : Word := wordOfBytes bmRequestType bRequest vLo vHi
def setup1 (iLo iHi lLo lHi : Byte) : Word := wordOfBytes iLo iHi lLo lHi

/-- `StrStep(index, buf, next)` (R277): language id P_LANGID, length P_STR_REQ_LEN. -/
def strStep (index : Byte) (buf : Addr) (next : EnumState) : M Unit :=
  enumStep (setup0 0x80 0x06 index 0x03)
    (setup1 (Config.langId.extractLsb' 0 8) (Config.langId.extractLsb' 8 8) (Config.strReqLen.extractLsb' 0 8)
      (Config.strReqLen.extractLsb' 8 8)) buf (toEnum next)

/-- State IDLE (R271): start when the port is enabled. -/
def enumStart : M Unit := do
  let s ← get
  if s.host.portEnabled = false then pure ()
  else do
    let r ← ctrlOpen (ctrlMpsInit s.host.speed) 0
    refuseIf (r = none) .NoChannel
    upd fun s => { s with host.devAddr := 0, host.itfCount := 0, host.enumState := .GET_DEV_DESC8 }

/-- After the 8-byte device descriptor (R272): learn the packet size. -/
def learnMps : M Unit := do
  let s ← get
  let m ← memRead8 (s.devDesc + 7)
  if m = 0 then pure ()
  else do
    let _ ← ctrlOpen (m.setWidth 11) 0
    pure ()
  toEnum .SET_ADDR

/-- After SetAddress (R273): both control channels address the device. -/
def addressed : M Unit := do
  upd fun s => { s with host.devAddr := Config.hostDevAddr }
  let s ← get
  let _ ← ctrlOpen s.host.ctrlMps s.host.devAddr
  toEnum .GET_DEV_DESC

/-- State GET_CFG_DESC (R276): fetch min(wTotalLength, P_CFG_BUF) bytes and parse them. -/
def fetchConfiguration : M Unit := do
  let s ← get
  let total ← memRead16 (s.cfgDesc + 2)
  let n := min total.toNat Config.cfgBuf
  let len := BitVec.ofNat 16 n
  enumStep (setup0 0x80 0x06 0x00 0x02) (setup1 0x00 0x00 (len.extractLsb' 0 8) (len.extractLsb' 8 8)) s.cfgDesc do
    cfgParse s.cfgDesc n
    toEnum .GET_MFC_STR

/-- One step of the enumeration machine (R270). -/
def enumPoll : M Unit := do
  needHost
  let s ← get
  match s.host.enumState with
  | .IDLE => enumStart
  | .GET_DEV_DESC8 => enumStep (setup0 0x80 0x06 0x00 0x01) (setup1 0x00 0x00 0x08 0x00) s.devDesc learnMps
  | .SET_ADDR =>
    enumStep (setup0 0x00 0x05 (Config.hostDevAddr.setWidth 8) 0x00) (setup1 0x00 0x00 0x00 0x00) s.devDesc addressed
  | .GET_DEV_DESC =>
    enumStep (setup0 0x80 0x06 0x00 0x01) (setup1 0x00 0x00 0x12 0x00) s.devDesc (toEnum .GET_CFG_DESC9)
  | .GET_CFG_DESC9 =>
    enumStep (setup0 0x80 0x06 0x00 0x02) (setup1 0x00 0x00 0x09 0x00) s.cfgDesc (toEnum .GET_CFG_DESC)
  | .GET_CFG_DESC => fetchConfiguration
  | .GET_MFC_STR => do
    let i ← memRead8 (s.devDesc + 14)
    strStep i (s.strDesc 0) .GET_PROD_STR
  | .GET_PROD_STR => do
    let i ← memRead8 (s.devDesc + 15)
    strStep i (s.strDesc 1) .GET_SER_STR
  | .GET_SER_STR => do
    let i ← memRead8 (s.devDesc + 16)
    if i = 0 then toEnum .SET_CFG else strStep i (s.strDesc 2) .SET_CFG
  | .SET_CFG => do
    let v ← memRead8 (s.cfgDesc + 5)
    enumStep (setup0 0x00 0x09 v 0x00) (setup1 0x00 0x00 0x00 0x00) s.devDesc do
      toEnum .CONFIGURED
      emit .enumDone
  | .CONFIGURED => pure ()

/-- ENUMPOLL (R270): RES is `host.enumState` after the step. -/
def enumpoll : M Word := do
  enumPoll
  let s ← get
  pure s.host.enumState.code

def execEnumpoll (s : State) : Host.Outcome State Fault Refusal := commandOutcome enumpoll s

end Sys2Proof.Machine
end

