-- ==== Sys2Proof/Machine/Dispatch.lean ====
section
/-! DEFINITION. The dispatch of an instruction to its meaning: one arm per row of spec/opcode_table.json. -/

namespace Sys2Proof.Machine

def exec (i : Instr) (s : State) : Host.Outcome State Fault Refusal :=
  match i with
  | .init => Sys2Proof.Machine.execInit s
  | .portreset => Sys2Proof.Machine.execPortreset s
  | .rdpkt => Sys2Proof.Machine.execRdpkt s
  | .wrpkt num => Sys2Proof.Machine.execWrpkt num s
  | .chopen num dir type epn mps => Sys2Proof.Machine.execChopen num dir type epn mps s
  | .epact num dir type mps => Sys2Proof.Machine.execEpact num dir type mps s
  | .chhalt num => Sys2Proof.Machine.execChhalt num s
  | .xferen num dir type pid mps => Sys2Proof.Machine.execXferen num dir type pid mps s
  | .chena num => Sys2Proof.Machine.execChena num s
  | .epstall num dir => Sys2Proof.Machine.execEpstall num dir s
  | .epclrstall num dir => Sys2Proof.Machine.execEpclrstall num dir s
  | .challoc => Sys2Proof.Machine.execChalloc s
  | .chfree num => Sys2Proof.Machine.execChfree num s
  | .pipeget num dir => Sys2Proof.Machine.execPipeget num dir s
  | .ctrlopen mps => Sys2Proof.Machine.execCtrlopen mps s
  | .ctrlsubmit => Sys2Proof.Machine.execCtrlsubmit s
  | .ctrlpoll => Sys2Proof.Machine.execCtrlpoll s
  | .ctrlreq => Sys2Proof.Machine.execCtrlreq s
  | .ctrlin => Sys2Proof.Machine.execCtrlin s
  | .ctrlout => Sys2Proof.Machine.execCtrlout s
  | .ctrlstall => Sys2Proof.Machine.execCtrlstall s
  | .enumpoll => Sys2Proof.Machine.execEnumpoll s
  | .cfgparse => Sys2Proof.Machine.execCfgparse s
  | .getStatus dir recipient => Sys2Proof.Machine.execGetStatus dir recipient s
  | .clearFeature dir recipient => Sys2Proof.Machine.execClearFeature dir recipient s
  | .setFeature dir recipient => Sys2Proof.Machine.execSetFeature dir recipient s
  | .setAddress dir recipient => Sys2Proof.Machine.execSetAddress dir recipient s
  | .getDescriptor dir recipient => Sys2Proof.Machine.execGetDescriptor dir recipient s
  | .setDescriptor dir recipient => Sys2Proof.Machine.execSetDescriptor dir recipient s
  | .getConfiguration dir recipient => Sys2Proof.Machine.execGetConfiguration dir recipient s
  | .setConfiguration dir recipient => Sys2Proof.Machine.execSetConfiguration dir recipient s
  | .getInterface dir recipient => Sys2Proof.Machine.execGetInterface dir recipient s
  | .setInterface dir recipient => Sys2Proof.Machine.execSetInterface dir recipient s
  | .classRequest bRequest dir recipient => Sys2Proof.Machine.execClassRequest bRequest dir recipient s
  | .vendorRequest bRequest dir recipient => Sys2Proof.Machine.execVendorRequest bRequest dir recipient s
  | .reservedTypeRequest bRequest dir recipient => Sys2Proof.Machine.execReservedTypeRequest bRequest dir recipient s

end Sys2Proof.Machine
end

