-- ==== Sys2Proof/Machine/Irq.lean ====
section
/-! DEFINITION. The IRQ agent: the dispatcher pass (spec R300, R301) and its sub-handlers (R310 to R359), and the stage
machine of the device's endpoint 0 (R220, R221, R239, R240). A fault inside a handler ends the pass (R370, R315). -/

namespace Sys2Proof.Machine

/-- Run `f` on each member in turn. -/
def forEach {α : Type} : List α → (α → M Unit) → M Unit
  | [], _ => pure ()
  | a :: l, f => do
    f a
    forEach l f

/-! ## RxFIFO-non-empty (R310 to R315) -/

/-- The copy of a received packet into a registered buffer (R311, R313). -/
def receivePacket (t : Tgt) (bcnt : Nat) : M Unit := do
  let b ← look fun s => s.bufAt t
  raiseIf (b.bufLen.toNat < bcnt) .RxOverrun
  readPacket b.bufPtr bcnt
  upd fun s =>
    let b := (s.bufAt t).advance bcnt
    s.setBuf t { b with pktCnt := decSat b.pktCnt }

/-- Device OUT_DATA (R311). -/
def receiveOut (num : BitVec 4) (bcnt : Nat) : M Unit :=
  if h : num.toNat < 8 then receivePacket (.ep .OUT ⟨num.toNat, h⟩) bcnt else raise .RxBadStatus

/-- Device SETUP_DATA (R312). -/
def receiveSetup (bcnt : Nat) : M Unit := do
  raiseIf (bcnt ≠ 8) .RxBadStatus
  let s ← get
  readPacket s.scratch 8

/-- Host IN_DATA (R313): re-arm when more packets are expected and no halt is under way. -/
def receiveIn (num : BitVec 4) (bcnt : Nat) : M Unit :=
  if h : num.toNat < 12 then do
    let c : Ch := ⟨num.toNat, h⟩
    receivePacket (.ch c) bcnt
    upd fun s => if (s.pipeAt c).buf.pktCnt ≠ 0 ∧ s.runState c ≠ .HALTING then s.enableChannel c else s
  else raise .RxBadStatus

/-- The effect of a status word, by mode and packet type (R111, R311 to R314). -/
def receiveEntry (st : Word) : M Unit := do
  let s ← get
  match s.mode with
  | .DEVICE =>
    if stPktsts st = 2 then receiveOut (stNum st) (stBcnt st).toNat
    else if stPktsts st = 6 then receiveSetup (stBcnt st).toNat
    else pure ()
  | .HOST => if stPktsts st = 2 then receiveIn (stNum st) (stBcnt st).toNat else pure ()

/-- The RXFLVL handler (R310, R315). -/
def rxflvlHandler : M Unit := do
  upd fun s => s.setGmask .RXFLVL false
  let st ← rxPop
  receiveEntry st
  upd fun s => s.setGmask .RXFLVL true

/-! ## TxFIFO-empty (R320, R357) -/

/-- `Drain` (R320), the loop condition taken literally; each packet takes at least one byte (entry 15). -/
def drainLoop (t : Tgt) (mps : Nat) : (fuel : Nat) → M Unit
  | 0 => pure ()
  | fuel + 1 => do
    let s ← get
    let b := s.bufAt t
    if b.bufLen ≠ 0 ∧ wordsOf b.bufLen.toNat < s.txSpace (s.classOf t.num) then do
      sendPacket t (min b.bufLen.toNat mps)
      drainLoop t mps fuel
    else pure ()

def drain (t : Tgt) (mps : Nat) : M Unit := do
  let b ← look fun s => s.bufAt t
  drainLoop t mps b.bufLen.toNat

/-- A transmit channel of class `k` with bytes pending (R320). -/
def State.waiting (s : State) (k : TxClass) (c : Ch) : Bool :=
  s.classOf c == k && (s.hcAt c).dir == .OUT && s.runState c == .ACTIVE && (s.pipeAt c).buf.bufLen != 0

/-- `TxfeHandler(k)` (R320), whose interrupt is `f`. -/
def txfeHandler (k : TxClass) (f : GFlag) : M Unit := do
  let s ← get
  match allCh.find? (s.waiting k) with
  | some c => drain (.ch c) (s.hcAt c).mps.toNat
  | none => pure ()
  upd fun s => if allCh.any (s.waiting k) then s else s.setGmask f false

/-! ## Channel interrupt (R321 to R336) -/

/-- The priority of the channel flags (R321). -/
def chPriority : List ChFlag := [.AHBERR, .ACK, .STALL, .DTERR, .FRMOR, .XFRC, .CHH, .XACTERR, .NAK, .BBLERR, .NYET]

/-- The first flag of the priority list in a pending set. -/
def firstFlag (p : BitVec 11) : Option ChFlag := chPriority.find? fun f => p.getLsbD f.bit

/-- `pipe[i].pipeState <- x` -/
def State.setPipeState (s : State) (i : Ch) (x : PipeState) : State :=
  s.setPipe i { s.pipeAt i with buf := { (s.pipeAt i).buf with pipeState := x } }

/-- Record a pipe state and halt the channel (R324, R325, R327 to R330). -/
def State.recordHalt (s : State) (i : Ch) (x : PipeState) : State := (s.setPipeState i x).halt i

/-- NAK and NYET (R333, R335): re-enable control and bulk channels, halt interrupt channels. -/
def State.backOff (s : State) (i : Ch) (x : PipeState) : State :=
  match (s.hcAt i).epType with
  | .CONTROL => if s.runState i ≠ .HALTING then s.enableChannel i else s
  | .BULK => if s.runState i ≠ .HALTING then s.enableChannel i else s
  | .INTERRUPT => s.recordHalt i x
  | .ISOCHRONOUS => s

/-- The toggle after a successful transfer (R326, C2): the parity of the packets moved. -/
def Pipe.flipped (p : Pipe) : Bool :=
  let flip := decide (pktCount p.buf.xferCount.toNat p.mps.toNat % 2 = 1)
  match p.epType with
  | .BULK => p.buf.toggle ^^ flip
  | .INTERRUPT => p.buf.toggle ^^ flip
  | .CONTROL => p.buf.toggle
  | .ISOCHRONOUS => p.buf.toggle

/-- The pipe record after CHH (R326). -/
def Pipe.converge (p : Pipe) : Pipe :=
  match p.buf.pipeState with
  | .OK => { p with buf := { p.buf with urbStatus := .OK, toggle := p.flipped, pipeState := .HALTED } }
  | .STALL => { p with buf := { p.buf with urbStatus := .STALL, pipeState := .HALTED } }
  | .XACTERR => { p with buf := { p.buf with urbStatus := .ERROR, pipeState := .HALTED } }
  | .BBLERR => { p with buf := { p.buf with urbStatus := .ERROR, pipeState := .HALTED } }
  | .DATATGLERR => { p with buf := { p.buf with urbStatus := .ERROR, pipeState := .HALTED } }
  | .NAK => { p with buf := { p.buf with urbStatus := .NOREADY, pipeState := .HALTED } }
  | .NYET => { p with buf := { p.buf with urbStatus := .NOREADY, pipeState := .HALTED } }
  | .HALTED => { p with buf := { p.buf with pipeState := .HALTED } }

/-- What one channel flag does, after its bit is cleared (R322 to R335). -/
def State.serveChFlag (s : State) (i : Ch) : ChFlag → State
  | .AHBERR => s
  | .ACK => s
  | .STALL => s.recordHalt i .STALL
  | .DTERR => s.recordHalt i .DATATGLERR
  | .FRMOR => s.recordHalt i .XACTERR
  | .XFRC => s.recordHalt i .OK
  | .CHH => s.setPipe i (s.pipeAt i).converge
  | .XACTERR => s.recordHalt i .XACTERR
  | .NAK => s.backOff i .NAK
  | .BBLERR => s.recordHalt i .BBLERR
  | .NYET => s.backOff i .NYET

/-- One channel of the HCINT handler: exactly one flag per pass (R321). -/
def State.serveChannel (s : State) (i : Ch) : State :=
  if s.haintmsk.getLsbD i.val then
    match firstFlag (s.hcAt i).pending with
    | some f => ((s.clearChFlag i f).serveChFlag i f).logged (.channel i f)
    | none => s
  else s

/-- The HCINT handler (R321). -/
def hcintHandler : M Unit := forEach allCh fun i => upd fun s => s.serveChannel i

/-! ## Port, disconnect, start of frame (R340 to R347) -/

/-- The connect branch of HPRTINT (R340). -/
def portConnect : M Unit := do
  upd fun s => { s with hprt.pcdet := false, host.connected := true }
  emit .deviceAttached

/-- The port-enable branch of HPRTINT (R340). -/
def portEnabled : M Unit := do
  upd fun s => { s with host.speed := s.hprt.pspd, frameInterval := frivlOf s.env.par s.hprt.pspd }
  let s ← get
  if s.hostClkSel ≠ clkSel s.host.speed then do
    upd fun s => { s with hostClkSel := clkSel s.host.speed }
    portReset
  else pure ()
  upd fun s => { s.setGmask .DISCINT true with host.portEnabled := true }
  emit (.deviceSpeedDetected s.host.speed)

/-- The HPRTINT handler (R340). -/
def hprtHandler : M Unit := do
  let s ← get
  if s.hprt.pcdet then portConnect else pure ()
  let s ← get
  if s.hprt.penchng then do
    upd fun s => { s with hprt.penchng := false }
    if s.hprt.pena then portEnabled else upd fun s => { s with host.portEnabled := false }
  else pure ()

/-- The register writes of the disconnect handler (R345). -/
def State.detached (s : State) : State :=
  { s.resetPipes with
    lat.discint := false
    gintmsk := 0
    haintmsk := 0
    hc := s.hc.map fun c => { c with intMsk := 0, chEna := false, chDis := false }
    fifo.txq := .replicate 12 []
    fifo.qFlushNP := false
    fifo.qFlushP := false
    host.connected := false
    host.portEnabled := false
    host.enumState := .IDLE
    host.itfCount := 0 }

/-- The DISCINT handler (R345). -/
def discHandler : M Unit := do
  upd State.detached
  emit .deviceDetached

/-! ## Device events (R350, R353, R358, R359) -/

/-- The register writes of the USBRST handler (R350); `selfPowered` and `speed` are kept. -/
def State.busReset (s : State) : State :=
  let s := { s.resetEndpoints with
    lat.usbrst := false
    dev.addr := 0
    dev.curConfiguration := 0
    dev.devState := .DEFAULT
    dev.curInterface := 0
    dev.curAltSetting := 0
    dev.remoteWakeup := false
    dev.ctrlState := .SETUP
    dev.zlpPending := false }
  (s.activateEp 0 .CONTROL (BitVec.ofNat 11 Config.devEp0Mps) .OUT).activateEp 0 .CONTROL
    (BitVec.ofNat 11 Config.devEp0Mps) .IN

/-- The USBRST handler (R350). -/
def usbrstHandler : M Unit := do
  upd State.busReset
  emit .reset

/-! ## The endpoint-0 stage machine (R220, R221, R239, R240) -/

/-- What `SetupStage()` clears before it decodes (R221). -/
def State.beginSetup (s : State) : State :=
  let s := s.setEp .IN 0 { s.epAt .IN 0 with stall := false, epEna := false, mAux := false }
  let s := s.setEp .OUT 0 { s.epAt .OUT 0 with stall := false, epEna := false }
  let s := s.setTxq 0 []
  { s with dev.zlpPending := false, dev.ctrlState := .SETUP }

/-- Run the request that the setup packet holds: `exec` of the decoded instruction, or a stall where the code is of no
row (R114, R234). `exec` of a request answers a next state (`exec_next` in Laws/Exec.lean). -/
def runRequest (code : BitVec 16) : M Unit := fun s =>
  match decodeSetup code with
  | .error _ => .ok () s.ctrlStall
  | .ok i =>
    match exec i s with
    | .next t => .ok () t
    | .fault _ => .ok () s
    | .refused _ => .ok () s

/-- `SetupStage()` (R221) -/
def setupStage : M Unit := do
  upd State.beginSetup
  let code ← readCode
  runRequest code

/-- `DataInStage()` (R239) -/
def dataInStage : M Unit := do
  let s ← get
  match s.dev.ctrlState with
  | .DATA_IN =>
    if s.dev.zlpPending then do
      upd fun s => { s with dev.zlpPending := false }
      let _ ← ep0Arm .IN 0 s.stage
      pure ()
    else awaitStatus
  | .STATUS_IN => upd fun s => { s with dev.ctrlState := .SETUP }
  | .SETUP | .DATA_OUT | .STATUS_OUT | .STALL | .ERROR | .COMPLETE => pure ()

/-- `DataOutStage()` (R240) -/
def dataOutStage : M Unit := do
  let s ← get
  match s.dev.ctrlState with
  | .DATA_OUT => do
    let req ← readRequest
    let a ← askAck (.ctrlOutDone req)
    if a then sendStatus else stallRequest
  | .STATUS_OUT => upd fun s => { s with dev.ctrlState := .SETUP }
  | .SETUP | .DATA_IN | .STATUS_IN | .STALL | .ERROR | .COMPLETE => pure ()

/-! ## Endpoint interrupts (R351, R352, R355 to R357) -/

/-- Transfer complete on an OUT endpoint (R352). -/
def outComplete (n : EpIx) : M Unit := if n = 0 then dataOutStage else emit (.classCore .OUT n)
/-- Transfer complete on an IN endpoint (R356). -/
def inComplete (n : EpIx) : M Unit := if n = 0 then dataInStage else emit (.classCore .IN n)

/-- One OUT endpoint of the OEPINT handler: XFRC before STUP (R351). -/
def serveOut (n : EpIx) : M Unit := do
  let s ← get
  if s.dep.daintmskOut.getLsbD n.val then do
    if (s.epAt .OUT n).xfrc && (s.epAt .OUT n).mXfrc then do
      upd fun s => s.setEp .OUT n { s.epAt .OUT n with xfrc := false }
      outComplete n
    else pure ()
    let s ← get
    if (s.epAt .OUT n).stup && (s.epAt .OUT n).mAux then do
      upd fun s => s.setEp .OUT n { s.epAt .OUT n with stup := false }
      if n = 0 then setupStage else pure ()
    else pure ()
  else pure ()

/-- The OEPINT handler (R351). -/
def oepHandler : M Unit := forEach allEp serveOut

/-- Endpoint TXFE (R357). -/
def epTxfeHandler (n : EpIx) : M Unit := do
  let s ← get
  if (s.epAt .IN n).epEna = true ∧ (s.epbAt .IN n).bufLen ≠ 0 then drain (.ep .IN n) (s.epMps .IN n).toNat else pure ()
  upd fun s =>
    if (s.epAt .IN n).epEna = false ∨ (s.epbAt .IN n).bufLen = 0 then
      s.setEp .IN n { s.epAt .IN n with mAux := false }
    else s

/-- One IN endpoint of the IEPINT handler (R355). -/
def serveIn (n : EpIx) : M Unit := do
  let s ← get
  if s.dep.daintmskIn.getLsbD n.val then do
    if (s.epAt .IN n).xfrc && (s.epAt .IN n).mXfrc then do
      upd fun s => s.setEp .IN n { s.epAt .IN n with xfrc := false }
      inComplete n
    else pure ()
    let s ← get
    if s.epTxfe n && (s.epAt .IN n).mAux then epTxfeHandler n else pure ()
  else pure ()

/-- The IEPINT handler (R355). -/
def iepHandler : M Unit := forEach allEp serveIn

/-! ## The pass (R300, R301) -/

/-- The sub-handler of a source. -/
def handler : GFlag → M Unit
  | .RXFLVL => rxflvlHandler
  | .NPTXFE => txfeHandler .NP .NPTXFE
  | .PTXFE => txfeHandler .P .PTXFE
  | .HCINT => hcintHandler
  | .HPRTINT => hprtHandler
  | .DISCINT => discHandler
  | .SOF => upd fun s => s.clearLatched .SOF
  | .USBRST => usbrstHandler
  | .ENUMDNE => upd fun s => s.clearLatched .ENUMDNE
  | .IEPINT => iepHandler
  | .OEPINT => oepHandler
  | .USBSUSP => do
    upd fun s => s.clearLatched .USBSUSP
    emit .suspend
  | .WKUPINT => do
    upd fun s => s.clearLatched .WKUPINT
    emit .wakeup

/-- The sources of a pass in their order, by mode (R301). -/
def sources : Mode → List GFlag
  | .HOST => [.RXFLVL, .NPTXFE, .PTXFE, .HCINT, .HPRTINT, .DISCINT, .SOF]
  | .DEVICE => [.RXFLVL, .USBRST, .ENUMDNE, .IEPINT, .OEPINT, .USBSUSP, .WKUPINT, .SOF]

/-- A source tested when its turn comes, and served if it is pending and enabled (R300). -/
def serve (f : GFlag) : M Unit := do
  let s ← get
  if s.pending f then do
    upd fun s => s.logged (.source f)
    handler f
  else pure ()

/-- `Pass()` (R300) -/
def pass : M Unit := do
  let s ← get
  forEach (sources s.mode) serve

/-- The IRQ agent's step: "a step exactly when `irq = 1`" (R25), recorded as one pass (R85); otherwise nothing changes
(entry 1). -/
def runIrq (s : State) : Host.Outcome State Fault Refusal :=
  if s.irq then handlerOutcome pass (s.logged .pass) else .next s

end Sys2Proof.Machine
end

