-- ==== Sys2Proof/Machine/Bus.lean ====
section
/-! DEFINITION. The BUS agent (spec R157, R405 to R413): what each move may do and when. The liberties are enforced, the
duties are not (entry 20): a BUS that breaks a duty makes the faults of R370 reachable. A liberty that speaks of what
happened before ("after a USBRST", "until a new connection") is read from the event history. -/

namespace Sys2Proof.Machine

/-- B1 (R405): an entry is a status word with bits 31:21 zero and `words(bcnt)` data words. -/
def entryWellFormed (st : Word) (data : List Word) : Bool :=
  decide (st.extractLsb' 21 11 = 0) && decide (data.length = wordsOf (stBcnt st).toNat)

/-- B1: does the whole entry fit? Where it does not, "BUS does not push (on the wire the packet is refused)". -/
def State.rxFits (s : State) (data : List Word) : Bool :=
  decide (s.fifo.rxq.length + 1 + data.length ≤ s.env.par.rxFifoWords)

/-- Host-mode IN_DATA (R111). -/
def State.isInData (s : State) (st : Word) : Bool := s.mode == .HOST && stPktsts st == 2

/-! ## What the history says; its newest entry comes first -/

/-- "until a new connection and port enable" (R410): the port was lost and has not been enabled since. Enabling it takes
a connection (R409). -/
def portLost : List LogEntry → Bool
  | [] => false
  | .bus .disconnect :: _ => true
  | .bus (.portEnable _) :: _ => false
  | _ :: l => portLost l

/-- "after a USBRST" (R411). -/
def resetSeen (l : List LogEntry) : Bool := l.any fun
  | .bus .busReset => true
  | _ => false

/-- The SETUP_DATA entries pushed (R111). -/
def setupPushes (l : List LogEntry) : Nat := l.countP fun
  | .bus (.rxPush st _) => stPktsts st == 6
  | _ => false

/-- The STUP flags set. -/
def setupDones (l : List LogEntry) : Nat := l.countP fun
  | .bus .setupDone => true
  | _ => false

/-- The packets OUT endpoint `n` was armed for, where an entry arms it. -/
def armedFor (n : EpIx) : LogEntry → Option Nat
  | .armed m packets => if m = n then some packets else none
  | _ => none

/-- The length of the OUT_DATA packet that an entry pushes for endpoint `n` (R110, R111). -/
def packetFor (n : EpIx) : LogEntry → Option Nat
  | .bus (.rxPush st _) =>
    if stPktsts st = 2 ∧ (stNum st).toNat = n.val then some (stBcnt st).toNat else none
  | _ => none

/-- The lengths of the packets received for endpoint `n` since it was last armed. -/
def outPackets (n : EpIx) (l : List LogEntry) : List Nat :=
  (l.takeWhile fun e => (armedFor n e).isNone).filterMap (packetFor n)

/-- An OUT endpoint "has received its programmed `pktCnt` packets or a packet shorter than `mps`" (R411). -/
def outReceived (n : EpIx) (mps : Nat) (l : List LogEntry) : Bool :=
  match l.findSome? (armedFor n) with
  | none => false
  | some packets => decide (packets ≤ (outPackets n l).length) || (outPackets n l).any fun b => decide (b < mps)

/-! ## The moves -/

/-- B2 (R406): may words be taken from `txq[num]`? -/
def State.mayTake (s : State) (num : Ch) : Bool :=
  match s.mode with
  | .HOST => s.runState num != .IDLE && (s.hcAt num).dir == .OUT
  | .DEVICE => if h : num.val < 8 then (s.epAt .IN ⟨num.val, h⟩).epEna else false

/-- B2: the words taken are recorded. -/
def State.txTake (s : State) (num : Ch) (count : Nat) : State :=
  (s.setTxq num ((s.txqAt num).drop count)).logged (.txTaken num ((s.txqAt num).take count))

/-- B4 (R157): a halt completes. -/
def State.haltDone (s : State) (i : Ch) : State :=
  let c := (s.hcAt i).setFlag .CHH true
  let s := s.setHc i { c with chEna := false, chDis := false }
  (s.setTxq i []).setQFlush (periodicType (s.hcAt i).epType) false

/-- May the BUS take this move now (R157, R405 to R413)? -/
def State.busAllowed (s : State) : BusMove → Bool
  | .rxPush st data => entryWellFormed st data && s.rxFits data && !(s.isInData st && portLost s.env.log)
  | .lowerHc i pk sz => decide (pk ≤ (s.hcAt i).pktCnt) && decide (sz ≤ (s.hcAt i).xferSize)
  | .lowerEp n pk sz => decide (pk ≤ (s.epAt .OUT n).pktCnt) && decide (sz ≤ (s.epAt .OUT n).xferSize)
  | .txTake num count => decide (1 ≤ count) && decide (count ≤ (s.txqAt num).length) && s.mayTake num
  | .chFlag i f => s.runState i == .ACTIVE && f != .CHH && !portLost s.env.log
  | .haltDone i => s.runState i == .HALTING
  | .connect => !s.hprt.pcsts
  | .portEnable _ => s.hprt.pcsts
  | .portDisable => s.hprt.pena
  | .disconnect => s.hprt.pcsts
  | .frame => true
  | .busReset => s.mode == .DEVICE
  | .enumDone _ => s.mode == .DEVICE && resetSeen s.env.log
  | .suspend => s.mode == .DEVICE
  | .resume => s.mode == .DEVICE
  | .setupDone => s.mode == .DEVICE && decide (setupDones s.env.log < setupPushes s.env.log)
  | .outDone n => s.mode == .DEVICE && (s.epAt .OUT n).epEna && outReceived n (s.epMps .OUT n).toNat s.env.log
  | .inDone n => s.mode == .DEVICE && (s.epAt .IN n).epEna && s.epTxfe n && (s.epbAt .IN n).bufLen == 0
  | .slots np p => decide (np ≤ s.env.par.qDepth) && decide (p ≤ s.env.par.qDepth)

/-- What a BUS move does (R157, R405 to R413). -/
def State.busEffect (s : State) : BusMove → State
  | .rxPush st data => { s with fifo.rxq := s.fifo.rxq ++ st :: data }
  | .lowerHc i pk sz => s.setHc i { s.hcAt i with pktCnt := pk, xferSize := sz }
  | .lowerEp n pk sz => s.setEp .OUT n { s.epAt .OUT n with pktCnt := pk, xferSize := sz }
  | .txTake num count => s.txTake num count
  | .chFlag i f => s.setHc i ((s.hcAt i).setFlag f true)
  | .haltDone i => s.haltDone i
  | .connect => { s with hprt.pcsts := true, hprt.pcdet := true }
  | .portEnable sp => { s with hprt.pena := true, hprt.pspd := sp, hprt.penchng := true }
  | .portDisable => { s with hprt.pena := false, hprt.penchng := true }
  | .disconnect => { s with hprt.pcsts := false, hprt.pena := false, lat.discint := true }
  | .frame => { s with frameNum := s.frameNum + 1, lat.sof := true }
  | .busReset => { s with lat.usbrst := true }
  | .enumDone sp => { s with lat.enumdne := true, dev.speed := sp }
  | .suspend => { s with lat.usbsusp := true }
  | .resume => { s with lat.wkupint := true }
  | .setupDone => s.setEp .OUT 0 { s.epAt .OUT 0 with stup := true }
  | .outDone n => s.setEp .OUT n { s.epAt .OUT n with epEna := false, xfrc := true }
  | .inDone n => s.setEp .IN n { s.epAt .IN n with epEna := false, xfrc := true }
  | .slots np p => { s with fifo.qSlotsNP := np, fifo.qSlotsP := p }

/-- The BUS agent's step, with the move in the history (R85). -/
def runBus (m : BusMove) (s : State) : Host.Outcome State Fault Refusal :=
  if s.busAllowed m then .next ((s.logged (.bus m)).busEffect m) else .refused (.busMoveNotAllowed m)

end Sys2Proof.Machine
end

