-- ==== Sys2Proof/Machine/Registers.lean ====
section
/-! DEFINITION. The register space: word views of the register fields (spec R106 to R109, R118, R119), the two port
registers with side effects (GRXSTSP pops, TXPORT pushes), and a foreground read or write of an offset (entry 19).
Writing CMD executes a command and is in Moves.lean. -/

namespace Sys2Proof.Machine

/-- HCCHAR(i) (R107). -/
def HostChannel.charWord (c : HostChannel) : Word :=
  bitWord (n := 1) c.chEna ++ bitWord (n := 1) c.chDis ++ bitWord (n := 1) c.oddFrame ++ (0 : BitVec 4) ++ c.devAddr ++
    c.epType.bits ++ c.dir.bit ++ c.epNum ++ c.mps

/-- HCTSIZ(i) (R107). -/
def HostChannel.tsizWord (c : HostChannel) : Word :=
  bitWord (n := 1) c.doPing ++ c.dpid.code ++ c.pktCnt ++ c.xferSize

/-- DIEPCTL(n) and DOEPCTL(n) (R119). -/
def DevEp.ctlWord (e : DevEp) : Word :=
  bitWord (n := 1) e.epEna ++ (0 : BitVec 1) ++ bitWord (n := 1) e.oddFrame ++ (0 : BitVec 7) ++
    bitWord (n := 1) e.stall ++ (0 : BitVec 3) ++ e.epType.bits ++ bitWord (n := 1) e.active ++ (0 : BitVec 4) ++ e.mps

/-- DIEPTSIZ(n) and DOEPTSIZ(n) (R119). -/
def DevEp.tsizWord (e : DevEp) : Word := (0 : BitVec 1) ++ e.dpid.code ++ e.pktCnt ++ e.xferSize

/-- DIEPINT(n) and DOEPINT(n): bit 0 XFRC, bit 1 TXFE (IN) or STUP (OUT) (R119). -/
def State.epIntWord (s : State) (d : Dir) (n : EpIx) : Word :=
  bitWord (s.epAt d n).xfrc ||| bitWord (match d with
    | .IN => s.epTxfe n
    | .OUT => (s.epAt d n).stup) <<< 1

/-- DIEPINTMSK(n) and DOEPINTMSK(n) (R119). -/
def DevEp.mskWord (e : DevEp) : Word := bitWord e.mXfrc ||| bitWord e.mAux <<< 1

/-- One of the four registers of endpoint `n`, direction `d`. -/
def State.epWord (s : State) (d : Dir) (n : EpIx) (k : Nat) : Word :=
  if k = 0 then (s.epAt d n).ctlWord
  else if k = 4 then (s.epAt d n).tsizWord
  else if k = 8 then s.epIntWord d n
  else if k = 12 then (s.epAt d n).mskWord
  else 0

/-- One of the four registers of channel `i` (R106). -/
def State.chWord (s : State) (i : Ch) (k : Nat) : Word :=
  if k = 0 then (s.hcAt i).charWord
  else if k = 4 then (s.hcAt i).tsizWord
  else if k = 8 then (s.hcAt i).int.setWidth 32
  else if k = 12 then (s.hcAt i).intMsk.setWidth 32
  else 0

/-- GINTSTS (R109): the raw flags, levels recomputed. -/
def State.gintstsWord (s : State) : Word :=
  allGFlags.foldl (fun w f => putBit w f.bit (s.gintsts f)) 0

/-- HAINT (R106): `haint[i]` in bit i. -/
def State.haintWord (s : State) : Word := allCh.foldl (fun w i => putBit w i.val (s.haint i)) 0

/-- DAINT (R106): the endpoints with a flag pending under their own mask, IN in bits 7:0, OUT in bits 23:16. R106 says
only "derived": what is derived is the model's choice, as `haint` is for channels (DESIGN CHOICE, entry 32). -/
def State.daintWord (s : State) : Word :=
  allEp.foldl (fun w n => putBit (putBit w n.val (s.inPending n)) (16 + n.val) (s.outPending n)) 0

/-- HNPTXSTS and HPTXSTS (R106). The free words and the slots are shown modulo 2^16 and 2^8: R7 gives no range for the
sizes, and the fields have 16 and 8 bits (DESIGN CHOICE, entry 31). -/
def State.txStatusWord (s : State) (k : TxClass) (periodic flush : Bool) : Word :=
  bitWord (n := 1) flush ++ (0 : BitVec 7) ++ BitVec.ofNat 8 (s.qSlots periodic) ++ BitVec.ofNat 16 (s.txSpace k)

/-- HPRT (R118). -/
def HPort.word (p : HPort) : Word :=
  (0 : BitVec 25) ++ p.pspd.code ++ bitWord (n := 1) p.prst ++ bitWord (n := 1) p.penchng ++ bitWord (n := 1) p.pena ++
    bitWord (n := 1) p.pcdet ++ bitWord (n := 1) p.pcsts

/-- The registers below 0x100 (R106). GRXSTSP (0x00C) is not here: reading it pops. -/
def State.globalWord (s : State) (off : Nat) : Word :=
  if off = 0x000 then s.mode.code.setWidth 32
  else if off = 0x004 then s.gintstsWord
  else if off = 0x008 then s.gintmsk.setWidth 32
  else if off = 0x010 then s.txStatusWord .NP false s.fifo.qFlushNP
  else if off = 0x014 then s.txStatusWord .P true s.fifo.qFlushP
  else if off = 0x018 then s.frameNum.setWidth 32
  else if off = 0x01C then s.frameInterval.setWidth 32
  else if off = 0x020 then s.hostClkSel.code.setWidth 32
  else if off = 0x024 then s.hprt.word
  else if off = 0x028 then s.haintWord
  else if off = 0x02C then s.haintmsk.setWidth 32
  else if off = 0x030 then s.dev.speed.code.setWidth 32 <<< 8 ||| s.dev.addr.setWidth 32
  else if off = 0x034 then s.daintWord
  else if off = 0x038 then s.dep.daintmskOut.setWidth 32 <<< 16 ||| s.dep.daintmskIn.setWidth 32
  else if off = 0x040 then s.port.cmd
  else if off = 0x044 then s.port.arg0
  else if off = 0x048 then s.port.arg1
  else if off = 0x04C then s.port.arg2
  else if off = 0x050 then s.port.arg3
  else if off = 0x054 then s.port.res
  else 0

/-- The word a register without read effect shows; an offset that names no register reads 0 (U12; entry 19). -/
def State.regWord (s : State) (off : Nat) : Word :=
  if off < 0x100 then s.globalWord off
  else if h : 0x100 ≤ off ∧ off < 0x1C0 then s.chWord ⟨(off - 0x100) / 16, by omega⟩ (off % 16)
  else if h : 0x200 ≤ off ∧ off < 0x280 then s.epWord .IN ⟨(off - 0x200) / 16, by omega⟩ (off % 16)
  else if h : 0x300 ≤ off ∧ off < 0x380 then s.epWord .OUT ⟨(off - 0x300) / 16, by omega⟩ (off % 16)
  else 0

/-- A foreground read: GRXSTSP performs `RxPop()` (R106), every other read has no effect (R76). -/
def regRead (off : Nat) : M Unit :=
  if off = 0x00C then do
    let w ← rxPop
    upd fun s => { s with env.rdata := w }
  else upd fun s => { s with env.rdata := s.regWord off }

/-- `ARGk <- v` (R21) -/
def State.setArg (s : State) (k : Fin 4) (v : Word) : State :=
  if k = 0 then { s with port.arg0 := v }
  else if k = 1 then { s with port.arg1 := v }
  else if k = 2 then { s with port.arg2 := v }
  else { s with port.arg3 := v }

/-- Does writing `w` to HCCHAR (R107) disable this channel while its queue entry is in flight (U5)? An enabled channel's
entry is taken to be in flight; `w` disables it by clearing `chEna`, or by setting `chDis` without the check of the queue
that `Halt` makes first (R155; DESIGN CHOICE, entry 36). -/
def HostChannel.disabledBy (c : HostChannel) (w : Word) : Bool :=
  c.chEna && (!w.getLsbD 31 || w.getLsbD 30 && !c.chDis)

/-- The offsets of registers that have fields the spec gives no foreground write (R106; entry 19). -/
def guardedRegister (off : Nat) : Bool :=
  off = 0x000 || off = 0x004 || off = 0x008 || off = 0x00C || off = 0x010 || off = 0x014 || off = 0x018 ||
    off = 0x01C || off = 0x020 || off = 0x024 || off = 0x02C || off = 0x030 || off = 0x038 ||
    ((0x100 ≤ off && off < 0x1C0) && off % 4 = 0) || ((0x200 ≤ off && off < 0x280) && off % 4 = 0) ||
    ((0x300 ≤ off && off < 0x380) && off % 4 = 0)

/-- A foreground write of a register other than CMD: ARG0..ARG3 (R21), TXPORT(num) (R106), HCINT(i), where writing 1
clears (R108). A read-only register (RES, HAINT, DAINT) and an offset that names none ignore the write (U12). A write of
HCCHAR(i) that disables a channel in flight is a fault (U5; entry 36); any other register has no foreground write in the
spec (entry 19). -/
def regWrite (off : Nat) (w : Word) (s : State) : Host.Outcome State Fault Refusal :=
  if off = 0x044 then .next (s.setArg 0 w)
  else if off = 0x048 then .next (s.setArg 1 w)
  else if off = 0x04C then .next (s.setArg 2 w)
  else if off = 0x050 then .next (s.setArg 3 w)
  else if h : 0x400 ≤ off ∧ off < 0x430 ∧ off % 4 = 0 then
    .next (finalState (txPush ⟨(off - 0x400) / 4, by omega⟩ w) s)
  else if h : 0x100 ≤ off ∧ off < 0x1C0 ∧ off % 16 = 8 then
    let i : Ch := ⟨(off - 0x100) / 16, by omega⟩
    .next (s.setHc i { s.hcAt i with int := (s.hcAt i).int &&& ~~~(w.extractLsb' 0 11) })
  else if h : 0x100 ≤ off ∧ off < 0x1C0 ∧ off % 16 = 0 then
    let i : Ch := ⟨(off - 0x100) / 16, by omega⟩
    if (s.hcAt i).disabledBy w then .fault (.channelDisabledInFlight i) else .refused (.registerWriteNotDescribed off)
  else if guardedRegister off then .refused (.registerWriteNotDescribed off)
  else .next s

end Sys2Proof.Machine
end

