-- ==== Sys2Proof/Machine/Moves.lean ====
section
/-! DEFINITION. One move of one agent (spec R5, R79): the foreground's command, operand, memory and register accesses,
an IRQ pass, a BUS move; and where a step takes its move from (entries 1 and 2). -/

namespace Sys2Proof.Machine

/-- The state in which a command runs: CMD holds the word (R21), the history the command and its operands (R85). -/
def State.withCommand (s : State) (w : Word) : State :=
  { s with port.cmd := w }.logged (.command w s.port.arg0 s.port.arg1 s.port.arg2 s.port.arg3)

/-- Writing a word to CMD executes it (R100); a word of no row is `refuse IllegalCommand` (R104 (a)). U9 of
93_implementation_defined.md names BadOperand for reserved bits set: the name is taken from R104 (DEDUCED, entry 34). -/
def runCommand (w : Word) (s : State) : Host.Outcome State Fault Refusal :=
  match decodeCommand w with
  | .ok i => exec i (s.withCommand w)
  | .error _ => .next ((s.withCommand w).refuse .IllegalCommand)

/-- A foreground step; a foreground that is stuck has none (U4; entry 10). -/
def foreground (s : State) (k : State → Host.Outcome State Fault Refusal) : Host.Outcome State Fault Refusal :=
  if s.env.fgStuck then .fault .foregroundStuck else k s

/-- One step of one agent. -/
def runMove (m : Move) (s : State) : Host.Outcome State Fault Refusal :=
  match m with
  | .cmd w => foreground s (runCommand w)
  | .setArg k v => foreground s fun s => .next ((s.setArg k v).logged (.argWrite k v))
  | .poke a b => foreground s fun s => .next ((s.setByte a b).logged (.poke a b))
  | .regRead off => foreground s fun s => .next (finalState (regRead off) (s.logged (.regRead off)))
  | .regWrite off w =>
    foreground s fun s => if off = 0x040 then runCommand w s else regWrite off w (s.logged (.regWrite off w))
  | .irq => runIrq s
  | .bus m => runBus m s

/-- The next move: the head of the schedule; with nothing scheduled, the IRQ agent (entry 1). -/
def State.nextMove (s : State) : Move × State :=
  match s.env.sched with
  | [] => (.irq, s)
  | m :: rest => (m, { s with env.sched := rest })

/-- A schedule whose next move writes `w` to CMD, by a foreground that is not stuck. -/
def State.scheduleCommand (s : State) (w : Word) : State :=
  { s with env.sched := .cmd w :: s.env.sched, env.fgStuck := false }

/-- A received setup packet whose first two bytes spell `w` and whose other six are zero, with its SETUP-done flag the
only interrupt enabled, and an IRQ pass as the next move (R220, R351). -/
def State.scheduleSetup (s : State) (w : BitVec 16) : State :=
  let s := (s.setHalf s.scratch w).setHalf (s.scratch + 2) 0
  let s := s.setWord (s.scratch + 4) 0
  let s := s.setEp .OUT 0 { s.epAt .OUT 0 with xfrc := false, stup := true, mAux := true }
  { s with
    mode := .DEVICE
    gintmsk := BitVec.twoPow 13 GFlag.OEPINT.bit
    dep.daintmskOut := 1
    env.sched := .irq :: s.env.sched }

end Sys2Proof.Machine
end

