-- ==== Sys2Proof/Machine/Step.lean ====
section
/-! DEFINITION. The step (spec R5, R79): one atomic move of one agent; and the state whose next step runs a given
instruction word (entry 2). -/

namespace Sys2Proof.Machine

/-- One step. -/
def step (s : State) : Host.Outcome State Fault Refusal := runMove s.nextMove.1 s.nextMove.2

/-- `s`, with the instruction word `w` of `nbits` bits as what the next step runs: a command word is scheduled as a
write of CMD; the 16 bits of a setup packet are placed in the scratch region with the SETUP-done flag raised. -/
def State.withFetchWord (s : State) (nbits w : Nat) : State :=
  if nbits = 16 then s.scheduleSetup (BitVec.ofNat 16 w) else s.scheduleCommand (BitVec.ofNat 32 w)

end Sys2Proof.Machine
end

