-- ==== Sys2Proof/Safety.lean ====
section
/-! DEFINITION. The terms in which claims are made: no fault recorded (spec R46), a refused command, an enabled
transfer, the stages of endpoint 0, and the invariant of the machine. -/

namespace Sys2Proof.Machine

/-- "no fault recorded" (R46). -/
def FaultLatch.clear (l : FaultLatch) : Bool := !l.rxUnderflow && !l.txOverflow && !l.rxOverrun && !l.rxBadStatus

/-- No recorded fault of `l` is lost in `m`: the latch is sticky (R46). -/
def FaultLatch.within (l m : FaultLatch) : Prop :=
  (l.rxUnderflow = true → m.rxUnderflow = true) ∧ (l.txOverflow = true → m.txOverflow = true) ∧
    (l.rxOverrun = true → m.rxOverrun = true) ∧ (l.rxBadStatus = true → m.rxBadStatus = true)

/-! ## Ends of a step -/

/-- A state after a refused command: "no state changes except `RES <- 0xFFFFFFFF`" (R104); the name is in the log (R371). -/
def State.refusedWith (s : State) (r : RefuseName) : State :=
  { s with port.res := 0xFFFFFFFF#32, env.log := .refused r :: s.env.log }

/-- The events emitted and hooks called so far, newest first (R10, R44). -/
def State.events (s : State) : List Event :=
  s.env.log.filterMap fun
    | .event e => some e
    | _ => none

/-- Byte `k` of the packet that a list of FIFO words carries: byte `k mod 4` of word `k div 4` (R72). -/
def wordsByte (ws : List Word) (k : Nat) : Byte := byteOf (ws.getD (k / 4) 0) (k % 4)

/-- The answer the next request hook gives (R44; entry 12). -/
def State.nextAnswer (s : State) : HookResult :=
  match s.env.hookAnswers with
  | r :: _ => r
  | [] => Config.freeHookResult s.env.draws

/-! ## Transfers (R158 to R162). `sent` bytes of the `len` programmed are already in the transmit queue. -/

/-- The channel registers with a transfer programmed and enabled. -/
def HostChannel.programmed (c : HostChannel) (frameNum : BitVec 16) (pid : Pid) (len pk : Nat) : HostChannel :=
  { c with
    xferSize := BitVec.ofNat 19 len, pktCnt := BitVec.ofNat 10 pk, dpid := pid
    oddFrame := !frameNum.getLsbD 0, chEna := true, chDis := false }

/-- The endpoint registers with a transfer programmed and armed. -/
def DevEp.programmed (e : DevEp) (frameNum : BitVec 16) (pid : Pid) (len pk : Nat) : DevEp :=
  { e with
    xferSize := BitVec.ofNat 19 len, pktCnt := BitVec.ofNat 10 pk, dpid := pid
    oddFrame := !frameNum.getLsbD 0, epEna := true }

/-- The bookkeeping of a submitted transfer. -/
def XferBuf.submitted (b : XferBuf) (buf : Addr) (len pk sent : Nat) : XferBuf :=
  { b with
    bufPtr := buf + BitVec.ofNat 32 sent, bufLen := BitVec.ofNat 32 (len - sent), xferCount := BitVec.ofNat 32 sent
    pktCnt := BitVec.ofNat 10 pk }

/-- How many bytes of the first packet are written at once (R161): all of it if its words fit, else none. -/
def State.firstBytes (s : State) (x : Tgt) (len mps : Nat) : Nat :=
  if wordsOf (min len mps) ≤ s.txSpace (s.classOf x.num) then min len mps else 0

/-- Is the FIFO-empty interrupt enabled at submit (R161)? -/
def State.defers (s : State) (x : Tgt) (len mps : Nat) : Bool :=
  decide (0 < len) && (decide (s.firstBytes x len mps = 0) ||
    (decide (s.firstBytes x len mps < len) && s.env.par.txDeferRest))

/-- `W` is what the first `n` bytes at `buf` are as FIFO words, whatever the padding. -/
def State.Carries (s : State) (W : List Word) (buf : Addr) (n : Nat) : Prop :=
  W.length = wordsOf n ∧ ∀ k < n, wordsByte W k = s.byte (buf + BitVec.ofNat 32 k)

/-- `t` is `s` with a transfer of `len` bytes, already clamped, enabled on channel `c`: the channel registers, the pipe
record, for OUT the first packet in the queue or the FIFO-empty interrupt enabled; the history and the free-value
counter may change, nothing else does. -/
def State.HostArmed (s t : State) (c : Ch) (dir : Dir) (pid : Pid) (mps len pk : Nat) (buf : Addr) : Prop :=
  ∃ W l d,
    s.Carries W buf (if dir = .OUT then s.firstBytes (.ch c) len mps else 0) ∧
    t = { ((s.setHc c ((s.hcAt c).programmed s.frameNum pid len pk)).setPipe c { s.pipeAt c with
            buf := { (s.pipeAt c).buf.submitted buf len pk (if dir = .OUT then s.firstBytes (.ch c) len mps else 0) with
              urbStatus := .IDLE, pipeState := .OK } }).setTxq c (s.txqAt c ++ W) with
          gintmsk := if dir = .OUT ∧ s.defers (.ch c) len mps = true
            then putBit s.gintmsk (if periodicType (s.hcAt c).epType then 2 else 1) true else s.gintmsk
          env.log := l
          env.draws := d }

/-- The same for a device endpoint; IN is the transmit direction, and bit 1 of the endpoint's mask enables its TXFE. -/
def State.EpArmed (s t : State) (dir : Dir) (n : EpIx) (pid : Pid) (mps len pk : Nat) (buf : Addr) : Prop :=
  ∃ W l d,
    s.Carries W buf (if dir = .IN then s.firstBytes (.ep dir n) len mps else 0) ∧
    t = { ((s.setEp dir n { (s.epAt dir n).programmed s.frameNum pid len pk with
              mAux := if dir = .IN ∧ s.defers (.ep dir n) len mps = true then true else (s.epAt dir n).mAux }).setEpb
            dir n ((s.epbAt dir n).submitted buf len pk
              (if dir = .IN then s.firstBytes (.ep dir n) len mps else 0))).setTxq
            (Tgt.ep dir n).num (s.txqAt (Tgt.ep dir n).num ++ W) with
          env.log := l
          env.draws := d }

/-! ## Endpoint 0 (R223, R235 to R238) -/

/-- Endpoint 0, direction `d`, armed with one zero-length DATA1 packet ("Ep0Arm(d, 0, stage)", R223). -/
def State.armZero (s : State) (d : Dir) : State :=
  (s.setEp d 0 { s.epAt d 0 with
      xferSize := 0, pktCnt := 1, dpid := .DATA1, oddFrame := !s.frameNum.getLsbD 0, epEna := true }).setEpb d 0
    { s.epbAt d 0 with bufPtr := s.stage, bufLen := 0, xferCount := 0, pktCnt := 1 }

/-- "status armed": `SendStatus()`, the zero-length IN status stage. -/
def State.statusIn (s : State) : State := { s.armZero .IN with dev.ctrlState := .STATUS_IN }
/-- The zero-length OUT status stage. -/
def State.statusOut (s : State) : State := { s.armZero .OUT with dev.ctrlState := .STATUS_OUT }
/-- "stall": both directions of endpoint 0 answer STALL (R235). -/
def State.ep0Stalled (s : State) : State :=
  { (s.setEp .IN 0 { s.epAt .IN 0 with stall := true }).setEp .OUT 0 { s.epAt .OUT 0 with stall := true } with
    dev.ctrlState := .STALL, dev.zlpPending := false }

/-- `CtrlInData(buf, len)` (R236, R237): `len` bytes armed on endpoint 0 IN. -/
def State.DataIn (s t : State) (buf : Addr) (len : Nat) : Prop :=
  State.EpArmed { s with
      dev.ctrlState := .DATA_IN
      dev.zlpPending := decide (0 < len ∧ len % s.m0 = 0 ∧ len < s.reqLength.toNat) }
    t .IN 0 .DATA1 s.m0 (clampPackets len s.m0).2 (clampPackets len s.m0).1 buf

/-- `CtrlOutData(buf, len)` (R238): endpoint 0 OUT armed to receive `len` bytes. -/
def State.DataOut (s t : State) (buf : Addr) (len : Nat) : Prop :=
  State.EpArmed { s with dev.ctrlState := .DATA_OUT }
    t .OUT 0 .DATA1 s.m0 (clampPackets len s.m0).2 (clampPackets len s.m0).1 buf

/-- `SendData(addr, len)` (R223): clamped to wLength; with wLength = 0 there is no data stage. -/
def State.Reply (s t : State) (addr : Addr) (len : Nat) : Prop :=
  if s.reqLength = 0 then ∃ l, t = { s.statusOut with env.log := l }
  else s.DataIn t addr (min len s.reqLength.toNat)

/-- `ApplyHook(r)` (R241) for a request of direction `dir`; `NoData` with wLength = 0 is entry 35. -/
def State.HookApplied (s t : State) (dir : Dir) : HookResult → Prop
  | .Stall => ∃ l, t = { s.ep0Stalled with env.log := l }
  | .NoData => if s.reqLength = 0 ∨ dir = .OUT then ∃ l, t = { s.statusIn with env.log := l }
      else ∃ l, t = { s.ep0Stalled with env.log := l }
  | .DataIn addr len => if dir = .IN then s.Reply t addr len else ∃ l, t = { s.ep0Stalled with env.log := l }
  | .DataOut addr len => if dir = .OUT ∧ s.reqLength ≠ 0 then s.DataOut t addr (min len s.reqLength.toNat)
      else ∃ l, t = { s.ep0Stalled with env.log := l }

/-! ## The walk over a configuration descriptor (R285); `f k` is byte `k` of the buffer -/

/-- The offsets of the descriptors walked from `p` on, and whether the walk met a length of 0 (U4): each offset is the one
before it plus that one's length; the walk ends where fewer than two bytes remain, at a length of 0, or where the
descriptor passes `stop`. -/
def descriptorWalkFrom (f : Nat → Byte) (stop : Nat) : (fuel : Nat) → (p : Nat) → List Nat × Bool
  | 0, _ => ([], false)
  | fuel + 1, p =>
    if stop < p + 2 then ([], false)
    else if f p = 0 then ([], true)
    else if stop < p + (f p).toNat then ([], false)
    else (p :: (descriptorWalkFrom f stop fuel (p + (f p).toNat)).1,
      (descriptorWalkFrom f stop fuel (p + (f p).toNat)).2)

/-- The whole walk: each descriptor has at least one byte, so `stop` of them suffice. -/
def descriptorWalk (f : Nat → Byte) (stop : Nat) : List Nat × Bool := descriptorWalkFrom f stop stop 0

/-- The interface descriptors (type 4) kept: the first P_MAX_ITF = 2. -/
def keptInterfaces (f : Nat → Byte) (ds : List Nat) : List Nat := (ds.filter fun p => f (p + 1) = 4).take 2

/-- The endpoint descriptors (type 5) kept for the interface at `p`: the first P_MAX_EP = 2 of those between it and the
next interface descriptor. -/
def keptEndpoints (f : Nat → Byte) (ds : List Nat) (p : Nat) : List Nat :=
  (((ds.filter fun q => p < q).takeWhile fun q => f (q + 1) ≠ 4).filter fun q => f (q + 1) = 5).take 2

/-- The descriptor at `p`, cut or zero-filled to `n` bytes. -/
def rawDescriptor (n : Nat) (f : Nat → Byte) (p : Nat) : Vector Byte n :=
  .ofFn fun k => if k.val < (f p).toNat then f (p + k.val) else 0

/-! ## A pass (R300) -/

/-- `t` is what a pass over the sources `l`, each with its sub-handler, makes of `s`: a source is tested when its turn
comes and served if it is pending and enabled; a fault of a sub-handler ends the pass (R370). -/
def PassOver : List (GFlag × M Unit) → State → State → Prop
  | [], s, t => t = s
  | (f, h) :: l, s, t =>
    if s.gintsts f = true ∧ s.gintmsk.getLsbD f.bit = true then
      match h (s.logged (.source f)) with
      | .ok _ u => PassOver l u t
      | .error _ u => t = u
    else PassOver l s t

/-! ## The platform's layout (R77; entry 33) -/

/-- The registered buffers of the transfers in flight (R392). The control pair and endpoint 0 are left out: they use the
scratch region, the descriptor cache and the tables by rule (R38, R43, R45). -/
def State.buffersInFlight (s : State) : List Table :=
  ((allCh.filter fun c => s.runState c != .IDLE && s.host.hcCtlOut != some c && s.host.hcCtlIn != some c).map fun c =>
      ⟨(s.pipeAt c).buf.bufPtr - (s.pipeAt c).buf.xferCount,
        (s.pipeAt c).buf.xferCount.toNat + (s.pipeAt c).buf.bufLen.toNat⟩) ++
    ([Dir.OUT, .IN].map fun d => (allEp.filter fun n => n != 0 && (s.epAt d n).epEna).map fun n =>
      ⟨(s.epbAt d n).bufPtr - (s.epbAt d n).xferCount,
        (s.epbAt d n).xferCount.toNat + (s.epbAt d n).bufLen.toNat⟩).flatten

/-- The constraint of R77: scratch region, descriptor cache, descriptor tables "and every transfer buffer in flight must
not overlap one another". The block checks none of it (R392); a claim may take it as a premise. -/
def State.layoutKept (s : State) : Bool :=
  regionsApart ((s.env.par.regions ++ s.buffersInFlight).filter fun r => r.len != 0)

/-- The states of the host sequencer between steps (R39, C10). -/
def isPhase : CtrlState → Bool
  | .SETUP | .DATA_IN | .DATA_OUT | .STATUS_IN | .STATUS_OUT => true
  | .STALL | .ERROR | .COMPLETE => false

/-- What every step of every agent keeps. -/
structure State.Inv (s : State) : Prop where
  /-- memory is in canonical form -/
  mem : memWf s.mem = true
  /-- the control pair is open in both directions or in none (R190) -/
  pair : s.host.hcCtlOut.isSome = s.host.hcCtlIn.isSome
  /-- `host.ctrlState` "is one of the first five" (R39) -/
  phase : isPhase s.host.ctrlState = true
  /-- the retry count never passes the budget (R199) -/
  retries : s.host.errCnt.toNat ≤ Config.ctrlRetry
  /-- `hprt.prst` reads 0 between steps (R341) -/
  pulse : s.hprt.prst = false
  /-- `qSlots` is in 0..P_Q_DEPTH (R27, R413) -/
  slots : s.fifo.qSlotsNP ≤ s.env.par.qDepth ∧ s.fifo.qSlotsP ≤ s.env.par.qDepth
  /-- the RxFIFO holds at most P_RXFIFO_WORDS words (R26, R405) -/
  rxRoom : s.fifo.rxq.length ≤ s.env.par.rxFifoWords
  /-- the packet-size field of endpoint 0 holds a 2-bit code, bits 10:2 read 0 (R119) -/
  ep0Code : ∀ d, (s.epAt d 0).mps.toNat < 4
  /-- a configuration value is held exactly in CONFIGURED (R231, R350) -/
  configured : s.dev.devState = .CONFIGURED ↔ s.dev.curConfiguration ≠ 0
  /-- an address is held exactly outside DEFAULT (R227, R350) -/
  addressed : s.dev.devState = .DEFAULT ↔ s.dev.addr = 0
  /-- a halt request stands only on an enabled channel: IDLE has no `chDis` (R32, R155, R157) -/
  halting : ∀ i, (s.hcAt i).chDis = true → (s.hcAt i).chEna = true
  /-- no packet count passes MAX_PKT = 256 (R6, R159) -/
  packets : ∀ i, (s.hcAt i).pktCnt.toNat ≤ 256 ∧ (s.pipeAt i).buf.pktCnt.toNat ≤ 256
  /-- the same for endpoints -/
  epPackets : ∀ d n, (s.epAt d n).pktCnt.toNat ≤ 256 ∧ (s.epbAt d n).pktCnt.toNat ≤ 256
  /-- `toggle`, `urbStatus` and `pipeState` of an endpoint buffer keep their reset value (R37) -/
  epStatus : ∀ d n, (s.epbAt d n).toggle = false ∧ (s.epbAt d n).urbStatus = .IDLE ∧ (s.epbAt d n).pipeState = .OK
  /-- the parsed configuration fits its slots (R43, R285) -/
  parsed : s.host.itfCount.toNat ≤ Config.maxItf ∧ ∀ j : Fin 2, s.host.itf[j].epCount.toNat ≤ Config.maxEp

end Sys2Proof.Machine
end

