-- ==== Sys2Proof/Certificates/Slice0/Obligations.lean ====
section
/-! DEFINITION. The statements for the provers, one per obligation of OBLIGATIONS.json, each with the rules of spec/ it
follows. A command on channel `c` or endpoint `n` is written with the operand `.ofNat 4 c`. `s.refusedWith r` is the
state after a refusal; `{ u with env.log := l }` lets the model's history differ (entry 13). -/

open Sys2Proof Sys2Proof.Machine

/-! ## Encoding (R100 to R105, R112 to R114) -/

/-- Decoding the encoding of any instruction, with every operand at every value its field admits, gives it back. -/
def Obligations.DecodeOfEncode : Prop := ∀ i : Instr, decode (encode i) = .ok i

/-- A word that decodes is the encoding of what it decodes to, and a word decodes to an instruction of a row of the
opcode table exactly when it selects that row, `w & mask = match` (R103, R114). -/
def Obligations.WordsOfTheOpcodeTable : Prop :=
  (∀ c i, decode c = .ok i → encode i = c) ∧
  (∀ (i : Instr) (v w : BitVec 32), encode i = .command v →
    ((Code.command w).selects (tableRow i) = true ↔ ∃ j, decodeCommand w = .ok j ∧ tableRow j = tableRow i)) ∧
  ∀ (i : Instr) (v w : BitVec 16), encode i = .setup v →
    ((Code.setup w).selects (tableRow i) = true ↔ ∃ j, decodeSetup w = .ok j ∧ tableRow j = tableRow i)

/-- Words written out in 95_test_vectors.md and in the rules decode to the instructions they stand for. -/
def Obligations.DecodedWords : Prop :=
  decodeCommand 0x201C1040 = .ok (.chopen 1 .IN .BULK 2 64) ∧
  decodeCommand 0x231C8040 = .ok (.xferen 1 .IN .BULK 1 64) ∧
  decodeCommand 0x211C0040 = .ok (.epact 1 .IN .BULK 64) ∧
  decodeCommand 0x25180000 = .ok (.epstall 1 .IN) ∧
  decodeCommand 0x32280000 = .ok (.pipeget 2 .IN) ∧
  decodeCommand 0x40000040 = .ok (.ctrlopen 64) ∧
  decodeCommand 0x11200000 = .ok (.wrpkt 2) ∧
  decodeCommand 0x52000000 = .ok .ctrlstall ∧
  decodeCommand 0x61000000 = .ok .cfgparse ∧
  decodeCommand 0x30000001 = .error .mustBeZero ∧
  decodeCommand 0x7F000000 = .error .unlistedOp ∧
  decodeSetupBytes [0x02, 0x01, 0x00, 0x00, 0x81, 0x00, 0x00, 0x00] = .ok (.clearFeature .OUT 2) ∧
  decodeSetupBytes [0x80, 0x06, 0x00, 0x01, 0x00, 0x00, 0x08, 0x00] = .ok (.getDescriptor .IN 0) ∧
  decodeSetupBytes [0xA1, 0xFE, 0x00, 0x00, 0x00, 0x00, 0x01, 0x00] = .ok (.classRequest 0xFE .IN 1) ∧
  decodeSetupBytes [0x80, 0x0C, 0x00, 0x00, 0x00, 0x00, 0x02, 0x00] = .error .unrecognizedRequest

/-! ## A step -/

/-- The next move being a write of a command word to CMD, the step is `exec` of the decoded instruction, in the state
with CMD and the history written and the move taken off the schedule (R21, R85, R100; the schedule is entry 1). -/
def Obligations.StepRunsCommand : Prop :=
  ∀ (s : State) (w : BitVec 32) (i : Instr) (rest : List Move), s.env.sched = .cmd w :: rest → s.env.fgStuck = false →
    decodeCommand w = .ok i →
    step s = exec i { s with
      port.cmd := w
      env.sched := rest
      env.log := .command w s.port.arg0 s.port.arg1 s.port.arg2 s.port.arg3 :: s.env.log }

/-- An IRQ pass whose only enabled source is the setup-done flag of OUT endpoint 0 is `exec` of the request that the
scratch region holds, in the state `SetupStage()` prepares (R220, R221, R351; the schedule is entry 1). -/
def Obligations.StepRunsRequest : Prop :=
  ∀ (s : State) (i : Instr) (rest : List Move), s.env.sched = .irq :: rest → s.mode = .DEVICE →
    s.gintmsk = BitVec.twoPow 13 10 → s.dep.daintmskOut = 1 → (s.epAt .OUT 0).xfrc = false →
    (s.epAt .OUT 0).stup = true → (s.epAt .OUT 0).mAux = true → decodeSetup s.reqCode = .ok i →
    ∃ l t,
      exec i { ((s.setEp .IN 0 { s.epAt .IN 0 with stall := false, epEna := false, mAux := false }).setEp .OUT 0
          { s.epAt .OUT 0 with stup := false, stall := false, epEna := false }).setTxq 0 [] with
        dev.zlpPending := false
        dev.ctrlState := .SETUP
        env.sched := rest
        env.log := l } = .next t ∧
      step s = .next t

/-- A standard request code of no row of R114 (2, 4, 12..255) stalls endpoint 0, and nothing else decodes to nothing
(R222, R234). -/
def Obligations.UnknownRequestStalls : Prop :=
  (∀ code : BitVec 16, (∀ i, decodeSetup code ≠ .ok i) ↔
    code.extractLsb' 5 2 = 0 ∧
      (code.extractLsb' 8 8 = 2 ∨ code.extractLsb' 8 8 = 4 ∨ 12 ≤ (code.extractLsb' 8 8).toNat)) ∧
  ∀ (s : State) (code : BitVec 16), (∀ i, decodeSetup code ≠ .ok i) → runRequest code s = .ok () s.ep0Stalled

/-- What R104 refuses: (a) a word of no row, IllegalCommand; (b) a listed command in the mode its row of R103 excludes,
WrongMode; (c) operands outside the ranges of R102 and of the format's ARG0 (R101), BadOperand. RES is 0xFFFFFFFF,
nothing else changes but the history (the name in it is R371's; that a must-be-zero field of (a) takes R104's name, not
U9's, is entry 34). -/
def Obligations.RefusedCommands : Prop :=
  (∀ (s : State) (w : BitVec 32), (∀ i, decodeCommand w ≠ .ok i) →
    runCommand w s = .next ((s.withCommand w).refusedWith .IllegalCommand)) ∧
  (∀ (s : State) (num epn : BitVec 4) (dir : Dir) (type : EpType) (mps : BitVec 11), s.mode = .DEVICE →
    ∀ i ∈ [.portreset, .chopen num dir type epn mps, .chhalt num, .chena num, .challoc, .chfree num, .ctrlopen mps,
      .ctrlsubmit, .ctrlpoll, .ctrlreq, .enumpoll, .cfgparse], exec i s = .next (s.refusedWith .WrongMode)) ∧
  (∀ (s : State) (num : BitVec 4) (dir : Dir) (type : EpType) (mps : BitVec 11), s.mode = .HOST →
    ∀ i ∈ [.epact num dir type mps, .epstall num dir, .epclrstall num dir, .ctrlin, .ctrlout, .ctrlstall],
      exec i s = .next (s.refusedWith .WrongMode)) ∧
  (∀ (s : State) (num epn : BitVec 4) (dir : Dir) (type : EpType) (pid : BitVec 2) (mps : BitVec 11), s.mode = .HOST →
    11 < num.toNat →
    ∀ i ∈ [.chopen num dir type epn mps, .chhalt num, .chena num, .chfree num, .pipeget num dir, .wrpkt num,
      .xferen num dir type pid mps], exec i s = .next (s.refusedWith .BadOperand)) ∧
  (∀ (s : State) (num : BitVec 4) (dir : Dir) (type : EpType) (pid : BitVec 2) (mps : BitVec 11), s.mode = .DEVICE →
    7 < num.toNat → s.port.arg1.toNat + s.port.arg0.toNat ≤ 2 ^ 32 →
    ∀ i ∈ [.epact num dir type mps, .epstall num dir, .epclrstall num dir, .pipeget num dir, .wrpkt num,
      .xferen num dir type pid mps], exec i s = .next (s.refusedWith .BadOperand)) ∧
  (∀ (s : State) (num epn : BitVec 4) (dir : Dir) (type : EpType) (pid : BitVec 2) (mps : BitVec 11),
    (mps = 0 ∨ pid = 3 → exec (.xferen num dir type pid mps) s = .next (s.refusedWith .BadOperand)) ∧
    (s.mode = .HOST → mps = 0 ∨ 128 ≤ s.port.arg0.toNat →
      exec (.chopen num dir type epn mps) s = .next (s.refusedWith .BadOperand) ∧
      exec (.ctrlopen mps) s = .next (s.refusedWith .BadOperand)) ∧
    (s.mode = .DEVICE → mps = 0 ∨ num = 0 ∧ mps ≠ 8 ∧ mps ≠ 16 ∧ mps ≠ 32 ∧ mps ≠ 64 →
      exec (.epact num dir type mps) s = .next (s.refusedWith .BadOperand)) ∧
    (2 ≤ s.port.arg0.toNat → exec .init s = .next (s.refusedWith .BadOperand)))

/-! ## Memory and FIFO transport (R70 to R75, R140 to R142) -/

/-- A word written at any address reads back, byte `k` of it at `a + k` and in bits 8k+7..8k; every other byte is kept,
and the canonical form with it (R71 to R73). -/
def Obligations.MemoryWord : Prop :=
  ∀ (s : State) (a : Addr) (w : Word), memWf s.mem = true →
    (s.setWord a w).word a = w ∧
    (∀ k < 4, (s.setWord a w).byte (a + BitVec.ofNat 32 k) = w.extractLsb' (8 * k) 8) ∧
    (∀ x : Addr, (∀ k < 4, x ≠ a + BitVec.ofNat 32 k) → (s.setWord a w).byte x = s.byte x) ∧
    (s.setWord a w).half a = w.extractLsb' 0 16 ∧
    memWf (s.setWord a w).mem = true

/-- RDPKT (R140): with `words(len)` words queued it completes, pops exactly those, and writes exactly `len` bytes; with
fewer it takes RxUnderflow: the words queued are popped, their bytes written and every other byte kept, and RES is not
written (entry 8); a wrap is refused. -/
def Obligations.RdpktResult : Prop :=
  ∀ s : State, memWf s.mem = true →
    (s.port.arg1.toNat + s.port.arg0.toNat ≤ 2 ^ 32 → wordsOf s.port.arg0.toNat ≤ s.fifo.rxq.length →
      ∃ m l,
        exec .rdpkt s = .next { s with
          fifo.rxq := s.fifo.rxq.drop (wordsOf s.port.arg0.toNat), mem := m, env.log := l, port.res := 0 } ∧
        (∀ k < s.port.arg0.toNat,
          memGet m (s.port.arg1 + BitVec.ofNat 32 k).toNat = wordsByte s.fifo.rxq k) ∧
        ∀ x : Addr, (∀ k < s.port.arg0.toNat, x ≠ s.port.arg1 + BitVec.ofNat 32 k) →
          memGet m x.toNat = s.byte x) ∧
    (s.port.arg1.toNat + s.port.arg0.toNat ≤ 2 ^ 32 → s.fifo.rxq.length < wordsOf s.port.arg0.toNat →
      ∃ m l,
        exec .rdpkt s = .next { s with fifo.rxq := [], mem := m, env.log := l, fault.rxUnderflow := true } ∧
        (∀ k < 4 * s.fifo.rxq.length,
          memGet m (s.port.arg1 + BitVec.ofNat 32 k).toNat = wordsByte s.fifo.rxq k) ∧
        ∀ x : Addr, (∀ k < 4 * s.fifo.rxq.length, x ≠ s.port.arg1 + BitVec.ofNat 32 k) →
          memGet m x.toNat = s.byte x) ∧
    (2 ^ 32 < s.port.arg1.toNat + s.port.arg0.toNat → exec .rdpkt s = .next (s.refusedWith .AddrWrap))

/-- WRPKT (R141): with `words(len)` free words in the class it appends exactly those words, which carry the `len` bytes
at `src`, and writes no memory; with fewer it takes TxOverflow: the words that fit stay pushed and carry the bytes at
`src`, and RES is not written (entry 8); a wrap is refused. -/
def Obligations.WrpktResult : Prop :=
  ∀ (s : State) (c : Ch), (s.mode = .DEVICE → c.val < 8) →
    (s.port.arg1.toNat + s.port.arg0.toNat ≤ 2 ^ 32 → wordsOf s.port.arg0.toNat ≤ s.txSpace (s.classOf c) →
      ∃ W l d, s.Carries W s.port.arg1 s.port.arg0.toNat ∧
        exec (.wrpkt (.ofNat 4 c)) s = .next { s.setTxq c (s.txqAt c ++ W) with
          env.log := l, env.draws := d, port.res := 0 }) ∧
    (s.port.arg1.toNat + s.port.arg0.toNat ≤ 2 ^ 32 → s.txSpace (s.classOf c) < wordsOf s.port.arg0.toNat →
      ∃ W l d, s.Carries W s.port.arg1 (4 * s.txSpace (s.classOf c)) ∧
        exec (.wrpkt (.ofNat 4 c)) s = .next { s.setTxq c (s.txqAt c ++ W) with
          env.log := l, env.draws := d, fault.txOverflow := true }) ∧
    (2 ^ 32 < s.port.arg1.toNat + s.port.arg0.toNat → exec (.wrpkt (.ofNat 4 c)) s = .next (s.refusedWith .AddrWrap))

/-- The round trip of R142, whatever the padding: WRPKT pushes `W`; with exactly `W` in the RxFIFO, RDPKT of the same
length leaves the original bytes at its destination. -/
def Obligations.FifoRoundTrip : Prop :=
  ∀ (s : State) (c : Ch), (s.mode = .DEVICE → c.val < 8) → s.port.arg1.toNat + s.port.arg0.toNat ≤ 2 ^ 32 →
    wordsOf s.port.arg0.toNat ≤ s.txSpace (s.classOf c) →
    ∃ t W, exec (.wrpkt (.ofNat 4 c)) s = .next t ∧ t.txqAt c = s.txqAt c ++ W ∧
      ∀ u : State, u.fifo.rxq = W → u.mem = t.mem → memWf u.mem = true → u.port.arg0 = s.port.arg0 →
        u.port.arg1.toNat + u.port.arg0.toNat ≤ 2 ^ 32 →
        ∃ v, exec .rdpkt u = .next v ∧ v.fifo.rxq = [] ∧
          ∀ k < s.port.arg0.toNat,
            v.byte (u.port.arg1 + BitVec.ofNat 32 k) = s.byte (s.port.arg1 + BitVec.ofNat 32 k)

/-! ## The channel and endpoint driver (R150 to R166) -/

/-- CHOPEN on an IDLE channel (R150), the ping bit (R151), the enable set with its two properties (R152); on a channel
that is not IDLE it is refused ChannelBusy. -/
def Obligations.ChopenResult : Prop :=
  (∀ (s : State) (c : Ch) (dir : Dir) (type : EpType) (epn : BitVec 4) (mps : BitVec 11), s.mode = .HOST → mps ≠ 0 →
    s.port.arg0.toNat < 128 →
    ((s.hcAt c).chEna = false →
      exec (.chopen (.ofNat 4 c) dir type epn mps) s = .next
        { (s.setHc c { s.hcAt c with
            mps := mps, epNum := epn, dir := dir, epType := type, devAddr := s.port.arg0.extractLsb' 0 7
            doPing := decide (s.host.speed = .HIGH ∧ dir = .OUT ∧ (type = .CONTROL ∨ type = .BULK))
            int := 0, intMsk := chMask type dir }).setPipe c
            { s.pipeAt c with dir := dir, mps := mps, epType := type } with
          haintmsk := s.haintmsk ||| BitVec.twoPow 12 c.val
          gintmsk := s.gintmsk ||| 0x008
          port.res := 0 }) ∧
    ((s.hcAt c).chEna = true →
      exec (.chopen (.ofNat 4 c) dir type epn mps) s = .next (s.refusedWith .ChannelBusy))) ∧
  chMask .CONTROL .IN = 0x49F ∧ chMask .CONTROL .OUT = 0x4DF ∧ chMask .BULK .IN = 0x59F ∧ chMask .BULK .OUT = 0x4DF ∧
  chMask .INTERRUPT .IN = 0x79F ∧ chMask .INTERRUPT .OUT = 0x69F ∧
  chMask .ISOCHRONOUS .IN = 0x3A7 ∧ chMask .ISOCHRONOUS .OUT = 0x227 ∧
  ∀ type dir, (chMask type dir).getLsbD ChFlag.CHH.bit = true ∧
    ((chMask type dir).getLsbD ChFlag.BBLERR.bit = true ↔ dir = .IN ∧ type ≠ .CONTROL)

/-- EPACT on an endpoint that is not armed (R153), with the code of R117 for endpoint 0 (R154); on an armed one it is
refused ChannelBusy. -/
def Obligations.EpactResult : Prop :=
  ∀ (s : State) (n : EpIx) (dir : Dir) (type : EpType) (mps : BitVec 11), s.mode = .DEVICE → mps ≠ 0 →
    (n = 0 → mps = 8 ∨ mps = 16 ∨ mps = 32 ∨ mps = 64) →
    ((s.epAt dir n).epEna = false →
      exec (.epact (.ofNat 4 n) dir type mps) s = .next
        { s.setEp dir n { s.epAt dir n with
            active := true, epType := type, stall := false, dpid := .DATA0, xfrc := false, stup := false
            mps := if n = 0 then (if mps = 64 then 0 else if mps = 32 then 1 else if mps = 16 then 2 else 3) else mps
            mXfrc := true, mAux := decide (dir = .OUT ∧ n = 0) } with
          dep.daintmskIn := if dir = .IN then s.dep.daintmskIn ||| BitVec.twoPow 8 n.val else s.dep.daintmskIn
          dep.daintmskOut := if dir = .OUT then s.dep.daintmskOut ||| BitVec.twoPow 8 n.val else s.dep.daintmskOut
          port.res := 0 }) ∧
    ((s.epAt dir n).epEna = true →
      exec (.epact (.ofNat 4 n) dir type mps) s = .next (s.refusedWith .ChannelBusy))

/-- CHHALT (R155): on an ACTIVE channel it requests the halt, after the flush bit where the channel's queue is full; on
an IDLE or HALTING channel only RES is written, and so a second CHHALT changes nothing (R156). -/
def Obligations.ChhaltResult : Prop :=
  (∀ (s : State) (c : Ch), s.mode = .HOST →
    ((s.hcAt c).chEna = true → (s.hcAt c).chDis = false →
      exec (.chhalt (.ofNat 4 c)) s = .next { s.setHc c { s.hcAt c with chDis := true } with
        fifo.qFlushNP := s.fifo.qFlushNP || (!periodicType (s.hcAt c).epType && decide (s.fifo.qSlotsNP = 0))
        fifo.qFlushP := s.fifo.qFlushP || (periodicType (s.hcAt c).epType && decide (s.fifo.qSlotsP = 0))
        port.res := 0 }) ∧
    ((s.hcAt c).chEna = false ∨ (s.hcAt c).chDis = true →
      exec (.chhalt (.ofNat 4 c)) s = .next { s with port.res := 0 })) ∧
  ∀ (s t : State) (c : Ch), s.mode = .HOST → exec (.chhalt (.ofNat 4 c)) s = .next t →
    exec (.chhalt (.ofNat 4 c)) t = .next t

/-- The BUS moves, each with its effect and when it may be taken: the halt completion (R157), a received entry and the
lowered counters (R405), words taken from a queue (R406), a channel flag (R407), the port (R409), detach (R410), the device
events (R411), a frame (R412), the request-queue slots (R413). "After" and "until" speak of the history. That a move which
is not allowed is refused, that the duties are not enforced (the port enabled with `pcsts` alone), and that one STUP comes
per SETUP_DATA entry pushed, are the model's choices (entry 20). -/
def Obligations.BusMoves : Prop :=
  ∀ s : State,
    (∀ i : Ch,
      ((s.hcAt i).chEna = true ∧ (s.hcAt i).chDis = true →
        runBus (.haltDone i) s = .next { (s.setHc i { s.hcAt i with
            chEna := false, chDis := false, int := (s.hcAt i).int ||| 0x002 }).setTxq i [] with
          fifo.qFlushNP := s.fifo.qFlushNP && periodicType (s.hcAt i).epType
          fifo.qFlushP := s.fifo.qFlushP && !periodicType (s.hcAt i).epType
          env.log := .bus (.haltDone i) :: s.env.log }) ∧
      (¬ ((s.hcAt i).chEna = true ∧ (s.hcAt i).chDis = true) →
        runBus (.haltDone i) s = .refused (.busMoveNotAllowed (.haltDone i)))) ∧
    (∀ lost : Prop,
      (lost ↔ ∃ new old, s.env.log = new ++ .bus .disconnect :: old ∧ ∀ sp, .bus (.portEnable sp) ∉ new) →
      (∀ (st : Word) (data : List Word) (fits : Prop),
        (fits ↔ st.extractLsb' 21 11 = 0 ∧ data.length = wordsOf (st.extractLsb' 4 11).toNat ∧
          s.fifo.rxq.length + 1 + wordsOf (st.extractLsb' 4 11).toNat ≤ s.env.par.rxFifoWords) →
        (fits → ¬ (lost ∧ s.mode = .HOST ∧ st.extractLsb' 17 4 = 2) →
          runBus (.rxPush st data) s = .next { s with
            fifo.rxq := s.fifo.rxq ++ st :: data, env.log := .bus (.rxPush st data) :: s.env.log }) ∧
        (¬ fits ∨ lost ∧ s.mode = .HOST ∧ st.extractLsb' 17 4 = 2 →
          runBus (.rxPush st data) s = .refused (.busMoveNotAllowed (.rxPush st data)))) ∧
      ∀ (i : Ch) (f : ChFlag),
        ((s.hcAt i).chEna = true ∧ (s.hcAt i).chDis = false ∧ f ≠ .CHH ∧ ¬ lost →
          runBus (.chFlag i f) s = .next { s.setHc i { s.hcAt i with
              int := (s.hcAt i).int ||| BitVec.twoPow 11 f.bit } with
            env.log := .bus (.chFlag i f) :: s.env.log }) ∧
        (¬ ((s.hcAt i).chEna = true ∧ (s.hcAt i).chDis = false ∧ f ≠ .CHH ∧ ¬ lost) →
          runBus (.chFlag i f) s = .refused (.busMoveNotAllowed (.chFlag i f)))) ∧
    (∀ (i : Ch) (pk : BitVec 10) (sz : BitVec 19),
      (pk ≤ (s.hcAt i).pktCnt ∧ sz ≤ (s.hcAt i).xferSize →
        runBus (.lowerHc i pk sz) s = .next { s.setHc i { s.hcAt i with pktCnt := pk, xferSize := sz } with
          env.log := .bus (.lowerHc i pk sz) :: s.env.log }) ∧
      (¬ (pk ≤ (s.hcAt i).pktCnt ∧ sz ≤ (s.hcAt i).xferSize) →
        runBus (.lowerHc i pk sz) s = .refused (.busMoveNotAllowed (.lowerHc i pk sz)))) ∧
    (∀ (n : EpIx) (pk : BitVec 10) (sz : BitVec 19),
      (pk ≤ (s.epAt .OUT n).pktCnt ∧ sz ≤ (s.epAt .OUT n).xferSize →
        runBus (.lowerEp n pk sz) s = .next { s.setEp .OUT n { s.epAt .OUT n with pktCnt := pk, xferSize := sz } with
          env.log := .bus (.lowerEp n pk sz) :: s.env.log }) ∧
      (¬ (pk ≤ (s.epAt .OUT n).pktCnt ∧ sz ≤ (s.epAt .OUT n).xferSize) →
        runBus (.lowerEp n pk sz) s = .refused (.busMoveNotAllowed (.lowerEp n pk sz)))) ∧
    (∀ (c : Ch) (count : Nat) (may : Prop),
      (may ↔ 1 ≤ count ∧ count ≤ (s.txqAt c).length ∧
        (s.mode = .HOST ∧ (s.hcAt c).chEna = true ∧ (s.hcAt c).dir = .OUT ∨
          ∃ n : EpIx, s.mode = .DEVICE ∧ c.val = n.val ∧ (s.epAt .IN n).epEna = true)) →
      (may → runBus (.txTake c count) s = .next { s.setTxq c ((s.txqAt c).drop count) with
        env.log := .txTaken c ((s.txqAt c).take count) :: .bus (.txTake c count) :: s.env.log }) ∧
      (¬ may → runBus (.txTake c count) s = .refused (.busMoveNotAllowed (.txTake c count)))) ∧
    (s.hprt.pcsts = false →
      runBus .connect s = .next { s with
        hprt.pcsts := true, hprt.pcdet := true, env.log := .bus .connect :: s.env.log } ∧
      runBus .disconnect s = .refused (.busMoveNotAllowed .disconnect) ∧
      ∀ sp, runBus (.portEnable sp) s = .refused (.busMoveNotAllowed (.portEnable sp))) ∧
    (s.hprt.pcsts = true →
      runBus .connect s = .refused (.busMoveNotAllowed .connect) ∧
      runBus .disconnect s = .next { s with
        hprt.pcsts := false, hprt.pena := false, lat.discint := true, env.log := .bus .disconnect :: s.env.log } ∧
      ∀ sp, runBus (.portEnable sp) s = .next { s with
        hprt.pena := true, hprt.pspd := sp, hprt.penchng := true, env.log := .bus (.portEnable sp) :: s.env.log }) ∧
    (s.hprt.pena = true → runBus .portDisable s = .next { s with
      hprt.pena := false, hprt.penchng := true, env.log := .bus .portDisable :: s.env.log }) ∧
    (s.hprt.pena = false → runBus .portDisable s = .refused (.busMoveNotAllowed .portDisable)) ∧
    runBus .frame s = .next { s with
      frameNum := BitVec.ofNat 16 (s.frameNum.toNat + 1), lat.sof := true, env.log := .bus .frame :: s.env.log } ∧
    (∀ np p : Nat,
      (np ≤ s.env.par.qDepth ∧ p ≤ s.env.par.qDepth → runBus (.slots np p) s = .next { s with
        fifo.qSlotsNP := np, fifo.qSlotsP := p, env.log := .bus (.slots np p) :: s.env.log }) ∧
      (¬ (np ≤ s.env.par.qDepth ∧ p ≤ s.env.par.qDepth) →
        runBus (.slots np p) s = .refused (.busMoveNotAllowed (.slots np p)))) ∧
    (s.mode = .DEVICE →
      runBus .busReset s = .next { s with lat.usbrst := true, env.log := .bus .busReset :: s.env.log } ∧
      runBus .suspend s = .next { s with lat.usbsusp := true, env.log := .bus .suspend :: s.env.log } ∧
      runBus .resume s = .next { s with lat.wkupint := true, env.log := .bus .resume :: s.env.log } ∧
      (∀ sp, (.bus .busReset ∈ s.env.log → runBus (.enumDone sp) s = .next { s with
          lat.enumdne := true, dev.speed := sp, env.log := .bus (.enumDone sp) :: s.env.log }) ∧
        (.bus .busReset ∉ s.env.log → runBus (.enumDone sp) s = .refused (.busMoveNotAllowed (.enumDone sp)))) ∧
      (∀ pushes dones : Nat,
        pushes = (s.env.log.filter fun
          | .bus (.rxPush st _) => st.extractLsb' 17 4 = 6
          | _ => false).length →
        dones = (s.env.log.filter fun e => e = .bus .setupDone).length →
        (dones < pushes → runBus .setupDone s = .next { s.setEp .OUT 0 { s.epAt .OUT 0 with stup := true } with
          env.log := .bus .setupDone :: s.env.log }) ∧
        (pushes ≤ dones → runBus .setupDone s = .refused (.busMoveNotAllowed .setupDone))) ∧
      (∀ (n : EpIx) (packets : Nat) (new old : List LogEntry) (lengths : List Nat) (done : Prop),
        s.env.log = new ++ .armed n packets :: old → (∀ k, .armed n k ∉ new) →
        lengths = (new.filterMap fun
          | .bus (.rxPush st _) =>
            if st.extractLsb' 17 4 = 2 ∧ st.extractLsb' 0 4 = .ofNat 4 n then some (st.extractLsb' 4 11).toNat else none
          | _ => none) →
        (done ↔ (s.epAt .OUT n).epEna = true ∧
          (packets ≤ lengths.length ∨ ∃ b ∈ lengths, b < (s.epMps .OUT n).toNat)) →
        (done → runBus (.outDone n) s = .next { s.setEp .OUT n { s.epAt .OUT n with epEna := false, xfrc := true } with
          env.log := .bus (.outDone n) :: s.env.log }) ∧
        (¬ done → runBus (.outDone n) s = .refused (.busMoveNotAllowed (.outDone n)))) ∧
      (∀ n : EpIx, (∀ k, .armed n k ∉ s.env.log) →
        runBus (.outDone n) s = .refused (.busMoveNotAllowed (.outDone n))) ∧
      ∀ (n : EpIx) (done : Prop),
        (done ↔ (s.epAt .IN n).epEna = true ∧ s.txqAt (Tgt.ep .IN n).num = [] ∧ (s.epbAt .IN n).bufLen = 0) →
        (done → runBus (.inDone n) s = .next { s.setEp .IN n { s.epAt .IN n with epEna := false, xfrc := true } with
          env.log := .bus (.inDone n) :: s.env.log }) ∧
        (¬ done → runBus (.inDone n) s = .refused (.busMoveNotAllowed (.inDone n)))) ∧
    (s.mode = .HOST → ∀ (n : EpIx) (sp : Speed),
      ∀ m ∈ [BusMove.busReset, .enumDone sp, .suspend, .resume, .setupDone, .outDone n, .inDone n],
        runBus m s = .refused (.busMoveNotAllowed m))

/-- XFEREN on a host channel (R158 to R162): on an IDLE channel, with the operands of its CHOPEN and a buffer that does
not wrap, it programs and enables the transfer and answers the length programmed; else it is refused by name. -/
def Obligations.XferenHostResult : Prop :=
  ∀ (s : State) (c : Ch) (dir : Dir) (type : EpType) (pid : Pid) (mps : BitVec 11), s.mode = .HOST → mps ≠ 0 →
    (dir = (s.hcAt c).dir → type = (s.hcAt c).epType → mps = (s.hcAt c).mps → (s.hcAt c).chEna = false →
      s.port.arg1.toNat + (clampPackets s.port.arg0.toNat mps.toNat).2 ≤ 2 ^ 32 →
      ∃ t, s.HostArmed t c dir pid mps.toNat (clampPackets s.port.arg0.toNat mps.toNat).2
          (clampPackets s.port.arg0.toNat mps.toNat).1 s.port.arg1 ∧
        exec (.xferen (.ofNat 4 c) dir type pid.code mps) s = .next { t with
          port.res := BitVec.ofNat 32 (clampPackets s.port.arg0.toNat mps.toNat).2 }) ∧
    (dir ≠ (s.hcAt c).dir ∨ type ≠ (s.hcAt c).epType ∨ mps ≠ (s.hcAt c).mps →
      exec (.xferen (.ofNat 4 c) dir type pid.code mps) s = .next (s.refusedWith .BadOperand)) ∧
    (dir = (s.hcAt c).dir → type = (s.hcAt c).epType → mps = (s.hcAt c).mps → (s.hcAt c).chEna = true →
      exec (.xferen (.ofNat 4 c) dir type pid.code mps) s = .next (s.refusedWith .ChannelBusy)) ∧
    (dir = (s.hcAt c).dir → type = (s.hcAt c).epType → mps = (s.hcAt c).mps → (s.hcAt c).chEna = false →
      2 ^ 32 < s.port.arg1.toNat + (clampPackets s.port.arg0.toNat mps.toNat).2 →
      exec (.xferen (.ofNat 4 c) dir type pid.code mps) s = .next (s.refusedWith .AddrWrap))

/-- XFEREN on a device endpoint (R158 to R162): on an active endpoint that is not armed, with its type and packet size and
a buffer that does not wrap, it programs and enables the transfer and answers the length programmed; else it is refused
by name. -/
def Obligations.XferenDeviceResult : Prop :=
  ∀ (s : State) (n : EpIx) (dir : Dir) (type : EpType) (pid : Pid) (mps : BitVec 11), s.mode = .DEVICE → mps ≠ 0 →
    ((s.epAt dir n).active = true → type = (s.epAt dir n).epType → mps = s.epMps dir n →
      (s.epAt dir n).epEna = false →
      s.port.arg1.toNat + (clampPackets s.port.arg0.toNat mps.toNat).2 ≤ 2 ^ 32 →
      ∃ t, s.EpArmed t dir n pid mps.toNat (clampPackets s.port.arg0.toNat mps.toNat).2
          (clampPackets s.port.arg0.toNat mps.toNat).1 s.port.arg1 ∧
        exec (.xferen (.ofNat 4 n) dir type pid.code mps) s = .next { t with
          port.res := BitVec.ofNat 32 (clampPackets s.port.arg0.toNat mps.toNat).2 }) ∧
    ((s.epAt dir n).active = false →
      exec (.xferen (.ofNat 4 n) dir type pid.code mps) s = .next (s.refusedWith .NotActive)) ∧
    ((s.epAt dir n).active = true → type ≠ (s.epAt dir n).epType ∨ mps ≠ s.epMps dir n →
      exec (.xferen (.ofNat 4 n) dir type pid.code mps) s = .next (s.refusedWith .BadOperand)) ∧
    ((s.epAt dir n).active = true → type = (s.epAt dir n).epType → mps = s.epMps dir n →
      (s.epAt dir n).epEna = true →
      exec (.xferen (.ofNat 4 n) dir type pid.code mps) s = .next (s.refusedWith .ChannelBusy)) ∧
    ((s.epAt dir n).active = true → type = (s.epAt dir n).epType → mps = s.epMps dir n →
      (s.epAt dir n).epEna = false →
      2 ^ 32 < s.port.arg1.toNat + (clampPackets s.port.arg0.toNat mps.toNat).2 →
      exec (.xferen (.ofNat 4 n) dir type pid.code mps) s = .next (s.refusedWith .AddrWrap))

/-- The packet-count law (R159): what XFEREN programs for a request of `len` bytes, the same law of the computation that
every submission uses, and the rule's table. -/
def Obligations.PacketCountLaw : Prop :=
  (∀ (s : State) (c : Ch) (pid : Pid) (len mps pk n : Nat), s.mode = .HOST → len = s.port.arg0.toNat →
    mps = (s.hcAt c).mps.toNat → 0 < mps → pk = max 1 ((len + mps - 1) / mps) →
    n = (if pk ≤ 256 then len else 256 * mps) → (s.hcAt c).chEna = false → s.port.arg1.toNat + n ≤ 2 ^ 32 →
    ∃ t, exec (.xferen (.ofNat 4 c) (s.hcAt c).dir (s.hcAt c).epType pid.code (s.hcAt c).mps) s = .next t ∧
      (t.hcAt c).pktCnt.toNat = min 256 pk ∧ (t.hcAt c).xferSize.toNat = n ∧ t.port.res.toNat = n) ∧
  (∀ len mps : Nat, 0 < mps → mps ≤ 2047 →
    (clampPackets len mps).1 = min 256 (max 1 ((len + mps - 1) / mps)) ∧
    (clampPackets len mps).2 = (if max 1 ((len + mps - 1) / mps) ≤ 256 then len else 256 * mps) ∧
    (clampPackets len mps).2 ≤ 524032 ∧ (clampPackets len mps).2 < 2 ^ 19) ∧
  clampPackets 0 64 = (1, 0) ∧ clampPackets 1 64 = (1, 1) ∧ clampPackets 64 64 = (1, 64) ∧
  clampPackets 65 64 = (2, 65) ∧ clampPackets 16384 64 = (256, 16384) ∧ clampPackets 16385 64 = (256, 16384) ∧
  clampPackets 100000 8 = (256, 2048)

/-- CHENA (R163), its refusals and its encoding. -/
def Obligations.ChenaResult : Prop :=
  (∀ (s : State) (c : Ch), s.mode = .HOST →
    exec (.chena (.ofNat 4 c)) s =
      .next { s.setHc c { s.hcAt c with chEna := true, chDis := false } with port.res := 0 }) ∧
  (∀ (s : State) (num : BitVec 4), s.mode = .DEVICE → exec (.chena num) s = .next (s.refusedWith .WrongMode)) ∧
  (∀ (s : State) (num : BitVec 4), s.mode = .HOST → 11 < num.toNat →
    exec (.chena num) s = .next (s.refusedWith .BadOperand)) ∧
  ∀ num : BitVec 4, decodeCommand (0x24000000 ||| num.setWidth 32 <<< 20) = .ok (.chena num)

/-- EPSTALL (R164) and EPCLRSTALL (R165), their refusals and their encodings. -/
def Obligations.EndpointStallResult : Prop :=
  (∀ (s : State) (n : EpIx) (dir : Dir), s.mode = .DEVICE →
    exec (.epstall (.ofNat 4 n) dir) s = .next { s.setEp dir n { s.epAt dir n with stall := true } with port.res := 0 } ∧
    exec (.epclrstall (.ofNat 4 n) dir) s =
      .next { s.setEp dir n { s.epAt dir n with stall := false, dpid := .DATA0 } with port.res := 0 }) ∧
  (∀ (s : State) (num : BitVec 4) (dir : Dir), s.mode = .HOST →
    exec (.epstall num dir) s = .next (s.refusedWith .WrongMode) ∧
    exec (.epclrstall num dir) s = .next (s.refusedWith .WrongMode)) ∧
  (∀ (s : State) (num : BitVec 4) (dir : Dir), s.mode = .DEVICE → 7 < num.toNat →
    exec (.epstall num dir) s = .next (s.refusedWith .BadOperand) ∧
    exec (.epclrstall num dir) s = .next (s.refusedWith .BadOperand)) ∧
  ∀ (num : BitVec 4) (dir : Dir),
    decodeCommand (0x25000000 ||| num.setWidth 32 <<< 20 ||| dir.bit.setWidth 32 <<< 19) = .ok (.epstall num dir) ∧
    decodeCommand (0x26000000 ||| num.setWidth 32 <<< 20 ||| dir.bit.setWidth 32 <<< 19) = .ok (.epclrstall num dir)

/-! ## Bookkeeping (R180 to R185, R341) -/

/-- CHALLOC (R180): the least free channel, or the sentinel with no other change; refused in device mode. -/
def Obligations.ChallocResult : Prop :=
  (∀ (s : State) (i : Ch), s.mode = .HOST → (s.pipeAt i).alloc = false → (∀ j < i, (s.pipeAt j).alloc = true) →
    exec .challoc s =
      .next { s.setPipe i { s.pipeAt i with alloc := true } with port.res := BitVec.ofNat 32 i.val }) ∧
  (∀ s : State, s.mode = .HOST → (∀ j, (s.pipeAt j).alloc = true) →
    exec .challoc s = .next { s with port.res := 0x000000FF }) ∧
  (∀ s : State, s.mode = .DEVICE → exec .challoc s = .next (s.refusedWith .WrongMode)) ∧
  decodeCommand 0x30000000 = .ok .challoc

/-- CHFREE (R181): every field of the pipe record zero, no channel register touched; its refusals; its encoding; and the
freed channel is what the next CHALLOC returns when every lower one is used. -/
def Obligations.ChfreeResult : Prop :=
  (∀ (s : State) (c : Ch), s.mode = .HOST →
    exec (.chfree (.ofNat 4 c)) s = .next { s.setPipe c
      { alloc := false, dir := .OUT, mps := 0, epType := .CONTROL
        buf := { bufPtr := 0, bufLen := 0, xferCount := 0, pktCnt := 0, toggle := false, urbStatus := .IDLE
                 pipeState := .OK } } with port.res := 0 }) ∧
  (∀ (s : State) (num : BitVec 4), s.mode = .DEVICE → exec (.chfree num) s = .next (s.refusedWith .WrongMode)) ∧
  (∀ (s : State) (num : BitVec 4), s.mode = .HOST → 11 < num.toNat →
    exec (.chfree num) s = .next (s.refusedWith .BadOperand)) ∧
  (∀ (s t : State) (c : Ch), s.mode = .HOST → (∀ j < c, (s.pipeAt j).alloc = true) →
    exec (.chfree (.ofNat 4 c)) s = .next t →
    ∃ u, exec .challoc t = .next u ∧ u.port.res = BitVec.ofNat 32 c.val ∧ (u.pipeAt c).alloc = true) ∧
  ∀ num : BitVec 4, decodeCommand (0x31000000 ||| num.setWidth 32 <<< 20) = .ok (.chfree num)

/-- PIPEGET (R182): the two results in host mode, bit for bit, and the device result; it reads only. -/
def Obligations.PipegetResult : Prop :=
  (∀ (s : State) (c : Ch), s.mode = .HOST →
    exec (.pipeget (.ofNat 4 c) .OUT) s = .next { s with
      port.res := (0 : BitVec 20) ++
        (if (s.hcAt c).chEna = false then 0 else if (s.hcAt c).chDis = false then 1 else 2 : BitVec 2) ++
        (if (s.pipeAt c).alloc then 1 else 0 : BitVec 1) ++ (if (s.pipeAt c).buf.toggle then 1 else 0 : BitVec 1) ++
        (0 : BitVec 1) ++ (s.pipeAt c).buf.pipeState.code ++ (0 : BitVec 1) ++ (s.pipeAt c).buf.urbStatus.code } ∧
    exec (.pipeget (.ofNat 4 c) .IN) s = .next { s with port.res := (s.pipeAt c).buf.xferCount }) ∧
  ∀ (s : State) (n : EpIx) (dir : Dir), s.mode = .DEVICE →
    exec (.pipeget (.ofNat 4 n) dir) s = .next { s with port.res := (s.epbAt dir n).xferCount }

/-- INIT (R185): every piece of block state at its reset value (R47) but those the rule excepts; PORTRESET (R341): an
event and RES, with `hprt.prst` reading 0. Buffer memory and the model's own fields are kept (entry 24). -/
def Obligations.InitAndPortreset : Prop :=
  (∀ (s : State) (m : Mode), s.port.arg0 = (if m = .HOST then 1 else 0) →
    exec .init s = .next
      { State.resetWith s.env.par with
        port := { s.port with res := 0 }
        mode := m
        gintmsk := if m = .HOST then 0x0019 else 0x1F81
        fifo := { rxq := [], txq := .replicate 12 [], qSlotsNP := s.fifo.qSlotsNP, qSlotsP := s.fifo.qSlotsP
                  qFlushNP := false, qFlushP := false }
        frameNum := s.frameNum
        hprt := { pcsts := s.hprt.pcsts, pcdet := false, pena := s.hprt.pena, penchng := false, prst := false
                  pspd := s.hprt.pspd }
        fault := s.fault
        mem := s.mem
        env := s.env }) ∧
  ∀ s : State, s.mode = .HOST →
    exec .portreset s = .next { s with port.res := 0, env.log := .event .portReset :: s.env.log }

/-- INIT "is the only way to change `mode`" (R185, R23): a step of any agent that changes it is a write of INIT to CMD. -/
def Obligations.OnlyInitChangesMode : Prop :=
  ∀ s t : State, step s = .next t → t.mode ≠ s.mode →
    ∃ w rest, (s.env.sched = .cmd w :: rest ∨ s.env.sched = .regWrite 0x040 w :: rest) ∧
      decodeCommand w = .ok .init

/-! ## The host control sequencer (R190 to R207) -/

/-- CTRLOPEN, first open (R190): the two lowest free channels, if both are IDLE; ChannelBusy if one is not (R150); with
fewer than two free, the sentinel. -/
def Obligations.CtrlopenFirst : Prop :=
  (∀ (s : State) (o i : Ch) (mps : BitVec 11), s.mode = .HOST → mps ≠ 0 → s.port.arg0.toNat < 128 →
    s.host.hcCtlOut = none → (s.pipeAt o).alloc = false → (∀ j < o, (s.pipeAt j).alloc = true) → o < i →
    (s.pipeAt i).alloc = false → (∀ j, o < j → j < i → (s.pipeAt j).alloc = true) →
    (s.hcAt o).chEna = false → (s.hcAt i).chEna = false →
    exec (.ctrlopen mps) s = .next
      { (((s.setHc o { s.hcAt o with
            mps := mps, epNum := 0, dir := .OUT, epType := .CONTROL, devAddr := s.port.arg0.extractLsb' 0 7
            doPing := decide (s.host.speed = .HIGH), int := 0, intMsk := 0x4DF }).setHc i { s.hcAt i with
            mps := mps, epNum := 0, dir := .IN, epType := .CONTROL, devAddr := s.port.arg0.extractLsb' 0 7
            doPing := false, int := 0, intMsk := 0x49F }).setPipe o
            { s.pipeAt o with alloc := true, dir := .OUT, mps := mps, epType := .CONTROL }).setPipe i
            { s.pipeAt i with alloc := true, dir := .IN, mps := mps, epType := .CONTROL } with
        haintmsk := s.haintmsk ||| BitVec.twoPow 12 o.val ||| BitVec.twoPow 12 i.val
        gintmsk := s.gintmsk ||| 0x008
        host := { s.host with
          hcCtlOut := some o, hcCtlIn := some i, ctrlState := .SETUP, ctrlWait := false, errCnt := 0
          xferState := .START, verdict := .COMPLETE, ctrlMps := mps }
        port.res := BitVec.ofNat 32 (o.val + 256 * i.val) }) ∧
  (∀ (s : State) (o i : Ch) (mps : BitVec 11), s.mode = .HOST → mps ≠ 0 → s.port.arg0.toNat < 128 →
    s.host.hcCtlOut = none → (s.pipeAt o).alloc = false → (∀ j < o, (s.pipeAt j).alloc = true) → o < i →
    (s.pipeAt i).alloc = false → (∀ j, o < j → j < i → (s.pipeAt j).alloc = true) →
    (s.hcAt o).chEna = true ∨ (s.hcAt i).chEna = true →
    exec (.ctrlopen mps) s = .next (s.refusedWith .ChannelBusy)) ∧
  ∀ (s : State) (mps : BitVec 11), s.mode = .HOST → mps ≠ 0 → s.port.arg0.toNat < 128 → s.host.hcCtlOut = none →
    (∀ i j, (s.pipeAt i).alloc = false → (s.pipeAt j).alloc = false → i = j) →
    exec (.ctrlopen mps) s = .next { s with port.res := 0x000000FF }

/-- CTRLOPEN, re-open (R190): the same two channels with the new address and packet size, toggles kept; refused while a
request is outstanding or a channel is not IDLE. -/
def Obligations.CtrlopenAgain : Prop :=
  ∀ (s : State) (o i : Ch) (mps : BitVec 11), s.mode = .HOST → mps ≠ 0 → s.port.arg0.toNat < 128 →
    s.host.hcCtlOut = some o → s.host.hcCtlIn = some i →
    (s.host.verdict ≠ .BUSY → (s.hcAt o).chEna = false → (s.hcAt i).chEna = false →
      exec (.ctrlopen mps) s = .next
        { (((s.setHc o { s.hcAt o with
              mps := mps, epNum := 0, dir := .OUT, epType := .CONTROL, devAddr := s.port.arg0.extractLsb' 0 7
              doPing := decide (s.host.speed = .HIGH), int := 0, intMsk := 0x4DF }).setHc i { s.hcAt i with
              mps := mps, epNum := 0, dir := .IN, epType := .CONTROL, devAddr := s.port.arg0.extractLsb' 0 7
              doPing := false, int := 0, intMsk := 0x49F }).setPipe o
              { s.pipeAt o with dir := .OUT, mps := mps, epType := .CONTROL }).setPipe i
              { s.pipeAt i with dir := .IN, mps := mps, epType := .CONTROL } with
          haintmsk := s.haintmsk ||| BitVec.twoPow 12 o.val ||| BitVec.twoPow 12 i.val
          gintmsk := s.gintmsk ||| 0x008
          host.ctrlMps := mps
          port.res := BitVec.ofNat 32 (o.val + 256 * i.val) }) ∧
    (s.host.verdict = .BUSY → exec (.ctrlopen mps) s = .next (s.refusedWith .CtrlBusy)) ∧
    (s.host.verdict ≠ .BUSY → (s.hcAt o).chEna = true ∨ (s.hcAt i).chEna = true →
      exec (.ctrlopen mps) s = .next (s.refusedWith .ChannelBusy))

/-- CTRLSUBMIT (R191): the eight setup bytes in the scratch region and the request state; its refusals. -/
def Obligations.CtrlsubmitResult : Prop :=
  (∀ (s : State) (o i : Ch), memWf s.mem = true → s.mode = .HOST → s.host.hcCtlOut = some o →
    s.host.hcCtlIn = some i →
    (s.host.verdict ≠ .BUSY → s.port.arg1.toNat + (s.port.arg3.extractLsb' 16 16).toNat ≤ 2 ^ 32 →
      ∃ m l,
        exec .ctrlsubmit s = .next { s with
          mem := m
          env.log := l
          host := { s.host with
            ctrlBuf := s.port.arg1, ctrlLen := s.port.arg3.extractLsb' 16 16, ctrlState := .SETUP
            ctrlWait := false, errCnt := 0, verdict := .BUSY }
          port.res := 0 } ∧
        (∀ k < 8, memGet m (s.scratch + BitVec.ofNat 32 k).toNat = wordsByte [s.port.arg2, s.port.arg3] k) ∧
        ∀ x : Addr, (∀ k < 8, x ≠ s.scratch + BitVec.ofNat 32 k) → memGet m x.toNat = s.byte x) ∧
    (s.host.verdict = .BUSY → exec .ctrlsubmit s = .next (s.refusedWith .CtrlBusy)) ∧
    (s.host.verdict ≠ .BUSY → 2 ^ 32 < s.port.arg1.toNat + (s.port.arg3.extractLsb' 16 16).toNat →
      exec .ctrlsubmit s = .next (s.refusedWith .AddrWrap))) ∧
  ∀ s : State, s.mode = .HOST → s.host.hcCtlOut = none →
    ∀ i ∈ [.ctrlsubmit, .ctrlpoll, .ctrlreq], exec i s = .next (s.refusedWith .NotOpen)

/-- CTRLPOLL issuing a phase (R192 to R195): the row of R193, enabled as XFEREN does, after which the machine waits.
SETUP first sets both toggles. -/
def Obligations.CtrlpollIssues : Prop :=
  ∀ (s : State) (o i c : Ch) (ph : CtrlState) (dir : Dir) (pid : Pid) (len : Nat) (buf : Addr), s.mode = .HOST →
    s.host.hcCtlOut = some o → s.host.hcCtlIn = some i → s.host.verdict = .BUSY → s.host.ctrlWait = false →
    s.host.ctrlState = ph →
    (ph = .SETUP ∧ c = o ∧ dir = .OUT ∧ pid = .SETUP ∧ len = 8 ∧ buf = s.scratch ∨
      ph = .DATA_IN ∧ c = i ∧ dir = .IN ∧ pid = .DATA1 ∧ len = s.host.ctrlLen.toNat ∧ buf = s.host.ctrlBuf ∨
      ph = .DATA_OUT ∧ c = o ∧ dir = .OUT ∧ pid = .DATA1 ∧ len = s.host.ctrlLen.toNat ∧ buf = s.host.ctrlBuf ∨
      ph = .STATUS_IN ∧ c = i ∧ dir = .IN ∧ pid = .DATA1 ∧ len = 0 ∧ buf = s.host.ctrlBuf ∨
      ph = .STATUS_OUT ∧ c = o ∧ dir = .OUT ∧ pid = .DATA1 ∧ len = 0 ∧ buf = s.host.ctrlBuf) →
    s.host.ctrlMps ≠ 0 → (s.hcAt c).mps = s.host.ctrlMps → (s.hcAt c).dir = dir → (s.hcAt c).epType = .CONTROL →
    buf.toNat + (clampPackets len s.host.ctrlMps.toNat).2 ≤ 2 ^ 32 →
    ((s.hcAt c).chEna = false →
      ∃ t,
        State.HostArmed (if ph = .SETUP then
            (s.setPipe o { s.pipeAt o with buf := { (s.pipeAt o).buf with toggle := true } }).setPipe i
              { s.pipeAt i with buf := { (s.pipeAt i).buf with toggle := true } }
          else s) t c dir pid s.host.ctrlMps.toNat (clampPackets len s.host.ctrlMps.toNat).2
            (clampPackets len s.host.ctrlMps.toNat).1 buf ∧
        exec .ctrlpoll s = .next { t with host.ctrlWait := true, port.res := 0 }) ∧
    ((s.hcAt c).chEna = true → exec .ctrlpoll s = .next (s.refusedWith .ChannelBusy))

/-- CTRLPOLL reading a phase's outcome: one row of the transition table per `urbStatus` (R198 to R202), and the last
verdict repeated when no request is outstanding (R192). Only the sequencer fields, RES and the history change. -/
def Obligations.CtrlpollRows : Prop :=
  (∀ (s : State) (o i c : Ch), s.mode = .HOST → s.host.hcCtlOut = some o → s.host.hcCtlIn = some i →
    s.host.verdict = .BUSY → s.host.ctrlWait = true →
    (s.host.ctrlState = .SETUP ∨ s.host.ctrlState = .DATA_OUT ∨ s.host.ctrlState = .STATUS_OUT) ∧ c = o ∨
      (s.host.ctrlState = .DATA_IN ∨ s.host.ctrlState = .STATUS_IN) ∧ c = i →
    ∃ st wait err v l,
      exec .ctrlpoll s = .next { s with
        host.ctrlState := st, host.ctrlWait := wait, host.errCnt := err, host.verdict := v
        port.res := v.code, env.log := l } ∧
      ((s.pipeAt c).buf.urbStatus = .OK →
        (s.host.ctrlState = .SETUP → wait = false ∧ err = s.host.errCnt ∧ v = .BUSY ∧
          st = (if (s.byte s.scratch).getLsbD 7 then (if s.host.ctrlLen ≠ 0 then .DATA_IN else .STATUS_OUT)
            else if s.host.ctrlLen ≠ 0 then .DATA_OUT else .STATUS_IN)) ∧
        (s.host.ctrlState = .DATA_OUT → st = .STATUS_IN ∧ wait = false ∧ err = s.host.errCnt ∧ v = .BUSY) ∧
        (s.host.ctrlState = .DATA_IN → st = .STATUS_OUT ∧ wait = false ∧ err = s.host.errCnt ∧ v = .BUSY) ∧
        (s.host.ctrlState = .STATUS_IN ∨ s.host.ctrlState = .STATUS_OUT →
          st = .SETUP ∧ wait = false ∧ err = 0 ∧ v = .COMPLETE)) ∧
      ((s.pipeAt c).buf.urbStatus = .ERROR → st = .SETUP ∧ wait = false ∧
        (s.host.errCnt.toNat < 2 → err = s.host.errCnt + 1 ∧ v = .BUSY) ∧
        (2 ≤ s.host.errCnt.toNat → err = 0 ∧ v = .ERROR)) ∧
      ((s.pipeAt c).buf.urbStatus = .STALL → st = .SETUP ∧ wait = false ∧ err = 0 ∧ v = .STALL) ∧
      ((s.pipeAt c).buf.urbStatus = .NOREADY → st = s.host.ctrlState ∧ err = s.host.errCnt ∧ v = .BUSY ∧
        (wait = false ↔ s.host.ctrlState = .DATA_OUT)) ∧
      ((s.pipeAt c).buf.urbStatus = .IDLE ∨ (s.pipeAt c).buf.urbStatus = .PING →
        st = s.host.ctrlState ∧ wait = true ∧ err = s.host.errCnt ∧ v = .BUSY)) ∧
  ∀ (s : State) (o i : Ch), s.mode = .HOST → s.host.hcCtlOut = some o → s.host.hcCtlIn = some i →
    s.host.verdict ≠ .BUSY →
    exec .ctrlpoll s = .next { s with
      port.res := if s.host.verdict = .STALL then 5 else if s.host.verdict = .ERROR then 6 else 7 }

/-- CTRLREQ (R203): in START or OK it is CTRLSUBMIT and leaves WAITING; in WAITING it is CTRLPOLL, and `xferState`
follows the verdict; a refusal of the contained command refuses it. -/
def Obligations.CtrlreqResult : Prop :=
  ∀ (s : State) (o i : Ch), s.mode = .HOST → s.host.hcCtlOut = some o → s.host.hcCtlIn = some i →
    (s.host.xferState ≠ .WAITING → s.host.verdict ≠ .BUSY →
      s.port.arg1.toNat + (s.port.arg3.extractLsb' 16 16).toNat ≤ 2 ^ 32 →
      ∃ t, exec .ctrlsubmit s = .next t ∧ exec .ctrlreq s = .next { t with host.xferState := .WAITING }) ∧
    (s.host.xferState ≠ .WAITING →
      s.host.verdict = .BUSY ∨ 2 ^ 32 < s.port.arg1.toNat + (s.port.arg3.extractLsb' 16 16).toNat →
      exec .ctrlreq s = exec .ctrlsubmit s) ∧
    (s.host.xferState = .WAITING →
      ∃ t, exec .ctrlpoll s = .next t ∧
        ((∃ r, t = s.refusedWith r ∧ exec .ctrlreq s = .next t) ∨
          (t.port.res = t.host.verdict.code ∧
            exec .ctrlreq s = .next { t with
              host.xferState := match t.host.verdict with
                | .BUSY => .WAITING
                | .COMPLETE => .OK
                | .STALL => .START
                | .ERROR => .START })))

/-! ## The device endpoint-0 engine (R220 to R243) -/

/-- CTRLIN (R236, R237) and CTRLOUT (R238) on an active endpoint 0 that is not armed, their refusals, and CTRLSTALL
(R235). -/
def Obligations.DataStageCommands : Prop :=
  (∀ s : State, s.mode = .DEVICE →
    ((s.epAt .IN 0).active = true → (s.epAt .IN 0).epEna = false →
      s.port.arg1.toNat + s.port.arg0.toNat ≤ 2 ^ 32 →
      ∃ t, s.DataIn t s.port.arg1 s.port.arg0.toNat ∧
        exec .ctrlin s = .next { t with port.res := BitVec.ofNat 32 (clampPackets s.port.arg0.toNat s.m0).2 }) ∧
    ((s.epAt .OUT 0).active = true → (s.epAt .OUT 0).epEna = false →
      s.port.arg1.toNat + s.port.arg0.toNat ≤ 2 ^ 32 →
      ∃ t, s.DataOut t s.port.arg1 s.port.arg0.toNat ∧
        exec .ctrlout s = .next { t with port.res := BitVec.ofNat 32 (clampPackets s.port.arg0.toNat s.m0).2 }) ∧
    ((s.epAt .IN 0).active = false → exec .ctrlin s = .next (s.refusedWith .NotActive)) ∧
    ((s.epAt .OUT 0).active = false → exec .ctrlout s = .next (s.refusedWith .NotActive)) ∧
    ((s.epAt .IN 0).active = true → (s.epAt .IN 0).epEna = true →
      exec .ctrlin s = .next (s.refusedWith .ChannelBusy)) ∧
    ((s.epAt .OUT 0).active = true → (s.epAt .OUT 0).epEna = true →
      exec .ctrlout s = .next (s.refusedWith .ChannelBusy)) ∧
    ((s.epAt .IN 0).active = true → (s.epAt .IN 0).epEna = false →
      2 ^ 32 < s.port.arg1.toNat + s.port.arg0.toNat → exec .ctrlin s = .next (s.refusedWith .AddrWrap)) ∧
    ((s.epAt .OUT 0).active = true → (s.epAt .OUT 0).epEna = false →
      2 ^ 32 < s.port.arg1.toNat + s.port.arg0.toNat → exec .ctrlout s = .next (s.refusedWith .AddrWrap)) ∧
    exec .ctrlstall s = .next { s.ep0Stalled with port.res := 0 })

/-- GET_STATUS (R224), GET_CONFIGURATION (R230), GET_INTERFACE (R232): the reply is staged and sent, clamped to wLength. -/
def Obligations.StatusReplies : Prop :=
  ∀ (s : State) (dir : Dir),
    (∃ t, (s.setHalf s.stage ((if s.dev.selfPowered then 1 else 0) ||| (if s.dev.remoteWakeup then 2 else 0))).Reply
        t s.stage 2 ∧ exec (.getStatus dir 0) s = .next t) ∧
    (∀ n : EpIx, s.reqIndex.extractLsb' 0 4 = .ofNat 4 n →
      ∃ t, (s.setHalf s.stage
          (if (s.epAt (if s.reqIndex.getLsbD 7 then .IN else .OUT) n).stall then 1 else 0)).Reply t s.stage 2 ∧
        exec (.getStatus dir 2) s = .next t) ∧
    (∃ t, (s.setByte s.stage s.dev.curConfiguration).Reply t s.stage 1 ∧
      exec (.getConfiguration dir 0) s = .next t) ∧
    ∃ t, (s.setByte s.stage s.dev.curAltSetting).Reply t s.stage 1 ∧ exec (.getInterface dir 1) s = .next t

/-- SET_FEATURE (R226) and CLEAR_FEATURE (R225): remote wakeup; endpoint halt while unconfigured, endpoint 0 acknowledged
without a change; a stall in every other case. -/
def Obligations.FeatureRequests : Prop :=
  ∀ (s : State) (dir : Dir),
    (s.reqValue = 1 → ∃ l,
      exec (.setFeature dir 0) s = .next { s.statusIn with dev.ctrlState := .STATUS_IN, dev.remoteWakeup := true
                                                           env.log := l } ∧
      exec (.clearFeature dir 0) s = .next { s.statusIn with dev.ctrlState := .STATUS_IN, dev.remoteWakeup := false
                                                             env.log := l }) ∧
    (s.reqValue = 0 → s.dev.curConfiguration = 0 →
      ∀ (n : EpIx) (d : Dir), s.reqIndex.extractLsb' 0 4 = .ofNat 4 n → d = (if s.reqIndex.getLsbD 7 then .IN else .OUT) →
      (n ≠ 0 → ∃ l,
        exec (.setFeature dir 2) s = .next { (s.setEp d n { s.epAt d n with stall := true }).statusIn with
          env.log := l } ∧
        exec (.clearFeature dir 2) s = .next { (s.setEp d n
          { s.epAt d n with stall := false, dpid := .DATA0 }).statusIn with env.log := l }) ∧
      (n = 0 → ∃ l, ∀ i ∈ [.setFeature dir 2, .clearFeature dir 2],
        exec i s = .next { s.statusIn with env.log := l })) ∧
    (s.reqValue = 0 → s.dev.curConfiguration ≠ 0 ∨ 8 ≤ (s.reqIndex.extractLsb' 0 4).toNat →
      ∀ i ∈ [.setFeature dir 2, .clearFeature dir 2], ∃ l, exec i s = .next { s.ep0Stalled with env.log := l }) ∧
    (s.reqValue ≠ 1 → ∀ i ∈ [.setFeature dir 0, .clearFeature dir 0],
      ∃ l, exec i s = .next { s.ep0Stalled with env.log := l }) ∧
    (s.reqValue ≠ 0 → ∀ i ∈ [.setFeature dir 2, .clearFeature dir 2],
      ∃ l, exec i s = .next { s.ep0Stalled with env.log := l })

/-- SET_ADDRESS (R227): the address and DEFAULT or ADDRESS, status armed; a stall with the session unchanged when
CONFIGURED or out of range. SET_INTERFACE (R233): the two bytes recorded, status armed. -/
def Obligations.AddressAndInterface : Prop :=
  ∀ (s : State) (dir : Dir),
    (s.dev.devState ≠ .CONFIGURED → s.reqValue.toNat ≤ 127 → ∃ l,
      exec (.setAddress dir 0) s = .next { s.statusIn with
        dev := { s.dev with
          ctrlState := .STATUS_IN, addr := s.reqValue.extractLsb' 0 7
          devState := if s.reqValue = 0 then .DEFAULT else .ADDRESS }
        env.log := l }) ∧
    (s.dev.devState = .CONFIGURED ∨ 127 < s.reqValue.toNat →
      ∃ l, exec (.setAddress dir 0) s = .next { s.ep0Stalled with env.log := l }) ∧
    ∃ l, exec (.setInterface dir 1) s = .next { s.statusIn with
      dev := { s.dev with
        ctrlState := .STATUS_IN, curInterface := s.reqIndex.extractLsb' 0 8
        curAltSetting := s.reqValue.extractLsb' 0 8 }
      env.log := l }

/-- GET_DESCRIPTOR (R228): the table that type and index select, clamped to wLength; a stall for any other selector. -/
def Obligations.GetDescriptorReply : Prop :=
  ∀ (s : State) (dir : Dir) (t k : Nat), (s.reqValue.extractLsb' 8 8).toNat = t → (s.reqValue.extractLsb' 0 8).toNat = k →
    (∀ b : Table,
      t = 1 ∧ b = s.env.par.tblDevice ∨ t = 2 ∧ b = s.env.par.tblConfiguration ∨
        t = 3 ∧ s.env.par.tblStrings[k]? = some b ∨ t = 6 ∧ b = s.env.par.tblQualifier ∧ b.len ≠ 0 →
      ∃ u, s.Reply u b.addr b.len ∧ exec (.getDescriptor dir 0) s = .next u) ∧
    (t ≠ 1 ∧ t ≠ 2 ∧ t ≠ 3 ∧ t ≠ 6 ∨ t = 3 ∧ s.env.par.tblStrings.length ≤ k ∨ t = 6 ∧ s.env.par.tblQualifier.len = 0 →
      ∃ l, exec (.getDescriptor dir 0) s = .next { s.ep0Stalled with env.log := l })

/-- SET_CONFIGURATION (R231): a stall in DEFAULT; the two transitions, the reconfiguration, and the hook calls. -/
def Obligations.SetConfigurationRequest : Prop :=
  ∀ (s : State) (dir : Dir) (v : Byte), v = s.reqValue.extractLsb' 0 8 →
    (s.dev.devState = .DEFAULT → ∃ l, exec (.setConfiguration dir 0) s = .next { s.ep0Stalled with env.log := l }) ∧
    (s.dev.devState ≠ .DEFAULT → ∃ t,
      exec (.setConfiguration dir 0) s = .next t ∧
      t = { s.statusIn with
        dev := { s.dev with ctrlState := .STATUS_IN, curConfiguration := t.dev.curConfiguration
                            devState := t.dev.devState }
        env.log := t.env.log } ∧
      (s.dev.devState = .ADDRESS → v ≠ 0 →
        t.dev.curConfiguration = v ∧ t.dev.devState = .CONFIGURED ∧ t.events = .classInit v :: s.events) ∧
      (s.dev.devState = .ADDRESS → v = 0 →
        t.dev.curConfiguration = s.dev.curConfiguration ∧ t.dev.devState = .ADDRESS ∧ t.events = s.events) ∧
      (s.dev.devState = .CONFIGURED → v = 0 → t.dev.curConfiguration = 0 ∧ t.dev.devState = .ADDRESS ∧
        t.events = .classDeInit s.dev.curConfiguration :: s.events) ∧
      (s.dev.devState = .CONFIGURED → v ≠ 0 → v ≠ s.dev.curConfiguration →
        t.dev.curConfiguration = v ∧ t.dev.devState = .CONFIGURED ∧
        t.events = .classInit v :: .classDeInit s.dev.curConfiguration :: s.events) ∧
      (s.dev.devState = .CONFIGURED → v ≠ 0 → v = s.dev.curConfiguration →
        t.dev.curConfiguration = v ∧ t.dev.devState = .CONFIGURED ∧ t.events = s.events))

/-- Class and vendor requests (R221, R241) and SET_DESCRIPTOR with its hook (R229): the hook is called with the eight
request bytes and its answer, whatever it is, is applied; SET_DESCRIPTOR without a hook stalls. The answer is the next
one the run supplies, or a free value (entry 12); where R241 and R242 differ on it, R241 is followed (entry 35). -/
def Obligations.HookRequests : Prop :=
  (∀ (s : State) (bRequest : BitVec 8) (dir : Dir) (r : BitVec 5),
    ∀ p ∈ [(Instr.classRequest bRequest dir r, Event.classRequest s.reqBytes),
      (Instr.vendorRequest bRequest dir r, Event.vendorRequest s.reqBytes)],
    ∃ t,
      State.HookApplied { s with
        env.hookAnswers := s.env.hookAnswers.tail
        env.draws := if s.env.hookAnswers = [] then s.env.draws + 1 else s.env.draws } t dir s.nextAnswer ∧
      exec p.1 s = .next t ∧ t.events = p.2 :: s.events) ∧
  ∀ (s : State) (dir : Dir),
    (s.env.par.setDescriptorHook = true → ∃ t,
      State.HookApplied { s with
        env.hookAnswers := s.env.hookAnswers.tail
        env.draws := if s.env.hookAnswers = [] then s.env.draws + 1 else s.env.draws } t dir s.nextAnswer ∧
      exec (.setDescriptor dir 0) s = .next t ∧ t.events = .setDescriptor s.reqBytes :: s.events) ∧
    (s.env.par.setDescriptorHook = false → exec (.setDescriptor dir 0) s = .next s.ep0Stalled)

/-- A standard request with a recipient outside its row of R222, GET_STATUS of an endpoint above 7 (R224), and a request
of reserved type (R221) stall endpoint 0. -/
def Obligations.StalledRequests : Prop :=
  (∀ (s : State) (dir : Dir) (r : BitVec 5), r ≠ 0 →
    ∀ i ∈ [.setAddress dir r, .getDescriptor dir r, .setDescriptor dir r, .getConfiguration dir r,
      .setConfiguration dir r], exec i s = .next s.ep0Stalled) ∧
  (∀ (s : State) (dir : Dir) (r : BitVec 5), r ≠ 1 →
    ∀ i ∈ [.getInterface dir r, .setInterface dir r], exec i s = .next s.ep0Stalled) ∧
  (∀ (s : State) (dir : Dir) (r : BitVec 5), r ≠ 0 → r ≠ 2 →
    ∀ i ∈ [.getStatus dir r, .setFeature dir r, .clearFeature dir r],
      ∃ l, exec i s = .next { s.ep0Stalled with env.log := l }) ∧
  (∀ (s : State) (dir : Dir), 8 ≤ (s.reqIndex.extractLsb' 0 4).toNat →
    ∃ l, exec (.getStatus dir 2) s = .next { s.ep0Stalled with env.log := l }) ∧
  ∀ (s : State) (bRequest : BitVec 8) (dir : Dir) (r : BitVec 5),
    exec (.reservedTypeRequest bRequest dir r) s = .next s.ep0Stalled

/-! ## Host enumeration (R270 to R287) -/

/-- ENUMPOLL where it sends nothing: IDLE without an enabled port (R271), GET_SER_STR with serial index 0 (R279), and
CONFIGURED (R270). In IDLE with an enabled port it is CTRLOPEN of the control pair at address 0 (R271). -/
def Obligations.EnumpollIdle : Prop :=
  ∀ s : State, s.mode = .HOST →
    (s.host.enumState = .IDLE → s.host.portEnabled = false → exec .enumpoll s = .next { s with port.res := 0 }) ∧
    (s.host.enumState = .CONFIGURED → exec .enumpoll s = .next { s with port.res := 10 }) ∧
    (s.host.enumState = .GET_SER_STR → s.byte (s.devDesc + 16) = 0 → ∃ l,
      exec .enumpoll s = .next { s with host.enumState := .SET_CFG, port.res := 9, env.log := l }) ∧
    (s.host.enumState = .IDLE → s.host.portEnabled = true → ∃ t,
      exec (.ctrlopen (if s.host.speed = .LOW then 8 else 64)) { s with port.arg0 := 0 } = .next t ∧
      (t.port.res = 0xFFFFFFFF → ∃ r, exec .enumpoll s = .next (s.refusedWith r)) ∧
      (t.port.res = 0xFF → exec .enumpoll s = .next (s.refusedWith .NoChannel)) ∧
      (t.port.res ≠ 0xFFFFFFFF → t.port.res ≠ 0xFF →
        exec .enumpoll s = .next { t with
          port := { s.port with res := 1 }
          host := { t.host with devAddr := 0, itfCount := 0, enumState := .GET_DEV_DESC8 } }))

/-- ENUMPOLL in a state that sends a request is CTRLREQ of that request (R270, R276, R277, R279): while the verdict is
BUSY, and after STALL or ERROR (R283), `enumState` stays; a refusal inside refuses it; on COMPLETE the next state, and
after SET_CFG the hook call `enumDone` (R281). -/
def Obligations.EnumpollRequests : Prop :=
  ∀ (s t : State) (e : EnumState) (w0 w1 : Word) (buf : Addr), s.mode = .HOST → s.host.enumState = e →
    (e = .GET_DEV_DESC8 ∧ w0 = 0x01000680 ∧ w1 = 0x00080000 ∧ buf = s.devDesc ∨
      e = .SET_ADDR ∧ w0 = 0x00010500 ∧ w1 = 0 ∧ buf = s.devDesc ∨
      e = .GET_DEV_DESC ∧ w0 = 0x01000680 ∧ w1 = 0x00120000 ∧ buf = s.devDesc ∨
      e = .GET_CFG_DESC9 ∧ w0 = 0x02000680 ∧ w1 = 0x00090000 ∧ buf = s.cfgDesc ∨
      e = .GET_CFG_DESC ∧ w0 = 0x02000680 ∧ buf = s.cfgDesc ∧
        w1 = BitVec.ofNat 32 (65536 * min (s.half (s.cfgDesc + 2)).toNat 256) ∨
      e = .GET_MFC_STR ∧ w0 = 0x03000680 ||| (s.byte (s.devDesc + 14)).setWidth 32 <<< 16 ∧ w1 = 0x00FF0409 ∧
        buf = s.strDesc 0 ∨
      e = .GET_PROD_STR ∧ w0 = 0x03000680 ||| (s.byte (s.devDesc + 15)).setWidth 32 <<< 16 ∧ w1 = 0x00FF0409 ∧
        buf = s.strDesc 1 ∨
      e = .GET_SER_STR ∧ w0 = 0x03000680 ||| (s.byte (s.devDesc + 16)).setWidth 32 <<< 16 ∧ w1 = 0x00FF0409 ∧
        buf = s.strDesc 2 ∧ s.byte (s.devDesc + 16) ≠ 0 ∨
      e = .SET_CFG ∧ w0 = 0x00000900 ||| (s.byte (s.cfgDesc + 5)).setWidth 32 <<< 16 ∧ w1 = 0 ∧ buf = s.devDesc) →
    exec .ctrlreq { s with port := { s.port with arg1 := buf, arg2 := w0, arg3 := w1 } } = .next t →
    (t.port.res = 0xFFFFFFFF → ∃ r, exec .enumpoll s = .next (s.refusedWith r)) ∧
    (t.port.res ≠ 0xFFFFFFFF → t.port.res ≠ 7 → ∃ l,
      exec .enumpoll s = .next { t with port := { s.port with res := e.code }, env.log := l }) ∧
    (t.port.res = 7 →
      ∀ e' : EnumState,
        e = .GET_DEV_DESC ∧ e' = .GET_CFG_DESC9 ∨ e = .GET_CFG_DESC9 ∧ e' = .GET_CFG_DESC ∨
          e = .GET_MFC_STR ∧ e' = .GET_PROD_STR ∨ e = .GET_PROD_STR ∧ e' = .GET_SER_STR ∨
          e = .GET_SER_STR ∧ e' = .SET_CFG ∨ e = .SET_CFG ∧ e' = .CONFIGURED →
        ∃ u, exec .enumpoll s = .next u ∧
          u = { t with port := { s.port with res := e'.code }, host.enumState := e', env.log := u.env.log } ∧
          u.events = if e = .SET_CFG then .enumDone :: t.events else t.events)

/-- What ENUMPOLL does when a request completes that more follows than the next state (R272, R273, R276): from the last
poll of the request, it is CTRLOPEN with the learned packet size or the assigned address, or CFGPARSE of the cached
configuration, and the next state. A cached configuration that passes the top of the address space refuses it (R285). -/
def Obligations.EnumpollCompletes : Prop :=
  ∀ s t : State, s.mode = .HOST → s.host.xferState = .WAITING → exec .ctrlpoll s = .next t → t.port.res = 7 →
    (s.host.enumState = .GET_DEV_DESC8 → s.byte (s.devDesc + 7) = 0 → ∃ l,
      exec .enumpoll s = .next { t with
        port := { s.port with res := 2 }, host.xferState := .OK, host.enumState := .SET_ADDR, env.log := l }) ∧
    (s.host.enumState = .GET_DEV_DESC8 → ∀ u,
      exec (.ctrlopen ((s.byte (s.devDesc + 7)).setWidth 11)) { t with port.arg0 := 0 } = .next u →
      s.byte (s.devDesc + 7) ≠ 0 → u.port.res ≠ 0xFFFFFFFF → u.port.res ≠ 0xFF → ∃ l,
      exec .enumpoll s = .next { u with
        port := { s.port with res := 2 }, host.xferState := .OK, host.enumState := .SET_ADDR, env.log := l }) ∧
    (s.host.enumState = .SET_ADDR → ∀ u,
      exec (.ctrlopen s.host.ctrlMps) { t with port.arg0 := 1 } = .next u →
      u.port.res ≠ 0xFFFFFFFF → u.port.res ≠ 0xFF → ∃ l,
      exec .enumpoll s = .next { u with
        port := { s.port with res := 3 }, host.xferState := .OK, host.devAddr := 1, host.enumState := .GET_DEV_DESC
        env.log := l }) ∧
    (s.host.enumState = .GET_CFG_DESC → ∀ (n : Nat) (u : State), n = min (s.half (s.cfgDesc + 2)).toNat 256 →
      s.cfgDesc.toNat + n ≤ 2 ^ 32 → s.env.fgStuck = false →
      exec .cfgparse { t with port := { t.port with arg0 := BitVec.ofNat 32 n, arg1 := s.cfgDesc } } = .next u →
      u.env.fgStuck = false → ∃ l,
      exec .enumpoll s = .next { u with
        port := { s.port with res := 6 }, host.xferState := .OK, host.enumState := .GET_MFC_STR, env.log := l }) ∧
    (s.host.enumState = .GET_CFG_DESC → 2 ^ 32 < s.cfgDesc.toNat + min (s.half (s.cfgDesc + 2)).toNat 256 →
      exec .enumpoll s = .next (s.refusedWith .AddrWrap))

/-- CFGPARSE (R285, R286): for any buffer, the interfaces kept are the first two interface descriptors walked, each with
the first two endpoint descriptors between it and the next interface descriptor; a slot above their count has no endpoint
and keeps its bytes (entry 29); only the parsed configuration, RES and the history change. Where the walk meets a length
of 0 the foreground is stuck after what was walked before, and RES is not written; that this is a next state is the
model's choice (entry 10). -/
def Obligations.CfgparseResult : Prop :=
  ∀ (s : State) (f : Nat → Byte), s.mode = .HOST → s.port.arg1.toNat + s.port.arg0.toNat ≤ 2 ^ 32 →
    (∀ k, f k = s.byte (s.port.arg1 + BitVec.ofNat 32 k)) →
    (s.port.arg0.toNat < 4 →
      exec .cfgparse s = .next { s with
        host.itfCount := 0, host.itf := s.host.itf.map fun i => { i with epCount := 0 }, port.res := 0 }) ∧
    (4 ≤ s.port.arg0.toNat → ∀ (ds : List Nat) (zero : Bool),
      descriptorWalk f (min (256 * (f 3).toNat + (f 2).toNat) s.port.arg0.toNat) = (ds, zero) →
      ∃ itf l,
        exec .cfgparse s = .next { s with
          host.itfCount := BitVec.ofNat 8 (keptInterfaces f ds).length
          host.itf := itf
          port.res := if zero then s.port.res else BitVec.ofNat 32 (keptInterfaces f ds).length
          env.log := l
          env.fgStuck := if zero then true else s.env.fgStuck } ∧
        ∀ j : Fin 2,
          (∀ p, (keptInterfaces f ds)[j.val]? = some p →
            itf[j].raw = rawDescriptor 9 f p ∧
            itf[j].epCount = BitVec.ofNat 8 (keptEndpoints f ds p).length ∧
            ∀ k : Fin 2,
              itf[j].ep[k] = match (keptEndpoints f ds p)[k.val]? with
                | some q => rawDescriptor 7 f q
                | none => s.host.itf[j].ep[k]) ∧
          ((keptInterfaces f ds)[j.val]? = none → itf[j] = { s.host.itf[j] with epCount := 0 }))

/-! ## Interrupt handlers (R300 to R359) -/

/-- RXFLVL in host mode (R310, R313 to R315): an IN_DATA entry is copied to the pipe's buffer, the record advanced, the
channel re-armed when more packets are expected and no halt is under way; any other status word is popped, no more. -/
def Obligations.HostReceive : Prop :=
  ∀ (s : State) (st : Word) (q : List Word), memWf s.mem = true → s.mode = .HOST → s.fifo.rxq = st :: q →
    (∀ (c : Ch) (n : Nat), st.extractLsb' 17 4 = 2 → st.extractLsb' 0 4 = .ofNat 4 c → (st.extractLsb' 4 11).toNat = n →
      n ≤ (s.pipeAt c).buf.bufLen.toNat → wordsOf n ≤ q.length →
      ∃ m l,
        rxflvlHandler s = .ok () { (if 1 < (s.pipeAt c).buf.pktCnt.toNat ∧
              ((s.hcAt c).chEna = false ∨ (s.hcAt c).chDis = false) then
            s.setHc c { s.hcAt c with chEna := true, chDis := false } else s).setPipe c { s.pipeAt c with
              buf := { (s.pipeAt c).buf with
                bufPtr := (s.pipeAt c).buf.bufPtr + BitVec.ofNat 32 n
                bufLen := (s.pipeAt c).buf.bufLen - BitVec.ofNat 32 n
                xferCount := (s.pipeAt c).buf.xferCount + BitVec.ofNat 32 n
                pktCnt := BitVec.ofNat 10 ((s.pipeAt c).buf.pktCnt.toNat - 1) } } with
          fifo.rxq := q.drop (wordsOf n)
          mem := m
          gintmsk := s.gintmsk ||| 0x001
          env.log := l } ∧
        (∀ k < n, memGet m ((s.pipeAt c).buf.bufPtr + BitVec.ofNat 32 k).toNat = wordsByte q k) ∧
        ∀ x : Addr, (∀ k < n, x ≠ (s.pipeAt c).buf.bufPtr + BitVec.ofNat 32 k) → memGet m x.toNat = s.byte x) ∧
    (st.extractLsb' 17 4 ≠ 2 → ∃ l,
      rxflvlHandler s = .ok () { s with fifo.rxq := q, gintmsk := s.gintmsk ||| 0x001, env.log := l })

/-- RXFLVL in device mode (R310 to R312, R315): OUT_DATA to the endpoint's buffer, SETUP_DATA to the scratch region. -/
def Obligations.DeviceReceive : Prop :=
  ∀ (s : State) (st : Word) (q : List Word), memWf s.mem = true → s.mode = .DEVICE → s.fifo.rxq = st :: q →
    (∀ (e : EpIx) (n : Nat), st.extractLsb' 17 4 = 2 → st.extractLsb' 0 4 = .ofNat 4 e →
      (st.extractLsb' 4 11).toNat = n → n ≤ (s.epbAt .OUT e).bufLen.toNat → wordsOf n ≤ q.length →
      ∃ m l,
        rxflvlHandler s = .ok () { s.setEpb .OUT e { s.epbAt .OUT e with
            bufPtr := (s.epbAt .OUT e).bufPtr + BitVec.ofNat 32 n
            bufLen := (s.epbAt .OUT e).bufLen - BitVec.ofNat 32 n
            xferCount := (s.epbAt .OUT e).xferCount + BitVec.ofNat 32 n
            pktCnt := BitVec.ofNat 10 ((s.epbAt .OUT e).pktCnt.toNat - 1) } with
          fifo.rxq := q.drop (wordsOf n)
          mem := m
          gintmsk := s.gintmsk ||| 0x001
          env.log := l } ∧
        (∀ k < n, memGet m ((s.epbAt .OUT e).bufPtr + BitVec.ofNat 32 k).toNat = wordsByte q k) ∧
        ∀ x : Addr, (∀ k < n, x ≠ (s.epbAt .OUT e).bufPtr + BitVec.ofNat 32 k) → memGet m x.toNat = s.byte x) ∧
    (st.extractLsb' 17 4 = 6 → st.extractLsb' 4 11 = 8 → 2 ≤ q.length →
      ∃ m l,
        rxflvlHandler s = .ok () { s with
          fifo.rxq := q.drop 2, mem := m, gintmsk := s.gintmsk ||| 0x001, env.log := l } ∧
        (∀ k < 8, memGet m (s.scratch + BitVec.ofNat 32 k).toNat = wordsByte q k) ∧
        ∀ x : Addr, (∀ k < 8, x ≠ s.scratch + BitVec.ofNat 32 k) → memGet m x.toNat = s.byte x) ∧
    (st.extractLsb' 17 4 ≠ 2 → st.extractLsb' 17 4 ≠ 6 → ∃ l,
      rxflvlHandler s = .ok () { s with fifo.rxq := q, gintmsk := s.gintmsk ||| 0x001, env.log := l })

/-- The faults of the RXFLVL handler (R311 to R313, R370): the status word stays popped, the latch records the fault, and
RXFLVL stays disabled (R315). With too few words queued, those queued are popped, their bytes written to the packet's
buffer and every other byte kept. A fault of the block is a next state (entry 8). -/
def Obligations.ReceiveFaults : Prop :=
  ∀ (s : State) (st : Word) (q : List Word), memWf s.mem = true → s.fifo.rxq = st :: q →
    (s.mode = .HOST ∧ st.extractLsb' 17 4 = 2 ∧ 11 < (st.extractLsb' 0 4).toNat ∨
        s.mode = .DEVICE ∧ st.extractLsb' 17 4 = 2 ∧ 7 < (st.extractLsb' 0 4).toNat ∨
        s.mode = .DEVICE ∧ st.extractLsb' 17 4 = 6 ∧ st.extractLsb' 4 11 ≠ 8 →
      rxflvlHandler s = .error .raised { s with
        fifo.rxq := q, gintmsk := s.gintmsk &&& 0x1FFE, fault.rxBadStatus := true
        env.log := .rxPop st :: s.env.log }) ∧
    ((∃ c : Ch, s.mode = .HOST ∧ st.extractLsb' 17 4 = 2 ∧ st.extractLsb' 0 4 = .ofNat 4 c ∧
          (s.pipeAt c).buf.bufLen.toNat < (st.extractLsb' 4 11).toNat) ∨
        (∃ n : EpIx, s.mode = .DEVICE ∧ st.extractLsb' 17 4 = 2 ∧ st.extractLsb' 0 4 = .ofNat 4 n ∧
          (s.epbAt .OUT n).bufLen.toNat < (st.extractLsb' 4 11).toNat) →
      rxflvlHandler s = .error .raised { s with
        fifo.rxq := q, gintmsk := s.gintmsk &&& 0x1FFE, fault.rxOverrun := true
        env.log := .rxPop st :: s.env.log }) ∧
    ∀ a : Addr,
      ((∃ c : Ch, s.mode = .HOST ∧ st.extractLsb' 17 4 = 2 ∧ st.extractLsb' 0 4 = .ofNat 4 c ∧
            (st.extractLsb' 4 11).toNat ≤ (s.pipeAt c).buf.bufLen.toNat ∧ a = (s.pipeAt c).buf.bufPtr) ∨
          (∃ n : EpIx, s.mode = .DEVICE ∧ st.extractLsb' 17 4 = 2 ∧ st.extractLsb' 0 4 = .ofNat 4 n ∧
            (st.extractLsb' 4 11).toNat ≤ (s.epbAt .OUT n).bufLen.toNat ∧ a = (s.epbAt .OUT n).bufPtr) ∨
          s.mode = .DEVICE ∧ st.extractLsb' 17 4 = 6 ∧ st.extractLsb' 4 11 = 8 ∧ a = s.scratch) →
      q.length < wordsOf (st.extractLsb' 4 11).toNat →
      ∃ m l,
        rxflvlHandler s = .error .raised { s with
          fifo.rxq := [], gintmsk := s.gintmsk &&& 0x1FFE, fault.rxUnderflow := true, mem := m, env.log := l } ∧
        (∀ k < 4 * q.length, memGet m (a + BitVec.ofNat 32 k).toNat = wordsByte q k) ∧
        ∀ x : Addr, (∀ k < 4 * q.length, x ≠ a + BitVec.ofNat 32 k) → memGet m x.toNat = s.byte x

/-- The host TxFIFO-empty handlers (R320). With packets of a whole number of words: if the free words exceed the words
of all remaining bytes, everything that remains of the least waiting channel is written, and the interrupt is disabled
unless another channel waits; else nothing changes. With no waiting channel the interrupt is disabled. For every packet
size the handler ends without a fault. -/
def Obligations.TxfeDrain : Prop :=
  ∀ (s : State) (k : TxClass) (f : GFlag) (waits : Ch → Prop), s.mode = .HOST →
    (k = .NP ∧ f = .NPTXFE ∨ k = .P ∧ f = .PTXFE) →
    (∀ c, waits c ↔ s.classOf c = k ∧ (s.hcAt c).dir = .OUT ∧ (s.hcAt c).chEna = true ∧ (s.hcAt c).chDis = false ∧
      (s.pipeAt c).buf.bufLen ≠ 0) →
    (∃ t, handler f s = .ok () t) ∧
    ((∀ c, ¬ waits c) → handler f s = .ok () { s with gintmsk := s.gintmsk &&& ~~~BitVec.twoPow 13 f.bit }) ∧
    ∀ c, waits c → (∀ j < c, ¬ waits j) →
      (s.txSpace k ≤ wordsOf (s.pipeAt c).buf.bufLen.toNat → handler f s = .ok () s) ∧
      (wordsOf (s.pipeAt c).buf.bufLen.toNat < s.txSpace k → (s.hcAt c).mps ≠ 0 → (s.hcAt c).mps.toNat % 4 = 0 →
        ∃ W l d mask,
          s.Carries W (s.pipeAt c).buf.bufPtr (s.pipeAt c).buf.bufLen.toNat ∧
          handler f s = .ok () { (s.setPipe c { s.pipeAt c with buf := { (s.pipeAt c).buf with
              bufPtr := (s.pipeAt c).buf.bufPtr + (s.pipeAt c).buf.bufLen
              bufLen := 0
              xferCount := (s.pipeAt c).buf.xferCount + (s.pipeAt c).buf.bufLen } }).setTxq c (s.txqAt c ++ W) with
            gintmsk := mask, env.log := l, env.draws := d } ∧
          ((∃ j, j ≠ c ∧ waits j) → mask = s.gintmsk) ∧
          ((∀ j, j ≠ c → ¬ waits j) → mask = s.gintmsk &&& ~~~BitVec.twoPow 13 f.bit))

/-- The TXFE handler of a device IN endpoint (R357), the same condition on the endpoint's own queue. -/
def Obligations.EndpointTxfeDrain : Prop :=
  ∀ (s : State) (n : EpIx), s.mode = .DEVICE →
    (∃ t, epTxfeHandler n s = .ok () t) ∧
    ((s.epAt .IN n).epEna = false ∨ (s.epbAt .IN n).bufLen = 0 →
      epTxfeHandler n s = .ok () (s.setEp .IN n { s.epAt .IN n with mAux := false })) ∧
    ((s.epAt .IN n).epEna = true → (s.epbAt .IN n).bufLen ≠ 0 →
      (s.txSpace (.EP (Tgt.ep .IN n).num) ≤ wordsOf (s.epbAt .IN n).bufLen.toNat → epTxfeHandler n s = .ok () s) ∧
      (wordsOf (s.epbAt .IN n).bufLen.toNat < s.txSpace (.EP (Tgt.ep .IN n).num) → s.epMps .IN n ≠ 0 →
        (s.epMps .IN n).toNat % 4 = 0 →
        ∃ W l d,
          s.Carries W (s.epbAt .IN n).bufPtr (s.epbAt .IN n).bufLen.toNat ∧
          epTxfeHandler n s = .ok () { ((s.setEpb .IN n { s.epbAt .IN n with
              bufPtr := (s.epbAt .IN n).bufPtr + (s.epbAt .IN n).bufLen
              bufLen := 0
              xferCount := (s.epbAt .IN n).xferCount + (s.epbAt .IN n).bufLen }).setEp .IN n
              { s.epAt .IN n with mAux := false }).setTxq (Tgt.ep .IN n).num
              (s.txqAt (Tgt.ep .IN n).num ++ W) with
            env.log := l, env.draws := d }))

/-- The HCINT handler (R321): of every enabled channel with a masked flag pending exactly the first flag of the priority
list is cleared and served; every other channel is kept; a flush bit is set exactly where it was or where serving a
channel sets it (R155); all other state but the history is kept. -/
def Obligations.HcintServesOneFlag : Prop :=
  ∀ (s : State) (serves : Ch → ChFlag → Prop) (after : Ch → ChFlag → State),
    (∀ i f, serves i f ↔ s.haintmsk.getLsbD i.val = true ∧
      ([ChFlag.AHBERR, .ACK, .STALL, .DTERR, .FRMOR, .XFRC, .CHH, .XACTERR, .NAK, .BBLERR, .NYET].find? fun g =>
        ((s.hcAt i).int &&& (s.hcAt i).intMsk).getLsbD g.bit) = some f) →
    (∀ i f, after i f =
      (s.setHc i { s.hcAt i with int := (s.hcAt i).int &&& ~~~BitVec.twoPow 11 f.bit }).serveChFlag i f) →
    ∃ t,
      hcintHandler s = .ok () t ∧
      t = { s with
        hc := t.hc, pipe := t.pipe, fifo.qFlushNP := t.fifo.qFlushNP, fifo.qFlushP := t.fifo.qFlushP
        env.log := t.env.log } ∧
      (t.fifo.qFlushNP = true ↔
        s.fifo.qFlushNP = true ∨ ∃ i f, serves i f ∧ (after i f).fifo.qFlushNP = true) ∧
      (t.fifo.qFlushP = true ↔
        s.fifo.qFlushP = true ∨ ∃ i f, serves i f ∧ (after i f).fifo.qFlushP = true) ∧
      ∀ i : Ch,
        (s.haintmsk.getLsbD i.val = false ∨ (s.hcAt i).int &&& (s.hcAt i).intMsk = 0 →
          t.hcAt i = s.hcAt i ∧ t.pipeAt i = s.pipeAt i) ∧
        ∀ f, serves i f → t.hcAt i = (after i f).hcAt i ∧ t.pipeAt i = (after i f).pipeAt i

/-- Channel flags (R322 to R325, R327 to R330, R333, R335): what each does after its bit is cleared; and the abnormal
complete CHH (R326), where the recorded pipe state becomes the URB status, with the toggle by packet parity on a bulk or
interrupt pipe, whose packet size is not 0. -/
def Obligations.ChannelFlags : Prop :=
  ∀ (s : State) (i : Ch),
    (∀ f ∈ [ChFlag.AHBERR, .ACK], s.serveChFlag i f = s) ∧
    (∀ p ∈ [(ChFlag.STALL, PipeState.STALL), (.XFRC, .OK), (.DTERR, .DATATGLERR), (.FRMOR, .XACTERR),
        (.XACTERR, .XACTERR), (.BBLERR, .BBLERR)],
      s.serveChFlag i p.1 = (s.setPipe i { s.pipeAt i with buf := { (s.pipeAt i).buf with pipeState := p.2 } }).halt i) ∧
    (∀ p ∈ [(ChFlag.NAK, PipeState.NAK), (.NYET, .NYET)],
      ((s.hcAt i).epType = .CONTROL ∨ (s.hcAt i).epType = .BULK →
        s.serveChFlag i p.1 = if (s.hcAt i).chEna = true ∧ (s.hcAt i).chDis = true then s
          else s.setHc i { s.hcAt i with chEna := true, chDis := false }) ∧
      ((s.hcAt i).epType = .INTERRUPT →
        s.serveChFlag i p.1 =
          (s.setPipe i { s.pipeAt i with buf := { (s.pipeAt i).buf with pipeState := p.2 } }).halt i) ∧
      ((s.hcAt i).epType = .ISOCHRONOUS → s.serveChFlag i p.1 = s)) ∧
    (∀ p ∈ [(PipeState.STALL, UrbStatus.STALL), (.XACTERR, .ERROR), (.BBLERR, .ERROR), (.DATATGLERR, .ERROR),
        (.NAK, .NOREADY), (.NYET, .NOREADY), (.HALTED, (s.pipeAt i).buf.urbStatus)],
      (s.pipeAt i).buf.pipeState = p.1 →
        s.serveChFlag i .CHH = s.setPipe i { s.pipeAt i with
          buf := { (s.pipeAt i).buf with urbStatus := p.2, pipeState := .HALTED } }) ∧
    ((s.pipeAt i).buf.pipeState = .OK →
      (s.pipeAt i).mps ≠ 0 ∨ (s.pipeAt i).epType = .CONTROL ∨ (s.pipeAt i).epType = .ISOCHRONOUS →
      s.serveChFlag i .CHH = s.setPipe i { s.pipeAt i with
        buf := { (s.pipeAt i).buf with
          urbStatus := .OK
          pipeState := .HALTED
          toggle :=
            if (s.pipeAt i).epType = .BULK ∨ (s.pipeAt i).epType = .INTERRUPT then
              (s.pipeAt i).buf.toggle ^^ decide (max 1 (((s.pipeAt i).buf.xferCount.toNat +
                (s.pipeAt i).mps.toNat - 1) / (s.pipeAt i).mps.toNat) % 2 = 1)
            else (s.pipeAt i).buf.toggle } })

/-- HPRTINT (R340) and DISCINT (R345): connect; port enable, with the speed, the frame interval, the clock and the port
reset it may trigger; port disable; detach. -/
def Obligations.PortAndDetach : Prop :=
  ∀ s : State,
    (s.hprt.pcdet = true → s.hprt.penchng = false →
      hprtHandler s = .ok () { s with
        hprt.pcdet := false, host.connected := true, env.log := .event .deviceAttached :: s.env.log }) ∧
    (s.hprt.pcdet = false → s.hprt.penchng = true → s.hprt.pena = false →
      hprtHandler s = .ok () { s with hprt.penchng := false, host.portEnabled := false }) ∧
    (s.hprt.pcdet = false → s.hprt.penchng = true → s.hprt.pena = true →
      hprtHandler s = .ok () { s with
        hprt.penchng := false
        host.speed := s.hprt.pspd
        host.portEnabled := true
        frameInterval := match s.hprt.pspd with
          | .LOW => s.env.par.frivlLow
          | .FULL => s.env.par.frivlFull
          | .HIGH => s.env.par.frivlHigh
        hostClkSel := s.hprt.pspd
        gintmsk := s.gintmsk ||| 0x0020
        env.log := .event (.deviceSpeedDetected s.hprt.pspd) ::
          if s.hostClkSel = s.hprt.pspd then s.env.log else .event .portReset :: s.env.log }) ∧
    (s.hprt.pcdet = true → s.hprt.penchng = true →
      hprtHandler s = hprtHandler { s with
        hprt.pcdet := false, host.connected := true, env.log := .event .deviceAttached :: s.env.log }) ∧
    (s.hprt.pcdet = false → s.hprt.penchng = false → hprtHandler s = .ok () s) ∧
    ∃ t,
      discHandler s = .ok () t ∧
      t = { s with
        lat.discint := false
        gintmsk := 0
        haintmsk := 0
        hc := t.hc
        pipe := t.pipe
        fifo := { s.fifo with txq := .replicate 12 [], qFlushNP := false, qFlushP := false }
        host := { s.host with connected := false, portEnabled := false, enumState := .IDLE, itfCount := 0 }
        env.log := .event .deviceDetached :: s.env.log } ∧
      ∀ i : Ch, t.hcAt i = { s.hcAt i with intMsk := 0, chEna := false, chDis := false } ∧
        t.pipeAt i = { s.pipeAt i with buf := { bufPtr := 0, bufLen := 0, xferCount := 0, pktCnt := 0, toggle := false
                                                urbStatus := .IDLE, pipeState := .OK } }

/-- The latched events. USBRST (R350): the endpoints at their defaults, endpoint 0 active with 64-byte packets (code 0) and
its interrupts enabled, the session of a device in DEFAULT; the RxFIFO is not flushed, `speed` and `selfPowered` are kept.
SOF (R347) and ENUMDNE (R353) clear their flag, USBSUSP (R358) and WKUPINT (R359) clear it and call their hook. -/
def Obligations.BusResetSession : Prop :=
  ∀ s : State,
    handler .SOF s = .ok () { s with lat.sof := false } ∧
    handler .ENUMDNE s = .ok () { s with lat.enumdne := false } ∧
    handler .USBSUSP s = .ok () { s with lat.usbsusp := false, env.log := .event .suspend :: s.env.log } ∧
    handler .WKUPINT s = .ok () { s with lat.wkupint := false, env.log := .event .wakeup :: s.env.log } ∧
    ∃ t,
      usbrstHandler s = .ok () t ∧
      t = { s with
        lat.usbrst := false
        dep := t.dep
        fifo.txq := t.fifo.txq
        dev := { ctrlState := .SETUP, zlpPending := false, addr := 0, curConfiguration := 0, devState := .DEFAULT
                 speed := s.dev.speed, curInterface := 0, curAltSetting := 0, remoteWakeup := false
                 selfPowered := s.dev.selfPowered }
        env.log := .event .reset :: s.env.log } ∧
      t.dep.daintmskIn = 1 ∧ t.dep.daintmskOut = 1 ∧
      (∀ c : Ch, t.txqAt c = if c.val < 8 then [] else s.txqAt c) ∧
      ∀ (d : Dir) (n : EpIx),
        t.epbAt d n = { bufPtr := 0, bufLen := 0, xferCount := 0, pktCnt := 0, toggle := false, urbStatus := .IDLE
                        pipeState := .OK } ∧
        t.epAt d n = { active := decide (n = 0), mps := 0, epType := .CONTROL, stall := false, epEna := false
                       xferSize := 0, pktCnt := 0, dpid := .DATA0, oddFrame := false, xfrc := false, stup := false
                       mXfrc := decide (n = 0), mAux := decide (n = 0 ∧ d = .OUT) }

/-- Endpoint interrupts and the stages of endpoint 0. The scans of OEPINT (R351) and IEPINT (R355) take the endpoints in
ascending order and skip one whose bit of `daintmsk` is 0; a completed transfer (R352, R356) runs the stage of endpoint 0
or calls `classCore`, and is served before STUP and before TXFE. A completed IN transfer of endpoint 0 (R239, with the
trailing zero-length packet of R237), a completed OUT transfer (R240), where the data-stage hook's answer is the next one
the run supplies, or a free value (entry 12). -/
def Obligations.Ep0Stages : Prop :=
  ∀ s : State,
    oepHandler s = (serveOut 0 >>= fun _ => serveOut 1 >>= fun _ => serveOut 2 >>= fun _ => serveOut 3 >>= fun _ =>
      serveOut 4 >>= fun _ => serveOut 5 >>= fun _ => serveOut 6 >>= fun _ => serveOut 7) s ∧
    iepHandler s = (serveIn 0 >>= fun _ => serveIn 1 >>= fun _ => serveIn 2 >>= fun _ => serveIn 3 >>= fun _ =>
      serveIn 4 >>= fun _ => serveIn 5 >>= fun _ => serveIn 6 >>= fun _ => serveIn 7) s ∧
    (∀ n : EpIx,
      (s.dep.daintmskOut.getLsbD n.val = false → serveOut n s = .ok () s) ∧
      (s.dep.daintmskIn.getLsbD n.val = false → serveIn n s = .ok () s) ∧
      (s.dep.daintmskOut.getLsbD n.val = true → ∀ s1 s2 u : State,
        s1 = s.setEp .OUT n { s.epAt .OUT n with xfrc := false } →
        (n = 0 → dataOutStage s1 = .ok () s2) →
        (n ≠ 0 → s2 = { s1 with env.log := .event (.classCore .OUT n) :: s.env.log }) →
        u = (if (s.epAt .OUT n).xfrc = true ∧ (s.epAt .OUT n).mXfrc = true then s2 else s) →
        serveOut n s = if (u.epAt .OUT n).stup = true ∧ (u.epAt .OUT n).mAux = true then
            (if n = 0 then setupStage else pure ()) (u.setEp .OUT n { u.epAt .OUT n with stup := false })
          else .ok () u) ∧
      (s.dep.daintmskIn.getLsbD n.val = true → ∀ s1 s2 u : State,
        s1 = s.setEp .IN n { s.epAt .IN n with xfrc := false } →
        (n = 0 → dataInStage s1 = .ok () s2) →
        (n ≠ 0 → s2 = { s1 with env.log := .event (.classCore .IN n) :: s.env.log }) →
        u = (if (s.epAt .IN n).xfrc = true ∧ (s.epAt .IN n).mXfrc = true then s2 else s) →
        serveIn n s = if u.txqAt (Tgt.ep .IN n).num = [] ∧ (u.epAt .IN n).mAux = true then epTxfeHandler n u
          else .ok () u)) ∧
    (s.dev.ctrlState = .DATA_IN → s.dev.zlpPending = true → ∃ l,
      dataInStage s = .ok () { s.armZero .IN with dev.zlpPending := false, env.log := l }) ∧
    (s.dev.ctrlState = .DATA_IN → s.dev.zlpPending = false → ∃ l,
      dataInStage s = .ok () { s.statusOut with env.log := l }) ∧
    (s.dev.ctrlState = .STATUS_IN → dataInStage s = .ok () { s with dev.ctrlState := .SETUP }) ∧
    (s.dev.ctrlState ≠ .DATA_IN → s.dev.ctrlState ≠ .STATUS_IN → dataInStage s = .ok () s) ∧
    (s.dev.ctrlState = .DATA_OUT → ∀ (ack : Bool) (rest : List Bool) (d : Nat),
      (s.env.ackAnswers = ack :: rest ∧ d = s.env.draws ∨
        s.env.ackAnswers = [] ∧ rest = [] ∧ ack = Config.freeAck s.env.draws ∧ d = s.env.draws + 1) → ∃ t l,
      dataOutStage s = .ok () t ∧ t.events = .ctrlOutDone s.reqBytes :: s.events ∧
      t = { (if ack then s.statusIn else s.ep0Stalled) with
        env := { s.env with ackAnswers := rest, draws := d, log := l } }) ∧
    (s.dev.ctrlState = .STATUS_OUT → dataOutStage s = .ok () { s with dev.ctrlState := .SETUP }) ∧
    (s.dev.ctrlState ≠ .DATA_OUT → s.dev.ctrlState ≠ .STATUS_OUT → dataOutStage s = .ok () s)

/-- The pass (R25, R300, R301): with `irq = 0` there is no step (the model's choice for a scheduled one: nothing changes,
entry 1); else the pass tests the sources of the mode's column of R301 in its order, each when its turn comes, and runs the
sub-handler of each one that is pending and enabled then; a fault in one ends the pass (R370). The history records the pass
and the sources served (R85), each at most once, RXFLVL first of all when it is pending and enabled. -/
def Obligations.PassOrder : Prop :=
  (∀ s : State, s.irq = false → runIrq s = .next s) ∧
  ∀ s : State, s.irq = true → ∃ t served,
    runIrq s = .next t ∧
    (s.mode = .HOST → PassOver
      [(.RXFLVL, rxflvlHandler), (.NPTXFE, handler .NPTXFE), (.PTXFE, handler .PTXFE), (.HCINT, hcintHandler),
        (.HPRTINT, hprtHandler), (.DISCINT, discHandler), (.SOF, handler .SOF)]
      { s with env.log := .pass :: s.env.log } t) ∧
    (s.mode = .DEVICE → PassOver
      [(.RXFLVL, rxflvlHandler), (.USBRST, usbrstHandler), (.ENUMDNE, handler .ENUMDNE), (.IEPINT, iepHandler),
        (.OEPINT, oepHandler), (.USBSUSP, handler .USBSUSP), (.WKUPINT, handler .WKUPINT), (.SOF, handler .SOF)]
      { s with env.log := .pass :: s.env.log } t) ∧
    List.Sublist served (if s.mode = .HOST then [.RXFLVL, .NPTXFE, .PTXFE, .HCINT, .HPRTINT, .DISCINT, .SOF]
      else [.RXFLVL, .USBRST, .ENUMDNE, .IEPINT, .OEPINT, .USBSUSP, .WKUPINT, .SOF]) ∧
    (t.env.log.filterMap fun
      | .source f => some f
      | _ => none) = served.reverse ++ s.env.log.filterMap (fun
      | .source f => some f
      | _ => none) ∧
    (s.fifo.rxq ≠ [] → s.gintmsk.getLsbD 0 = true → served.head? = some .RXFLVL)

/-! ## The whole machine -/

/-- Reset (R47): every stored bit zero and NO_CHANNEL in the two channel numbers, for every setting of the open
parameters; the level flags of the empty queues read 1, masked; `irq` is 0; 0 is the code of each enumeration's initial
member (R105). That `State.reset` takes the parameters `Config.resetParams`, which keep the layout of R77, is the model's
choice (entries 3 and 33), and so are the slots the BUS owns (entry 6). -/
def Obligations.ResetState : Prop :=
  State.reset = State.resetWith Config.resetParams ∧ State.reset.layoutKept = true ∧
  (Mode.DEVICE.code = 0 ∧ Dir.OUT.bit = 0 ∧ EpType.CONTROL.bits = 0 ∧ Pid.DATA0.code = 0 ∧ Speed.LOW.code = 0 ∧
    UrbStatus.IDLE.code = 0 ∧ PipeState.OK.code = 0 ∧ CtrlState.SETUP.code = 0 ∧ Verdict.BUSY.code = 0 ∧
    XferState.START.code = 0 ∧ DevState.DEFAULT.code = 0 ∧ EnumState.IDLE.code = 0) ∧
  ∀ p : Params, ∃ s, s = State.resetWith p ∧
    s.port = { cmd := 0, arg0 := 0, arg1 := 0, arg2 := 0, arg3 := 0, res := 0 } ∧ s.mode = .DEVICE ∧
    s.lat = { discint := false, sof := false, usbrst := false, enumdne := false, usbsusp := false, wkupint := false } ∧
    s.gintmsk = 0 ∧ s.fifo.rxq = [] ∧ (∀ c, s.txqAt c = []) ∧ s.gintsts .NPTXFE = true ∧ s.gintsts .PTXFE = true ∧
    (∀ n, s.epTxfe n = true) ∧ s.fifo.qSlotsNP ≤ p.qDepth ∧ s.fifo.qSlotsP ≤ p.qDepth ∧ s.fifo.qFlushNP = false ∧
    s.fifo.qFlushP = false ∧ s.frameInterval = 0 ∧ s.hostClkSel.code = 0 ∧
    s.hprt = { pcsts := false, pcdet := false, pena := false, penchng := false, prst := false, pspd := .LOW } ∧
    (∀ i, s.hcAt i = { mps := 0, epNum := 0, dir := .OUT, epType := .CONTROL, devAddr := 0, oddFrame := false
                       chDis := false, chEna := false, xferSize := 0, pktCnt := 0, dpid := .DATA0, doPing := false
                       int := 0, intMsk := 0 }) ∧
    s.haintmsk = 0 ∧
    (∀ i, s.pipeAt i = { alloc := false, dir := .OUT, mps := 0, epType := .CONTROL
                         buf := { bufPtr := 0, bufLen := 0, xferCount := 0, pktCnt := 0, toggle := false
                                  urbStatus := .IDLE, pipeState := .OK } }) ∧
    (∀ d n, s.epAt d n = { active := false, mps := 0, epType := .CONTROL, stall := false, epEna := false
                           xferSize := 0, pktCnt := 0, dpid := .DATA0, oddFrame := false, xfrc := false
                           stup := false, mXfrc := false, mAux := false } ∧
      s.epbAt d n = { bufPtr := 0, bufLen := 0, xferCount := 0, pktCnt := 0, toggle := false, urbStatus := .IDLE
                      pipeState := .OK }) ∧
    s.dep.daintmskIn = 0 ∧ s.dep.daintmskOut = 0 ∧ s.host.ctrlState = .SETUP ∧ s.host.ctrlWait = false ∧
    s.host.errCnt = 0 ∧ s.host.ctrlBuf = 0 ∧ s.host.ctrlLen = 0 ∧ s.host.ctrlMps = 0 ∧ s.host.xferState = .START ∧
    s.host.verdict = .BUSY ∧ chCode s.host.hcCtlOut = 0xFF ∧ chCode s.host.hcCtlIn = 0xFF ∧
    s.host.connected = false ∧ s.host.portEnabled = false ∧ s.host.speed = .LOW ∧ s.host.devAddr = 0 ∧
    s.host.enumState = .IDLE ∧ s.host.itfCount = 0 ∧
    (∀ j : Fin 2, s.host.itf[j] = { raw := .replicate 9 0, epCount := 0, ep := .replicate 2 (.replicate 7 0) }) ∧
    s.dev = { ctrlState := .SETUP, zlpPending := false, addr := 0, curConfiguration := 0, devState := .DEFAULT
              speed := .LOW, curInterface := 0, curAltSetting := 0, remoteWakeup := false, selfPowered := false } ∧
    s.fault = { rxUnderflow := false, txOverflow := false, rxOverrun := false, rxBadStatus := false } ∧
    s.irq = false

/-- The invariant holds right after reset. -/
def Obligations.InvariantAtReset : Prop := State.reset.Inv

/-- Every step of every agent keeps the invariant. -/
def Obligations.InvariantOfStep : Prop := ∀ s t : State, s.Inv → step s = .next t → t.Inv

/-- The fault latch is sticky: no step of any agent clears a recorded fault (R46). -/
def Obligations.FaultLatchSticky : Prop := ∀ s t : State, step s = .next t → s.fault.within t.fault

/-- Who writes the command port (R21, R374): an IRQ pass and a BUS move write no register of it; a command writes RES only,
and CMD holds the word written, after a refusal too, which is the model's choice (entry 27); no step of any agent changes
the parameters, the tables or the hook setting (R7, R45). -/
def Obligations.CommandPortWriters : Prop :=
  (∀ s t : State, runIrq s = .next t → t.port = s.port) ∧
  (∀ (s t : State) (m : BusMove), runBus m s = .next t → t.port = s.port) ∧
  (∀ (s t : State) (w : Word), runCommand w s = .next t →
    t.port = { s.port with cmd := w, res := t.port.res }) ∧
  ∀ s t : State, step s = .next t → t.env.par = s.env.par

/-- The register space (R106): the layouts of HCCHAR and HCTSIZ (R107), HCINT and HCINTMSK with the write-one-to-clear
(R108), GINTSTS and GINTMSK (R109), HPRT (R118), the endpoint registers (R119), the global and command registers; the popping
GRXSTSP, the pushing TXPORT, CMD that executes, ARG0..ARG3. The access path is the model's (entry 19), and so are that free
words and slots show modulo 2^16 and 2^8 (entry 31) and what DAINT derives (entry 32). -/
def Obligations.RegisterWords : Prop :=
  (∀ (s : State) (off : Nat), off ≠ 0x00C → s.env.fgStuck = false →
    runMove (.regRead off) s = .next { s with env.rdata := s.regWord off, env.log := .regRead off :: s.env.log }) ∧
  (∀ (s : State) (i : Ch) (w z : Word), w = s.regWord (0x100 + 16 * i.val) → z = s.regWord (0x104 + 16 * i.val) →
    w.extractLsb' 0 11 = (s.hcAt i).mps ∧ w.extractLsb' 11 4 = (s.hcAt i).epNum ∧
    (w.getLsbD 15 = true ↔ (s.hcAt i).dir = .IN) ∧ w.extractLsb' 16 2 = (s.hcAt i).epType.bits ∧
    w.extractLsb' 18 7 = (s.hcAt i).devAddr ∧ w.extractLsb' 25 4 = 0 ∧ w.getLsbD 29 = (s.hcAt i).oddFrame ∧
    w.getLsbD 30 = (s.hcAt i).chDis ∧ w.getLsbD 31 = (s.hcAt i).chEna ∧
    z.extractLsb' 0 19 = (s.hcAt i).xferSize ∧ z.extractLsb' 19 10 = (s.hcAt i).pktCnt ∧
    z.extractLsb' 29 2 = (s.hcAt i).dpid.code ∧ z.getLsbD 31 = (s.hcAt i).doPing ∧
    s.regWord (0x108 + 16 * i.val) = (s.hcAt i).int.setWidth 32 ∧
    s.regWord (0x10C + 16 * i.val) = (s.hcAt i).intMsk.setWidth 32) ∧
  (∀ (s : State) (n : EpIx) (d : Dir) (base : Nat) (c z f m : Word), base = (if d = .IN then 0x200 else 0x300) →
    c = s.regWord (base + 16 * n.val) → z = s.regWord (base + 4 + 16 * n.val) → f = s.regWord (base + 8 + 16 * n.val) →
    m = s.regWord (base + 12 + 16 * n.val) →
    c.extractLsb' 0 11 = (s.epAt d n).mps ∧ c.extractLsb' 11 4 = 0 ∧ c.getLsbD 15 = (s.epAt d n).active ∧
    c.extractLsb' 16 2 = (s.epAt d n).epType.bits ∧ c.extractLsb' 18 3 = 0 ∧ c.getLsbD 21 = (s.epAt d n).stall ∧
    c.extractLsb' 22 7 = 0 ∧ c.getLsbD 29 = (s.epAt d n).oddFrame ∧ c.getLsbD 30 = false ∧
    c.getLsbD 31 = (s.epAt d n).epEna ∧
    z.extractLsb' 0 19 = (s.epAt d n).xferSize ∧ z.extractLsb' 19 10 = (s.epAt d n).pktCnt ∧
    z.extractLsb' 29 2 = (s.epAt d n).dpid.code ∧ z.getLsbD 31 = false ∧
    f.getLsbD 0 = (s.epAt d n).xfrc ∧
    f.getLsbD 1 = (if d = .IN then decide (s.txqAt (Tgt.ep d n).num = []) else (s.epAt d n).stup) ∧
    f.extractLsb' 2 30 = 0 ∧ m.getLsbD 0 = (s.epAt d n).mXfrc ∧ m.getLsbD 1 = (s.epAt d n).mAux ∧
    m.extractLsb' 2 30 = 0) ∧
  (∀ s : State,
    s.regWord 0x000 = (if s.mode = .HOST then 1 else 0) ∧
    (∀ f : GFlag, (s.regWord 0x004).getLsbD f.bit = s.gintsts f) ∧ (s.regWord 0x004).extractLsb' 13 19 = 0 ∧
    s.regWord 0x008 = s.gintmsk.setWidth 32 ∧
    (s.regWord 0x010).extractLsb' 0 16 = BitVec.ofNat 16 (s.txSpace .NP) ∧
    (s.regWord 0x010).extractLsb' 16 8 = BitVec.ofNat 8 s.fifo.qSlotsNP ∧ (s.regWord 0x010).extractLsb' 24 7 = 0 ∧
    (s.regWord 0x010).getLsbD 31 = s.fifo.qFlushNP ∧
    (s.regWord 0x014).extractLsb' 0 16 = BitVec.ofNat 16 (s.txSpace .P) ∧
    (s.regWord 0x014).extractLsb' 16 8 = BitVec.ofNat 8 s.fifo.qSlotsP ∧ (s.regWord 0x014).extractLsb' 24 7 = 0 ∧
    (s.regWord 0x014).getLsbD 31 = s.fifo.qFlushP ∧
    s.regWord 0x018 = s.frameNum.setWidth 32 ∧ s.regWord 0x01C = s.frameInterval.setWidth 32 ∧
    s.regWord 0x020 = s.hostClkSel.code.setWidth 32 ∧
    (s.regWord 0x024).getLsbD 0 = s.hprt.pcsts ∧ (s.regWord 0x024).getLsbD 1 = s.hprt.pcdet ∧
    (s.regWord 0x024).getLsbD 2 = s.hprt.pena ∧ (s.regWord 0x024).getLsbD 3 = s.hprt.penchng ∧
    (s.regWord 0x024).getLsbD 4 = s.hprt.prst ∧ (s.regWord 0x024).extractLsb' 5 2 = s.hprt.pspd.code ∧
    (s.regWord 0x024).extractLsb' 7 25 = 0 ∧
    (∀ i : Ch, (s.regWord 0x028).getLsbD i.val = ((s.hcAt i).int &&& (s.hcAt i).intMsk != 0)) ∧
    (s.regWord 0x028).extractLsb' 12 20 = 0 ∧ s.regWord 0x02C = s.haintmsk.setWidth 32 ∧
    (s.regWord 0x030).extractLsb' 0 7 = s.dev.addr ∧ (s.regWord 0x030).getLsbD 7 = false ∧
    (s.regWord 0x030).extractLsb' 8 2 = s.dev.speed.code ∧ (s.regWord 0x030).extractLsb' 10 22 = 0 ∧
    (∀ n : EpIx, (s.regWord 0x034).getLsbD n.val =
        ((s.epAt .IN n).xfrc && (s.epAt .IN n).mXfrc ||
          decide (s.txqAt (Tgt.ep .IN n).num = []) && (s.epAt .IN n).mAux) ∧
      (s.regWord 0x034).getLsbD (16 + n.val) =
        ((s.epAt .OUT n).xfrc && (s.epAt .OUT n).mXfrc || (s.epAt .OUT n).stup && (s.epAt .OUT n).mAux)) ∧
    (s.regWord 0x034).extractLsb' 8 8 = 0 ∧ (s.regWord 0x034).extractLsb' 24 8 = 0 ∧
    (s.regWord 0x038).extractLsb' 0 8 = s.dep.daintmskIn ∧ (s.regWord 0x038).extractLsb' 8 8 = 0 ∧
    (s.regWord 0x038).extractLsb' 16 8 = s.dep.daintmskOut ∧ (s.regWord 0x038).extractLsb' 24 8 = 0 ∧
    s.regWord 0x040 = s.port.cmd ∧ s.regWord 0x044 = s.port.arg0 ∧ s.regWord 0x048 = s.port.arg1 ∧
    s.regWord 0x04C = s.port.arg2 ∧ s.regWord 0x050 = s.port.arg3 ∧ s.regWord 0x054 = s.port.res) ∧
  (∀ (s : State) (w : Word), s.env.fgStuck = false →
    runMove (.regWrite 0x040 w) s = runMove (.cmd w) s ∧
    runMove (.regWrite 0x044 w) s = .next { s with port.arg0 := w, env.log := .regWrite 0x044 w :: s.env.log } ∧
    runMove (.regWrite 0x048 w) s = .next { s with port.arg1 := w, env.log := .regWrite 0x048 w :: s.env.log } ∧
    runMove (.regWrite 0x04C w) s = .next { s with port.arg2 := w, env.log := .regWrite 0x04C w :: s.env.log } ∧
    runMove (.regWrite 0x050 w) s = .next { s with port.arg3 := w, env.log := .regWrite 0x050 w :: s.env.log } ∧
    ∀ off ∈ [0x028, 0x034, 0x054],
      runMove (.regWrite off w) s = .next { s with env.log := .regWrite off w :: s.env.log }) ∧
  (∀ (s : State) (i : Ch) (w : Word), s.env.fgStuck = false →
    runMove (.regWrite (0x108 + 16 * i.val) w) s = .next { s.setHc i { s.hcAt i with
      int := (s.hcAt i).int &&& ~~~(w.extractLsb' 0 11) } with
        env.log := .regWrite (0x108 + 16 * i.val) w :: s.env.log }) ∧
  (∀ (s : State) (w : Word) (q : List Word), s.env.fgStuck = false →
    (s.fifo.rxq = w :: q → runMove (.regRead 0x00C) s = .next { s with
      fifo.rxq := q, env.rdata := w, env.log := .rxPop w :: .regRead 0x00C :: s.env.log }) ∧
    (s.fifo.rxq = [] → runMove (.regRead 0x00C) s = .next { s with
      fault.rxUnderflow := true, env.log := .regRead 0x00C :: s.env.log })) ∧
  ∀ (s : State) (c : Ch) (w : Word), s.env.fgStuck = false →
    (s.txSpace (s.classOf c) ≠ 0 → runMove (.regWrite (0x400 + 4 * c.val) w) s = .next { s.setTxq c
      (s.txqAt c ++ [w]) with env.log := .txPush c w :: .regWrite (0x400 + 4 * c.val) w :: s.env.log }) ∧
    (s.txSpace (s.classOf c) = 0 → runMove (.regWrite (0x400 + 4 * c.val) w) s = .next { s with
      fault.txOverflow := true, env.log := .regWrite (0x400 + 4 * c.val) w :: s.env.log })
end

