-- ==== Sys2Proof/Laws/Decode.lean ====
section
/-! SUPPORT. The fields of a word (spec R100, R113): packing and unpacking are inverse; the enumeration codes (R105)
are inverse; so decoding and encoding can be compared field by field. -/

namespace Sys2Proof

/-! ## Bits of an appended vector -/

theorem getLsbD_append_low {n m : Nat} (x : BitVec n) (y : BitVec m) {i : Nat} (h : i < m) :
    (x ++ y).getLsbD i = y.getLsbD i := by rw [BitVec.getLsbD_append]; simp [h]
theorem getLsbD_append_high {n m : Nat} (x : BitVec n) (y : BitVec m) {i : Nat} (h : m ≤ i) :
    (x ++ y).getLsbD i = x.getLsbD (i - m) := by
  rw [BitVec.getLsbD_append]; have : ¬ i < m := by omega
  simp [this]

/-- Bit `i` of a packed command word, field by field (R100). -/
theorem CmdFields.getLsbD_pack (f : CmdFields) (i : Nat) :
    f.pack.getLsbD i =
      if i < 11 then f.mps.getLsbD i else if i < 15 then f.epn.getLsbD (i - 11)
      else if i < 17 then f.pid.getLsbD (i - 15) else if i < 19 then f.type.getLsbD (i - 17)
      else if i < 20 then f.dir.getLsbD (i - 19) else if i < 24 then f.num.getLsbD (i - 20)
      else f.op.getLsbD (i - 24) := by
  show BitVec.getLsbD (w := 8 + 4 + 1 + 2 + 2 + 4 + 11)
    (f.op ++ f.num ++ f.dir ++ f.type ++ f.pid ++ f.epn ++ f.mps) i = _
  by_cases h1 : i < 11
  · rw [if_pos h1, getLsbD_append_low _ _ h1]
  rw [if_neg h1, getLsbD_append_high _ _ (by omega)]
  by_cases h2 : i < 15
  · rw [if_pos h2, getLsbD_append_low _ _ (by omega)]
  rw [if_neg h2, getLsbD_append_high _ _ (by omega)]
  by_cases h3 : i < 17
  · rw [if_pos h3, getLsbD_append_low _ _ (by omega), show i - 11 - 4 = i - 15 by omega]
  rw [if_neg h3, getLsbD_append_high _ _ (by omega)]
  by_cases h4 : i < 19
  · rw [if_pos h4, getLsbD_append_low _ _ (by omega), show i - 11 - 4 - 2 = i - 17 by omega]
  rw [if_neg h4, getLsbD_append_high _ _ (by omega)]
  by_cases h5 : i < 20
  · rw [if_pos h5, getLsbD_append_low _ _ (by omega), show i - 11 - 4 - 2 - 2 = i - 19 by omega]
  rw [if_neg h5, getLsbD_append_high _ _ (by omega)]
  by_cases h6 : i < 24
  · rw [if_pos h6, getLsbD_append_low _ _ (by omega), show i - 11 - 4 - 2 - 2 - 1 = i - 20 by omega]
  rw [if_neg h6, getLsbD_append_high _ _ (by omega), show i - 11 - 4 - 2 - 2 - 1 - 4 = i - 24 by omega]

/-- A field of `n` bits at bit `a` of a word is `x` if every bit is. -/
theorem extract_eq {m n a : Nat} {w : BitVec m} {x : BitVec n} (h : ∀ i < n, w.getLsbD (a + i) = x.getLsbD i) :
    w.extractLsb' a n = x := by
  apply BitVec.eq_of_getLsbD_eq
  intro i hi
  rw [BitVec.getLsbD_extractLsb', h i hi]; simp [hi]

@[simp] theorem CmdFields.unpack_pack (f : CmdFields) : CmdFields.unpack f.pack = f := by
  unfold CmdFields.unpack
  rw [extract_eq (a := 24) (x := f.op), extract_eq (a := 20) (x := f.num), extract_eq (a := 19) (x := f.dir),
    extract_eq (a := 17) (x := f.type), extract_eq (a := 15) (x := f.pid), extract_eq (a := 11) (x := f.epn),
    extract_eq (a := 0) (x := f.mps)]
  all_goals intro i hi; rw [CmdFields.getLsbD_pack]
  · rw [if_pos (by omega), show 0 + i = i by omega]
  · rw [if_neg (by omega), if_pos (by omega), show 11 + i - 11 = i by omega]
  · rw [if_neg (by omega), if_neg (by omega), if_pos (by omega), show 15 + i - 15 = i by omega]
  · rw [if_neg (by omega), if_neg (by omega), if_neg (by omega), if_pos (by omega), show 17 + i - 17 = i by omega]
  · rw [if_neg (by omega), if_neg (by omega), if_neg (by omega), if_neg (by omega), if_pos (by omega),
      show 19 + i - 19 = i by omega]
  · rw [if_neg (by omega), if_neg (by omega), if_neg (by omega), if_neg (by omega), if_neg (by omega),
      if_pos (by omega), show 20 + i - 20 = i by omega]
  · rw [if_neg (by omega), if_neg (by omega), if_neg (by omega), if_neg (by omega), if_neg (by omega),
      if_neg (by omega), show 24 + i - 24 = i by omega]

@[simp] theorem CmdFields.pack_unpack (w : BitVec 32) : (CmdFields.unpack w).pack = w := by
  apply BitVec.eq_of_getLsbD_eq
  intro i hi
  rw [CmdFields.getLsbD_pack]
  unfold CmdFields.unpack
  simp only [BitVec.getLsbD_extractLsb']
  split_ifs with h1 h2 h3 h4 h5 h6
  · simp [h1]
  · rw [show 11 + (i - 11) = i by omega]; have : i - 11 < 4 := by omega
    simp [this]
  · rw [show 15 + (i - 15) = i by omega]; have : i - 15 < 2 := by omega
    simp [this]
  · rw [show 17 + (i - 17) = i by omega]; have : i - 17 < 2 := by omega
    simp [this]
  · rw [show 19 + (i - 19) = i by omega]; have : i - 19 < 1 := by omega
    simp [this]
  · rw [show 20 + (i - 20) = i by omega]; have : i - 20 < 4 := by omega
    simp [this]
  · rw [show 24 + (i - 24) = i by omega]; have : i - 24 < 8 := by omega
    simp [this]

/-- Bit `i` of a packed request code, field by field (R113). -/
theorem SetupFields.getLsbD_pack (f : SetupFields) (i : Nat) :
    f.pack.getLsbD i =
      if i < 5 then f.recipient.getLsbD i else if i < 7 then f.type.getLsbD (i - 5)
      else if i < 8 then f.dir.getLsbD (i - 7) else f.bRequest.getLsbD (i - 8) := by
  show BitVec.getLsbD (w := 8 + 1 + 2 + 5) (f.bRequest ++ f.dir ++ f.type ++ f.recipient) i = _
  by_cases h1 : i < 5
  · rw [if_pos h1, getLsbD_append_low _ _ h1]
  rw [if_neg h1, getLsbD_append_high _ _ (by omega)]
  by_cases h2 : i < 7
  · rw [if_pos h2, getLsbD_append_low _ _ (by omega)]
  rw [if_neg h2, getLsbD_append_high _ _ (by omega)]
  by_cases h3 : i < 8
  · rw [if_pos h3, getLsbD_append_low _ _ (by omega), show i - 5 - 2 = i - 7 by omega]
  rw [if_neg h3, getLsbD_append_high _ _ (by omega), show i - 5 - 2 - 1 = i - 8 by omega]

@[simp] theorem SetupFields.unpack_pack (f : SetupFields) : SetupFields.unpack f.pack = f := by
  unfold SetupFields.unpack
  rw [extract_eq (a := 8) (x := f.bRequest), extract_eq (a := 7) (x := f.dir), extract_eq (a := 5) (x := f.type),
    extract_eq (a := 0) (x := f.recipient)]
  all_goals intro i hi; rw [SetupFields.getLsbD_pack]
  · rw [if_pos (by omega), show 0 + i = i by omega]
  · rw [if_neg (by omega), if_pos (by omega), show 5 + i - 5 = i by omega]
  · rw [if_neg (by omega), if_neg (by omega), if_pos (by omega), show 7 + i - 7 = i by omega]
  · rw [if_neg (by omega), if_neg (by omega), if_neg (by omega), show 8 + i - 8 = i by omega]

@[simp] theorem SetupFields.pack_unpack (w : BitVec 16) : (SetupFields.unpack w).pack = w := by
  apply BitVec.eq_of_getLsbD_eq
  intro i hi
  rw [SetupFields.getLsbD_pack]
  unfold SetupFields.unpack
  simp only [BitVec.getLsbD_extractLsb']
  split_ifs with h1 h2 h3
  · simp [h1]
  · rw [show 5 + (i - 5) = i by omega]; have : i - 5 < 2 := by omega
    simp [this]
  · rw [show 7 + (i - 7) = i by omega]; have : i - 7 < 1 := by omega
    simp [this]
  · rw [show 8 + (i - 8) = i by omega]; have : i - 8 < 8 := by omega
    simp [this]

/-! ## Codes -/

@[simp] theorem Dir.ofBit_bit (d : Dir) : Dir.ofBit d.bit = d := by cases d <;> rfl
@[simp] theorem Dir.bit_ofBit (b : BitVec 1) : (Dir.ofBit b).bit = b := by revert b; decide
@[simp] theorem EpType.ofBits_bits (t : EpType) : EpType.ofBits t.bits = t := by cases t <;> rfl
@[simp] theorem EpType.bits_ofBits (b : BitVec 2) : (EpType.ofBits b).bits = b := by revert b; decide

/-- An accepted format: the must-be-zero fields are zero, and the instruction is the one given. -/
theorem accept_ok {z : Bool} {i j : Instr} : accept z i = .ok j ↔ z = true ∧ i = j := by
  unfold accept; cases z <;> simp

/-! ## A word selects a row iff `w & mask = match` (R103): bit by bit -/

theorem and_eq_iff {n : Nat} {w k m : BitVec n} :
    w &&& k = m ↔ ∀ i < n, (w.getLsbD i && k.getLsbD i) = m.getLsbD i := by
  constructor
  · rintro rfl i hi; simp
  · intro h; apply BitVec.eq_of_getLsbD_eq; intro i hi; simp [h i hi]

end Sys2Proof
end

