-- ==== Sys2Proof/Laws/State.lean ====
section
/-! SUPPORT. One lemma per field of State and update: what the update leaves alone, and what a read of the updated
record gives. True by unfolding; cited by every later proof, which then unfolds no record update. -/

namespace Sys2Proof.Machine

variable (s : State)

/-! ## `State.setHc` -/

@[simp] theorem State.setHc_port (i : Ch) (c : HostChannel) : (s.setHc i c).port = s.port := rfl
@[simp] theorem State.setHc_mode (i : Ch) (c : HostChannel) : (s.setHc i c).mode = s.mode := rfl
@[simp] theorem State.setHc_lat (i : Ch) (c : HostChannel) : (s.setHc i c).lat = s.lat := rfl
@[simp] theorem State.setHc_gintmsk (i : Ch) (c : HostChannel) : (s.setHc i c).gintmsk = s.gintmsk := rfl
@[simp] theorem State.setHc_fifo (i : Ch) (c : HostChannel) : (s.setHc i c).fifo = s.fifo := rfl
@[simp] theorem State.setHc_frameNum (i : Ch) (c : HostChannel) : (s.setHc i c).frameNum = s.frameNum := rfl
@[simp] theorem State.setHc_frameInterval (i : Ch) (c : HostChannel) : (s.setHc i c).frameInterval = s.frameInterval := rfl
@[simp] theorem State.setHc_hostClkSel (i : Ch) (c : HostChannel) : (s.setHc i c).hostClkSel = s.hostClkSel := rfl
@[simp] theorem State.setHc_hprt (i : Ch) (c : HostChannel) : (s.setHc i c).hprt = s.hprt := rfl
@[simp] theorem State.setHc_haintmsk (i : Ch) (c : HostChannel) : (s.setHc i c).haintmsk = s.haintmsk := rfl
@[simp] theorem State.setHc_pipe (i : Ch) (c : HostChannel) : (s.setHc i c).pipe = s.pipe := rfl
@[simp] theorem State.setHc_dep (i : Ch) (c : HostChannel) : (s.setHc i c).dep = s.dep := rfl
@[simp] theorem State.setHc_host (i : Ch) (c : HostChannel) : (s.setHc i c).host = s.host := rfl
@[simp] theorem State.setHc_dev (i : Ch) (c : HostChannel) : (s.setHc i c).dev = s.dev := rfl
@[simp] theorem State.setHc_fault (i : Ch) (c : HostChannel) : (s.setHc i c).fault = s.fault := rfl
@[simp] theorem State.setHc_mem (i : Ch) (c : HostChannel) : (s.setHc i c).mem = s.mem := rfl
@[simp] theorem State.setHc_env (i : Ch) (c : HostChannel) : (s.setHc i c).env = s.env := rfl

/-! ## `State.setPipe` -/

@[simp] theorem State.setPipe_port (i : Ch) (p : Pipe) : (s.setPipe i p).port = s.port := rfl
@[simp] theorem State.setPipe_mode (i : Ch) (p : Pipe) : (s.setPipe i p).mode = s.mode := rfl
@[simp] theorem State.setPipe_lat (i : Ch) (p : Pipe) : (s.setPipe i p).lat = s.lat := rfl
@[simp] theorem State.setPipe_gintmsk (i : Ch) (p : Pipe) : (s.setPipe i p).gintmsk = s.gintmsk := rfl
@[simp] theorem State.setPipe_fifo (i : Ch) (p : Pipe) : (s.setPipe i p).fifo = s.fifo := rfl
@[simp] theorem State.setPipe_frameNum (i : Ch) (p : Pipe) : (s.setPipe i p).frameNum = s.frameNum := rfl
@[simp] theorem State.setPipe_frameInterval (i : Ch) (p : Pipe) : (s.setPipe i p).frameInterval = s.frameInterval := rfl
@[simp] theorem State.setPipe_hostClkSel (i : Ch) (p : Pipe) : (s.setPipe i p).hostClkSel = s.hostClkSel := rfl
@[simp] theorem State.setPipe_hprt (i : Ch) (p : Pipe) : (s.setPipe i p).hprt = s.hprt := rfl
@[simp] theorem State.setPipe_hc (i : Ch) (p : Pipe) : (s.setPipe i p).hc = s.hc := rfl
@[simp] theorem State.setPipe_haintmsk (i : Ch) (p : Pipe) : (s.setPipe i p).haintmsk = s.haintmsk := rfl
@[simp] theorem State.setPipe_dep (i : Ch) (p : Pipe) : (s.setPipe i p).dep = s.dep := rfl
@[simp] theorem State.setPipe_host (i : Ch) (p : Pipe) : (s.setPipe i p).host = s.host := rfl
@[simp] theorem State.setPipe_dev (i : Ch) (p : Pipe) : (s.setPipe i p).dev = s.dev := rfl
@[simp] theorem State.setPipe_fault (i : Ch) (p : Pipe) : (s.setPipe i p).fault = s.fault := rfl
@[simp] theorem State.setPipe_mem (i : Ch) (p : Pipe) : (s.setPipe i p).mem = s.mem := rfl
@[simp] theorem State.setPipe_env (i : Ch) (p : Pipe) : (s.setPipe i p).env = s.env := rfl

/-! ## `State.setEp` -/

@[simp] theorem State.setEp_port (d : Dir) (n : EpIx) (e : DevEp) : (s.setEp d n e).port = s.port := by cases d <;> rfl
@[simp] theorem State.setEp_mode (d : Dir) (n : EpIx) (e : DevEp) : (s.setEp d n e).mode = s.mode := by cases d <;> rfl
@[simp] theorem State.setEp_lat (d : Dir) (n : EpIx) (e : DevEp) : (s.setEp d n e).lat = s.lat := by cases d <;> rfl
@[simp] theorem State.setEp_gintmsk (d : Dir) (n : EpIx) (e : DevEp) : (s.setEp d n e).gintmsk = s.gintmsk := by cases d <;> rfl
@[simp] theorem State.setEp_fifo (d : Dir) (n : EpIx) (e : DevEp) : (s.setEp d n e).fifo = s.fifo := by cases d <;> rfl
@[simp] theorem State.setEp_frameNum (d : Dir) (n : EpIx) (e : DevEp) : (s.setEp d n e).frameNum = s.frameNum := by cases d <;> rfl
@[simp] theorem State.setEp_frameInterval (d : Dir) (n : EpIx) (e : DevEp) : (s.setEp d n e).frameInterval = s.frameInterval := by cases d <;> rfl
@[simp] theorem State.setEp_hostClkSel (d : Dir) (n : EpIx) (e : DevEp) : (s.setEp d n e).hostClkSel = s.hostClkSel := by cases d <;> rfl
@[simp] theorem State.setEp_hprt (d : Dir) (n : EpIx) (e : DevEp) : (s.setEp d n e).hprt = s.hprt := by cases d <;> rfl
@[simp] theorem State.setEp_hc (d : Dir) (n : EpIx) (e : DevEp) : (s.setEp d n e).hc = s.hc := by cases d <;> rfl
@[simp] theorem State.setEp_haintmsk (d : Dir) (n : EpIx) (e : DevEp) : (s.setEp d n e).haintmsk = s.haintmsk := by cases d <;> rfl
@[simp] theorem State.setEp_pipe (d : Dir) (n : EpIx) (e : DevEp) : (s.setEp d n e).pipe = s.pipe := by cases d <;> rfl
@[simp] theorem State.setEp_host (d : Dir) (n : EpIx) (e : DevEp) : (s.setEp d n e).host = s.host := by cases d <;> rfl
@[simp] theorem State.setEp_dev (d : Dir) (n : EpIx) (e : DevEp) : (s.setEp d n e).dev = s.dev := by cases d <;> rfl
@[simp] theorem State.setEp_fault (d : Dir) (n : EpIx) (e : DevEp) : (s.setEp d n e).fault = s.fault := by cases d <;> rfl
@[simp] theorem State.setEp_mem (d : Dir) (n : EpIx) (e : DevEp) : (s.setEp d n e).mem = s.mem := by cases d <;> rfl
@[simp] theorem State.setEp_env (d : Dir) (n : EpIx) (e : DevEp) : (s.setEp d n e).env = s.env := by cases d <;> rfl

/-! ## `State.setEpb` -/

@[simp] theorem State.setEpb_port (d : Dir) (n : EpIx) (b : XferBuf) : (s.setEpb d n b).port = s.port := by cases d <;> rfl
@[simp] theorem State.setEpb_mode (d : Dir) (n : EpIx) (b : XferBuf) : (s.setEpb d n b).mode = s.mode := by cases d <;> rfl
@[simp] theorem State.setEpb_lat (d : Dir) (n : EpIx) (b : XferBuf) : (s.setEpb d n b).lat = s.lat := by cases d <;> rfl
@[simp] theorem State.setEpb_gintmsk (d : Dir) (n : EpIx) (b : XferBuf) : (s.setEpb d n b).gintmsk = s.gintmsk := by cases d <;> rfl
@[simp] theorem State.setEpb_fifo (d : Dir) (n : EpIx) (b : XferBuf) : (s.setEpb d n b).fifo = s.fifo := by cases d <;> rfl
@[simp] theorem State.setEpb_frameNum (d : Dir) (n : EpIx) (b : XferBuf) : (s.setEpb d n b).frameNum = s.frameNum := by cases d <;> rfl
@[simp] theorem State.setEpb_frameInterval (d : Dir) (n : EpIx) (b : XferBuf) : (s.setEpb d n b).frameInterval = s.frameInterval := by cases d <;> rfl
@[simp] theorem State.setEpb_hostClkSel (d : Dir) (n : EpIx) (b : XferBuf) : (s.setEpb d n b).hostClkSel = s.hostClkSel := by cases d <;> rfl
@[simp] theorem State.setEpb_hprt (d : Dir) (n : EpIx) (b : XferBuf) : (s.setEpb d n b).hprt = s.hprt := by cases d <;> rfl
@[simp] theorem State.setEpb_hc (d : Dir) (n : EpIx) (b : XferBuf) : (s.setEpb d n b).hc = s.hc := by cases d <;> rfl
@[simp] theorem State.setEpb_haintmsk (d : Dir) (n : EpIx) (b : XferBuf) : (s.setEpb d n b).haintmsk = s.haintmsk := by cases d <;> rfl
@[simp] theorem State.setEpb_pipe (d : Dir) (n : EpIx) (b : XferBuf) : (s.setEpb d n b).pipe = s.pipe := by cases d <;> rfl
@[simp] theorem State.setEpb_host (d : Dir) (n : EpIx) (b : XferBuf) : (s.setEpb d n b).host = s.host := by cases d <;> rfl
@[simp] theorem State.setEpb_dev (d : Dir) (n : EpIx) (b : XferBuf) : (s.setEpb d n b).dev = s.dev := by cases d <;> rfl
@[simp] theorem State.setEpb_fault (d : Dir) (n : EpIx) (b : XferBuf) : (s.setEpb d n b).fault = s.fault := by cases d <;> rfl
@[simp] theorem State.setEpb_mem (d : Dir) (n : EpIx) (b : XferBuf) : (s.setEpb d n b).mem = s.mem := by cases d <;> rfl
@[simp] theorem State.setEpb_env (d : Dir) (n : EpIx) (b : XferBuf) : (s.setEpb d n b).env = s.env := by cases d <;> rfl

/-! ## `State.setTxq` -/

@[simp] theorem State.setTxq_port (num : Ch) (q : List Word) : (s.setTxq num q).port = s.port := rfl
@[simp] theorem State.setTxq_mode (num : Ch) (q : List Word) : (s.setTxq num q).mode = s.mode := rfl
@[simp] theorem State.setTxq_lat (num : Ch) (q : List Word) : (s.setTxq num q).lat = s.lat := rfl
@[simp] theorem State.setTxq_gintmsk (num : Ch) (q : List Word) : (s.setTxq num q).gintmsk = s.gintmsk := rfl
@[simp] theorem State.setTxq_frameNum (num : Ch) (q : List Word) : (s.setTxq num q).frameNum = s.frameNum := rfl
@[simp] theorem State.setTxq_frameInterval (num : Ch) (q : List Word) : (s.setTxq num q).frameInterval = s.frameInterval := rfl
@[simp] theorem State.setTxq_hostClkSel (num : Ch) (q : List Word) : (s.setTxq num q).hostClkSel = s.hostClkSel := rfl
@[simp] theorem State.setTxq_hprt (num : Ch) (q : List Word) : (s.setTxq num q).hprt = s.hprt := rfl
@[simp] theorem State.setTxq_hc (num : Ch) (q : List Word) : (s.setTxq num q).hc = s.hc := rfl
@[simp] theorem State.setTxq_haintmsk (num : Ch) (q : List Word) : (s.setTxq num q).haintmsk = s.haintmsk := rfl
@[simp] theorem State.setTxq_pipe (num : Ch) (q : List Word) : (s.setTxq num q).pipe = s.pipe := rfl
@[simp] theorem State.setTxq_dep (num : Ch) (q : List Word) : (s.setTxq num q).dep = s.dep := rfl
@[simp] theorem State.setTxq_host (num : Ch) (q : List Word) : (s.setTxq num q).host = s.host := rfl
@[simp] theorem State.setTxq_dev (num : Ch) (q : List Word) : (s.setTxq num q).dev = s.dev := rfl
@[simp] theorem State.setTxq_fault (num : Ch) (q : List Word) : (s.setTxq num q).fault = s.fault := rfl
@[simp] theorem State.setTxq_mem (num : Ch) (q : List Word) : (s.setTxq num q).mem = s.mem := rfl
@[simp] theorem State.setTxq_env (num : Ch) (q : List Word) : (s.setTxq num q).env = s.env := rfl

/-! ## `State.setGmask` -/

@[simp] theorem State.setGmask_port (f : GFlag) (b : Bool) : (s.setGmask f b).port = s.port := rfl
@[simp] theorem State.setGmask_mode (f : GFlag) (b : Bool) : (s.setGmask f b).mode = s.mode := rfl
@[simp] theorem State.setGmask_lat (f : GFlag) (b : Bool) : (s.setGmask f b).lat = s.lat := rfl
@[simp] theorem State.setGmask_fifo (f : GFlag) (b : Bool) : (s.setGmask f b).fifo = s.fifo := rfl
@[simp] theorem State.setGmask_frameNum (f : GFlag) (b : Bool) : (s.setGmask f b).frameNum = s.frameNum := rfl
@[simp] theorem State.setGmask_frameInterval (f : GFlag) (b : Bool) : (s.setGmask f b).frameInterval = s.frameInterval := rfl
@[simp] theorem State.setGmask_hostClkSel (f : GFlag) (b : Bool) : (s.setGmask f b).hostClkSel = s.hostClkSel := rfl
@[simp] theorem State.setGmask_hprt (f : GFlag) (b : Bool) : (s.setGmask f b).hprt = s.hprt := rfl
@[simp] theorem State.setGmask_hc (f : GFlag) (b : Bool) : (s.setGmask f b).hc = s.hc := rfl
@[simp] theorem State.setGmask_haintmsk (f : GFlag) (b : Bool) : (s.setGmask f b).haintmsk = s.haintmsk := rfl
@[simp] theorem State.setGmask_pipe (f : GFlag) (b : Bool) : (s.setGmask f b).pipe = s.pipe := rfl
@[simp] theorem State.setGmask_dep (f : GFlag) (b : Bool) : (s.setGmask f b).dep = s.dep := rfl
@[simp] theorem State.setGmask_host (f : GFlag) (b : Bool) : (s.setGmask f b).host = s.host := rfl
@[simp] theorem State.setGmask_dev (f : GFlag) (b : Bool) : (s.setGmask f b).dev = s.dev := rfl
@[simp] theorem State.setGmask_fault (f : GFlag) (b : Bool) : (s.setGmask f b).fault = s.fault := rfl
@[simp] theorem State.setGmask_mem (f : GFlag) (b : Bool) : (s.setGmask f b).mem = s.mem := rfl
@[simp] theorem State.setGmask_env (f : GFlag) (b : Bool) : (s.setGmask f b).env = s.env := rfl

/-! ## `State.setByte` -/

@[simp] theorem State.setByte_port (a : Addr) (b : Byte) : (s.setByte a b).port = s.port := rfl
@[simp] theorem State.setByte_mode (a : Addr) (b : Byte) : (s.setByte a b).mode = s.mode := rfl
@[simp] theorem State.setByte_lat (a : Addr) (b : Byte) : (s.setByte a b).lat = s.lat := rfl
@[simp] theorem State.setByte_gintmsk (a : Addr) (b : Byte) : (s.setByte a b).gintmsk = s.gintmsk := rfl
@[simp] theorem State.setByte_fifo (a : Addr) (b : Byte) : (s.setByte a b).fifo = s.fifo := rfl
@[simp] theorem State.setByte_frameNum (a : Addr) (b : Byte) : (s.setByte a b).frameNum = s.frameNum := rfl
@[simp] theorem State.setByte_frameInterval (a : Addr) (b : Byte) : (s.setByte a b).frameInterval = s.frameInterval := rfl
@[simp] theorem State.setByte_hostClkSel (a : Addr) (b : Byte) : (s.setByte a b).hostClkSel = s.hostClkSel := rfl
@[simp] theorem State.setByte_hprt (a : Addr) (b : Byte) : (s.setByte a b).hprt = s.hprt := rfl
@[simp] theorem State.setByte_hc (a : Addr) (b : Byte) : (s.setByte a b).hc = s.hc := rfl
@[simp] theorem State.setByte_haintmsk (a : Addr) (b : Byte) : (s.setByte a b).haintmsk = s.haintmsk := rfl
@[simp] theorem State.setByte_pipe (a : Addr) (b : Byte) : (s.setByte a b).pipe = s.pipe := rfl
@[simp] theorem State.setByte_dep (a : Addr) (b : Byte) : (s.setByte a b).dep = s.dep := rfl
@[simp] theorem State.setByte_host (a : Addr) (b : Byte) : (s.setByte a b).host = s.host := rfl
@[simp] theorem State.setByte_dev (a : Addr) (b : Byte) : (s.setByte a b).dev = s.dev := rfl
@[simp] theorem State.setByte_fault (a : Addr) (b : Byte) : (s.setByte a b).fault = s.fault := rfl
@[simp] theorem State.setByte_env (a : Addr) (b : Byte) : (s.setByte a b).env = s.env := rfl

/-! ## `State.setHalf` -/

@[simp] theorem State.setHalf_port (a : Addr) (v : BitVec 16) : (s.setHalf a v).port = s.port := by
  simp only [State.setHalf, State.setByte_port]
@[simp] theorem State.setHalf_mode (a : Addr) (v : BitVec 16) : (s.setHalf a v).mode = s.mode := by
  simp only [State.setHalf, State.setByte_mode]
@[simp] theorem State.setHalf_lat (a : Addr) (v : BitVec 16) : (s.setHalf a v).lat = s.lat := by
  simp only [State.setHalf, State.setByte_lat]
@[simp] theorem State.setHalf_gintmsk (a : Addr) (v : BitVec 16) : (s.setHalf a v).gintmsk = s.gintmsk := by
  simp only [State.setHalf, State.setByte_gintmsk]
@[simp] theorem State.setHalf_fifo (a : Addr) (v : BitVec 16) : (s.setHalf a v).fifo = s.fifo := by
  simp only [State.setHalf, State.setByte_fifo]
@[simp] theorem State.setHalf_frameNum (a : Addr) (v : BitVec 16) : (s.setHalf a v).frameNum = s.frameNum := by
  simp only [State.setHalf, State.setByte_frameNum]
@[simp] theorem State.setHalf_frameInterval (a : Addr) (v : BitVec 16) : (s.setHalf a v).frameInterval = s.frameInterval := by
  simp only [State.setHalf, State.setByte_frameInterval]
@[simp] theorem State.setHalf_hostClkSel (a : Addr) (v : BitVec 16) : (s.setHalf a v).hostClkSel = s.hostClkSel := by
  simp only [State.setHalf, State.setByte_hostClkSel]
@[simp] theorem State.setHalf_hprt (a : Addr) (v : BitVec 16) : (s.setHalf a v).hprt = s.hprt := by
  simp only [State.setHalf, State.setByte_hprt]
@[simp] theorem State.setHalf_hc (a : Addr) (v : BitVec 16) : (s.setHalf a v).hc = s.hc := by
  simp only [State.setHalf, State.setByte_hc]
@[simp] theorem State.setHalf_haintmsk (a : Addr) (v : BitVec 16) : (s.setHalf a v).haintmsk = s.haintmsk := by
  simp only [State.setHalf, State.setByte_haintmsk]
@[simp] theorem State.setHalf_pipe (a : Addr) (v : BitVec 16) : (s.setHalf a v).pipe = s.pipe := by
  simp only [State.setHalf, State.setByte_pipe]
@[simp] theorem State.setHalf_dep (a : Addr) (v : BitVec 16) : (s.setHalf a v).dep = s.dep := by
  simp only [State.setHalf, State.setByte_dep]
@[simp] theorem State.setHalf_host (a : Addr) (v : BitVec 16) : (s.setHalf a v).host = s.host := by
  simp only [State.setHalf, State.setByte_host]
@[simp] theorem State.setHalf_dev (a : Addr) (v : BitVec 16) : (s.setHalf a v).dev = s.dev := by
  simp only [State.setHalf, State.setByte_dev]
@[simp] theorem State.setHalf_fault (a : Addr) (v : BitVec 16) : (s.setHalf a v).fault = s.fault := by
  simp only [State.setHalf, State.setByte_fault]
@[simp] theorem State.setHalf_env (a : Addr) (v : BitVec 16) : (s.setHalf a v).env = s.env := by
  simp only [State.setHalf, State.setByte_env]

/-! ## `State.setWord` -/

@[simp] theorem State.setWord_port (a : Addr) (w : Word) : (s.setWord a w).port = s.port := by
  simp only [State.setWord, State.setByte_port]
@[simp] theorem State.setWord_mode (a : Addr) (w : Word) : (s.setWord a w).mode = s.mode := by
  simp only [State.setWord, State.setByte_mode]
@[simp] theorem State.setWord_lat (a : Addr) (w : Word) : (s.setWord a w).lat = s.lat := by
  simp only [State.setWord, State.setByte_lat]
@[simp] theorem State.setWord_gintmsk (a : Addr) (w : Word) : (s.setWord a w).gintmsk = s.gintmsk := by
  simp only [State.setWord, State.setByte_gintmsk]
@[simp] theorem State.setWord_fifo (a : Addr) (w : Word) : (s.setWord a w).fifo = s.fifo := by
  simp only [State.setWord, State.setByte_fifo]
@[simp] theorem State.setWord_frameNum (a : Addr) (w : Word) : (s.setWord a w).frameNum = s.frameNum := by
  simp only [State.setWord, State.setByte_frameNum]
@[simp] theorem State.setWord_frameInterval (a : Addr) (w : Word) : (s.setWord a w).frameInterval = s.frameInterval := by
  simp only [State.setWord, State.setByte_frameInterval]
@[simp] theorem State.setWord_hostClkSel (a : Addr) (w : Word) : (s.setWord a w).hostClkSel = s.hostClkSel := by
  simp only [State.setWord, State.setByte_hostClkSel]
@[simp] theorem State.setWord_hprt (a : Addr) (w : Word) : (s.setWord a w).hprt = s.hprt := by
  simp only [State.setWord, State.setByte_hprt]
@[simp] theorem State.setWord_hc (a : Addr) (w : Word) : (s.setWord a w).hc = s.hc := by
  simp only [State.setWord, State.setByte_hc]
@[simp] theorem State.setWord_haintmsk (a : Addr) (w : Word) : (s.setWord a w).haintmsk = s.haintmsk := by
  simp only [State.setWord, State.setByte_haintmsk]
@[simp] theorem State.setWord_pipe (a : Addr) (w : Word) : (s.setWord a w).pipe = s.pipe := by
  simp only [State.setWord, State.setByte_pipe]
@[simp] theorem State.setWord_dep (a : Addr) (w : Word) : (s.setWord a w).dep = s.dep := by
  simp only [State.setWord, State.setByte_dep]
@[simp] theorem State.setWord_host (a : Addr) (w : Word) : (s.setWord a w).host = s.host := by
  simp only [State.setWord, State.setByte_host]
@[simp] theorem State.setWord_dev (a : Addr) (w : Word) : (s.setWord a w).dev = s.dev := by
  simp only [State.setWord, State.setByte_dev]
@[simp] theorem State.setWord_fault (a : Addr) (w : Word) : (s.setWord a w).fault = s.fault := by
  simp only [State.setWord, State.setByte_fault]
@[simp] theorem State.setWord_env (a : Addr) (w : Word) : (s.setWord a w).env = s.env := by
  simp only [State.setWord, State.setByte_env]

/-! ## `State.logged` -/

@[simp] theorem State.logged_port (e : LogEntry) : (s.logged e).port = s.port := rfl
@[simp] theorem State.logged_mode (e : LogEntry) : (s.logged e).mode = s.mode := rfl
@[simp] theorem State.logged_lat (e : LogEntry) : (s.logged e).lat = s.lat := rfl
@[simp] theorem State.logged_gintmsk (e : LogEntry) : (s.logged e).gintmsk = s.gintmsk := rfl
@[simp] theorem State.logged_fifo (e : LogEntry) : (s.logged e).fifo = s.fifo := rfl
@[simp] theorem State.logged_frameNum (e : LogEntry) : (s.logged e).frameNum = s.frameNum := rfl
@[simp] theorem State.logged_frameInterval (e : LogEntry) : (s.logged e).frameInterval = s.frameInterval := rfl
@[simp] theorem State.logged_hostClkSel (e : LogEntry) : (s.logged e).hostClkSel = s.hostClkSel := rfl
@[simp] theorem State.logged_hprt (e : LogEntry) : (s.logged e).hprt = s.hprt := rfl
@[simp] theorem State.logged_hc (e : LogEntry) : (s.logged e).hc = s.hc := rfl
@[simp] theorem State.logged_haintmsk (e : LogEntry) : (s.logged e).haintmsk = s.haintmsk := rfl
@[simp] theorem State.logged_pipe (e : LogEntry) : (s.logged e).pipe = s.pipe := rfl
@[simp] theorem State.logged_dep (e : LogEntry) : (s.logged e).dep = s.dep := rfl
@[simp] theorem State.logged_host (e : LogEntry) : (s.logged e).host = s.host := rfl
@[simp] theorem State.logged_dev (e : LogEntry) : (s.logged e).dev = s.dev := rfl
@[simp] theorem State.logged_fault (e : LogEntry) : (s.logged e).fault = s.fault := rfl
@[simp] theorem State.logged_mem (e : LogEntry) : (s.logged e).mem = s.mem := rfl

/-! ## `State.refuse` -/

@[simp] theorem State.refuse_mode (r : RefuseName) : (s.refuse r).mode = s.mode := rfl
@[simp] theorem State.refuse_lat (r : RefuseName) : (s.refuse r).lat = s.lat := rfl
@[simp] theorem State.refuse_gintmsk (r : RefuseName) : (s.refuse r).gintmsk = s.gintmsk := rfl
@[simp] theorem State.refuse_fifo (r : RefuseName) : (s.refuse r).fifo = s.fifo := rfl
@[simp] theorem State.refuse_frameNum (r : RefuseName) : (s.refuse r).frameNum = s.frameNum := rfl
@[simp] theorem State.refuse_frameInterval (r : RefuseName) : (s.refuse r).frameInterval = s.frameInterval := rfl
@[simp] theorem State.refuse_hostClkSel (r : RefuseName) : (s.refuse r).hostClkSel = s.hostClkSel := rfl
@[simp] theorem State.refuse_hprt (r : RefuseName) : (s.refuse r).hprt = s.hprt := rfl
@[simp] theorem State.refuse_hc (r : RefuseName) : (s.refuse r).hc = s.hc := rfl
@[simp] theorem State.refuse_haintmsk (r : RefuseName) : (s.refuse r).haintmsk = s.haintmsk := rfl
@[simp] theorem State.refuse_pipe (r : RefuseName) : (s.refuse r).pipe = s.pipe := rfl
@[simp] theorem State.refuse_dep (r : RefuseName) : (s.refuse r).dep = s.dep := rfl
@[simp] theorem State.refuse_host (r : RefuseName) : (s.refuse r).host = s.host := rfl
@[simp] theorem State.refuse_dev (r : RefuseName) : (s.refuse r).dev = s.dev := rfl
@[simp] theorem State.refuse_fault (r : RefuseName) : (s.refuse r).fault = s.fault := rfl
@[simp] theorem State.refuse_mem (r : RefuseName) : (s.refuse r).mem = s.mem := rfl

/-! ## Reading back -/

@[simp] theorem State.hcAt_setHc_same (i : Ch) (c : HostChannel) : (s.setHc i c).hcAt i = c := by
  simp [State.hcAt, State.setHc]
theorem State.hcAt_setHc_ne {i j : Ch} (c : HostChannel) (h : j ≠ i) : (s.setHc i c).hcAt j = s.hcAt j := by
  have : i.val ≠ j.val := fun e => h (Fin.ext e.symm)
  simp [State.hcAt, State.setHc, this]
theorem State.hcAt_setHc (i j : Ch) (c : HostChannel) :
    (s.setHc i c).hcAt j = if j = i then c else s.hcAt j := by
  by_cases h : j = i
  · subst h; simp
  · simp [h, State.hcAt_setHc_ne]

@[simp] theorem State.pipeAt_setPipe_same (i : Ch) (p : Pipe) : (s.setPipe i p).pipeAt i = p := by
  simp [State.pipeAt, State.setPipe]
theorem State.pipeAt_setPipe_ne {i j : Ch} (p : Pipe) (h : j ≠ i) : (s.setPipe i p).pipeAt j = s.pipeAt j := by
  have : i.val ≠ j.val := fun e => h (Fin.ext e.symm)
  simp [State.pipeAt, State.setPipe, this]
theorem State.pipeAt_setPipe (i j : Ch) (p : Pipe) :
    (s.setPipe i p).pipeAt j = if j = i then p else s.pipeAt j := by
  by_cases h : j = i
  · subst h; simp
  · simp [h, State.pipeAt_setPipe_ne]

theorem State.epAt_setEp (d d' : Dir) (n m : EpIx) (e : DevEp) :
    (s.setEp d n e).epAt d' m = if d' = d ∧ m = n then e else s.epAt d' m := by
  have hv : (n.val = m.val) = (m = n) := by
    apply propext; constructor
    · intro h; exact Fin.ext h.symm
    · intro h; rw [h]
  cases d <;> cases d' <;> simp [State.epAt, State.setEp, Vector.getElem_set, hv]
@[simp] theorem State.epAt_setEp_same (d : Dir) (n : EpIx) (e : DevEp) : (s.setEp d n e).epAt d n = e := by
  simp [State.epAt_setEp]
theorem State.epbAt_setEpb (d d' : Dir) (n m : EpIx) (b : XferBuf) :
    (s.setEpb d n b).epbAt d' m = if d' = d ∧ m = n then b else s.epbAt d' m := by
  have hv : (n.val = m.val) = (m = n) := by
    apply propext; constructor
    · intro h; exact Fin.ext h.symm
    · intro h; rw [h]
  cases d <;> cases d' <;> simp [State.epbAt, State.setEpb, Vector.getElem_set, hv]
@[simp] theorem State.epbAt_setEpb_same (d : Dir) (n : EpIx) (b : XferBuf) : (s.setEpb d n b).epbAt d n = b := by
  simp [State.epbAt_setEpb]
@[simp] theorem State.epAt_setEpb (d d' : Dir) (n m : EpIx) (b : XferBuf) :
    (s.setEpb d n b).epAt d' m = s.epAt d' m := by cases d <;> cases d' <;> rfl
@[simp] theorem State.epbAt_setEp (d d' : Dir) (n m : EpIx) (e : DevEp) :
    (s.setEp d n e).epbAt d' m = s.epbAt d' m := by cases d <;> cases d' <;> rfl
@[simp] theorem State.daintmskOut_setEp (d : Dir) (n : EpIx) (e : DevEp) :
    (s.setEp d n e).dep.daintmskOut = s.dep.daintmskOut := by cases d <;> rfl
@[simp] theorem State.daintmskIn_setEp (d : Dir) (n : EpIx) (e : DevEp) :
    (s.setEp d n e).dep.daintmskIn = s.dep.daintmskIn := by cases d <;> rfl
@[simp] theorem State.daintmskOut_setEpb (d : Dir) (n : EpIx) (b : XferBuf) :
    (s.setEpb d n b).dep.daintmskOut = s.dep.daintmskOut := by cases d <;> rfl
@[simp] theorem State.daintmskIn_setEpb (d : Dir) (n : EpIx) (b : XferBuf) :
    (s.setEpb d n b).dep.daintmskIn = s.dep.daintmskIn := by cases d <;> rfl

@[simp] theorem State.txqAt_setTxq_same (i : Ch) (q : List Word) : (s.setTxq i q).txqAt i = q := by
  simp [State.txqAt, State.setTxq]
theorem State.txqAt_setTxq (i j : Ch) (q : List Word) :
    (s.setTxq i q).txqAt j = if j = i then q else s.txqAt j := by
  have hv : (i.val = j.val) = (j = i) := by
    apply propext; constructor
    · intro h; exact Fin.ext h.symm
    · intro h; rw [h]
  simp [State.txqAt, State.setTxq, Vector.getElem_set, hv]
@[simp] theorem State.rxq_setTxq (i : Ch) (q : List Word) : (s.setTxq i q).fifo.rxq = s.fifo.rxq := rfl
@[simp] theorem State.qSlotsNP_setTxq (i : Ch) (q : List Word) : (s.setTxq i q).fifo.qSlotsNP = s.fifo.qSlotsNP := rfl
@[simp] theorem State.qSlotsP_setTxq (i : Ch) (q : List Word) : (s.setTxq i q).fifo.qSlotsP = s.fifo.qSlotsP := rfl
@[simp] theorem State.qFlushNP_setTxq (i : Ch) (q : List Word) : (s.setTxq i q).fifo.qFlushNP = s.fifo.qFlushNP := rfl
@[simp] theorem State.qFlushP_setTxq (i : Ch) (q : List Word) : (s.setTxq i q).fifo.qFlushP = s.fifo.qFlushP := rfl

@[simp] theorem State.par_logged (e : LogEntry) : (s.logged e).env.par = s.env.par := rfl
@[simp] theorem State.sched_logged (e : LogEntry) : (s.logged e).env.sched = s.env.sched := rfl
@[simp] theorem State.draws_logged (e : LogEntry) : (s.logged e).env.draws = s.env.draws := rfl
@[simp] theorem State.fgStuck_logged (e : LogEntry) : (s.logged e).env.fgStuck = s.env.fgStuck := rfl
@[simp] theorem State.log_logged (e : LogEntry) : (s.logged e).env.log = e :: s.env.log := rfl
@[simp] theorem State.res_refuse (r : RefuseName) : (s.refuse r).port.res = 0xFFFFFFFF#32 := rfl
@[simp] theorem State.par_refuse (r : RefuseName) : (s.refuse r).env.par = s.env.par := rfl

/-! ## Accessors through updates of other fields -/

@[simp] theorem State.pipeAt_setHc (i : Ch) (c : HostChannel) (j : Ch) : (s.setHc i c).pipeAt j = s.pipeAt j := rfl
@[simp] theorem State.epAt_setHc (i : Ch) (c : HostChannel) (d' : Dir) (m : EpIx) : (s.setHc i c).epAt d' m = s.epAt d' m := rfl
@[simp] theorem State.epbAt_setHc (i : Ch) (c : HostChannel) (d' : Dir) (m : EpIx) : (s.setHc i c).epbAt d' m = s.epbAt d' m := rfl
@[simp] theorem State.txqAt_setHc (i : Ch) (c : HostChannel) (j : Ch) : (s.setHc i c).txqAt j = s.txqAt j := rfl
@[simp] theorem State.byte_setHc (i : Ch) (c : HostChannel) (x : Addr) : (s.setHc i c).byte x = s.byte x := rfl
@[simp] theorem State.hcAt_setPipe (i : Ch) (p : Pipe) (j : Ch) : (s.setPipe i p).hcAt j = s.hcAt j := rfl
@[simp] theorem State.epAt_setPipe (i : Ch) (p : Pipe) (d' : Dir) (m : EpIx) : (s.setPipe i p).epAt d' m = s.epAt d' m := rfl
@[simp] theorem State.epbAt_setPipe (i : Ch) (p : Pipe) (d' : Dir) (m : EpIx) : (s.setPipe i p).epbAt d' m = s.epbAt d' m := rfl
@[simp] theorem State.txqAt_setPipe (i : Ch) (p : Pipe) (j : Ch) : (s.setPipe i p).txqAt j = s.txqAt j := rfl
@[simp] theorem State.byte_setPipe (i : Ch) (p : Pipe) (x : Addr) : (s.setPipe i p).byte x = s.byte x := rfl
@[simp] theorem State.hcAt_setEp (d : Dir) (n : EpIx) (e : DevEp) (j : Ch) : (s.setEp d n e).hcAt j = s.hcAt j := by cases d <;> rfl
@[simp] theorem State.pipeAt_setEp (d : Dir) (n : EpIx) (e : DevEp) (j : Ch) : (s.setEp d n e).pipeAt j = s.pipeAt j := by cases d <;> rfl
@[simp] theorem State.txqAt_setEp (d : Dir) (n : EpIx) (e : DevEp) (j : Ch) : (s.setEp d n e).txqAt j = s.txqAt j := by cases d <;> rfl
@[simp] theorem State.byte_setEp (d : Dir) (n : EpIx) (e : DevEp) (x : Addr) : (s.setEp d n e).byte x = s.byte x := by cases d <;> rfl
@[simp] theorem State.hcAt_setEpb (d : Dir) (n : EpIx) (b : XferBuf) (j : Ch) : (s.setEpb d n b).hcAt j = s.hcAt j := by cases d <;> rfl
@[simp] theorem State.pipeAt_setEpb (d : Dir) (n : EpIx) (b : XferBuf) (j : Ch) : (s.setEpb d n b).pipeAt j = s.pipeAt j := by cases d <;> rfl
@[simp] theorem State.txqAt_setEpb (d : Dir) (n : EpIx) (b : XferBuf) (j : Ch) : (s.setEpb d n b).txqAt j = s.txqAt j := by cases d <;> rfl
@[simp] theorem State.byte_setEpb (d : Dir) (n : EpIx) (b : XferBuf) (x : Addr) : (s.setEpb d n b).byte x = s.byte x := by cases d <;> rfl
@[simp] theorem State.hcAt_setTxq (num : Ch) (q : List Word) (j : Ch) : (s.setTxq num q).hcAt j = s.hcAt j := rfl
@[simp] theorem State.pipeAt_setTxq (num : Ch) (q : List Word) (j : Ch) : (s.setTxq num q).pipeAt j = s.pipeAt j := rfl
@[simp] theorem State.epAt_setTxq (num : Ch) (q : List Word) (d' : Dir) (m : EpIx) : (s.setTxq num q).epAt d' m = s.epAt d' m := rfl
@[simp] theorem State.epbAt_setTxq (num : Ch) (q : List Word) (d' : Dir) (m : EpIx) : (s.setTxq num q).epbAt d' m = s.epbAt d' m := rfl
@[simp] theorem State.byte_setTxq (num : Ch) (q : List Word) (x : Addr) : (s.setTxq num q).byte x = s.byte x := rfl
@[simp] theorem State.hcAt_setGmask (f : GFlag) (b : Bool) (j : Ch) : (s.setGmask f b).hcAt j = s.hcAt j := rfl
@[simp] theorem State.pipeAt_setGmask (f : GFlag) (b : Bool) (j : Ch) : (s.setGmask f b).pipeAt j = s.pipeAt j := rfl
@[simp] theorem State.epAt_setGmask (f : GFlag) (b : Bool) (d' : Dir) (m : EpIx) : (s.setGmask f b).epAt d' m = s.epAt d' m := rfl
@[simp] theorem State.epbAt_setGmask (f : GFlag) (b : Bool) (d' : Dir) (m : EpIx) : (s.setGmask f b).epbAt d' m = s.epbAt d' m := rfl
@[simp] theorem State.txqAt_setGmask (f : GFlag) (b : Bool) (j : Ch) : (s.setGmask f b).txqAt j = s.txqAt j := rfl
@[simp] theorem State.byte_setGmask (f : GFlag) (b : Bool) (x : Addr) : (s.setGmask f b).byte x = s.byte x := rfl
@[simp] theorem State.hcAt_setByte (a : Addr) (b : Byte) (j : Ch) : (s.setByte a b).hcAt j = s.hcAt j := rfl
@[simp] theorem State.pipeAt_setByte (a : Addr) (b : Byte) (j : Ch) : (s.setByte a b).pipeAt j = s.pipeAt j := rfl
@[simp] theorem State.epAt_setByte (a : Addr) (b : Byte) (d' : Dir) (m : EpIx) : (s.setByte a b).epAt d' m = s.epAt d' m := rfl
@[simp] theorem State.epbAt_setByte (a : Addr) (b : Byte) (d' : Dir) (m : EpIx) : (s.setByte a b).epbAt d' m = s.epbAt d' m := rfl
@[simp] theorem State.txqAt_setByte (a : Addr) (b : Byte) (j : Ch) : (s.setByte a b).txqAt j = s.txqAt j := rfl
@[simp] theorem State.hcAt_setHalf (a : Addr) (v : BitVec 16) (j : Ch) : (s.setHalf a v).hcAt j = s.hcAt j := by
  simp only [State.setHalf, State.hcAt_setByte]
@[simp] theorem State.pipeAt_setHalf (a : Addr) (v : BitVec 16) (j : Ch) : (s.setHalf a v).pipeAt j = s.pipeAt j := by
  simp only [State.setHalf, State.pipeAt_setByte]
@[simp] theorem State.epAt_setHalf (a : Addr) (v : BitVec 16) (d' : Dir) (m : EpIx) : (s.setHalf a v).epAt d' m = s.epAt d' m := by
  simp only [State.setHalf, State.epAt_setByte]
@[simp] theorem State.epbAt_setHalf (a : Addr) (v : BitVec 16) (d' : Dir) (m : EpIx) : (s.setHalf a v).epbAt d' m = s.epbAt d' m := by
  simp only [State.setHalf, State.epbAt_setByte]
@[simp] theorem State.txqAt_setHalf (a : Addr) (v : BitVec 16) (j : Ch) : (s.setHalf a v).txqAt j = s.txqAt j := by
  simp only [State.setHalf, State.txqAt_setByte]
@[simp] theorem State.hcAt_setWord (a : Addr) (w : Word) (j : Ch) : (s.setWord a w).hcAt j = s.hcAt j := by
  simp only [State.setWord, State.hcAt_setByte]
@[simp] theorem State.pipeAt_setWord (a : Addr) (w : Word) (j : Ch) : (s.setWord a w).pipeAt j = s.pipeAt j := by
  simp only [State.setWord, State.pipeAt_setByte]
@[simp] theorem State.epAt_setWord (a : Addr) (w : Word) (d' : Dir) (m : EpIx) : (s.setWord a w).epAt d' m = s.epAt d' m := by
  simp only [State.setWord, State.epAt_setByte]
@[simp] theorem State.epbAt_setWord (a : Addr) (w : Word) (d' : Dir) (m : EpIx) : (s.setWord a w).epbAt d' m = s.epbAt d' m := by
  simp only [State.setWord, State.epbAt_setByte]
@[simp] theorem State.txqAt_setWord (a : Addr) (w : Word) (j : Ch) : (s.setWord a w).txqAt j = s.txqAt j := by
  simp only [State.setWord, State.txqAt_setByte]
@[simp] theorem State.hcAt_logged (e : LogEntry) (j : Ch) : (s.logged e).hcAt j = s.hcAt j := rfl
@[simp] theorem State.pipeAt_logged (e : LogEntry) (j : Ch) : (s.logged e).pipeAt j = s.pipeAt j := rfl
@[simp] theorem State.epAt_logged (e : LogEntry) (d' : Dir) (m : EpIx) : (s.logged e).epAt d' m = s.epAt d' m := rfl
@[simp] theorem State.epbAt_logged (e : LogEntry) (d' : Dir) (m : EpIx) : (s.logged e).epbAt d' m = s.epbAt d' m := rfl
@[simp] theorem State.txqAt_logged (e : LogEntry) (j : Ch) : (s.logged e).txqAt j = s.txqAt j := rfl
@[simp] theorem State.byte_logged (e : LogEntry) (x : Addr) : (s.logged e).byte x = s.byte x := rfl
@[simp] theorem State.hcAt_refuse (r : RefuseName) (j : Ch) : (s.refuse r).hcAt j = s.hcAt j := rfl
@[simp] theorem State.pipeAt_refuse (r : RefuseName) (j : Ch) : (s.refuse r).pipeAt j = s.pipeAt j := rfl
@[simp] theorem State.epAt_refuse (r : RefuseName) (d' : Dir) (m : EpIx) : (s.refuse r).epAt d' m = s.epAt d' m := rfl
@[simp] theorem State.epbAt_refuse (r : RefuseName) (d' : Dir) (m : EpIx) : (s.refuse r).epbAt d' m = s.epbAt d' m := rfl
@[simp] theorem State.txqAt_refuse (r : RefuseName) (j : Ch) : (s.refuse r).txqAt j = s.txqAt j := rfl
@[simp] theorem State.byte_refuse (r : RefuseName) (x : Addr) : (s.refuse r).byte x = s.byte x := rfl

/-! ## The parsed configuration and the reads of a descriptor (R285) -/

@[simp] theorem State.addInterface_itfCount (j : Fin 2) (raw : Vector Byte 9) :
    (s.addInterface j raw).host.itfCount = s.host.itfCount + 1 := rfl
@[simp] theorem State.addInterface_itf (j : Fin 2) (raw : Vector Byte 9) :
    (s.addInterface j raw).host.itf = s.host.itf.set j { s.host.itf[j] with raw := raw, epCount := 0 } := rfl
@[simp] theorem State.addInterface_mem (j : Fin 2) (raw : Vector Byte 9) : (s.addInterface j raw).mem = s.mem := rfl
@[simp] theorem State.byte_addInterface (j : Fin 2) (raw : Vector Byte 9) (x : Addr) :
    (s.addInterface j raw).byte x = s.byte x := rfl
@[simp] theorem State.addEndpoint_itfCount (j k : Fin 2) (raw : Vector Byte 7) :
    (s.addEndpoint j k raw).host.itfCount = s.host.itfCount := rfl
@[simp] theorem State.addEndpoint_itf (j k : Fin 2) (raw : Vector Byte 7) :
    (s.addEndpoint j k raw).host.itf = s.host.itf.set j { s.host.itf[j] with
      ep := s.host.itf[j].ep.set k raw, epCount := s.host.itf[j].epCount + 1 } := rfl
@[simp] theorem State.addEndpoint_mem (j k : Fin 2) (raw : Vector Byte 7) : (s.addEndpoint j k raw).mem = s.mem := rfl
@[simp] theorem State.byte_addEndpoint (j k : Fin 2) (raw : Vector Byte 7) (x : Addr) :
    (s.addEndpoint j k raw).byte x = s.byte x := rfl

/-- The reads of a descriptor change the history only. -/
theorem State.loggedBytes_eq (buf : Addr) (p n : Nat) : ∃ l, s.loggedBytes buf p n = { s with env.log := l } := by
  induction n with
  | zero => exact ⟨s.env.log, rfl⟩
  | succ n ih =>
    obtain ⟨l, hl⟩ := ih
    rw [State.loggedBytes, hl]
    exact ⟨_, rfl⟩
@[simp] theorem State.loggedBytes_host (buf : Addr) (p n : Nat) : (s.loggedBytes buf p n).host = s.host := by
  obtain ⟨l, h⟩ := s.loggedBytes_eq buf p n; rw [h]
@[simp] theorem State.loggedBytes_mem (buf : Addr) (p n : Nat) : (s.loggedBytes buf p n).mem = s.mem := by
  obtain ⟨l, h⟩ := s.loggedBytes_eq buf p n; rw [h]
@[simp] theorem State.byte_loggedBytes (buf : Addr) (p n : Nat) (x : Addr) :
    (s.loggedBytes buf p n).byte x = s.byte x := by
  obtain ⟨l, h⟩ := s.loggedBytes_eq buf p n; rw [h]; rfl

end Sys2Proof.Machine
end

