-- ==== Sys2Proof/Laws/Monad.lean ====
section
/-! SUPPORT. How a computation runs: one lemma per primitive of the monad, alone and before a continuation, so that a
meaning is run symbolically by `simp`; and `Moves R m`, "every run of `m` relates its first and last state by `R`",
with one lemma per way of building a computation. -/

namespace Sys2Proof.Machine

variable {α β : Type} (s : State)

/-! ## Running -/

@[simp] theorem pure_apply (a : α) : (pure a : M α) s = .ok a s := rfl
@[simp] theorem get_apply : (get : M State) s = .ok s s := rfl
@[simp] theorem upd_apply (f : State → State) : upd f s = .ok () (f s) := rfl
@[simp] theorem look_apply (f : State → α) : look f s = .ok (f s) s := rfl
@[simp] theorem emit_apply (e : Event) : emit e s = .ok () (s.logged (.event e)) := rfl
@[simp] theorem raise_apply (f : FaultName) :
    (raise f : M α) s = .error .raised { s with fault := s.fault.record f } := rfl
@[simp] theorem stuck_apply : (stuck : M α) s = .error .stuck s := rfl
theorem refuseIf_apply (c : Prop) [Decidable c] (r : RefuseName) :
    refuseIf c r s = if c then .error (.refuse r) s else .ok () s := rfl

theorem bind_apply (m : M α) (f : α → M β) :
    (m >>= f) s = match m s with
      | .ok a t => f a t
      | .error e t => .error e t := by
  show EStateM.bind m f s = _
  unfold EStateM.bind
  cases m s <;> rfl

@[simp] theorem pure_bind_apply (a : α) (f : α → M β) : ((pure a : M α) >>= f) s = f a s := rfl
@[simp] theorem get_bind_apply (f : State → M β) : ((get : M State) >>= f) s = f s s := rfl
@[simp] theorem upd_bind_apply (g : State → State) (f : Unit → M β) : (upd g >>= f) s = f () (g s) := rfl
@[simp] theorem look_bind_apply (g : State → α) (f : α → M β) : (look g >>= f) s = f (g s) s := rfl
@[simp] theorem emit_bind_apply (e : Event) (f : Unit → M β) : (emit e >>= f) s = f () (s.logged (.event e)) := rfl
@[simp] theorem raise_bind_apply (r : FaultName) (f : α → M β) :
    ((raise r : M α) >>= f) s = .error .raised { s with fault := s.fault.record r } := rfl
@[simp] theorem stuck_bind_apply (f : α → M β) : ((stuck : M α) >>= f) s = .error .stuck s := rfl
@[simp] theorem refuseIf_bind_apply (c : Prop) [Decidable c] (r : RefuseName) (f : Unit → M β) :
    (refuseIf c r >>= f) s = if c then .error (.refuse r) s else f () s := by
  by_cases h : c <;> simp [bind_apply, refuseIf_apply, h]
@[simp] theorem raiseIf_bind_apply (c : Prop) [Decidable c] (r : FaultName) (f : Unit → M β) :
    (raiseIf c r >>= f) s = if c then .error .raised { s with fault := s.fault.record r } else f () s := by
  by_cases h : c <;> simp [bind_apply, raiseIf, h]
theorem bind_ok {m : M α} {f : α → M β} {s t : State} {a : α} (h : m s = .ok a t) : (m >>= f) s = f a t := by
  rw [bind_apply, h]
theorem bind_error {m : M α} {f : α → M β} {s t : State} {e : Stop} (h : m s = .error e t) :
    (m >>= f) s = .error e t := by
  rw [bind_apply, h]
@[simp] theorem ite_apply' (c : Prop) [Decidable c] (m n : M α) : (if c then m else n) s = if c then m s else n s := by
  split <;> rfl
@[simp] theorem ite_bind_apply (c : Prop) [Decidable c] (m n : M α) (f : α → M β) :
    ((if c then m else n) >>= f) s = if c then (m >>= f) s else (n >>= f) s := by
  split <;> rfl
theorem bind_assoc_apply {γ : Type} (m : M α) (f : α → M β) (g : β → M γ) :
    ((m >>= f) >>= g) s = (m >>= fun a => f a >>= g) s := by
  simp only [bind_apply]; cases m s <;> rfl

@[simp] theorem memRead8_bind_apply (a : Addr) (f : Byte → M β) :
    (memRead8 a >>= f) s = f (s.byte a) (s.logged (.memRead a 1 ((s.byte a).setWidth 32))) := rfl
@[simp] theorem memRead16_bind_apply (a : Addr) (f : BitVec 16 → M β) :
    (memRead16 a >>= f) s = f (s.half a) (s.logged (.memRead a 2 ((s.half a).setWidth 32))) := rfl
@[simp] theorem memRead32_bind_apply (a : Addr) (f : Word → M β) :
    (memRead32 a >>= f) s = f (s.word a) (s.logged (.memRead a 4 (s.word a))) := rfl
@[simp] theorem memRead16_apply (a : Addr) :
    memRead16 a s = .ok (s.half a) (s.logged (.memRead a 2 ((s.half a).setWidth 32))) := rfl
@[simp] theorem memWrite8_bind_apply (a : Addr) (b : Byte) (f : Unit → M β) :
    (memWrite8 a b >>= f) s = f () ((s.setByte a b).logged (.memWrite a 1 (b.setWidth 32))) := rfl
@[simp] theorem memWrite16_bind_apply (a : Addr) (v : BitVec 16) (f : Unit → M β) :
    (memWrite16 a v >>= f) s = f () ((s.setHalf a v).logged (.memWrite a 2 (v.setWidth 32))) := rfl
@[simp] theorem memWrite32_bind_apply (a : Addr) (w : Word) (f : Unit → M β) :
    (memWrite32 a w >>= f) s = f () ((s.setWord a w).logged (.memWrite a 4 w)) := rfl
@[simp] theorem memWrite32_apply (a : Addr) (w : Word) :
    memWrite32 a w s = .ok () ((s.setWord a w).logged (.memWrite a 4 w)) := rfl
@[simp] theorem readRaw_bind_apply (n : Nat) (buf : Addr) (p bl : Nat) (f : Vector Byte n → M β) :
    (readRaw n buf p bl >>= f) s = f (s.rawBytes n buf p bl) (s.loggedBytes buf p (min bl n)) := rfl
@[simp] theorem drawPad_bind_apply (f : Word → M β) :
    (drawPad >>= f) s = f (Config.freePad s.env.draws) { s with env.draws := s.env.draws + 1 } := rfl

/-! ## Operands -/

theorem chOperand_of {num : BitVec 4} (h : num.toNat < 12) : chOperand num s = .ok ⟨num.toNat, h⟩ s := by
  simp [chOperand, h]
theorem chOperand_bind_of {num : BitVec 4} (h : num.toNat < 12) (f : Ch → M β) :
    (chOperand num >>= f) s = f ⟨num.toNat, h⟩ s := bind_ok (chOperand_of s h)
theorem chOperand_bind_not {num : BitVec 4} (h : ¬ num.toNat < 12) (f : Ch → M β) :
    (chOperand num >>= f) s = .error (.refuse .BadOperand) s := bind_error (by simp [chOperand, h])
theorem epOperand_bind_of {num : BitVec 4} (h : num.toNat < 8) (f : EpIx → M β) :
    (epOperand num >>= f) s = f ⟨num.toNat, h⟩ s := bind_ok (by simp [epOperand, h])
theorem epOperand_bind_not {num : BitVec 4} (h : ¬ num.toNat < 8) (f : EpIx → M β) :
    (epOperand num >>= f) s = .error (.refuse .BadOperand) s := bind_error (by simp [epOperand, h])
@[simp] theorem needHost_bind_apply (f : Unit → M β) :
    (needHost >>= f) s = if s.mode ≠ .HOST then .error (.refuse .WrongMode) s else f () s := by
  by_cases h : s.mode = .HOST <;> simp [bind_apply, needHost, h]
@[simp] theorem needDevice_bind_apply (f : Unit → M β) :
    (needDevice >>= f) s = if s.mode ≠ .DEVICE then .error (.refuse .WrongMode) s else f () s := by
  by_cases h : s.mode = .DEVICE <;> simp [bind_apply, needDevice, h]

/-! ## How a command ends -/

/-- The state a command settles in, from its first state and its result. -/
def settle (s : State) : EStateM.Result Stop State Word → State
  | .ok r t => { t with port.res := r }
  | .error (.refuse r) _ => s.refuse r
  | .error .raised t => t
  | .error .stuck t => { t with env.fgStuck := true }

theorem commandOutcome_eq (m : M Word) : commandOutcome m s = .next (settle s (m s)) := by
  unfold commandOutcome afterCommand settle
  cases m s with
  | ok => rfl
  | error e => cases e <;> rfl
@[simp] theorem settle_ok (r : Word) (t : State) : settle s (.ok r t) = { t with port.res := r } := rfl
@[simp] theorem settle_refuse (r : RefuseName) (t : State) : settle s (.error (.refuse r) t) = s.refuse r := rfl
@[simp] theorem settle_raised (t : State) : settle s (.error .raised t) = t := rfl
@[simp] theorem settle_stuck (t : State) : settle s (.error .stuck t) = { t with env.fgStuck := true } := rfl
@[simp] theorem settle_ite (c : Prop) [Decidable c] (x y : EStateM.Result Stop State Word) :
    settle s (if c then x else y) = if c then settle s x else settle s y := by split <;> rfl

theorem finalState_ok {m : M α} {s t : State} {a : α} (h : m s = .ok a t) : finalState m s = t := by
  simp [finalState, h]
theorem finalState_error {m : M α} {s t : State} {e : Stop} (h : m s = .error e t) : finalState m s = t := by
  simp [finalState, h]

/-! ## Relations between the first and the last state of a run -/

/-- A relation that holds of a state and itself and composes. -/
structure Chain (R : State → State → Prop) : Prop where
  refl : ∀ s, R s s
  trans : ∀ {s t u}, R s t → R t u → R s u

/-- Every run of `m` relates its first and last state by `R`, however it ends. -/
def Moves (R : State → State → Prop) (m : M α) : Prop := ∀ s, R s (finalState m s)

variable {R : State → State → Prop}

theorem moves_pure (hR : Chain R) (a : α) : Moves R (pure a : M α) := fun s => hR.refl s
theorem moves_get (hR : Chain R) : Moves R (get : M State) := fun s => hR.refl s
theorem moves_look (hR : Chain R) (f : State → α) : Moves R (look f) := fun s => hR.refl s
theorem moves_upd {f : State → State} (h : ∀ s, R s (f s)) : Moves R (upd f) := h
theorem moves_refuseIf (hR : Chain R) (c : Prop) [Decidable c] (r : RefuseName) : Moves R (refuseIf c r) := fun s => by
  have : finalState (refuseIf c r) s = s := by
    unfold finalState; rw [refuseIf_apply]; split <;> rename_i h <;> split at h <;> cases h <;> rfl
  rw [this]; exact hR.refl s
theorem moves_stuck (hR : Chain R) : Moves R (stuck : M α) := fun s => hR.refl s
theorem moves_raise (h : ∀ s f, R s { s with fault := s.fault.record f }) (f : FaultName) : Moves R (raise f : M α) :=
  fun s => h s f
theorem moves_ite {c : Prop} [Decidable c] {m n : M α} (hm : Moves R m) (hn : Moves R n) :
    Moves R (if c then m else n) := by split <;> assumption
theorem moves_dite {c : Prop} [Decidable c] {m : c → M α} {n : ¬ c → M α} (hm : ∀ h, Moves R (m h))
    (hn : ∀ h, Moves R (n h)) : Moves R (if h : c then m h else n h) := by
  split
  · exact hm _
  · exact hn _
theorem moves_raiseIf (hR : Chain R) (h : ∀ s f, R s { s with fault := s.fault.record f }) (c : Prop) [Decidable c]
    (f : FaultName) : Moves R (raiseIf c f) := moves_ite (moves_raise h f) (moves_pure hR ())
theorem moves_bind (hR : Chain R) {m : M α} {f : α → M β} (hm : Moves R m) (hf : ∀ a, Moves R (f a)) :
    Moves R (m >>= f) := fun s => by
  have h1 := hm s
  unfold finalState at h1 ⊢
  rw [bind_apply]
  cases h : m s with
  | error e t => rw [h] at h1; exact h1
  | ok a t =>
    rw [h] at h1
    have h2 := hf a t
    unfold finalState at h2
    exact hR.trans h1 h2
/-- After `get`, the continuation runs at the state it was given. -/
theorem moves_get_bind {f : State → M β} (h : ∀ s, R s (finalState (f s) s)) : Moves R (get >>= f) := h
theorem moves_look_bind {g : State → α} {f : α → M β} (h : ∀ s, R s (finalState (f (g s)) s)) :
    Moves R (look g >>= f) := h
theorem moves_chOperand (hR : Chain R) (n : BitVec 4) : Moves R (chOperand n) := fun s => by
  have : finalState (chOperand n) s = s := by unfold finalState chOperand; split <;> rename_i h <;> split at h <;> cases h <;> rfl
  rw [this]; exact hR.refl s
theorem moves_epOperand (hR : Chain R) (n : BitVec 4) : Moves R (epOperand n) := fun s => by
  have : finalState (epOperand n) s = s := by unfold finalState epOperand; split <;> rename_i h <;> split at h <;> cases h <;> rfl
  rw [this]; exact hR.refl s
theorem moves_needHost (hR : Chain R) : Moves R needHost := fun s => by
  have : finalState needHost s = s := by unfold finalState needHost; split <;> rename_i h <;> split at h <;> cases h <;> rfl
  rw [this]; exact hR.refl s
theorem moves_needDevice (hR : Chain R) : Moves R needDevice := fun s => by
  have : finalState needDevice s = s := by unfold finalState needDevice; split <;> rename_i h <;> split at h <;> cases h <;> rfl
  rw [this]; exact hR.refl s
theorem moves_forEach (hR : Chain R) {l : List α} {f : α → M Unit} (hf : ∀ a, Moves R (f a)) :
    Moves R (forEach l f) := by
  induction l with
  | nil => exact moves_pure hR ()
  | cons a l ih => exact moves_bind hR (hf a) fun _ => ih

/-- A command keeps `R` if its body does, a refusal does, and writing RES and the stuck bit do. -/
theorem moves_command {m : M Word} (hR : Chain R) (hm : Moves R m) (hr : ∀ s r, R s (s.refuse r))
    (hw : ∀ s (w : Word), R s { s with port.res := w }) (hk : ∀ s : State, R s { s with env.fgStuck := true }) (s : State) :
    R s (afterCommand m s) := by
  have h := hm s
  unfold finalState at h
  unfold afterCommand
  cases hms : m s with
  | ok r t => rw [hms] at h; exact hR.trans h (hw t r)
  | error e t =>
    rw [hms] at h
    cases e with
    | refuse r => exact hr s r
    | raised => exact h
    | stuck => exact hR.trans h (hk t)

end Sys2Proof.Machine
end

