-- ==== Sys2Proof/Laws/Memory.lean ====
section
/-! SUPPORT. Buffer memory (spec R71 to R73): a read after a write gives the value written and leaves every other
address alone, and every write keeps the canonical form. -/

namespace Sys2Proof.Machine

theorem memWfFrom_mono {lo lo' : Nat} (h : lo' ≤ lo) : ∀ {m : Memory}, memWfFrom lo m = true → memWfFrom lo' m = true
  | [], _ => rfl
  | (a, b) :: m, hm => by
    simp only [memWfFrom, Bool.and_eq_true, decide_eq_true_eq] at hm ⊢
    exact ⟨⟨⟨by omega, hm.1.1.2⟩, hm.1.2⟩, hm.2⟩

theorem memGet_below {lo : Nat} : ∀ {m : Memory}, memWfFrom lo m = true → ∀ {x : Nat}, x < lo → memGet m x = unlistedByte
  | [], _, _, _ => rfl
  | (a, b) :: m, hm, x, hx => by
    simp only [memWfFrom, Bool.and_eq_true, decide_eq_true_eq] at hm
    have : x ≠ a := by omega
    simp [memGet, this, memGet_below hm.2 (show x < a + 1 by omega)]

theorem memPut_wfFrom {lo a : Nat} {b : Byte} (ha : a < 2 ^ 32) :
    ∀ {m : Memory}, memWfFrom lo m = true → memWfFrom (min lo a) (memPut m a b) = true
  | [], _ => by
    unfold memPut
    split
    · rfl
    · rename_i h; simp [memWfFrom, h]; omega
  | (k, c) :: m, hm => by
    have hm0 := hm
    simp only [memWfFrom, Bool.and_eq_true, decide_eq_true_eq] at hm
    unfold memPut
    split
    · split
      · exact memWfFrom_mono (by omega) hm0
      · rename_i h1 h2
        have : memWfFrom (a + 1) ((k, c) :: m) = true := by
          simp only [memWfFrom, Bool.and_eq_true, decide_eq_true_eq]
          exact ⟨⟨⟨by omega, hm.1.1.2⟩, hm.1.2⟩, hm.2⟩
        simp [memWfFrom, h2] at this ⊢
        exact ⟨by omega, this⟩
    · split
      · rename_i h1 h2
        subst h2
        split
        · exact memWfFrom_mono (by omega) hm.2
        · rename_i h3
          simp only [memWfFrom, Bool.and_eq_true, decide_eq_true_eq]
          exact ⟨⟨⟨by omega, ha⟩, by simp [h3]⟩, hm.2⟩
      · rename_i h1 h2
        have ih := memPut_wfFrom (b := b) ha hm.2
        simp only [memWfFrom, Bool.and_eq_true, decide_eq_true_eq]
        refine ⟨⟨⟨by omega, hm.1.1.2⟩, hm.1.2⟩, memWfFrom_mono (by omega) ih⟩

/-- A write keeps the canonical form. -/
theorem memPut_wf {m : Memory} {a : Nat} {b : Byte} (ha : a < 2 ^ 32) (hm : memWf m = true) :
    memWf (memPut m a b) = true := memWfFrom_mono (Nat.zero_le _) (memPut_wfFrom ha hm)

theorem memGet_memPut_from {a : Nat} {b : Byte} (x : Nat) :
    ∀ {lo : Nat} {m : Memory}, memWfFrom lo m = true → memGet (memPut m a b) x = if x = a then b else memGet m x
  | _, [], _ => by
    unfold memPut
    split
    · rename_i h; split <;> simp_all [memGet]
    · simp [memGet]
  | _, (k, c) :: m, hm => by
    have hm0 := hm
    simp only [memWfFrom, Bool.and_eq_true, decide_eq_true_eq] at hm
    unfold memPut
    split
    · rename_i h1
      split
      · rename_i h2
        split
        · rename_i h3
          subst h3
          rw [h2]
          have : x ≠ k := by omega
          simp [memGet, this, memGet_below hm.2 (show x < k + 1 by omega)]
        · rfl
      · simp [memGet]
    · rename_i h1
      split
      · rename_i h2
        subst h2
        split
        · rename_i h3
          split
          · rename_i h4; subst h4; rw [h3]; exact memGet_below hm.2 (by omega)
          · rename_i h4; simp [memGet, h4]
        · simp only [memGet]; split <;> rfl
      · rename_i h2
        have ih := memGet_memPut_from (a := a) (b := b) x hm.2
        simp only [memGet]
        split
        · rename_i h3; subst h3; simp [Ne.symm h2]
        · exact ih

/-- A read after a write. -/
theorem memGet_memPut {m : Memory} {a : Nat} {b : Byte} (hm : memWf m = true) (x : Nat) :
    memGet (memPut m a b) x = if x = a then b else memGet m x := memGet_memPut_from x hm

variable (s : State)

theorem State.mem_setByte (a : Addr) (b : Byte) : (s.setByte a b).mem = memPut s.mem a.toNat b := rfl

variable {s}

theorem State.wf_setByte (h : memWf s.mem = true) (a : Addr) (b : Byte) : memWf (s.setByte a b).mem = true :=
  memPut_wf a.isLt h
theorem State.wf_setHalf (h : memWf s.mem = true) (a : Addr) (v : BitVec 16) : memWf (s.setHalf a v).mem = true :=
  State.wf_setByte (State.wf_setByte h _ _) _ _
theorem State.wf_setWord (h : memWf s.mem = true) (a : Addr) (w : Word) : memWf (s.setWord a w).mem = true :=
  State.wf_setByte (State.wf_setByte (State.wf_setByte (State.wf_setByte h _ _) _ _) _ _) _ _

theorem State.byte_setByte (h : memWf s.mem = true) (a : Addr) (b : Byte) (x : Addr) :
    (s.setByte a b).byte x = if x = a then b else s.byte x := by
  unfold State.byte State.setByte
  simp only
  rw [memGet_memPut h]
  by_cases hx : x = a
  · simp [hx]
  · have : x.toNat ≠ a.toNat := fun e => hx (BitVec.eq_of_toNat_eq e)
    simp [hx, this]

theorem State.byte_setHalf (h : memWf s.mem = true) (a : Addr) (v : BitVec 16) (x : Addr) :
    (s.setHalf a v).byte x =
      if x = a + 1 then v.extractLsb' 8 8 else if x = a then v.extractLsb' 0 8 else s.byte x := by
  unfold State.setHalf
  rw [State.byte_setByte (State.wf_setByte h _ _), State.byte_setByte h]

theorem State.byte_setWord (h : memWf s.mem = true) (a : Addr) (w : Word) (x : Addr) :
    (s.setWord a w).byte x =
      if x = a + 3 then byteOf w 3 else if x = a + 2 then byteOf w 2
      else if x = a + 1 then byteOf w 1 else if x = a then byteOf w 0 else s.byte x := by
  unfold State.setWord
  rw [State.byte_setByte (State.wf_setByte (State.wf_setByte (State.wf_setByte h _ _) _ _) _ _),
    State.byte_setByte (State.wf_setByte (State.wf_setByte h _ _) _ _),
    State.byte_setByte (State.wf_setByte h _ _), State.byte_setByte h]

theorem addr_add_ne {a : Addr} {i j : Nat} (hi : i < 2 ^ 32) (hj : j < 2 ^ 32) (h : i ≠ j) :
    a + BitVec.ofNat 32 i ≠ a + BitVec.ofNat 32 j := by
  intro e
  have := congrArg BitVec.toNat ((BitVec.add_right_inj a).mp e)
  simp only [BitVec.toNat_ofNat, Nat.mod_eq_of_lt hi, Nat.mod_eq_of_lt hj] at this
  exact h this

/-- Byte `j` of a word just written. -/
theorem State.byte_setWord_at (h : memWf s.mem = true) (a : Addr) (w : Word) {j : Nat} (hj : j < 4) :
    (s.setWord a w).byte (a + BitVec.ofNat 32 j) = byteOf w j := by
  rw [State.byte_setWord h]
  rcases j with _ | _ | _ | _ | j
  · simp
  · simp
  · simp
  · simp
  · omega

/-- A word write leaves every other address alone. -/
theorem State.byte_setWord_off (h : memWf s.mem = true) (a : Addr) (w : Word) {x : Addr}
    (hx : ∀ j < 4, x ≠ a + BitVec.ofNat 32 j) : (s.setWord a w).byte x = s.byte x := by
  have h3 : x ≠ a + 3 := hx 3 (by omega)
  have h2 : x ≠ a + 2 := hx 2 (by omega)
  have h1 : x ≠ a + 1 := hx 1 (by omega)
  have h0 : x ≠ a := by simpa using hx 0 (by omega)
  rw [State.byte_setWord h, if_neg h3, if_neg h2, if_neg h1, if_neg h0]

end Sys2Proof.Machine
end

