-- ==== Sys2Proof/Laws/Fifo.lean ====
section
/-! SUPPORT. The FIFO transport (spec R74, R75, R140, R141): what the pop, the push, `ReadPacket` and `WritePacket` can
do, said once for every caller. -/

namespace Sys2Proof.Machine

/-! ## Arithmetic of packets -/

theorem wordsOf_eq (n : Nat) : wordsOf n = (n + 3) / 4 := rfl
theorem wordsOf_of_mod_zero {n : Nat} (h : n % 4 = 0) : wordsOf n = n / 4 := by rw [wordsOf_eq]; omega
theorem wordsOf_of_mod_pos {n : Nat} (h : n % 4 ≠ 0) : wordsOf n = n / 4 + 1 := by rw [wordsOf_eq]; omega
theorem wordsOf_mono {m n : Nat} (h : m ≤ n) : wordsOf m ≤ wordsOf n := by rw [wordsOf_eq, wordsOf_eq]; omega

/-- `pk = min(256, pkt_count(L, M))` (R159). -/
theorem clampPackets_fst (len mps : Nat) : (clampPackets len mps).1 = min 256 (pktCount len mps) := by
  unfold clampPackets; split <;> simp <;> omega
theorem clampPackets_fst_le (len mps : Nat) : (clampPackets len mps).1 ≤ 256 := by
  rw [clampPackets_fst]; omega
theorem clampPackets_snd_le (len mps : Nat) : (clampPackets len mps).2 ≤ 256 * mps ∨ mps = 0 := by
  by_cases hm : mps = 0
  · exact Or.inr hm
  · left
    unfold clampPackets
    split
    · simp
    · rename_i h
      simp only
      unfold pktCount ceilDiv at h
      by_cases h0 : len = 0
      · omega
      · simp only [h0, if_false] at h
        have h1 : (len + mps - 1) / mps ≤ 256 := by omega
        have h2 : len + mps - 1 < (256 + 1) * mps := (Nat.div_lt_iff_lt_mul (by omega)).mp (by omega)
        omega
theorem clampPackets_snd_le_len {len mps : Nat} (hm : mps ≠ 0) : (clampPackets len mps).2 ≤ len := by
  unfold clampPackets
  split
  · rename_i h
    simp only
    unfold pktCount ceilDiv at h
    by_cases h0 : len = 0
    · simp [h0] at h
    · simp only [h0, if_false] at h
      have h2 : 257 * mps ≤ len + mps - 1 := (Nat.le_div_iff_mul_le (by omega)).mp (by omega)
      omega
  · exact Nat.le_refl _
/-- A packet count is zero for no length and no packet size. -/
theorem clampPackets_fst_pos {len mps : Nat} (hm : mps ≠ 0) : 1 ≤ (clampPackets len mps).1 := by
  rw [clampPackets_fst]
  unfold pktCount ceilDiv
  split
  · simp
  · rename_i h
    have : 1 ≤ (len + mps - 1) / mps := (Nat.le_div_iff_mul_le (by omega)).mpr (by omega)
    omega

/-! ## The RxFIFO -/

theorem rxPop_cons {s : State} {w : Word} {q : List Word} (h : s.fifo.rxq = w :: q) :
    rxPop s = .ok w ({ s with fifo.rxq := q }.logged (.rxPop w)) := by
  unfold rxPop; rw [h]
theorem rxPop_nil {s : State} (h : s.fifo.rxq = []) :
    rxPop s = .error .raised { s with fault := s.fault.record .RxUnderflow } := by
  unfold rxPop; rw [h]; rfl

/-- A run that took words from the RxFIFO and wrote memory and history, and nothing else. -/
def Received (s t : State) : Prop :=
  ∃ q m l, t = { s with fifo.rxq := q, mem := m, env.log := l }

theorem Received.refl (s : State) : Received s s := ⟨_, _, _, rfl⟩
theorem Received.trans {s t u : State} : Received s t → Received t u → Received s u := by
  rintro ⟨q, m, l, rfl⟩ ⟨q', m', l', rfl⟩; exact ⟨q', m', l', rfl⟩

theorem readWords_ok (n : Nat) : ∀ {dst : Addr} {s : State}, memWf s.mem = true → n ≤ s.fifo.rxq.length →
    4 * n ≤ 2 ^ 32 → ∃ t, readWords dst n s = .ok () t ∧ Received s t ∧ t.fifo.rxq = s.fifo.rxq.drop n ∧
      memWf t.mem = true ∧ (∀ k < 4 * n, t.byte (dst + BitVec.ofNat 32 k) = wordsByte s.fifo.rxq k) ∧
      ∀ x, (∀ k < 4 * n, x ≠ dst + BitVec.ofNat 32 k) → t.byte x = s.byte x := by
  induction n with
  | zero => intro dst s hm _ _; exact ⟨s, rfl, .refl s, by simp, hm, by intro k hk; omega, fun _ _ => rfl⟩
  | succ n ih =>
    intro dst s hm hl hn
    obtain ⟨w, q, hq⟩ : ∃ w q, s.fifo.rxq = w :: q := by
      cases h : s.fifo.rxq with
      | nil => simp [h] at hl
      | cons w q => exact ⟨w, q, rfl⟩
    let s1 := { s with fifo.rxq := q }.logged (.rxPop w)
    let s2 := (s1.setWord dst w).logged (.memWrite dst 4 w)
    have hm1 : memWf s1.mem = true := hm
    have hm2 : memWf s2.mem = true := State.wf_setWord hm1 dst w
    have hq2 : s2.fifo.rxq = q := by simp [s2, s1]
    have hbs1 : ∀ x, s1.byte x = s.byte x := fun _ => rfl
    obtain ⟨t, ht, hr, hrq, hmt, hb, ho⟩ := ih (dst := dst + 4) hm2 (by rw [hq2]; simp [hq] at hl; omega) (by omega)
    have hadd : ∀ k, dst + 4 + BitVec.ofNat 32 k = dst + BitVec.ofNat 32 (k + 4) := by
      intro k; rw [BitVec.add_assoc]; congr 1
      apply BitVec.eq_of_toNat_eq; simp; omega
    have hs2off : ∀ x, (∀ j < 4, x ≠ dst + BitVec.ofNat 32 j) → s2.byte x = s.byte x := fun x hx => by
      show (s1.setWord dst w).byte x = _
      rw [State.byte_setWord_off hm1 dst w hx, hbs1]
    refine ⟨t, ?_, ?_, ?_, hmt, ?_, ?_⟩
    · rw [readWords, bind_ok (rxPop_cons hq)]; exact ht
    · refine Received.trans ⟨q, s2.mem, s2.env.log, ?_⟩ hr
      simp only [s2, s1, State.logged, State.setWord, State.setByte]
    · rw [hrq, hq2, hq]; rfl
    · intro k hk
      by_cases hk4 : k < 4
      · rw [ho]
        · show (s1.setWord dst w).byte _ = _
          rw [State.byte_setWord_at hm1 dst w hk4]
          have : k / 4 = 0 := by omega
          have h2 : k % 4 = k := by omega
          simp [wordsByte, hq, this, h2]
        · intro j hj; rw [hadd]; exact addr_add_ne (by omega) (by omega) (by omega)
      · have := hb (k - 4) (by omega)
        rw [hadd, show k - 4 + 4 = k by omega] at this
        rw [this, hq2, hq]
        have h1 : k / 4 = (k - 4) / 4 + 1 := by omega
        have h2 : k % 4 = (k - 4) % 4 := by omega
        simp [wordsByte, h1, h2]
    · intro x hx
      rw [ho x, hs2off x fun j hj => hx j (by omega)]
      intro k hk; rw [hadd]; exact hx (k + 4) (by omega)

theorem byteOf_shift (w : Word) (k : Nat) : byteOf (w >>> 8) k = byteOf w (k + 1) := by
  unfold byteOf
  apply BitVec.eq_of_getLsbD_eq
  intro i hi
  simp only [BitVec.getLsbD_extractLsb', BitVec.getLsbD_ushiftRight]
  congr 2; omega

theorem readTail_ok (r : Nat) : ∀ {dst : Addr} {w : Word} {s : State}, memWf s.mem = true → r ≤ 4 →
    ∃ t, readTail dst w r s = .ok () t ∧ Received s t ∧ t.fifo.rxq = s.fifo.rxq ∧ memWf t.mem = true ∧
      (∀ k < r, t.byte (dst + BitVec.ofNat 32 k) = byteOf w k) ∧
      ∀ x, (∀ k < r, x ≠ dst + BitVec.ofNat 32 k) → t.byte x = s.byte x := by
  induction r with
  | zero => intro dst w s hm _; exact ⟨s, rfl, .refl s, rfl, hm, by intro k hk; omega, fun _ _ => rfl⟩
  | succ r ih =>
    intro dst w s hm hr4
    let s1 := (s.setByte dst (byteOf w 0)).logged (.memWrite dst 1 ((byteOf w 0).setWidth 32))
    have hm1 : memWf s1.mem = true := State.wf_setByte hm dst _
    obtain ⟨t, ht, hr, hrq, hmt, hb, ho⟩ := ih (dst := dst + 1) (w := w >>> 8) hm1 (by omega)
    have hadd : ∀ k, dst + 1 + BitVec.ofNat 32 k = dst + BitVec.ofNat 32 (k + 1) := by
      intro k; rw [BitVec.add_assoc]; congr 1
      apply BitVec.eq_of_toNat_eq; simp; omega
    have hs1 : ∀ x, s1.byte x = if x = dst then byteOf w 0 else s.byte x := fun x =>
      State.byte_setByte hm dst (byteOf w 0) x
    refine ⟨t, ?_, ?_, ?_, hmt, ?_, ?_⟩
    · rw [readTail, memWrite8_bind_apply]; exact ht
    · exact Received.trans ⟨s.fifo.rxq, s1.mem, s1.env.log, rfl⟩ hr
    · rw [hrq]; rfl
    · intro k hk
      rcases k with _ | k
      · rw [ho]
        · rw [hs1]; simp
        · intro j hj; rw [hadd]; exact addr_add_ne (by omega) (by omega) (by omega)
      · rw [← hadd, hb k (by omega), byteOf_shift]
    · intro x hx
      rw [ho x, hs1, if_neg (by simpa using hx 0 (by omega))]
      intro k hk; rw [hadd]; exact hx (k + 1) (by omega)

/-- `ReadPacket` with enough words queued (R140): exactly `words(len)` pops and exactly `len` bytes written. -/
theorem readPacket_ok {dst : Addr} {len : Nat} {s : State} (hm : memWf s.mem = true)
    (hl : wordsOf len ≤ s.fifo.rxq.length) (hlen : len ≤ 2 ^ 32) :
    ∃ t, readPacket dst len s = .ok () t ∧ Received s t ∧ t.fifo.rxq = s.fifo.rxq.drop (wordsOf len) ∧
      memWf t.mem = true ∧ (∀ k < len, t.byte (dst + BitVec.ofNat 32 k) = wordsByte s.fifo.rxq k) ∧
      ∀ x, (∀ k < len, x ≠ dst + BitVec.ofNat 32 k) → t.byte x = s.byte x := by
  by_cases h4 : len % 4 = 0
  · rw [wordsOf_of_mod_zero h4] at hl ⊢
    obtain ⟨t, ht, hr, hrq, hmt, hb, ho⟩ := readWords_ok (len / 4) (dst := dst) hm hl (by omega)
    have e : 4 * (len / 4) = len := by omega
    rw [e] at hb ho
    refine ⟨t, ?_, hr, hrq, hmt, hb, ho⟩
    rw [readPacket, bind_ok ht]; simp [h4]
  · rw [wordsOf_of_mod_pos h4] at hl ⊢
    obtain ⟨t, ht, hr, hrq, hmt, hb, ho⟩ := readWords_ok (len / 4) (dst := dst) hm (by omega) (by omega)
    have hlt : len / 4 < s.fifo.rxq.length := by omega
    have hq : t.fifo.rxq = s.fifo.rxq[len / 4] :: s.fifo.rxq.drop (len / 4 + 1) := by
      rw [hrq, List.drop_eq_getElem_cons hlt]
    let w := s.fifo.rxq[len / 4]
    let t1 := { t with fifo.rxq := s.fifo.rxq.drop (len / 4 + 1) }.logged (.rxPop w)
    obtain ⟨u, hu, hr2, hrq2, hmu, hb2, ho2⟩ :=
      readTail_ok (len % 4) (dst := dst + BitVec.ofNat 32 (4 * (len / 4))) (w := w) (s := t1) hmt (by omega)
    have hadd : ∀ j, j < len % 4 →
        dst + BitVec.ofNat 32 (4 * (len / 4)) + BitVec.ofNat 32 j = dst + BitVec.ofNat 32 (4 * (len / 4) + j) := by
      intro j _; rw [BitVec.add_assoc]; congr 1
      apply BitVec.eq_of_toNat_eq; simp
    refine ⟨u, ?_, ?_, by rw [hrq2]; rfl, hmu, ?_, ?_⟩
    · rw [readPacket, bind_ok ht]
      simp only [h4, if_false]
      rw [bind_ok (rxPop_cons hq)]; exact hu
    · exact (hr.trans ⟨_, _, _, rfl⟩).trans hr2
    · intro k hk
      by_cases hk4 : k < 4 * (len / 4)
      · rw [ho2]
        · exact hb k hk4
        · intro j hj; rw [hadd j hj]; exact addr_add_ne (by omega) (by omega) (by omega)
      · have := hb2 (k - 4 * (len / 4)) (by omega)
        rw [hadd _ (by omega), show 4 * (len / 4) + (k - 4 * (len / 4)) = k by omega] at this
        rw [this]
        have h1 : k / 4 = len / 4 := by omega
        have h2 : k % 4 = k - 4 * (len / 4) := by omega
        have h3 : s.fifo.rxq.getD (len / 4) 0 = s.fifo.rxq[len / 4] := by
          simp [hlt]
        unfold wordsByte
        rw [h1, h2, h3]
    · intro x hx
      rw [ho2 x]
      · exact ho x fun k hk => hx k (by omega)
      · intro j hj; rw [hadd j hj]; exact hx _ (by omega)

theorem readWords_add (m n : Nat) (dst : Addr) (s : State) :
    readWords dst (m + n) s = (readWords dst m >>= fun _ => readWords (dst + BitVec.ofNat 32 (4 * m)) n) s := by
  induction m generalizing dst s with
  | zero => simp [readWords]
  | succ m ih =>
    have hadd : dst + 4 + BitVec.ofNat 32 (4 * m) = dst + BitVec.ofNat 32 (4 * (m + 1)) := by
      rw [BitVec.add_assoc]; congr 1; apply BitVec.eq_of_toNat_eq; simp; omega
    rw [Nat.add_right_comm, readWords, readWords, bind_assoc_apply, bind_apply, bind_apply]
    cases rxPop s with
    | error e t => rfl
    | ok w t =>
      show (memWrite32 dst w >>= fun _ => readWords (dst + 4) (m + n)) t =
        ((memWrite32 dst w >>= fun _ => readWords (dst + 4) m) >>= _) t
      rw [bind_assoc_apply, memWrite32_bind_apply, memWrite32_bind_apply, ih, hadd]

/-- A run that found the RxFIFO empty (R74): what was queued is popped and written, the words' bytes from `dst` on, and
every other byte is kept. -/
def Drained (dst : Addr) (s t : State) : Prop :=
  Received s t ∧ t.fifo.rxq = [] ∧ memWf t.mem = true ∧
    (∀ k < 4 * s.fifo.rxq.length, t.byte (dst + BitVec.ofNat 32 k) = wordsByte s.fifo.rxq k) ∧
    ∀ x, (∀ k < 4 * s.fifo.rxq.length, x ≠ dst + BitVec.ofNat 32 k) → t.byte x = s.byte x

theorem readWords_underflow {n : Nat} {dst : Addr} {s : State} (hm : memWf s.mem = true) (h : s.fifo.rxq.length < n)
    (hn : 4 * n ≤ 2 ^ 32) :
    ∃ t, readWords dst n s = .error .raised { t with fault := t.fault.record .RxUnderflow } ∧ Drained dst s t := by
  obtain ⟨t, ht, hr, hrq, hmt, hb, ho⟩ := readWords_ok s.fifo.rxq.length (dst := dst) hm (Nat.le_refl _) (by omega)
  have hnil : t.fifo.rxq = [] := by rw [hrq]; exact List.drop_eq_nil_of_le (Nat.le_refl _)
  refine ⟨t, ?_, hr, hnil, hmt, hb, ho⟩
  obtain ⟨k, rfl⟩ : ∃ k, n = s.fifo.rxq.length + (k + 1) := ⟨n - s.fifo.rxq.length - 1, by omega⟩
  rw [readWords_add, bind_ok ht, readWords, bind_error (rxPop_nil hnil)]

/-- `ReadPacket` with too few words queued (R140): the pop that finds the RxFIFO empty ends it. -/
theorem readPacket_underflow {dst : Addr} {len : Nat} {s : State} (hm : memWf s.mem = true)
    (hl : s.fifo.rxq.length < wordsOf len) (hlen : len ≤ 2 ^ 32) :
    ∃ t, readPacket dst len s = .error .raised { t with fault := t.fault.record .RxUnderflow } ∧ Drained dst s t := by
  by_cases h : s.fifo.rxq.length < len / 4
  · obtain ⟨t, ht, hd⟩ := readWords_underflow (dst := dst) hm h (by omega)
    exact ⟨t, by rw [readPacket, bind_error ht], hd⟩
  · have h4 : len % 4 ≠ 0 := by
      intro h0; rw [wordsOf_of_mod_zero h0] at hl; omega
    rw [wordsOf_of_mod_pos h4] at hl
    have e : len / 4 = s.fifo.rxq.length := by omega
    obtain ⟨t, ht, hr, hrq, hmt, hb, ho⟩ := readWords_ok (len / 4) (dst := dst) hm (by omega) (by omega)
    have hn : t.fifo.rxq = [] := by rw [hrq]; exact List.drop_eq_nil_of_le (by omega)
    refine ⟨t, ?_, hr, hn, hmt, e ▸ hb, e ▸ ho⟩
    rw [readPacket, bind_ok ht]
    simp only [h4, if_false]
    rw [bind_error (rxPop_nil hn)]

/-! ## The transmit queues -/

theorem sum_update {α : Type} [DecidableEq α] (f g : α → Nat) (c : α) (hfg : ∀ x, x ≠ c → g x = f x) :
    ∀ {l : List α}, l.Nodup → c ∈ l → (l.map g).sum + f c = (l.map f).sum + g c
  | [], _, h => by simp at h
  | a :: l, hn, h => by
    rw [List.nodup_cons] at hn
    by_cases ha : a = c
    · subst ha
      have : l.map g = l.map f := List.map_congr_left fun x hx => hfg x (fun e => hn.1 (e ▸ hx))
      simp [this]; omega
    · have hc : c ∈ l := by
        rcases List.mem_cons.mp h with h | h
        · exact absurd h.symm ha
        · exact h
      have := sum_update f g c hfg hn.2 hc
      simp [hfg a ha]; omega

theorem mem_allCh (c : Ch) : c ∈ allCh := by revert c; decide
theorem mem_allEp (n : EpIx) : n ∈ allEp := by revert n; decide
theorem allCh_nodup : allCh.Nodup := by decide

@[simp] theorem State.classOf_setTxq (s : State) (i c : Ch) (q : List Word) : (s.setTxq i q).classOf c = s.classOf c := rfl
@[simp] theorem State.classOf_logged (s : State) (e : LogEntry) (c : Ch) : (s.logged e).classOf c = s.classOf c := rfl
@[simp] theorem State.txSpace_logged (s : State) (e : LogEntry) (k : TxClass) : (s.logged e).txSpace k = s.txSpace k := by
  cases k <;> rfl

theorem State.queued_push (s : State) (num : Ch) (w : Word) :
    (s.setTxq num (s.txqAt num ++ [w])).queued (s.classOf num) = s.queued (s.classOf num) + 1 := by
  generalize hk : s.classOf num = k
  have h := sum_update (fun c => if s.classOf c = k then (s.txqAt c).length else 0)
    (fun c => if (s.setTxq num (s.txqAt num ++ [w])).classOf c = k
      then ((s.setTxq num (s.txqAt num ++ [w])).txqAt c).length else 0) num
    (by intro x hx; simp [State.txqAt_setTxq, hx]) allCh_nodup (mem_allCh num)
  have hf : (s.setTxq num (s.txqAt num ++ [w])).classOf num = k := hk
  simp only [hk, hf, if_true, State.txqAt_setTxq_same, List.length_append, List.length_cons, List.length_nil] at h
  unfold State.queued
  omega

/-- A push takes one word of space. -/
theorem State.txSpace_push (s : State) (num : Ch) (w : Word) :
    (s.setTxq num (s.txqAt num ++ [w])).txSpace (s.classOf num) = s.txSpace (s.classOf num) - 1 := by
  have hq := s.queued_push num w
  unfold State.txSpace
  have hcap : (s.setTxq num (s.txqAt num ++ [w])).cap (s.classOf num) = s.cap (s.classOf num) := by
    cases s.classOf num <;> rfl
  rw [hcap]
  cases hk : s.classOf num with
  | NP => rw [hk] at hq; simp only [State.occ]; omega
  | P => rw [hk] at hq; simp only [State.occ]; omega
  | EP n =>
    have hn : n = num := by
      unfold State.classOf at hk
      cases hmode : s.mode with
      | DEVICE => rw [hmode] at hk; simpa using hk.symm
      | HOST => rw [hmode] at hk; cases he : (s.hcAt num).epType <;> rw [he] at hk <;> simp at hk
    subst hn
    simp [State.occ]; omega

theorem txPush_ok {s : State} {num : Ch} (w : Word) (h : 0 < s.txSpace (s.classOf num)) :
    txPush num w s = .ok () ((s.setTxq num (s.txqAt num ++ [w])).logged (.txPush num w)) := by
  unfold txPush; rw [if_neg (by omega)]
theorem txPush_overflow {s : State} {num : Ch} (w : Word) (h : s.txSpace (s.classOf num) = 0) :
    txPush num w s = .error .raised { s with fault := s.fault.record .TxOverflow } := by
  unfold txPush; rw [if_pos h]; rfl

/-- A run that appended `W` to `txq[num]` and wrote the history and the free-value counter, and nothing else. -/
def Sent (num : Ch) (W : List Word) (s t : State) : Prop :=
  ∃ l d, t = { s.setTxq num (s.txqAt num ++ W) with env.log := l, env.draws := d }

theorem Sent.refl (num : Ch) (s : State) : Sent num [] s s := by
  refine ⟨s.env.log, s.env.draws, ?_⟩
  have : s.setTxq num (s.txqAt num ++ []) = s := by
    unfold State.setTxq State.txqAt
    have : s.fifo.txq.set num (s.fifo.txq[num] ++ []) = s.fifo.txq := by
      apply Vector.ext; intro i hi; simp
    simp only [Fin.getElem_fin] at this ⊢
    rw [this]
  rw [this]
theorem Sent.trans {num : Ch} {V W : List Word} {s t u : State} :
    Sent num V s t → Sent num W t u → Sent num (V ++ W) s u := by
  rintro ⟨l, d, rfl⟩ ⟨l', d', rfl⟩
  refine ⟨l', d', ?_⟩
  simp [State.setTxq, State.txqAt, List.append_assoc]
theorem Sent.push (s : State) (num : Ch) (w : Word) :
    Sent num [w] s ((s.setTxq num (s.txqAt num ++ [w])).logged (.txPush num w)) := ⟨_, _, rfl⟩
theorem Sent.log {num : Ch} {W : List Word} {s t : State} (h : Sent num W s t) (l : List LogEntry) (d : Nat) :
    Sent num W s { t with env.log := l, env.draws := d } := by
  obtain ⟨l', d', rfl⟩ := h; exact ⟨l, d, rfl⟩
theorem Sent.byte {num : Ch} {W : List Word} {s t : State} (h : Sent num W s t) (x : Addr) : t.byte x = s.byte x := by
  obtain ⟨l, d, rfl⟩ := h; rfl
theorem Sent.txq_same {num : Ch} {W : List Word} {s t : State} (h : Sent num W s t) :
    t.txqAt num = s.txqAt num ++ W := by
  obtain ⟨l, d, rfl⟩ := h; exact State.txqAt_setTxq_same _ _ _
theorem Sent.txq_ne {num j : Ch} {W : List Word} {s t : State} (h : Sent num W s t) (hj : j ≠ num) :
    t.txqAt j = s.txqAt j := by
  obtain ⟨l, d, rfl⟩ := h
  show (s.setTxq num _).txqAt j = _
  simp [State.txqAt_setTxq, hj]
theorem Sent.classOf {num : Ch} {W : List Word} {s t : State} (h : Sent num W s t) (c : Ch) :
    t.classOf c = s.classOf c := by
  obtain ⟨l, d, rfl⟩ := h; rfl
theorem Sent.append_txSpace {num : Ch} {w : Word} {s t : State} (h : Sent num [w] s t) :
    t.txSpace (t.classOf num) = s.txSpace (s.classOf num) - 1 := by
  obtain ⟨l, d, rfl⟩ := h
  rw [← s.txSpace_push num w]
  show State.txSpace _ (s.classOf num) = State.txSpace _ (s.classOf num)
  cases s.classOf num <;> rfl

theorem getLsbD_wordOfBytes (b0 b1 b2 b3 : Byte) (i : Nat) :
    (wordOfBytes b0 b1 b2 b3).getLsbD i =
      if i < 8 then b0.getLsbD i else if i < 16 then b1.getLsbD (i - 8)
      else if i < 24 then b2.getLsbD (i - 16) else b3.getLsbD (i - 24) := by
  show BitVec.getLsbD (w := 8 + 8 + 8 + 8) (b3 ++ b2 ++ b1 ++ b0) i = _
  rw [BitVec.getLsbD_append, BitVec.getLsbD_append, BitVec.getLsbD_append]
  by_cases h1 : i < 8
  · simp [h1]
  · by_cases h2 : i < 16
    · have : i - 8 < 8 := by omega
      simp [h1, h2, this]
    · by_cases h3 : i < 24
      · have e1 : ¬ i - 8 < 8 := by omega
        have e2 : i - 8 - 8 < 8 := by omega
        simp only [h1, h2, h3, e1, e2, if_true, if_false]
        congr 1
      · have e1 : ¬ i - 8 < 8 := by omega
        have e2 : ¬ i - 8 - 8 < 8 := by omega
        simp only [h1, h2, h3, e1, e2, if_false]
        congr 1

theorem byteOf_word (s : State) (a : Addr) {j : Nat} (hj : j < 4) :
    byteOf (s.word a) j = s.byte (a + BitVec.ofNat 32 j) := by
  unfold byteOf State.word
  apply BitVec.eq_of_getLsbD_eq
  intro i hi
  rw [BitVec.getLsbD_extractLsb', getLsbD_wordOfBytes]
  rcases j with _ | _ | _ | _ | j
  · simp [hi]
  · have e1 : ¬ 8 * 1 + i < 8 := by omega
    have e2 : 8 * 1 + i < 16 := by omega
    simp [hi, e1, e2]
  · have e1 : ¬ 8 * 2 + i < 8 := by omega
    have e2 : ¬ 8 * 2 + i < 16 := by omega
    have e3 : 8 * 2 + i < 24 := by omega
    simp [hi, e1, e2, e3]
  · have e1 : ¬ 8 * 3 + i < 8 := by omega
    have e2 : ¬ 8 * 3 + i < 16 := by omega
    have e3 : ¬ 8 * 3 + i < 24 := by omega
    simp [hi, e1, e2, e3]
  · omega

theorem writeWords_ok (num : Ch) (n : Nat) : ∀ {src : Addr} {s : State}, n ≤ s.txSpace (s.classOf num) →
    ∃ t W, writeWords num src n s = .ok () t ∧ Sent num W s t ∧ W.length = n ∧
      t.txSpace (t.classOf num) = s.txSpace (s.classOf num) - n ∧
      ∀ k < 4 * n, wordsByte W k = s.byte (src + BitVec.ofNat 32 k) := by
  induction n with
  | zero => intro src s _; exact ⟨s, [], rfl, .refl _ s, rfl, rfl, by intro k hk; omega⟩
  | succ n ih =>
    intro src s hsp
    let s1 := s.logged (.memRead src 4 (s.word src))
    have hp := txPush_ok (s := s1) (num := num) (s.word src) (by simp [s1]; omega)
    let s2 := (s1.setTxq num (s1.txqAt num ++ [s.word src])).logged (.txPush num (s.word src))
    have h12 : Sent num [s.word src] s s2 := ⟨_, _, rfl⟩
    obtain ⟨t, W, ht, hS, hW, hspt, hb⟩ := ih (src := src + 4) (s := s2) (by rw [h12.append_txSpace]; omega)
    refine ⟨t, s.word src :: W, ?_, h12.trans hS, by simp [hW], ?_, ?_⟩
    · rw [writeWords, memRead32_bind_apply, bind_ok hp]; exact ht
    · rw [hspt, h12.append_txSpace]; omega
    · intro k hk
      by_cases hk4 : k < 4
      · have h1 : k / 4 = 0 := by omega
        have h2 : k % 4 = k := by omega
        simp only [wordsByte, h1, h2, List.getD_cons_zero]
        exact byteOf_word s src hk4
      · have := hb (k - 4) (by omega)
        rw [h12.byte] at this
        have hadd : src + 4 + BitVec.ofNat 32 (k - 4) = src + BitVec.ofNat 32 k := by
          rw [BitVec.add_assoc]; congr 1
          apply BitVec.eq_of_toNat_eq; simp; omega
        rw [hadd] at this
        have h1 : k / 4 = (k - 4) / 4 + 1 := by omega
        have h2 : k % 4 = (k - 4) % 4 := by omega
        simp only [wordsByte, h1, h2, List.getD_cons_succ]
        exact this

theorem gatherTail_ok (r : Nat) : ∀ {src : Addr} {s : State}, r ≤ 4 →
    ∃ w l, gatherTail src r s = .ok w { s with env.log := l } ∧
      ∀ i, w.getLsbD i = (decide (i < 8 * r) && (s.byte (src + BitVec.ofNat 32 (i / 8))).getLsbD (i % 8)) := by
  induction r with
  | zero => intro src s _; exact ⟨0, s.env.log, rfl, by intro i; simp⟩
  | succ r ih =>
    intro src s hr
    obtain ⟨w, l, hw, hb⟩ := ih (src := src + 1)
      (s := s.logged (.memRead src 1 ((s.byte src).setWidth 32))) (by omega)
    refine ⟨w <<< 8 ||| (s.byte src).setWidth 32, l, ?_, ?_⟩
    · rw [gatherTail, memRead8_bind_apply, bind_ok hw]; rfl
    · intro i
      simp only [BitVec.getLsbD_or, BitVec.getLsbD_shiftLeft, BitVec.getLsbD_setWidth, hb, State.byte_logged]
      by_cases h8 : i < 8
      · have h1 : i / 8 = 0 := by omega
        have h2 : i % 8 = i := by omega
        have h3 : i < 8 * (r + 1) := by omega
        have h4 : i < 32 := by omega
        simp [h8, h1, h2, h3, h4]
      · have h1 : (i - 8) % 8 = i % 8 := by omega
        have hge : (s.byte src).getLsbD i = false := BitVec.getLsbD_of_ge _ _ (by omega)
        have hadd : src + 1 + BitVec.ofNat 32 ((i - 8) / 8) = src + BitVec.ofNat 32 (i / 8) := by
          rw [BitVec.add_assoc]; congr 1
          apply BitVec.eq_of_toNat_eq; simp; omega
        rw [hadd, h1, hge]
        by_cases h3 : i < 8 * (r + 1)
        · have h4 : i < 32 := by omega
          have h5 : i - 8 < 8 * r := by omega
          simp [h8, h3, h4, h5]
        · have h5 : ¬ i - 8 < 8 * r := by omega
          simp [h3, h5]

/-- `WritePacket` with enough space (R141): exactly `words(len)` pushes, whose first `len` bytes are the bytes at `src`. -/
theorem writePacket_ok {num : Ch} {src : Addr} {len : Nat} {s : State}
    (hsp : wordsOf len ≤ s.txSpace (s.classOf num)) :
    ∃ t W, writePacket num src len s = .ok () t ∧ Sent num W s t ∧ W.length = wordsOf len ∧
      t.txSpace (t.classOf num) = s.txSpace (s.classOf num) - wordsOf len ∧
      ∀ k < len, wordsByte W k = s.byte (src + BitVec.ofNat 32 k) := by
  by_cases h4 : len % 4 = 0
  · rw [wordsOf_of_mod_zero h4] at hsp ⊢
    obtain ⟨t, W, ht, hS, hW, hspt, hb⟩ := writeWords_ok num (len / 4) (src := src) hsp
    have e : 4 * (len / 4) = len := by omega
    rw [e] at hb
    refine ⟨t, W, ?_, hS, hW, hspt, hb⟩
    rw [writePacket, bind_ok ht]; simp [h4]
  · rw [wordsOf_of_mod_pos h4] at hsp ⊢
    obtain ⟨t, W, ht, hS, hW, hspt, hb⟩ := writeWords_ok num (len / 4) (src := src) (s := s) (by omega)
    obtain ⟨low, l, hlow, hbits⟩ := gatherTail_ok (len % 4) (src := src + BitVec.ofNat 32 (4 * (len / 4))) (s := t)
      (by omega)
    let w := Config.freePad t.env.draws <<< (8 * (len % 4)) ||| low
    let t2 : State := { t with env.log := l, env.draws := t.env.draws + 1 }
    have hsp2 : 0 < t2.txSpace (t2.classOf num) := by
      have : t2.txSpace (t2.classOf num) = t.txSpace (t.classOf num) := by
        show State.txSpace _ (t.classOf num) = _
        cases t.classOf num <;> rfl
      rw [this, hspt]; omega
    have hp := txPush_ok w hsp2
    have h2 : Sent num [w] t ((t2.setTxq num (t2.txqAt num ++ [w])).logged (.txPush num w)) := ⟨_, _, rfl⟩
    refine ⟨_, W ++ [w], ?_, hS.trans h2, by simp [hW], ?_, ?_⟩
    · rw [writePacket, bind_ok ht]
      simp only [h4, if_false]
      rw [writeTail, bind_ok hlow, drawPad_bind_apply]
      exact hp
    · rw [h2.append_txSpace, hspt]; omega
    · intro k hk
      by_cases hk4 : k < 4 * (len / 4)
      · rw [← hb k hk4]
        have : k / 4 < W.length := by omega
        unfold wordsByte
        congr 1
        rw [List.getD_append _ _ _ _ this]
      · have h1 : k / 4 = W.length := by omega
        have h2 : k % 4 = k - 4 * (len / 4) := by omega
        have h3 : (W ++ [w]).getD (k / 4) 0 = w := by rw [h1]; simp
        unfold wordsByte
        rw [h3, h2]
        apply BitVec.eq_of_getLsbD_eq
        intro i hi
        have hd : (8 * (k - 4 * (len / 4)) + i) / 8 = k - 4 * (len / 4) := by omega
        have hmod : (8 * (k - 4 * (len / 4)) + i) % 8 = i := by omega
        have hlt : 8 * (k - 4 * (len / 4)) + i < 8 * (len % 4) := by omega
        have hlt32 : 8 * (k - 4 * (len / 4)) + i < 32 := by omega
        have hadd : src + BitVec.ofNat 32 (4 * (len / 4)) + BitVec.ofNat 32 (k - 4 * (len / 4)) =
            src + BitVec.ofNat 32 k := by
          rw [BitVec.add_assoc]; congr 1
          apply BitVec.eq_of_toNat_eq; simp; omega
        show (byteOf w _).getLsbD i = _
        simp only [byteOf, BitVec.getLsbD_extractLsb', w, BitVec.getLsbD_or, BitVec.getLsbD_shiftLeft, hbits, hd, hmod,
          hlt, hi, decide_true, Bool.true_and, Bool.not_true, hlt32, Bool.false_and, Bool.false_or, hadd, hS.byte]

theorem writeWords_add (num : Ch) (m n : Nat) (src : Addr) (s : State) :
    writeWords num src (m + n) s =
      (writeWords num src m >>= fun _ => writeWords num (src + BitVec.ofNat 32 (4 * m)) n) s := by
  induction m generalizing src s with
  | zero => simp [writeWords]
  | succ m ih =>
    have hadd : src + 4 + BitVec.ofNat 32 (4 * m) = src + BitVec.ofNat 32 (4 * (m + 1)) := by
      rw [BitVec.add_assoc]; congr 1; apply BitVec.eq_of_toNat_eq; simp; omega
    rw [Nat.add_right_comm, writeWords, writeWords, bind_assoc_apply, memRead32_bind_apply, memRead32_bind_apply,
      bind_assoc_apply, bind_apply, bind_apply]
    cases txPush num _ _ with
    | error e t => rfl
    | ok u t => show writeWords num (src + 4) (m + n) t = _; rw [ih, hadd]

/-- `WritePacket` with too little space (R141): the words that fit stay pushed, and carry the bytes at `src`. -/
theorem writePacket_overflow {num : Ch} {src : Addr} {len : Nat} {s : State}
    (hsp : s.txSpace (s.classOf num) < wordsOf len) :
    ∃ t W, writePacket num src len s = .error .raised { t with fault := t.fault.record .TxOverflow } ∧ Sent num W s t ∧
      s.Carries W src (4 * s.txSpace (s.classOf num)) := by
  obtain ⟨n, hn⟩ : ∃ n, n = s.txSpace (s.classOf num) := ⟨_, rfl⟩
  obtain ⟨t, W, ht, hS, hW, hspt, hb⟩ := writeWords_ok num n (src := src) (s := s) (by omega)
  have hfull : t.txSpace (t.classOf num) = 0 := by omega
  have hC : s.Carries W src (4 * n) := ⟨by rw [hW, wordsOf_of_mod_zero (by omega)]; omega, hb⟩
  rw [← hn]
  by_cases h : n < len / 4
  · obtain ⟨k, hk⟩ : ∃ k, len / 4 = n + (k + 1) := ⟨len / 4 - n - 1, by omega⟩
    refine ⟨t.logged (.memRead (src + BitVec.ofNat 32 (4 * n)) 4 (t.word (src + BitVec.ofNat 32 (4 * n)))), W, ?_,
      hS.log _ _, hC⟩
    rw [writePacket, hk]
    apply bind_error
    rw [writeWords_add, bind_ok ht, writeWords, memRead32_bind_apply]
    exact bind_error (txPush_overflow _ (by simpa using hfull))
  · have h4 : len % 4 ≠ 0 := by
      intro h0; rw [wordsOf_of_mod_zero h0] at hsp; omega
    rw [wordsOf_of_mod_pos h4] at hsp
    have e : len / 4 = n := by omega
    obtain ⟨low, l, hlow, -⟩ := gatherTail_ok (len % 4) (src := src + BitVec.ofNat 32 (4 * (len / 4))) (s := t) (by omega)
    refine ⟨{ t with env.log := l, env.draws := t.env.draws + 1 }, W, ?_, hS.log _ _, hC⟩
    rw [writePacket, e, bind_ok ht]
    simp only [h4, if_false]
    rw [e] at hlow
    rw [writeTail, bind_ok hlow, drawPad_bind_apply]
    refine txPush_overflow _ (Eq.trans ?_ hfull)
    show State.txSpace _ (t.classOf num) = State.txSpace _ (t.classOf num)
    cases t.classOf num <;> rfl

end Sys2Proof.Machine
end

