-- ==== Sys2Proof/Laws/Exec.lean ====
section
/-! SUPPORT. What `exec` and the shared operations of the meanings answer: every instruction answers a next state, and one
lemma per shared operation that says everything it does. -/

namespace Sys2Proof.Machine

/-- Every instruction answers a next state (R104, R370, entries 8 to 10): a refusal and a fault of the block are next
states. -/
theorem exec_next (i : Instr) (s : State) : ∃ t, exec i s = .next t := by
  cases i <;> exact ⟨_, rfl⟩

theorem State.refuse_eq (s : State) (r : RefuseName) : s.refuse r = s.refusedWith r := rfl

/-! ## How a meaning ends, from how its computation ends -/

theorem commandOutcome_ok {m : M Word} {s t : State} {r : Word} (h : m s = .ok r t) :
    commandOutcome m s = .next { t with port.res := r } := by rw [commandOutcome_eq, h]; rfl
theorem commandOutcome_refuse {m : M Word} {s t : State} {r : RefuseName} (h : m s = .error (.refuse r) t) :
    commandOutcome m s = .next (s.refusedWith r) := by rw [commandOutcome_eq, h]; rfl
theorem commandOutcome_raised {m : M Word} {s t : State} (h : m s = .error .raised t) :
    commandOutcome m s = .next t := by rw [commandOutcome_eq, h]; rfl
theorem handlerOutcome_ok {m : M Unit} {s t : State} (h : m s = .ok () t) : handlerOutcome m s = .next t := by
  rw [handlerOutcome, finalState_ok h]

/-! ## The checks of a command -/

section Checks
variable {α : Type} {s : State} {f : Unit → M α}

theorem refuseIf_bind_pos {c : Prop} [Decidable c] {r : RefuseName} (h : c) :
    (refuseIf c r >>= f) s = .error (.refuse r) s := by rw [refuseIf_bind_apply, if_pos h]
theorem refuseIf_bind_neg {c : Prop} [Decidable c] {r : RefuseName} (h : ¬ c) :
    (refuseIf c r >>= f) s = f () s := by rw [refuseIf_bind_apply, if_neg h]
theorem needHost_bind_of (h : s.mode = .HOST) : (needHost >>= f) s = f () s := by
  rw [needHost_bind_apply, if_neg (not_not.2 h)]
theorem needDevice_bind_of (h : s.mode = .DEVICE) : (needDevice >>= f) s = f () s := by
  rw [needDevice_bind_apply, if_neg (not_not.2 h)]

end Checks

theorem wraps_iff (a : Addr) (n : Nat) : wraps a n = true ↔ 2 ^ 32 < a.toNat + n := by simp [wraps]

theorem State.runState_idle_iff (s : State) (c : Ch) : s.runState c = .IDLE ↔ (s.hcAt c).chEna = false := by
  unfold State.runState HostChannel.runState
  split
  · simp [*]
  · split <;> simp [*]
theorem State.runState_halting_iff (s : State) (c : Ch) :
    s.runState c = .HALTING ↔ (s.hcAt c).chEna = true ∧ (s.hcAt c).chDis = true := by
  unfold State.runState HostChannel.runState
  split
  · simp [*]
  · split <;> simp_all
theorem State.runState_active_iff (s : State) (c : Ch) :
    s.runState c = .ACTIVE ↔ (s.hcAt c).chEna = true ∧ (s.hcAt c).chDis = false := by
  unfold State.runState HostChannel.runState
  split
  · simp [*]
  · split <;> simp_all

/-! ## Operands that are in range -/

@[simp] theorem chOperand_ofNat (c : Ch) (s : State) : chOperand (.ofNat 4 c) s = .ok c s := by
  have h : (BitVec.ofNat 4 c.val).toNat = c.val := by simp; omega
  have h12 : (BitVec.ofNat 4 c.val).toNat < 12 := by omega
  rw [chOperand_of s h12]
  congr 1
  exact Fin.ext h

@[simp] theorem chOperand_ofNat_bind {β : Type} (c : Ch) (s : State) (f : Ch → M β) :
    (chOperand (.ofNat 4 c) >>= f) s = f c s := bind_ok (chOperand_ofNat c s)

@[simp] theorem epOperand_ofNat (n : EpIx) (s : State) : epOperand (.ofNat 4 n) s = .ok n s := by
  have h : (BitVec.ofNat 4 n.val).toNat = n.val := by simp; omega
  have h8 : (BitVec.ofNat 4 n.val).toNat < 8 := by omega
  have := epOperand_bind_of s h8 (fun m => (pure m : M EpIx))
  have e : (epOperand (.ofNat 4 n.val) >>= fun m => (pure m : M EpIx)) s = epOperand (.ofNat 4 n.val) s := by
    rw [bind_apply]; cases epOperand (.ofNat 4 n.val) s <;> rfl
  rw [e] at this
  rw [this]
  show EStateM.Result.ok _ s = _
  congr 1
  exact Fin.ext h

@[simp] theorem epOperand_ofNat_bind {β : Type} (n : EpIx) (s : State) (f : EpIx → M β) :
    (epOperand (.ofNat 4 n) >>= f) s = f n s := bind_ok (epOperand_ofNat n s)

@[simp] theorem pidOf_code (p : Pid) : pidOf p.code = p := by cases p <;> rfl
theorem pid_code_ne_three (p : Pid) : p.code ≠ 3 := by cases p <;> decide

theorem readCode_apply (s : State) :
    readCode s = .ok s.reqCode (s.logged (.memRead s.scratch 2 (s.reqCode.setWidth 32))) := rfl

@[simp] theorem readValue_bind_apply {β : Type} (s : State) (f : BitVec 16 → M β) :
    (readValue >>= f) s = f s.reqValue (s.logged (.memRead (s.scratch + 2) 2 (s.reqValue.setWidth 32))) := rfl
@[simp] theorem readIndex_bind_apply {β : Type} (s : State) (f : BitVec 16 → M β) :
    (readIndex >>= f) s = f s.reqIndex (s.logged (.memRead (s.scratch + 4) 2 (s.reqIndex.setWidth 32))) := rfl
@[simp] theorem readRequest_bind_apply {β : Type} (s : State) (f : BitVec 64 → M β) :
    (readRequest >>= f) s = f s.reqBytes ((s.logged (.memRead s.scratch 4 (s.word s.scratch))).logged
      (.memRead (s.scratch + 4) 4 (s.word (s.scratch + 4)))) := rfl
@[simp] theorem readLength_bind_apply {β : Type} (s : State) (f : BitVec 16 → M β) :
    (readLength >>= f) s = f s.reqLength (s.logged (.memRead (s.scratch + 6) 2 (s.reqLength.setWidth 32))) := rfl

/-! ## Starting a transfer (R158 to R162) -/

theorem addr_ofNat_sub {a b : Nat} (h : b ≤ a) : BitVec.ofNat 32 a - BitVec.ofNat 32 b = BitVec.ofNat 32 (a - b) := by
  apply BitVec.eq_of_toNat_eq
  simp
  omega

theorem ofNat32_eq_zero_iff {a : Nat} (h : a < 2 ^ 32) : BitVec.ofNat 32 a = 0 ↔ a = 0 := by
  constructor
  · intro e
    have := congrArg BitVec.toNat e
    simp at this
    omega
  · rintro rfl; rfl

theorem txSpace_logged_draws (s : State) (l : List LogEntry) (d : Nat) (k : TxClass) :
    State.txSpace { s with env.log := l, env.draws := d } k = s.txSpace k := by cases k <;> rfl

/-- The free words of a class depend on the queues, the types, the mode and the capacities only. -/
theorem txSpace_congr {s t : State} (hc : ∀ c, t.classOf c = s.classOf c) (hq : ∀ c, t.txqAt c = s.txqAt c)
    (hp : t.env.par = s.env.par) (k : TxClass) : t.txSpace k = s.txSpace k := by
  have h : ∀ k, t.queued k = s.queued k := fun k => by unfold State.queued; simp only [hc, hq]
  cases k <;> simp [State.txSpace, State.cap, State.occ, h, hq, hp]

theorem setPipe_setPipe (s : State) (i : Ch) (p q : Pipe) : (s.setPipe i p).setPipe i q = s.setPipe i q := by
  simp [State.setPipe]
theorem setHc_setHc (s : State) (i : Ch) (p q : HostChannel) : (s.setHc i p).setHc i q = s.setHc i q := by
  simp [State.setHc]
theorem setEp_setEp (s : State) (d : Dir) (n : EpIx) (p q : DevEp) : (s.setEp d n p).setEp d n q = s.setEp d n q := by
  cases d <;> simp [State.setEp]
theorem setEpb_setEpb (s : State) (d : Dir) (n : EpIx) (p q : XferBuf) :
    (s.setEpb d n p).setEpb d n q = s.setEpb d n q := by cases d <;> simp [State.setEpb]

/-- One packet with room for it (R141, R161): its words appended, the bookkeeping advanced. -/
theorem sendPacket_ok {s : State} {x : Tgt} {n : Nat} (h : wordsOf n ≤ s.txSpace (s.classOf x.num)) :
    ∃ W l d, s.Carries W (s.bufAt x).bufPtr n ∧
      sendPacket x n s = .ok () ({ s.setTxq x.num (s.txqAt x.num ++ W) with env.log := l, env.draws := d }.setBuf x
        ((s.bufAt x).advance n)) := by
  obtain ⟨t, W, ht, ⟨l, d, rfl⟩, hW, -, hb⟩ := writePacket_ok (src := (s.bufAt x).bufPtr) h
  refine ⟨W, l, d, ⟨hW, hb⟩, ?_⟩
  rw [sendPacket, look_bind_apply, bind_ok ht, upd_apply]
  cases x <;> rfl

theorem setTxq_self (s : State) (c : Ch) : s.setTxq c (s.txqAt c) = s := by
  unfold State.setTxq State.txqAt
  have : s.fifo.txq.set c s.fifo.txq[c] = s.fifo.txq := by apply Vector.ext; intro i hi; simp
  simp only [Fin.getElem_fin] at this ⊢
  rw [this]

theorem enableTxfe_host {s : State} (hm : s.mode = .HOST) (c : Ch) :
    s.enableTxfe (.ch c) =
      { s with gintmsk := putBit s.gintmsk (if periodicType (s.hcAt c).epType then 2 else 1) true } := by
  cases h : (s.hcAt c).epType <;>
    simp [State.enableTxfe, State.classOf, hm, h, periodicType, State.setGmask, GFlag.bit]

/-- A submission on a host channel: `startTransfer` answers the length programmed and leaves the state `HostArmed` says. -/
theorem startTransfer_host {s : State} (hm : s.mode = .HOST) (c : Ch) (dir : Dir) (pid : Pid)
    {mps len : Nat} (pk : Nat) (buf : Addr) (hmps : mps ≠ 0) (hlen : len < 2 ^ 32) :
    ∃ t, startTransfer (.ch c) dir pid mps len pk buf s = .ok (BitVec.ofNat 32 len) t ∧
      s.HostArmed t c dir pid mps len pk buf := by
  obtain ⟨s2, hs2⟩ : ∃ s2 : State, s2 = (s.setHc c ((s.hcAt c).programmed s.frameNum pid len pk)).setPipe c
      { s.pipeAt c with buf := { (s.pipeAt c).buf.submitted buf len pk 0 with urbStatus := .IDLE, pipeState := .OK } } :=
    ⟨_, rfl⟩
  have hrun : startTransfer (.ch c) dir pid mps len pk buf s =
      ((if (Tgt.ch c).transmits dir then txFirstPacket (.ch c) len mps else pure ()) >>= fun _ =>
        (pure (BitVec.ofNat 32 len) : M Word)) s2 := by
    rw [startTransfer, upd_bind_apply, upd_bind_apply, hs2]
    simp [State.programRegs, State.submitBuf, State.setBuf, State.bufAt, HostChannel.programmed, XferBuf.submitted]
  have hcl : ∀ j, s2.classOf j = s.classOf j := by
    intro j
    have h : (s2.hcAt j).epType = (s.hcAt j).epType := by
      rw [hs2]
      simp only [State.hcAt_setPipe, State.hcAt_setHc, HostChannel.programmed]
      split
      · rename_i hj; rw [hj]
      · rfl
    have hmode : s2.mode = s.mode := by rw [hs2]; rfl
    simp only [State.classOf, h, hmode]
  have hsp : ∀ k, s2.txSpace k = s.txSpace k := txSpace_congr hcl (by intro j; rw [hs2]; rfl) (by rw [hs2]; rfl)
  have hbuf : s2.bufAt (.ch c) = { (s.pipeAt c).buf.submitted buf len pk 0 with urbStatus := .IDLE, pipeState := .OK } := by
    rw [hs2]; simp [State.bufAt]
  have hq : s2.txqAt c = s.txqAt c := by rw [hs2]; rfl
  have hm2 : s2.mode = .HOST := by rw [hs2]; exact hm
  have hc2 : (s2.hcAt c).epType = (s.hcAt c).epType := by rw [hs2]; simp [HostChannel.programmed]
  have hself : s2 = { ((s.setHc c ((s.hcAt c).programmed s.frameNum pid len pk)).setPipe c { s.pipeAt c with
        buf := { (s.pipeAt c).buf.submitted buf len pk 0 with urbStatus := .IDLE, pipeState := .OK } }).setTxq c
          (s.txqAt c ++ []) with gintmsk := s.gintmsk, env.log := s.env.log, env.draws := s.env.draws } := by
    rw [List.append_nil, ← hq, ← hs2, setTxq_self, hs2]
    rfl
  have hnone : s.Carries [] buf 0 := ⟨rfl, by intro k hk; omega⟩
  by_cases hd : dir = .OUT
  swap
  · refine ⟨s2, ?_, [], s.env.log, s.env.draws, ?_, ?_⟩
    · rw [hrun]; simp [Tgt.transmits, hd]
    · rw [if_neg hd]; exact hnone
    · have e : (dir = .OUT) = False := by simp [hd]
      simp only [e, false_and, if_false]
      exact hself
  subst hd
  have hb2 : (s2.bufAt (.ch c)).bufPtr = buf := by rw [hbuf]; simp [XferBuf.submitted]
  have htx : txFirstPacket (.ch c) len mps s2 = 
      if len = 0 then .ok () s2
      else if wordsOf (min len mps) ≤ s.txSpace (s.classOf c) then
        (sendPacket (.ch c) (min len mps) >>= fun _ => upd fun u =>
          if (u.bufAt (.ch c)).bufLen ≠ 0 ∧ u.env.par.txDeferRest = true then u.enableTxfe (.ch c) else u) s2
      else .ok () (s2.enableTxfe (.ch c)) := by
    rw [txFirstPacket, get_bind_apply]
    simp only [ite_apply', hsp, hcl, Tgt.num]
    rfl
  have hrun2 : ∀ u, txFirstPacket (.ch c) len mps s2 = .ok () u →
      startTransfer (.ch c) .OUT pid mps len pk buf s = .ok (BitVec.ofNat 32 len) u := by
    intro u hu
    rw [hrun]
    simp only [Tgt.transmits, decide_true, if_true]
    exact bind_ok hu
  rw [htx] at hrun2
  by_cases h0 : len = 0
  · subst h0
    have hfb0 : s.firstBytes (.ch c) 0 mps = 0 := by simp [State.firstBytes]
    refine ⟨s2, hrun2 s2 (by simp), [], s.env.log, s.env.draws, ?_, ?_⟩
    · rw [if_pos rfl, hfb0]; exact hnone
    · have hdef0 : s.defers (.ch c) 0 mps = false := by simp [State.defers]
      rw [if_pos rfl, hdef0, hfb0]
      exact hself
  by_cases hfit : wordsOf (min len mps) ≤ s.txSpace (s.classOf c)
  · obtain ⟨W, l, d, hW, hsend⟩ := sendPacket_ok (s := s2) (x := .ch c) (n := min len mps)
      (by rw [hsp, hcl]; exact hfit)
    rw [hb2] at hW
    have hW' : s.Carries W buf (min len mps) := by
      refine ⟨hW.1, fun k hk => ?_⟩
      rw [hW.2 k hk, hs2]; rfl
    have hfb : s.firstBytes (.ch c) len mps = min len mps := by simp [State.firstBytes, Tgt.num, hfit]
    have hadv : (s2.bufAt (.ch c)).advance (min len mps) = { (s.pipeAt c).buf.submitted buf len pk (min len mps) with
        urbStatus := .IDLE, pipeState := .OK } := by
      rw [hbuf]
      simp only [XferBuf.advance, XferBuf.submitted, Nat.sub_zero]
      rw [addr_ofNat_sub (Nat.min_le_left len mps)]
      simp
    obtain ⟨u, hu⟩ : ∃ u : State, u = { ((s.setHc c ((s.hcAt c).programmed s.frameNum pid len pk)).setPipe c
        { s.pipeAt c with buf := { (s.pipeAt c).buf.submitted buf len pk (min len mps) with
            urbStatus := .IDLE, pipeState := .OK } }).setTxq c (s.txqAt c ++ W) with
        env.log := l, env.draws := d } := ⟨_, rfl⟩
    have hsend' : sendPacket (.ch c) (min len mps) s2 = .ok () u := by
      rw [hsend, hadv, hu]
      congr 1
      show State.setPipe _ c _ = _
      conv_lhs => rw [hs2]
      simp [State.setPipe, State.setTxq, State.setHc, State.txqAt, State.pipeAt]
      rfl
    have hum : u.mode = .HOST := by rw [hu]; exact hm
    have huc : (u.hcAt c).epType = (s.hcAt c).epType := by
      rw [hu]
      show ((s.setHc c _).hcAt c).epType = _
      simp [HostChannel.programmed]
    have hul : (u.bufAt (.ch c)).bufLen = BitVec.ofNat 32 (len - min len mps) := by
      rw [hu]
      show ((State.setPipe _ c _).pipeAt c).buf.bufLen = _
      simp [XferBuf.submitted]
    have hpar : u.env.par = s.env.par := by rw [hu]; rfl
    have hz : (u.bufAt (.ch c)).bufLen ≠ 0 ↔ min len mps < len := by
      rw [hul, Ne, ofNat32_eq_zero_iff (by omega)]; omega
    rw [if_neg h0, if_pos hfit, bind_ok hsend', upd_apply, hpar] at hrun2
    refine ⟨_, hrun2 _ rfl, W, l, d, ?_, ?_⟩
    · rw [if_pos rfl, hfb]; exact hW'
    · rw [hfb]
      by_cases hdef : (u.bufAt (.ch c)).bufLen ≠ 0 ∧ s.env.par.txDeferRest = true
      · have hdef' : s.defers (.ch c) len mps = true := by
          have := hz.1 hdef.1
          simp [State.defers, hfb, hdef.2]; omega
        rw [if_pos hdef, enableTxfe_host hum, huc, hdef', hu]
        simp only [and_self, if_true]
        rfl
      · have hdef' : s.defers (.ch c) len mps = false := by
          rw [hz, not_and_or] at hdef
          have : min len mps ≠ 0 := by omega
          simp only [State.defers, hfb, this, decide_false, Bool.false_or, Bool.and_eq_false_iff, decide_eq_false_iff_not]
          exact hdef.elim (fun h => .inr (.inl h)) (fun h => .inr (.inr (by simpa using h)))
        rw [if_neg hdef, hdef', hu]
        simp
  · have hfb : s.firstBytes (.ch c) len mps = 0 := by simp [State.firstBytes, Tgt.num, hfit]
    refine ⟨_, hrun2 _ (by rw [if_neg h0, if_neg hfit]), [], s.env.log, s.env.draws, ?_, ?_⟩
    · simp [hfb]; exact hnone
    · have hdef : s.defers (.ch c) len mps = true := by simp [State.defers, hfb]; omega
      rw [enableTxfe_host hm2, hc2, hdef, hfb]
      simp only [and_self, if_true]
      conv_lhs => rw [hself]

/-- A submission on a device endpoint: the same, with the state `EpArmed` says. -/
theorem startTransfer_device {s : State} (dir : Dir) (n : EpIx) (pid : Pid) {mps len : Nat} (pk : Nat) (buf : Addr)
    (hmps : mps ≠ 0) (hlen : len < 2 ^ 32) :
    ∃ t, startTransfer (.ep dir n) dir pid mps len pk buf s = .ok (BitVec.ofNat 32 len) t ∧
      s.EpArmed t dir n pid mps len pk buf := by
  have hnone : s.Carries [] buf 0 := ⟨rfl, by intro k hk; omega⟩
  cases dir with
  | OUT =>
    refine ⟨_, rfl, [], .armed n pk :: s.env.log, s.env.draws, hnone, ?_⟩
    simp [State.programRegs, State.submitBuf, State.setBuf, State.bufAt, DevEp.programmed, XferBuf.submitted,
      State.logged, State.setEp, State.setEpb, State.epbAt, State.setTxq, State.txqAt]
  | IN =>
    obtain ⟨s2, hs2⟩ : ∃ s2 : State, s2 = (s.setEp .IN n ((s.epAt .IN n).programmed s.frameNum pid len pk)).setEpb .IN n
        ((s.epbAt .IN n).submitted buf len pk 0) := ⟨_, rfl⟩
    let x : Tgt := .ep .IN n
    have hrun : startTransfer x .IN pid mps len pk buf s =
        ((if x.transmits .IN then txFirstPacket x len mps else pure ()) >>= fun _ =>
          (pure (BitVec.ofNat 32 len) : M Word)) s2 := by
      rw [startTransfer, upd_bind_apply, upd_bind_apply, hs2]
      simp [x, State.programRegs, State.submitBuf, State.setBuf, State.bufAt, DevEp.programmed, XferBuf.submitted]
    have hcl : ∀ j, s2.classOf j = s.classOf j := by intro j; rw [hs2]; rfl
    have hq : ∀ j, s2.txqAt j = s.txqAt j := by intro j; rw [hs2]; rfl
    have hsp : ∀ k, s2.txSpace k = s.txSpace k := txSpace_congr hcl hq (by rw [hs2]; rfl)
    have hbuf : s2.bufAt x = (s.epbAt .IN n).submitted buf len pk 0 := by rw [hs2]; simp [State.bufAt, x]
    -- the state with `m` bytes of the first packet sent, `W` its words, and `b` the TXFE mask bit
    have hself : s2 = { ((s.setEp .IN n { (s.epAt .IN n).programmed s.frameNum pid len pk with
            mAux := (s.epAt .IN n).mAux }).setEpb .IN n ((s.epbAt .IN n).submitted buf len pk 0)).setTxq x.num
              (s.txqAt x.num ++ []) with env.log := s.env.log, env.draws := s.env.draws } := by
      rw [List.append_nil, ← hq]
      have : { (s.epAt .IN n).programmed s.frameNum pid len pk with mAux := (s.epAt .IN n).mAux } =
        (s.epAt .IN n).programmed s.frameNum pid len pk := rfl
      rw [this, ← hs2, setTxq_self, hs2]
      rfl
    have hb2 : (s2.bufAt x).bufPtr = buf := by rw [hbuf]; simp [XferBuf.submitted]
    have htx : txFirstPacket x len mps s2 =
        if len = 0 then .ok () s2
        else if wordsOf (min len mps) ≤ s.txSpace (s.classOf x.num) then
          (sendPacket x (min len mps) >>= fun _ => upd fun u =>
            if (u.bufAt x).bufLen ≠ 0 ∧ u.env.par.txDeferRest = true then u.enableTxfe x else u) s2
        else .ok () (s2.enableTxfe x) := by
      rw [txFirstPacket, get_bind_apply]
      simp only [ite_apply', hsp, hcl]
      rfl
    have hrun2 : ∀ u, txFirstPacket x len mps s2 = .ok () u →
        startTransfer x .IN pid mps len pk buf s = .ok (BitVec.ofNat 32 len) u := by
      intro u hu
      rw [hrun]
      simp only [Tgt.transmits, decide_true, if_true, x]
      exact bind_ok hu
    rw [htx] at hrun2
    by_cases h0 : len = 0
    · subst h0
      have hfb0 : s.firstBytes x 0 mps = 0 := by simp [State.firstBytes]
      refine ⟨s2, hrun2 s2 (by simp), [], s.env.log, s.env.draws, ?_, ?_⟩
      · rw [if_pos rfl, hfb0]; exact hnone
      · have hdef0 : s.defers x 0 mps = false := by simp [State.defers]
        rw [if_pos rfl, hdef0, hfb0]
        exact hself
    by_cases hfit : wordsOf (min len mps) ≤ s.txSpace (s.classOf x.num)
    · obtain ⟨W, l, d, hW, hsend⟩ := sendPacket_ok (s := s2) (x := x) (n := min len mps)
        (by rw [hsp, hcl]; exact hfit)
      rw [hb2] at hW
      have hW' : s.Carries W buf (min len mps) := by
        refine ⟨hW.1, fun k hk => ?_⟩
        rw [hW.2 k hk, hs2]; rfl
      have hfb : s.firstBytes x len mps = min len mps := by simp [State.firstBytes, hfit]
      have hadv : (s2.bufAt x).advance (min len mps) = (s.epbAt .IN n).submitted buf len pk (min len mps) := by
        rw [hbuf]
        simp only [XferBuf.advance, XferBuf.submitted, Nat.sub_zero]
        rw [addr_ofNat_sub (Nat.min_le_left len mps)]
        simp
      obtain ⟨u, hu⟩ : ∃ u : State, u = { ((s.setEp .IN n ((s.epAt .IN n).programmed s.frameNum pid len pk)).setEpb
          .IN n ((s.epbAt .IN n).submitted buf len pk (min len mps))).setTxq x.num (s.txqAt x.num ++ W) with
          env.log := l, env.draws := d } := ⟨_, rfl⟩
      have hsend' : sendPacket x (min len mps) s2 = .ok () u := by
        rw [hsend, hadv, hu]
        congr 1
        show State.setEpb _ .IN n _ = _
        conv_lhs => rw [hs2]
        simp [State.setEpb, State.setTxq, State.setEp, State.txqAt, State.epAt]
      have hul : (u.bufAt x).bufLen = BitVec.ofNat 32 (len - min len mps) := by
        rw [hu]
        show ((State.setEpb _ .IN n _).epbAt .IN n).bufLen = _
        simp [XferBuf.submitted]
      have hpar : u.env.par = s.env.par := by rw [hu]; rfl
      have hz : (u.bufAt x).bufLen ≠ 0 ↔ min len mps < len := by
        rw [hul, Ne, ofNat32_eq_zero_iff (by omega)]; omega
      rw [if_neg h0, if_pos hfit, bind_ok hsend', upd_apply, hpar] at hrun2
      refine ⟨_, hrun2 _ rfl, W, l, d, ?_, ?_⟩
      · rw [if_pos rfl, hfb]; exact hW'
      · rw [hfb]
        by_cases hdef : (u.bufAt x).bufLen ≠ 0 ∧ s.env.par.txDeferRest = true
        · have hdef' : s.defers x len mps = true := by
            have := hz.1 hdef.1
            simp [State.defers, hfb, hdef.2]; omega
          rw [if_pos hdef, hdef', hu]
          simp only [and_self, if_true]
          show State.setEp _ .IN n _ = _
          simp [State.setEpb, State.setTxq, State.setEp, State.txqAt, State.epAt]
          rfl
        · have hdef' : s.defers x len mps = false := by
            rw [hz, not_and_or] at hdef
            have : min len mps ≠ 0 := by omega
            simp only [State.defers, hfb, this, decide_false, Bool.false_or, Bool.and_eq_false_iff, decide_eq_false_iff_not]
            exact hdef.elim (fun h => .inr (.inl h)) (fun h => .inr (.inr (by simpa using h)))
          rw [if_neg hdef, hdef', hu]
          rfl
    · have hfb : s.firstBytes x len mps = 0 := by simp [State.firstBytes, hfit]
      refine ⟨_, hrun2 _ (by rw [if_neg h0, if_neg hfit]), [], s.env.log, s.env.draws, ?_, ?_⟩
      · rw [if_pos rfl, hfb]; exact hnone
      · have hdef : s.defers x len mps = true := by simp [State.defers, hfb]; omega
        rw [hdef, hfb]
        simp only [and_self, if_true]
        conv_lhs => rw [hself]
        show State.setEp _ .IN n _ = _
        simp [State.setEpb, State.setTxq, State.setEp, State.txqAt, State.epAt]

theorem submitTransfer_eq (x : Tgt) (dir : Dir) (pid : Pid) (mps len : Nat) (buf : Addr) :
    submitTransfer x dir pid mps len buf = (refuseIf (wraps buf (clampPackets len mps).2 = true) .AddrWrap >>= fun _ =>
      startTransfer x dir pid mps (clampPackets len mps).2 (clampPackets len mps).1 buf) := rfl

theorem packetSize_ne_zero {mps : BitVec 11} (h : mps ≠ 0) : mps.toNat ≠ 0 :=
  fun e => h (by apply BitVec.eq_of_toNat_eq; simpa using e)

theorem clampPackets_lt {mps : BitVec 11} (h : mps ≠ 0) (len : Nat) : (clampPackets len mps.toNat).2 < 2 ^ 32 := by
  have h1 := clampPackets_snd_le len mps.toNat
  have h2 := packetSize_ne_zero h
  have := mps.isLt
  omega

/-- `EnableTransfer` on an IDLE host channel with the operands of its CHOPEN (R158). -/
theorem enableChannelTransfer_ok {s : State} (hm : s.mode = .HOST) (c : Ch) {dir : Dir} {type : EpType} (pid : Pid)
    {mps : BitVec 11} {len : Nat} {buf : Addr} (h0 : mps ≠ 0) (h1 : dir = (s.hcAt c).dir)
    (h2 : type = (s.hcAt c).epType) (h3 : mps = (s.hcAt c).mps) (h4 : (s.hcAt c).chEna = false)
    (h5 : buf.toNat + (clampPackets len mps.toNat).2 ≤ 2 ^ 32) :
    ∃ t, s.HostArmed t c dir pid mps.toNat (clampPackets len mps.toNat).2 (clampPackets len mps.toNat).1 buf ∧
      enableChannelTransfer c dir type pid mps len buf s = .ok (BitVec.ofNat 32 (clampPackets len mps.toNat).2) t := by
  obtain ⟨t, ht, ha⟩ := startTransfer_host hm c dir pid (clampPackets len mps.toNat).1 buf (packetSize_ne_zero h0)
    (clampPackets_lt h0 len)
  refine ⟨t, ha, ?_⟩
  rw [enableChannelTransfer, get_bind_apply, refuseIf_bind_neg h0, refuseIf_bind_neg (by simp [h1, h2, h3]),
    refuseIf_bind_neg (by rw [not_not, State.runState_idle_iff]; exact h4), submitTransfer_eq,
    refuseIf_bind_neg (by rw [wraps_iff]; omega)]
  exact ht

/-- `EnableTransfer` on an active device endpoint that is not armed (R158). -/
theorem enableEndpointTransfer_ok {s : State} (n : EpIx) {dir : Dir} {type : EpType} (pid : Pid) {mps : BitVec 11}
    {len : Nat} {buf : Addr} (h0 : mps ≠ 0) (h1 : (s.epAt dir n).active = true) (h2 : type = (s.epAt dir n).epType)
    (h3 : mps = s.epMps dir n) (h4 : (s.epAt dir n).epEna = false)
    (h5 : buf.toNat + (clampPackets len mps.toNat).2 ≤ 2 ^ 32) :
    ∃ t, s.EpArmed t dir n pid mps.toNat (clampPackets len mps.toNat).2 (clampPackets len mps.toNat).1 buf ∧
      enableEndpointTransfer n dir type pid mps len buf s =
        .ok (BitVec.ofNat 32 (clampPackets len mps.toNat).2) t := by
  obtain ⟨t, ht, ha⟩ := startTransfer_device (s := s) dir n pid (clampPackets len mps.toNat).1 buf
    (packetSize_ne_zero h0) (clampPackets_lt h0 len)
  refine ⟨t, ha, ?_⟩
  rw [enableEndpointTransfer, get_bind_apply, refuseIf_bind_neg h0, refuseIf_bind_neg (by simp [h1]),
    refuseIf_bind_neg (by simp [h2, h3]), refuseIf_bind_neg (by simp [h4]), submitTransfer_eq,
    refuseIf_bind_neg (by rw [wraps_iff]; omega)]
  exact ht

/-- `OpenChannel` on an IDLE channel (R150). -/
theorem openChannel_ok {s : State} {c : Ch} (devAddr : BitVec 7) (type : EpType) (mps : BitVec 11) (dir : Dir)
    (epn : BitVec 4) (h : (s.hcAt c).chEna = false) :
    openChannel c devAddr type mps dir epn s = .ok () (s.openChannel c devAddr type mps dir epn) := by
  rw [openChannel, get_bind_apply, refuseIf_bind_neg (by rw [not_not, State.runState_idle_iff]; exact h)]
  rfl
theorem openChannel_busy {s : State} {c : Ch} (devAddr : BitVec 7) (type : EpType) (mps : BitVec 11) (dir : Dir)
    (epn : BitVec 4) (h : (s.hcAt c).chEna = true) :
    openChannel c devAddr type mps dir epn s = .error (.refuse .ChannelBusy) s := by
  rw [openChannel, get_bind_apply, refuseIf_bind_pos (by rw [Ne, State.runState_idle_iff, h]; simp)]

/-! ## The host sequencer (R190 to R203) -/

theorem needPair_bind_of {α : Type} {s : State} {o i : Ch} {f : Ch × Ch → M α} (ho : s.host.hcCtlOut = some o)
    (hi : s.host.hcCtlIn = some i) : (needPair >>= f) s = f (o, i) s := by
  apply bind_ok; unfold needPair; rw [ho, hi]
theorem needPair_bind_none {α : Type} {s : State} {f : Ch × Ch → M α} (ho : s.host.hcCtlOut = none) :
    (needPair >>= f) s = .error (.refuse .NotOpen) s := by
  apply bind_error; unfold needPair; rw [ho]

/-- CTRLPOLL with no request outstanding does nothing (R192). -/
theorem ctrlPoll_idle {s : State} {o i : Ch} (hm : s.mode = .HOST) (ho : s.host.hcCtlOut = some o)
    (hi : s.host.hcCtlIn = some i) (hv : s.host.verdict ≠ .BUSY) : ctrlPoll s = .ok () s := by
  rw [ctrlPoll, needHost_bind_of hm, needPair_bind_of ho hi]
  show (if s.host.verdict ≠ .BUSY then (pure () : M Unit) else _) s = _
  rw [if_pos hv]; rfl
/-- CTRLPOLL issuing the current phase (R192, R193). -/
theorem ctrlPoll_issue {s : State} {o i c : Ch} (hm : s.mode = .HOST) (ho : s.host.hcCtlOut = some o)
    (hi : s.host.hcCtlIn = some i) (hv : s.host.verdict = .BUSY) (hc : phaseChannel o i s.host.ctrlState = some c)
    (hw : s.host.ctrlWait = false) :
    ctrlPoll s = (issuePhase o i >>= fun _ => upd fun s => { s with host.ctrlWait := true }) s := by
  rw [ctrlPoll, needHost_bind_of hm, needPair_bind_of ho hi]
  show (if s.host.verdict ≠ .BUSY then (pure () : M Unit) else _) s = _
  rw [if_neg (not_not.2 hv), hc]
  show (if s.host.ctrlWait = false then _ else _ : M Unit) s = _
  rw [if_pos hw]
/-- CTRLPOLL reading the phase's outcome (R192, R198 to R202). -/
theorem ctrlPoll_wait {s : State} {o i c : Ch} (hm : s.mode = .HOST) (ho : s.host.hcCtlOut = some o)
    (hi : s.host.hcCtlIn = some i) (hv : s.host.verdict = .BUSY) (hc : phaseChannel o i s.host.ctrlState = some c)
    (hw : s.host.ctrlWait = true) : ctrlPoll s = urbRow (s.pipeAt c).buf.urbStatus s := by
  rw [ctrlPoll, needHost_bind_of hm, needPair_bind_of ho hi]
  show (if s.host.verdict ≠ .BUSY then (pure () : M Unit) else _) s = _
  rw [if_neg (not_not.2 hv), hc]
  show (if s.host.ctrlWait = false then _ else _ : M Unit) s = _
  rw [if_neg (by simp [hw])]

/-! ## Endpoint 0 (R223, R235 to R238) -/

theorem State.m0_ne_zero (s : State) : s.m0 ≠ 0 := by
  simp only [State.m0, State.epMps, ep0Mps, if_true]
  split
  · decide
  · split
    · decide
    · split <;> decide

theorem State.m0_le (s : State) : s.m0 ≤ 64 := by
  simp only [State.m0, State.epMps, ep0Mps, if_true]
  split
  · decide
  · split
    · decide
    · split <;> decide

@[simp] theorem clampPackets_zero (mps : Nat) : clampPackets 0 mps = (1, 0) := by simp [clampPackets, pktCount]

/-- `Ep0Arm` (R223) answers the length programmed and leaves the state `EpArmed` says. -/
theorem ep0Arm_ok (s : State) (d : Dir) (len : Nat) (buf : Addr) :
    ∃ t, ep0Arm d len buf s = .ok (BitVec.ofNat 32 (clampPackets len s.m0).2) t ∧
      s.EpArmed t d 0 .DATA1 s.m0 (clampPackets len s.m0).2 (clampPackets len s.m0).1 buf := by
  have h : (clampPackets len s.m0).2 < 2 ^ 32 := by
    have h1 := clampPackets_snd_le len s.m0
    have h2 := s.m0_le
    have h3 := s.m0_ne_zero
    omega
  exact startTransfer_device d 0 .DATA1 _ buf s.m0_ne_zero h

theorem State.EpArmed.of_log {s t : State} {l : List LogEntry} {dir : Dir} {n : EpIx} {pid : Pid} {mps len pk : Nat}
    {buf : Addr} (h : State.EpArmed { s with env.log := l } t dir n pid mps len pk buf) :
    s.EpArmed t dir n pid mps len pk buf := by
  have hfb : State.firstBytes { s with env.log := l } (.ep dir n) len mps = s.firstBytes (.ep dir n) len mps := by
    have : ∀ k, State.txSpace { s with env.log := l } k = s.txSpace k :=
      txSpace_congr (fun _ => rfl) (fun _ => rfl) rfl
    simp only [State.firstBytes, this]
    rfl
  have hdf : State.defers { s with env.log := l } (.ep dir n) len mps = s.defers (.ep dir n) len mps := by
    simp only [State.defers, hfb]
  obtain ⟨W, l', d, hW, he⟩ := h
  rw [hfb] at hW he
  rw [hdf] at he
  refine ⟨W, l', d, hW, he.trans ?_⟩
  cases dir <;> rfl

theorem ep0Arm_zero_in (s : State) : ep0Arm .IN 0 s.stage s = .ok 0 (s.armZero .IN) := by
  rw [ep0Arm, get_bind_apply, clampPackets_zero]
  rfl
/-- Arming an OUT endpoint is recorded in the history. -/
theorem ep0Arm_zero_out (s : State) : ep0Arm .OUT 0 s.stage s = .ok 0 ((s.armZero .OUT).logged (.armed 0 1)) := by
  rw [ep0Arm, get_bind_apply, clampPackets_zero]
  rfl

theorem sendStatus_ok (s : State) : sendStatus s = .ok () s.statusIn := by
  rw [sendStatus, upd_bind_apply, get_bind_apply]
  exact bind_ok (ep0Arm_zero_in { s with dev.ctrlState := .STATUS_IN })

theorem awaitStatus_ok (s : State) : awaitStatus s = .ok () (s.statusOut.logged (.armed 0 1)) := by
  rw [awaitStatus, upd_bind_apply, get_bind_apply]
  exact bind_ok (ep0Arm_zero_out { s with dev.ctrlState := .STATUS_OUT })

theorem stallRequest_ok (s : State) : stallRequest s = .ok () s.ep0Stalled := rfl

theorem zlpNeeded_eq (len m0 n : Nat) : zlpNeeded len m0 n = decide (0 < len ∧ len % m0 = 0 ∧ len < n) := by
  simp [zlpNeeded, Bool.and_assoc]

theorem ctrlInData_ok (s : State) (buf : Addr) (len : Nat) :
    ∃ t, ctrlInData buf len s = .ok (BitVec.ofNat 32 (clampPackets len s.m0).2) t ∧ s.DataIn t buf len := by
  obtain ⟨t, ht, he⟩ := ep0Arm_ok { s with
      dev.ctrlState := .DATA_IN
      dev.zlpPending := decide (0 < len ∧ len % s.m0 = 0 ∧ len < s.reqLength.toNat)
      env.log := .memRead (s.scratch + 6) 2 (s.reqLength.setWidth 32) :: s.env.log } .IN len buf
  refine ⟨t, ?_, State.EpArmed.of_log (s := { s with
      dev.ctrlState := .DATA_IN
      dev.zlpPending := decide (0 < len ∧ len % s.m0 = 0 ∧ len < s.reqLength.toNat) }) he⟩
  rw [ctrlInData, readLength_bind_apply, upd_bind_apply, zlpNeeded_eq]
  exact ht

theorem ctrlOutData_ok (s : State) (buf : Addr) (len : Nat) :
    ∃ t, ctrlOutData buf len s = .ok (BitVec.ofNat 32 (clampPackets len s.m0).2) t ∧ s.DataOut t buf len := by
  obtain ⟨t, ht, he⟩ := ep0Arm_ok { s with dev.ctrlState := .DATA_OUT } .OUT len buf
  exact ⟨t, by rw [ctrlOutData, upd_bind_apply]; exact ht, he⟩

theorem State.DataIn.of_log {s t : State} {l : List LogEntry} {buf : Addr} {len : Nat}
    (h : State.DataIn { s with env.log := l } t buf len) : s.DataIn t buf len := State.EpArmed.of_log h
theorem State.DataOut.of_log {s t : State} {l : List LogEntry} {buf : Addr} {len : Nat}
    (h : State.DataOut { s with env.log := l } t buf len) : s.DataOut t buf len := State.EpArmed.of_log h

/-- `SendData` (R223) -/
theorem sendData_ok (s : State) (addr : Addr) (len : Nat) : ∃ t, sendData addr len s = .ok () t ∧ s.Reply t addr len := by
  rw [sendData, readLength_bind_apply]
  by_cases h : s.reqLength = 0
  · rw [if_pos h, awaitStatus_ok]
    refine ⟨_, rfl, ?_⟩
    rw [State.Reply, if_pos h]
    exact ⟨_, rfl⟩
  · obtain ⟨t, ht, hd⟩ := ctrlInData_ok (s.logged (.memRead (s.scratch + 6) 2 (s.reqLength.setWidth 32))) addr
      (min len s.reqLength.toNat)
    refine ⟨t, ?_, ?_⟩
    · rw [if_neg h, bind_ok ht]; rfl
    · rw [State.Reply, if_neg h]; exact hd.of_log

theorem State.Reply.of_log {s t : State} {l : List LogEntry} {addr : Addr} {len : Nat}
    (h : State.Reply { s with env.log := l } t addr len) : s.Reply t addr len := by
  have e : State.reqLength { s with env.log := l } = s.reqLength := rfl
  rw [State.Reply, e] at h
  rw [State.Reply]
  by_cases h0 : s.reqLength = 0
  · rw [if_pos h0]; rw [if_pos h0] at h
    obtain ⟨l', rfl⟩ := h
    exact ⟨l', rfl⟩
  · rw [if_neg h0]; rw [if_neg h0] at h
    exact h.of_log

/-- `ReceiveData` (R223) -/
theorem receiveData_ok (s : State) (addr : Addr) (len : Nat) :
    ∃ t, receiveData addr len s = .ok () t ∧ s.DataOut t addr (min len s.reqLength.toNat) := by
  obtain ⟨t, ht, hd⟩ := ctrlOutData_ok (s.logged (.memRead (s.scratch + 6) 2 (s.reqLength.setWidth 32))) addr
    (min len s.reqLength.toNat)
  exact ⟨t, by rw [receiveData, readLength_bind_apply, bind_ok ht]; rfl, hd.of_log⟩

/-- `ApplyHook` (R241) -/
theorem applyHook_ok (s : State) (dir : Dir) (r : HookResult) :
    ∃ t, applyHook dir r s = .ok () t ∧ s.HookApplied t dir r := by
  rw [applyHook, readLength_bind_apply]
  cases r with
  | Stall => exact ⟨_, rfl, _, rfl⟩
  | NoData =>
    by_cases h : s.reqLength = 0 ∨ dir = .OUT
    · refine ⟨_, (congrFun (if_pos h) _).trans (sendStatus_ok _), ?_⟩
      rw [State.HookApplied, if_pos h]; exact ⟨_, rfl⟩
    · refine ⟨_, (congrFun (if_neg h) _).trans (stallRequest_ok _), ?_⟩
      rw [State.HookApplied, if_neg h]; exact ⟨_, rfl⟩
  | DataIn addr len =>
    by_cases h : dir = .IN
    · obtain ⟨t, ht, hr⟩ := sendData_ok (s.logged (.memRead (s.scratch + 6) 2 (s.reqLength.setWidth 32))) addr len
      refine ⟨t, (congrFun (if_pos h) _).trans ht, ?_⟩
      rw [State.HookApplied, if_pos h]; exact hr.of_log
    · refine ⟨_, (congrFun (if_neg h) _).trans (stallRequest_ok _), ?_⟩
      rw [State.HookApplied, if_neg h]; exact ⟨_, rfl⟩
  | DataOut addr len =>
    by_cases h : dir = .OUT ∧ s.reqLength ≠ 0
    · obtain ⟨t, ht, hr⟩ := receiveData_ok (s.logged (.memRead (s.scratch + 6) 2 (s.reqLength.setWidth 32))) addr len
      refine ⟨t, (congrFun (if_pos h) _).trans ht, ?_⟩
      rw [State.HookApplied, if_pos h]; exact hr.of_log
    · refine ⟨_, (congrFun (if_neg h) _).trans (stallRequest_ok _), ?_⟩
      rw [State.HookApplied, if_neg h]; exact ⟨_, rfl⟩

end Sys2Proof.Machine
end

