-- ==== Sys2Proof/Laws/PerInstr.lean ====
section
/-! SUPPORT. The family `TableMatch`: the word of an instruction selects the instruction's row of the opcode table
("the word `w` selects the row iff `w & mask = match`", spec R103; R114 for setup packets). One lemma per constructor. -/

namespace Sys2Proof

/-- A command word selects a row iff its masked bits are the match, bit by bit. -/
theorem CmdFields.selects_iff (f : CmdFields) (m k : Nat) :
    Code.selects (.command f.pack) (m, k) = true ↔
      ∀ i < 32, (f.pack.getLsbD i && (BitVec.ofNat 32 k).getLsbD i) = (BitVec.ofNat 32 m).getLsbD i := by
  simp only [Code.selects, beq_iff_eq]
  exact and_eq_iff

/-- The same for a setup packet's code. -/
theorem SetupFields.selects_iff (f : SetupFields) (m k : Nat) :
    Code.selects (.setup f.pack) (m, k) = true ↔
      ∀ i < 16, (f.pack.getLsbD i && (BitVec.ofNat 16 k).getLsbD i) = (BitVec.ofNat 16 m).getLsbD i := by
  simp only [Code.selects, beq_iff_eq]
  exact and_eq_iff

end Sys2Proof

namespace Sys2Proof.Laws.TableMatch

/-- The encoding of the instruction selects its row (R103, R114). -/
def Statement (i : Instr) : Prop := (encode i).selects (tableRow i) = true

theorem init : Statement .init := by
  unfold Statement; decide
theorem portreset : Statement .portreset := by
  unfold Statement; decide
theorem rdpkt : Statement .rdpkt := by
  unfold Statement; decide
theorem wrpkt (num : BitVec 4) : Statement (.wrpkt num) := by
  refine (CmdFields.selects_iff _ _ _).2 fun i hi => ?_
  rw [CmdFields.getLsbD_pack]; interval_cases i <;> simp
theorem chopen (num : BitVec 4) (dir : Dir) (type : EpType) (epn : BitVec 4) (mps : BitVec 11) : Statement (.chopen num dir type epn mps) := by
  refine (CmdFields.selects_iff _ _ _).2 fun i hi => ?_
  rw [CmdFields.getLsbD_pack]; interval_cases i <;> simp
theorem epact (num : BitVec 4) (dir : Dir) (type : EpType) (mps : BitVec 11) : Statement (.epact num dir type mps) := by
  refine (CmdFields.selects_iff _ _ _).2 fun i hi => ?_
  rw [CmdFields.getLsbD_pack]; interval_cases i <;> simp
theorem chhalt (num : BitVec 4) : Statement (.chhalt num) := by
  refine (CmdFields.selects_iff _ _ _).2 fun i hi => ?_
  rw [CmdFields.getLsbD_pack]; interval_cases i <;> simp
theorem xferen (num : BitVec 4) (dir : Dir) (type : EpType) (pid : BitVec 2) (mps : BitVec 11) : Statement (.xferen num dir type pid mps) := by
  refine (CmdFields.selects_iff _ _ _).2 fun i hi => ?_
  rw [CmdFields.getLsbD_pack]; interval_cases i <;> simp
theorem chena (num : BitVec 4) : Statement (.chena num) := by
  refine (CmdFields.selects_iff _ _ _).2 fun i hi => ?_
  rw [CmdFields.getLsbD_pack]; interval_cases i <;> simp
theorem epstall (num : BitVec 4) (dir : Dir) : Statement (.epstall num dir) := by
  refine (CmdFields.selects_iff _ _ _).2 fun i hi => ?_
  rw [CmdFields.getLsbD_pack]; interval_cases i <;> simp
theorem epclrstall (num : BitVec 4) (dir : Dir) : Statement (.epclrstall num dir) := by
  refine (CmdFields.selects_iff _ _ _).2 fun i hi => ?_
  rw [CmdFields.getLsbD_pack]; interval_cases i <;> simp
theorem challoc : Statement .challoc := by
  unfold Statement; decide
theorem chfree (num : BitVec 4) : Statement (.chfree num) := by
  refine (CmdFields.selects_iff _ _ _).2 fun i hi => ?_
  rw [CmdFields.getLsbD_pack]; interval_cases i <;> simp
theorem pipeget (num : BitVec 4) (dir : Dir) : Statement (.pipeget num dir) := by
  refine (CmdFields.selects_iff _ _ _).2 fun i hi => ?_
  rw [CmdFields.getLsbD_pack]; interval_cases i <;> simp
theorem ctrlopen (mps : BitVec 11) : Statement (.ctrlopen mps) := by
  refine (CmdFields.selects_iff _ _ _).2 fun i hi => ?_
  rw [CmdFields.getLsbD_pack]; interval_cases i <;> simp
theorem ctrlsubmit : Statement .ctrlsubmit := by
  unfold Statement; decide
theorem ctrlpoll : Statement .ctrlpoll := by
  unfold Statement; decide
theorem ctrlreq : Statement .ctrlreq := by
  unfold Statement; decide
theorem ctrlin : Statement .ctrlin := by
  unfold Statement; decide
theorem ctrlout : Statement .ctrlout := by
  unfold Statement; decide
theorem ctrlstall : Statement .ctrlstall := by
  unfold Statement; decide
theorem enumpoll : Statement .enumpoll := by
  unfold Statement; decide
theorem cfgparse : Statement .cfgparse := by
  unfold Statement; decide
theorem getStatus (dir : Dir) (recipient : BitVec 5) : Statement (.getStatus dir recipient) := by
  refine (SetupFields.selects_iff _ _ _).2 fun i hi => ?_
  rw [SetupFields.getLsbD_pack]; interval_cases i <;> simp
theorem clearFeature (dir : Dir) (recipient : BitVec 5) : Statement (.clearFeature dir recipient) := by
  refine (SetupFields.selects_iff _ _ _).2 fun i hi => ?_
  rw [SetupFields.getLsbD_pack]; interval_cases i <;> simp
theorem setFeature (dir : Dir) (recipient : BitVec 5) : Statement (.setFeature dir recipient) := by
  refine (SetupFields.selects_iff _ _ _).2 fun i hi => ?_
  rw [SetupFields.getLsbD_pack]; interval_cases i <;> simp
theorem setAddress (dir : Dir) (recipient : BitVec 5) : Statement (.setAddress dir recipient) := by
  refine (SetupFields.selects_iff _ _ _).2 fun i hi => ?_
  rw [SetupFields.getLsbD_pack]; interval_cases i <;> simp
theorem getDescriptor (dir : Dir) (recipient : BitVec 5) : Statement (.getDescriptor dir recipient) := by
  refine (SetupFields.selects_iff _ _ _).2 fun i hi => ?_
  rw [SetupFields.getLsbD_pack]; interval_cases i <;> simp
theorem setDescriptor (dir : Dir) (recipient : BitVec 5) : Statement (.setDescriptor dir recipient) := by
  refine (SetupFields.selects_iff _ _ _).2 fun i hi => ?_
  rw [SetupFields.getLsbD_pack]; interval_cases i <;> simp
theorem getConfiguration (dir : Dir) (recipient : BitVec 5) : Statement (.getConfiguration dir recipient) := by
  refine (SetupFields.selects_iff _ _ _).2 fun i hi => ?_
  rw [SetupFields.getLsbD_pack]; interval_cases i <;> simp
theorem setConfiguration (dir : Dir) (recipient : BitVec 5) : Statement (.setConfiguration dir recipient) := by
  refine (SetupFields.selects_iff _ _ _).2 fun i hi => ?_
  rw [SetupFields.getLsbD_pack]; interval_cases i <;> simp
theorem getInterface (dir : Dir) (recipient : BitVec 5) : Statement (.getInterface dir recipient) := by
  refine (SetupFields.selects_iff _ _ _).2 fun i hi => ?_
  rw [SetupFields.getLsbD_pack]; interval_cases i <;> simp
theorem setInterface (dir : Dir) (recipient : BitVec 5) : Statement (.setInterface dir recipient) := by
  refine (SetupFields.selects_iff _ _ _).2 fun i hi => ?_
  rw [SetupFields.getLsbD_pack]; interval_cases i <;> simp
theorem classRequest (bRequest : BitVec 8) (dir : Dir) (recipient : BitVec 5) : Statement (.classRequest bRequest dir recipient) := by
  refine (SetupFields.selects_iff _ _ _).2 fun i hi => ?_
  rw [SetupFields.getLsbD_pack]; interval_cases i <;> simp
theorem vendorRequest (bRequest : BitVec 8) (dir : Dir) (recipient : BitVec 5) : Statement (.vendorRequest bRequest dir recipient) := by
  refine (SetupFields.selects_iff _ _ _).2 fun i hi => ?_
  rw [SetupFields.getLsbD_pack]; interval_cases i <;> simp
theorem reservedTypeRequest (bRequest : BitVec 8) (dir : Dir) (recipient : BitVec 5) : Statement (.reservedTypeRequest bRequest dir recipient) := by
  refine (SetupFields.selects_iff _ _ _).2 fun i hi => ?_
  rw [SetupFields.getLsbD_pack]; interval_cases i <;> simp

end Sys2Proof.Laws.TableMatch
end

