-- ==== Sys2Proof/Tests/Slice0.lean ====
section
/-! SUPPORT. Tests: ill-formed terms that WellFormed refuses, words written out from spec R100 to R114 and what they
decode to, vectors of 95_test_vectors.md (the ids V… and P… below), and, for every obligation with hypotheses, a state
that meets them. -/

namespace Sys2Proof.Tests

set_option Elab.async false

open Sys2Proof Sys2Proof.Machine

/-! ## WellFormed: one ill-formed term for each check -/

theorem test_wf_channel_number : (Instr.chhalt 12).wellFormed = false ∧ (Instr.chhalt 11).wellFormed = true := by
  decide +kernel
theorem test_wf_chopen_mps : (Instr.chopen 1 .IN .BULK 2 0).wellFormed = false := by decide +kernel
theorem test_wf_chopen_channel : (Instr.chopen 12 .IN .BULK 2 64).wellFormed = false := by decide +kernel
theorem test_wf_endpoint_number : (Instr.epstall 8 .IN).wellFormed = false ∧
    (Instr.epclrstall 8 .IN).wellFormed = false ∧ (Instr.epstall 7 .IN).wellFormed = true := by decide +kernel
theorem test_wf_epact_mps : (Instr.epact 1 .IN .BULK 0).wellFormed = false := by decide +kernel
theorem test_wf_epact_endpoint : (Instr.epact 8 .IN .BULK 64).wellFormed = false := by decide +kernel
theorem test_wf_epact_ep0_size : (Instr.epact 0 .IN .CONTROL 24).wellFormed = false ∧
    (Instr.epact 0 .IN .CONTROL 16).wellFormed = true := by decide +kernel
theorem test_wf_xferen_pid : (Instr.xferen 2 .OUT .BULK 3 64).wellFormed = false := by decide +kernel
theorem test_wf_xferen_mps : (Instr.xferen 2 .OUT .BULK 0 0).wellFormed = false := by decide +kernel
theorem test_wf_xferen_channel : (Instr.xferen 12 .OUT .BULK 0 64).wellFormed = false := by decide +kernel
theorem test_wf_ctrlopen_mps : (Instr.ctrlopen 0).wellFormed = false := by decide +kernel
theorem test_wf_other_channels : (Instr.wrpkt 12).wellFormed = false ∧ (Instr.chena 13).wellFormed = false ∧
    (Instr.chfree 14).wellFormed = false ∧ (Instr.pipeget 15 .OUT).wellFormed = false := by decide +kernel

/-! ## Decoding: words spelled field by field, op num dir type pid epn mps (R100, R103) -/

theorem test_decode_fifo :
    decodeCommand 0b00010000_0000_0_00_00_0000_00000000000 = .ok .rdpkt ∧
    decodeCommand 0b00010001_0010_0_00_00_0000_00000000000 = .ok (.wrpkt 2) := by decide +kernel
theorem test_decode_driver :
    decodeCommand 0b00100000_0001_1_10_00_0010_00001000000 = .ok (.chopen 1 .IN .BULK 2 64) ∧
    decodeCommand 0b00100001_0001_1_10_00_0000_00001000000 = .ok (.epact 1 .IN .BULK 64) ∧
    decodeCommand 0b00100010_0011_0_00_00_0000_00000000000 = .ok (.chhalt 3) ∧
    decodeCommand 0b00100011_0001_1_10_01_0000_00001000000 = .ok (.xferen 1 .IN .BULK 1 64) ∧
    decodeCommand 0b00100100_0100_0_00_00_0000_00000000000 = .ok (.chena 4) ∧
    decodeCommand 0b00100101_0001_1_00_00_0000_00000000000 = .ok (.epstall 1 .IN) ∧
    decodeCommand 0b00100110_0111_0_00_00_0000_00000000000 = .ok (.epclrstall 7 .OUT) := by decide +kernel
theorem test_decode_bookkeeping :
    decodeCommand 0b00000001_0000_0_00_00_0000_00000000000 = .ok .init ∧
    decodeCommand 0b00000010_0000_0_00_00_0000_00000000000 = .ok .portreset ∧
    decodeCommand 0b00110000_0000_0_00_00_0000_00000000000 = .ok .challoc ∧
    decodeCommand 0b00110001_0011_0_00_00_0000_00000000000 = .ok (.chfree 3) ∧
    decodeCommand 0b00110010_0010_1_00_00_0000_00000000000 = .ok (.pipeget 2 .IN) := by decide +kernel
theorem test_decode_host_control :
    decodeCommand 0b01000000_0000_0_00_00_0000_00001000000 = .ok (.ctrlopen 64) ∧
    decodeCommand 0b01000001_0000_0_00_00_0000_00000000000 = .ok .ctrlsubmit ∧
    decodeCommand 0b01000010_0000_0_00_00_0000_00000000000 = .ok .ctrlpoll ∧
    decodeCommand 0b01000011_0000_0_00_00_0000_00000000000 = .ok .ctrlreq ∧
    decodeCommand 0b01100000_0000_0_00_00_0000_00000000000 = .ok .enumpoll ∧
    decodeCommand 0b01100001_0000_0_00_00_0000_00000000000 = .ok .cfgparse := by decide +kernel
theorem test_decode_device_control :
    decodeCommand 0b01010000_0000_0_00_00_0000_00000000000 = .ok .ctrlin ∧
    decodeCommand 0b01010001_0000_0_00_00_0000_00000000000 = .ok .ctrlout ∧
    decodeCommand 0b01010010_0000_0_00_00_0000_00000000000 = .ok .ctrlstall := by decide +kernel
/-- Setup packets as they arrive: bmRequestType (dir, type, recipient), bRequest, six operand bytes (R112 to R114). -/
theorem test_decode_standard_requests :
    decodeSetupBytes [0b1_00_00000, 0, 0, 0, 0, 0, 2, 0] = .ok (.getStatus .IN 0) ∧
    decodeSetupBytes [0b0_00_00010, 1, 0, 0, 0x81, 0, 0, 0] = .ok (.clearFeature .OUT 2) ∧
    decodeSetupBytes [0b0_00_00000, 3, 1, 0, 0, 0, 0, 0] = .ok (.setFeature .OUT 0) ∧
    decodeSetupBytes [0b0_00_00000, 5, 5, 0, 0, 0, 0, 0] = .ok (.setAddress .OUT 0) ∧
    decodeSetupBytes [0b1_00_00000, 6, 0, 1, 0, 0, 8, 0] = .ok (.getDescriptor .IN 0) ∧
    decodeSetupBytes [0b0_00_00000, 7, 0, 1, 0, 0, 18, 0] = .ok (.setDescriptor .OUT 0) ∧
    decodeSetupBytes [0b1_00_00000, 8, 0, 0, 0, 0, 1, 0] = .ok (.getConfiguration .IN 0) ∧
    decodeSetupBytes [0b0_00_00000, 9, 1, 0, 0, 0, 0, 0] = .ok (.setConfiguration .OUT 0) ∧
    decodeSetupBytes [0b1_00_00001, 10, 0, 0, 0, 0, 1, 0] = .ok (.getInterface .IN 1) ∧
    decodeSetupBytes [0b0_00_00001, 11, 1, 0, 0, 0, 0, 0] = .ok (.setInterface .OUT 1) := by decide +kernel
theorem test_decode_other_requests :
    decodeSetupBytes [0b0_01_00001, 0x0A, 0, 0, 0, 0, 0, 0] = .ok (.classRequest 0x0A .OUT 1) ∧
    decodeSetupBytes [0b1_10_00000, 0x33, 0, 0, 0, 0, 0, 0] = .ok (.vendorRequest 0x33 .IN 0) ∧
    decodeSetupBytes [0b0_11_00000, 1, 0, 0, 0, 0, 0, 0] = .ok (.reservedTypeRequest 1 .OUT 0) ∧
    decodeSetupBytes [0x80, 12, 0, 0, 0, 0, 2, 0] = .error .unrecognizedRequest ∧
    decodeSetupBytes [0x80, 2, 0, 0, 0, 0, 2, 0] = .error .unrecognizedRequest ∧
    decodeSetupBytes [0x80, 4, 0, 0, 0, 0, 2, 0] = .error .unrecognizedRequest := by decide +kernel
/-- V30.1 to V30.4, V30.11 -/
theorem test_decode_rejects :
    decodeCommand 0x00000000 = .error .unlistedOp ∧ decodeCommand 0x7F000000 = .error .unlistedOp ∧
    decodeCommand 0x30000001 = .error .mustBeZero ∧ decodeCommand 0x22300001 = .error .mustBeZero ∧
    decodeCommand 0x20008040 = .error .mustBeZero ∧ decodeCommandBytes [0, 0, 0] = .error .wrongLength := by
  decide +kernel

/-! ## Helpers -/

/-- The outcome is a next state with property `p`. -/
def next (o : Host.Outcome State Fault Refusal) (p : State → Bool) : Bool :=
  match o with
  | .next t => p t
  | .fault _ => false
  | .refused _ => false

/-- A state with ARG0..ARG3 set. -/
def args (s : State) (a0 a1 : Word) (a2 a3 : Word := 0) : State :=
  { s with port := { s.port with arg0 := a0, arg1 := a1, arg2 := a2, arg3 := a3 } }

/-- Bytes written in address order from `a` on. -/
def bytes (a : Addr) : List Byte → State → State
  | [], s => s
  | b :: l, s => bytes (a + 1) l (s.setByte a b)

/-- "Host start": after INIT of the host side. -/
def hostStart : State := { State.reset with mode := .HOST, gintmsk := 0x019 }
/-- "Device start": after INIT of the device side. -/
def devStart : State := { State.reset with gintmsk := 0x1F81 }
/-- Endpoint 0 active in both directions, 64 bytes: the start of the rows of 44_dev_ctrl.md. -/
def devReady : State := devStart.busReset
/-- After V43.1: the control pair on channels 0 and 1, packet size 8, no request. -/
def pairOpen : State := finalState (ctrlOpen 8 0) hostStart
/-- A GET_DESCRIPTOR of 8 bytes outstanding on the pair. -/
def requested : State := finalState (ctrlSubmit 0x2000 0x01000680 0x00080000) pairOpen
/-- The same with phase `c` issued and its pipe reporting `u`. -/
def waiting (c : CtrlState) (ch : Ch) (u : UrbStatus) : State :=
  { requested.setPipe ch { requested.pipeAt ch with buf.urbStatus := u } with
    host.ctrlState := c, host.ctrlWait := true }
/-- One `SetupStage()` on the given setup bytes. -/
def setupRun (s : State) (l : List Byte) : State := finalState setupStage (bytes 0x0F00 l s)
/-- One `SetupStage()` on the given setup bytes leaves a state with `p`. -/
abbrev setup (s : State) (l : List Byte) (p : State → Prop) : Prop := p (setupRun s l)
/-- "status armed" -/
def statusArmed (s : State) : Bool :=
  s.dev.ctrlState == .STATUS_IN && (s.epAt .IN 0).xferSize == 0 && (s.epAt .IN 0).pktCnt == 1 &&
    (s.epAt .IN 0).dpid == .DATA1 && (s.epAt .IN 0).epEna
/-- "stall" -/
def stalled (s : State) : Bool := (s.epAt .IN 0).stall && (s.epAt .OUT 0).stall && s.dev.ctrlState == .STALL
/-- A channel with the given registers. -/
def chan (type : EpType) (dir : Dir) (mps : BitVec 11) (ena dis : Bool) (int : BitVec 11 := 0) : HostChannel :=
  { HostChannel.zero with
    epType := type, dir := dir, mps := mps, chEna := ena, chDis := dis, int := int, intMsk := chMask type dir }

/-! ## A step runs the word it is given -/

theorem test_fetch_command : decodeTableWord 32 0x30000000 = some .challoc ∧
    next (step ({ hostStart with env.sched := [] }.withFetchWord 32 0x30000000)) (fun t =>
      t.port.cmd == 0x30000000 && (t.pipeAt 0).alloc && t.port.res == 0) = true := by decide +kernel
theorem test_fetch_request : decodeTableWord 16 0x0980 = some (.setConfiguration .IN 0) ∧
    decodeTableWord 16 0x0C80 = none ∧ decodeTableWord 32 0x30000001 = none ∧
    next (step (State.reset.withFetchWord 16 0x0500)) (fun t => statusArmed t && t.dev.devState == .DEFAULT) = true := by
  decide +kernel

/-! ## Refusals and INIT (30_encoding.md, 42_bookkeeping.md) -/

/-- V30.1, V30.3, V30.5, V30.7, V30.10 -/
theorem test_refusals :
    ([0x00000000, 0x30000001, 0x21000040, 0x22C00000, 0x20000000].all fun w => next (runCommand w hostStart) fun t =>
      t.port.res == 0xFFFFFFFF && !(t.pipeAt 0).alloc && t.mode == .HOST) = true := by decide +kernel
/-- V30.9 -/
theorem test_init_bad_mode : next (runCommand 0x01000000 (args hostStart 2 0)) (fun t =>
    t.port.res == 0xFFFFFFFF && t.mode == .HOST && t.gintmsk == 0x019) = true := by decide +kernel
/-- V42.1, V42.2 -/
theorem test_init : next (runCommand 0x01000000 (args State.reset 1 0)) (fun t =>
      t.port.res == 0 && t.mode == .HOST && t.gintmsk == 0x019) = true ∧
    next (runCommand 0x01000000 (args State.reset 0 0)) (fun t =>
      t.port.res == 0 && t.mode == .DEVICE && t.gintmsk == 0x1F81) = true := by decide +kernel
/-- R341 -/
theorem test_portreset : next (runCommand 0x02000000 hostStart) (fun t =>
    t.port.res == 0 && t.events == [.portReset] && t.hprt.prst == false) = true := by decide +kernel

/-! ## FIFO transport (40_fifo.md) -/

def rxStart (q : List Word) : State :=
  { bytes 0x100 (.replicate 8 0xAA) hostStart with fifo.rxq := q }
/-- V40.3, V40.6 -/
theorem test_rdpkt_tail :
    next (runCommand 0x10000000 (args (rxStart [0x11BBCCDD]) 3 0x100)) (fun t =>
      t.port.res == 0 && t.fifo.rxq == [] && t.word 0x100 == 0xAABBCCDD && t.word 0x104 == 0xAAAAAAAA) = true ∧
    next (runCommand 0x10000000 (args (rxStart [0x44332211, 0x00776655]) 7 0x100)) (fun t =>
      t.word 0x100 == 0x44332211 && t.word 0x104 == 0xAA776655) = true := by decide +kernel
/-- V40.7, V40.8 -/
theorem test_rdpkt_underflow_and_wrap :
    next (runCommand 0x10000000 (args { rxStart [0x44332211] with port.res := 0x77 } 8 0x100)) (fun t =>
      t.fault.rxUnderflow && t.port.res == 0x77 && t.word 0x100 == 0x44332211 && t.word 0x104 == 0xAAAAAAAA) = true ∧
    next (runCommand 0x10000000 (args (rxStart [1]) 8 0xFFFFFFFC)) (fun t =>
      t.port.res == 0xFFFFFFFF && t.fifo.rxq == [1]) = true := by decide +kernel

def txStart (s : State) : State := bytes 0x200 [0x11, 0x22, 0x33, 0x44, 0x55, 0x66, 0x77, 0x88] s
/-- V40.9, V40.11 -/
theorem test_wrpkt_words :
    next (runCommand 0x11200000 (args (txStart hostStart) 0 0x200)) (fun t =>
      t.port.res == 0 && t.txqAt 2 == [] && t.gintsts .NPTXFE) = true ∧
    next (runCommand 0x11200000 (args (txStart hostStart) 4 0x200)) (fun t =>
      t.port.res == 0 && t.txqAt 2 == [0x44332211] && !t.gintsts .NPTXFE) = true := by decide +kernel
/-- V40.13, V40.14 -/
theorem test_wrpkt_overflow_and_number :
    next (runCommand 0x11200000 (args { txStart hostStart with env.par.npTxWords := 1 } 8 0x200)) (fun t =>
      t.fault.txOverflow && t.txqAt 2 == [0x44332211]) = true ∧
    next (runCommand 0x11800000 (args (txStart devStart) 4 0x200)) (fun t =>
      t.port.res == 0xFFFFFFFF && t.txqAt 8 == []) = true := by decide +kernel

/-! ## Channel and endpoint driver (41_chep_driver.md) -/

/-- V41.1; HCCHAR(1) of "Register words" -/
theorem test_chopen : next (runCommand 0x201C1040 (args hostStart 5 0)) (fun t =>
    t.port.res == 0 && t.regWord 0x110 == 0x00169040 && (t.hcAt 1).int == 0 && (t.hcAt 1).intMsk == 0x59F &&
    t.haintmsk == 0x002 && (t.pipeAt 1).dir == .IN && (t.pipeAt 1).mps == 64 && (t.pipeAt 1).epType == .BULK) = true := by
  decide +kernel
/-- V41.2 -/
theorem test_chopen_ping : next (runCommand 0x20040A00 (args { hostStart with host.speed := .HIGH } 1 0)) (fun t =>
    (t.hcAt 0).doPing && (t.hcAt 0).intMsk == 0x4DF && (t.hcAt 0).mps == 512) = true := by decide +kernel
/-- V41.5, V41.7 -/
theorem test_epact :
    next (runCommand 0x21000040 devStart) (fun t =>
      t.port.res == 0 && (t.epAt .OUT 0).active && (t.epAt .OUT 0).mps == 0 && t.epMps .OUT 0 == 64 &&
      (t.epAt .OUT 0).mXfrc && (t.epAt .OUT 0).mAux && t.dep.daintmskOut == 0x01) = true ∧
    next (runCommand 0x211C0040 devStart) (fun t =>
      (t.epAt .IN 1).active && (t.epAt .IN 1).epType == .BULK && (t.epAt .IN 1).mps == 64 && (t.epAt .IN 1).mXfrc &&
      !(t.epAt .IN 1).mAux && t.dep.daintmskIn == 0x02) = true := by decide +kernel
/-- V41.6 -/
theorem test_epact_size : next (runCommand 0x21080018 devStart) (fun t => t.port.res == 0xFFFFFFFF) = true := by
  decide +kernel

def bulk3 (q : Nat) : State :=
  { hostStart.setHc 3 (chan .BULK .OUT 64 true false) with fifo.qSlotsNP := q }
def halting3 : State := (bulk3 0).halt 3
/-- T3 steps 1 and 2, V41.9 -/
theorem test_chhalt :
    next (runCommand 0x22300000 (bulk3 0)) (fun t =>
      t.port.res == 0 && (t.hcAt 3).chEna && (t.hcAt 3).chDis && t.fifo.qFlushNP && t.runState 3 == .HALTING &&
      next (runCommand 0x22300000 t) (fun u => u.hc == t.hc && u.fifo == t.fifo)) = true ∧
    next (runCommand 0x22300000 (bulk3 4)) (fun t => (t.hcAt 3).chDis && !t.fifo.qFlushNP) = true := by decide +kernel
/-- T3 steps 3 and 4 -/
theorem test_halt_completes : next (runBus (.haltDone 3) ((bulk3 0).halt 3)) (fun t =>
    t.runState 3 == .IDLE && !t.fifo.qFlushNP && (t.hcAt 3).flag .CHH &&
    next (runCommand 0x22300000 t) (fun u => u.hc == t.hc && u.fifo == t.fifo)) = true := by decide +kernel

def out130 (n : Nat) : State :=
  { hostStart.openChannel 2 1 .BULK 64 .OUT 1 with frameNum := 7, env.par.npTxWords := n }
/-- V41.11 with 130 zero bytes; HCCHAR(2) and HCTSIZ(2) of "Register words" -/
theorem test_xferen_out : next (runCommand 0x23240040 (args (out130 64) 130 0x1000)) (fun t =>
    t.port.res == 130 && t.regWord 0x120 == 0x80060840 && t.regWord 0x124 == 0x00180082 &&
    (t.txqAt 2).length == 16 && (t.pipeAt 2).buf == ⟨0x1040, 66, 64, 3, false, .IDLE, .OK⟩ && t.gintmsk == 0x01B) = true := by
  decide +kernel
/-- V41.12, V41.19 -/
theorem test_xferen_deferred_and_in :
    next (runCommand 0x23240040 (args (out130 8) 130 0x1000)) (fun t =>
      t.port.res == 130 && t.txqAt 2 == [] && (t.pipeAt 2).buf == ⟨0x1000, 130, 0, 3, false, .IDLE, .OK⟩ &&
      t.gmask .NPTXFE) = true ∧
    next (runCommand 0x231C8040 (args { hostStart.openChannel 1 5 .BULK 64 .IN 2 with frameNum := 6 } 100 0x2000))
      (fun t => t.port.res == 100 && (t.hcAt 1).xferSize == 100 && (t.hcAt 1).pktCnt == 2 && (t.hcAt 1).dpid == .DATA1 &&
        (t.hcAt 1).oddFrame && (t.hcAt 1).chEna && (t.pipeAt 1).buf == ⟨0x2000, 100, 0, 2, false, .IDLE, .OK⟩) = true := by
  decide +kernel
/-- V41.21 -/
theorem test_xferen_device : next (runCommand 0x231C0040 (args (devStart.activateEp 1 .BULK 64 .IN) 10 0x3000)) (fun t =>
    t.port.res == 10 && (t.epAt .IN 1).xferSize == 10 && (t.epAt .IN 1).pktCnt == 1 && (t.epAt .IN 1).epEna &&
    (t.txqAt 1).length == 3 && (t.epbAt .IN 1).bufPtr == 0x300A && (t.epbAt .IN 1).xferCount == 10 &&
    !(t.epAt .IN 1).mAux) = true := by decide +kernel
/-- V41.22, V41.23 -/
theorem test_chena :
    next (runCommand 0x24400000 hostStart) (fun t => t.runState 4 == .ACTIVE && t.port.res == 0) = true ∧
    next (runCommand 0x24400000 (hostStart.setHc 4 (chan .BULK .IN 64 true true))) (fun t =>
      t.runState 4 == .ACTIVE) = true := by decide +kernel
/-- V41.24, V41.25 -/
theorem test_endpoint_stall :
    next (runCommand 0x25180000 devStart) (fun t => (t.epAt .IN 1).stall && !(t.epAt .OUT 1).stall) = true ∧
    next (runCommand 0x26180000 (devStart.setEp .IN 1 { DevEp.zero with stall := true, dpid := .DATA1 })) (fun t =>
      !(t.epAt .IN 1).stall && (t.epAt .IN 1).dpid == .DATA0) = true := by decide +kernel

/-! ## Bookkeeping (42_bookkeeping.md) -/

def allUsed (s : State) : State := { s with pipe := s.pipe.map fun p => { p with alloc := true } }
/-- V42.4, V42.5 -/
theorem test_challoc :
    next (runCommand 0x30000000 (hostStart.usePipe 0)) (fun t => t.port.res == 1 && (t.pipeAt 1).alloc) = true ∧
    next (runCommand 0x30000000 (allUsed hostStart)) (fun t => t.port.res == 0xFF && t.pipe == (allUsed hostStart).pipe) =
      true := by decide +kernel

def pipe3 : Pipe := ⟨true, .IN, 64, .BULK, ⟨0x2040, 36, 64, 1, true, .OK, .HALTED⟩⟩
/-- V42.6 -/
theorem test_chfree : next (runCommand 0x31300000 ((hostStart.openChannel 3 1 .BULK 64 .IN 1).setPipe 3 pipe3)) (fun t =>
    t.port.res == 0 && t.pipeAt 3 == .zero && (t.hcAt 3).intMsk == 0x59F && t.haintmsk == 0x008) = true := by
  decide +kernel
/-- V42.8, V42.9, V42.11 -/
theorem test_pipeget_host :
    next (runCommand 0x32300000 (hostStart.setPipe 3 pipe3)) (fun t => t.port.res == 0x00000315) = true ∧
    next (runCommand 0x32380000 (hostStart.setPipe 3 pipe3)) (fun t => t.port.res == 64) = true ∧
    next (runCommand 0x32300000 ((hostStart.setHc 3 (chan .BULK .IN 64 true true)).setPipe 3
      { pipe3 with buf := { pipe3.buf with urbStatus := .IDLE, pipeState := .STALL } })) (fun t =>
      t.port.res == 0x00000B40) = true := by decide +kernel
/-- V42.12 -/
theorem test_pipeget_device : next (runCommand 0x32100000 (devStart.setEpb .OUT 1 { XferBuf.zero with xferCount := 7 }))
    (fun t => t.port.res == 7) = true := by decide +kernel

/-! ## Host control transfers (43_host_ctrl.md) -/

/-- V43.1 -/
theorem test_ctrlopen : next (runCommand 0x40000008 (args hostStart 0 0)) (fun t =>
    t.port.res == 0x00000100 && t.host.hcCtlOut == some 0 && t.host.hcCtlIn == some 1 && (t.hcAt 0).intMsk == 0x4DF &&
    (t.hcAt 1).intMsk == 0x49F && t.haintmsk == 0x003 && t.host.ctrlMps == 8 && t.host.verdict == .COMPLETE &&
    (t.pipeAt 0).alloc && (t.pipeAt 1).alloc) = true := by decide +kernel
/-- V43.3 -/
theorem test_ctrlopen_pool : next (runCommand 0x40000008
    (args ((allUsed hostStart).setPipe 4 .zero) 0 0)) (fun t =>
    t.port.res == 0xFF && !(t.pipeAt 4).alloc && t.host.hcCtlOut == none) = true := by decide +kernel
/-- V43.12, V43.13, and step 3 of P3 -/
theorem test_ctrlsubmit :
    next (runCommand 0x41000000 (args pairOpen 0 0x2000 0x01000680 0x00080000)) (fun t =>
      t.port.res == 0 && t.word 0xF00 == 0x01000680 && t.word 0xF04 == 0x00080000 && t.host.verdict == .BUSY &&
      t.host.ctrlLen == 8 &&
      next (runCommand 0x41000000 t) (fun u => u.port.res == 0xFFFFFFFF)) = true ∧
    next (runCommand 0x41000000 (args pairOpen 0 0xFFFFFFF0 0x01000680 0x00400000)) (fun t =>
      t.port.res == 0xFFFFFFFF && t.mem == []) = true := by decide +kernel
/-- Step 4 of P3 -/
theorem test_ctrlpoll_setup : next (runCommand 0x42000000 requested) (fun t =>
    t.port.res == 0 && t.regWord 0x104 == 0x40080008 && t.runState 0 == .ACTIVE &&
    t.txqAt 0 == [0x01000680, 0x00080000] && (t.pipeAt 0).buf.toggle && (t.pipeAt 1).buf.toggle && t.host.ctrlWait) =
    true := by decide +kernel
/-- V43.6 to V43.11 -/
theorem test_ctrlpoll_rows :
    next (runCommand 0x42000000 (waiting .SETUP 0 .ERROR)) (fun t =>
      t.port.res == 0 && t.host.errCnt == 1 && t.host.ctrlState == .SETUP && !t.host.ctrlWait) = true ∧
    next (runCommand 0x42000000 { waiting .DATA_IN 1 .ERROR with host.errCnt := 2 }) (fun t =>
      t.port.res == 6 && t.host.errCnt == 0 && t.host.ctrlState == .SETUP && !t.host.ctrlWait) = true ∧
    next (runCommand 0x42000000 (waiting .STATUS_OUT 0 .STALL)) (fun t => t.port.res == 5 && !t.host.ctrlWait) = true ∧
    next (runCommand 0x42000000 (waiting .DATA_OUT 0 .NOREADY)) (fun t =>
      t.port.res == 0 && t.host.ctrlState == .DATA_OUT && !t.host.ctrlWait) = true ∧
    next (runCommand 0x42000000 (waiting .DATA_IN 1 .NOREADY)) (fun t => t.port.res == 0 && t.host.ctrlWait) = true ∧
    next (runCommand 0x42000000 (waiting .SETUP 0 .IDLE)) (fun t => t.port.res == 0 && t.host.ctrlWait) = true := by
  decide +kernel
/-- V43.14 to V43.16 -/
theorem test_ctrlreq :
    next (runCommand 0x43000000 (args pairOpen 0 0x2000 0x01000680 0x00080000)) (fun t =>
      t.port.res == 0 && t.word 0xF00 == 0x01000680 && t.host.verdict == .BUSY && t.host.xferState == .WAITING) = true ∧
    next (runCommand 0x43000000 { waiting .SETUP 0 .STALL with host.xferState := .WAITING }) (fun t =>
      t.port.res == 5 && t.host.xferState == .START) = true ∧
    next (runCommand 0x43000000 { waiting .STATUS_OUT 0 .OK with host.xferState := .WAITING }) (fun t =>
      t.port.res == 7 && t.host.xferState == .OK) = true := by decide +kernel

/-! ## Device endpoint 0 (44_dev_ctrl.md) -/

/-- V44.1, V44.2 -/
theorem test_getStatus :
    (setupRun { devReady with dev.selfPowered := true } [0x80, 0, 0, 0, 0, 0, 2, 0]).half 0xF08 = 1 ∧
    setup (devReady.stallEp .IN 1) [0x82, 0, 0, 0, 0x81, 0, 2, 0] (fun t =>
      t.half 0xF08 = 1 ∧ (t.epAt .IN 0).xferSize = 2 ∧ (t.txqAt 0).length = 1 ∧ t.dev.ctrlState = .DATA_IN) := by
  decide +kernel
/-- V44.3, V44.24 -/
theorem test_getStatus_stalls :
    stalled (setupRun devReady [0x82, 0, 0, 0, 0x88, 0, 2, 0]) = true ∧
    stalled (setupRun devReady [0x01, 0, 0, 0, 0, 0, 2, 0]) = true := by decide +kernel
/-- V44.4, V44.5 -/
theorem test_clearFeature :
    setup (devReady.setEp .IN 1 { DevEp.zero with stall := true, dpid := .DATA1 }) [0x02, 1, 0, 0, 0x81, 0, 0, 0] (fun t =>
      (t.epAt .IN 1).stall = false ∧ (t.epAt .IN 1).dpid = .DATA0 ∧ statusArmed t = true) ∧
    setup { devReady.stallEp .IN 1 with dev.curConfiguration := 1 } [0x02, 1, 0, 0, 0x81, 0, 0, 0] (fun t =>
      (t.epAt .IN 1).stall = true ∧ stalled t = true) := by decide +kernel
/-- V44.6 -/
theorem test_setFeature :
    (setupRun devReady [0x00, 3, 1, 0, 0, 0, 0, 0]).dev.remoteWakeup = true ∧
    statusArmed (setupRun devReady [0x00, 3, 1, 0, 0, 0, 0, 0]) = true := by decide +kernel
/-- V44.7, V44.8, V44.9 and T8 -/
theorem test_setAddress :
    setup devReady [0x00, 5, 5, 0, 0, 0, 0, 0] (fun t =>
      t.dev.addr = 5 ∧ t.dev.devState = .ADDRESS ∧ statusArmed t = true) ∧
    setup { devReady with dev.addr := 5, dev.devState := .ADDRESS } [0x00, 5, 0, 0, 0, 0, 0, 0] (fun t =>
      t.dev.addr = 0 ∧ t.dev.devState = .DEFAULT ∧ statusArmed t = true) := by decide +kernel
theorem test_setAddress_stalls :
    stalled (setupRun devReady [0x00, 5, 0x80, 0, 0, 0, 0, 0]) = true ∧
    setup { devReady with dev.addr := 3, dev.devState := .CONFIGURED, dev.curConfiguration := 1 } [0x00, 5, 5, 0, 0, 0, 0, 0] (fun t =>
      t.dev.addr = 3 ∧ t.dev.devState = .CONFIGURED ∧ stalled t = true) := by decide +kernel
/-- V44.10, V44.11 -/
theorem test_getDescriptor :
    setup devReady [0x80, 6, 0, 1, 0, 0, 8, 0] (fun t =>
      (t.epAt .IN 0).xferSize = 8 ∧ (t.epAt .IN 0).pktCnt = 1 ∧ (t.txqAt 0).length = 2 ∧
      (t.epbAt .IN 0).bufPtr = 0x3008 ∧ t.dev.zlpPending = false ∧ t.dev.ctrlState = .DATA_IN) ∧
    stalled (setupRun devReady [0x80, 6, 0, 5, 0, 0, 7, 0]) = true := by decide +kernel
/-- V44.19 -/
theorem test_setDescriptor : stalled (setupRun devReady [0x00, 7, 0, 1, 0, 0, 0x12, 0]) = true ∧
    statusArmed (setupRun { devReady with env.par.setDescriptorHook := true, env.hookAnswers := [.NoData] }
      [0x00, 7, 0, 1, 0, 0, 0x12, 0]) = true := by decide +kernel
/-- V44.16 -/
theorem test_getConfiguration :
    setup { devReady with dev.curConfiguration := 1 } [0x80, 8, 0, 0, 0, 0, 1, 0] (fun t =>
      t.byte 0xF08 = 1 ∧ (t.epAt .IN 0).xferSize = 1 ∧ t.dev.ctrlState = .DATA_IN) := by decide +kernel
/-- V44.12, V44.13, V44.15 -/
theorem test_setConfiguration :
    setup { devReady with dev.devState := .ADDRESS, dev.addr := 5 } [0x00, 9, 1, 0, 0, 0, 0, 0] (fun t =>
      t.dev.curConfiguration = 1 ∧ t.dev.devState = .CONFIGURED ∧ t.events = [.classInit 1] ∧ statusArmed t = true) ∧
    stalled (setupRun devReady [0x00, 9, 1, 0, 0, 0, 0, 0]) = true ∧
    setup { devReady with dev.devState := .CONFIGURED, dev.curConfiguration := 1 } [0x00, 9, 0, 0, 0, 0, 0, 0] (fun t =>
      t.dev.curConfiguration = 0 ∧ t.dev.devState = .ADDRESS ∧ t.events = [.classDeInit 1]) := by decide +kernel
/-- V44.18 -/
theorem test_getInterface :
    setup { devReady with dev.curAltSetting := 1 } [0x81, 10, 0, 0, 0, 0, 1, 0] (fun t =>
      t.byte 0xF08 = 1 ∧ (t.epAt .IN 0).xferSize = 1) := by decide +kernel
/-- V44.17 -/
theorem test_setInterface :
    setup devReady [0x01, 11, 1, 0, 0, 0, 0, 0] (fun t =>
      t.dev.curInterface = 0 ∧ t.dev.curAltSetting = 1 ∧ statusArmed t = true) := by decide +kernel
/-- V44.22, V44.23 -/
theorem test_classRequest :
    statusArmed (setupRun { devReady with env.hookAnswers := [.NoData] } [0x21, 0x0A, 0, 0, 0, 0, 0, 0]) = true ∧
    stalled (setupRun { devReady with env.hookAnswers := [.DataOut 0x3300 1] } [0xA1, 0xFE, 0, 0, 0, 0, 1, 0]) = true := by
  decide +kernel
/-- R241 -/
theorem test_vendorRequest :
    setup { devReady with env.hookAnswers := [.DataIn 0x3300 4] } [0xC0, 0x33, 0, 0, 0, 0, 2, 0] (fun t =>
      (t.epAt .IN 0).xferSize = 2 ∧ (t.epbAt .IN 0).bufPtr = 0x3302 ∧ t.dev.ctrlState = .DATA_IN) := by decide +kernel
/-- V44.20, V44.21 -/
theorem test_reserved_requests : stalled (setupRun devReady [0x80, 0x0C, 0, 0, 0, 0, 2, 0]) = true ∧
    stalled (setupRun devReady [0x60, 1, 0, 0, 0, 0, 0, 0]) = true := by decide +kernel
/-- The commands under V44.14 -/
theorem test_ctrlin : next (runCommand 0x50000000
    (args (bytes 0xF00 [0x80, 6, 0, 1, 0, 0, 255, 0] devReady) 128 0x3100)) (fun t =>
    t.port.res == 128 && (t.epAt .IN 0).pktCnt == 2 && (t.txqAt 0).length == 16 && (t.epbAt .IN 0).bufPtr == 0x3140 &&
    (t.epbAt .IN 0).bufLen == 64 && (t.epAt .IN 0).mAux && t.dev.zlpPending && t.dev.ctrlState == .DATA_IN &&
    next (runCommand 0x50000000 t) (fun u => u.port.res == 0xFFFFFFFF)) = true := by decide +kernel
/-- V44.14, rows 1 to 5 and 6 -/
theorem test_zlp : zlpNeeded 64 64 255 = true ∧ zlpNeeded 64 64 64 = false ∧ zlpNeeded 18 64 64 = false ∧
    zlpNeeded 128 64 129 = true ∧ zlpNeeded 0 64 8 = false ∧ zlpNeeded 8 8 18 = true := by decide +kernel
theorem test_ctrlout : next (runCommand 0x51000000 (args devReady 7 0x3200)) (fun t =>
    t.port.res == 7 && (t.epAt .OUT 0).xferSize == 7 && (t.epAt .OUT 0).pktCnt == 1 && (t.epAt .OUT 0).epEna &&
    (t.epbAt .OUT 0).bufPtr == 0x3200 && (t.epbAt .OUT 0).bufLen == 7 && t.dev.ctrlState == .DATA_OUT) = true := by
  decide +kernel
theorem test_ctrlstall : next (runCommand 0x52000000 devReady) (fun t => t.port.res == 0 && stalled t) = true ∧
    next (runCommand 0x52000000 hostStart) (fun t => t.port.res == 0xFFFFFFFF) = true := by decide +kernel

/-! ## Enumeration and the parser (45_host_enum.md) -/

/-- V45.1, V45.2 -/
theorem test_enumpoll_idle :
    next (runCommand 0x60000000 hostStart) (fun t => t.port.res == 0 && t.host == hostStart.host) = true ∧
    next (runCommand 0x60000000 { hostStart with host.portEnabled := true, host.speed := .FULL }) (fun t =>
      t.port.res == 1 && t.host.hcCtlOut == some 0 && t.host.hcCtlIn == some 1 && t.host.ctrlMps == 64) = true := by
  decide +kernel
/-- V45.3 and V45.7 with P_ENUM_BASE = 0x8000; R281; R276 with R285: a cached configuration that ends with the address
space, and one that passes its top -/
theorem test_enumpoll_progress :
    next (runCommand 0x60000000 { bytes 0x8000 [0x12, 1, 0, 2, 0, 0, 0, 0x40] (waiting .STATUS_OUT 0 .OK) with
        host.xferState := .WAITING, host.enumState := .GET_DEV_DESC8 }) (fun t =>
      t.port.res == 2 && t.host.xferState == .OK && t.host.ctrlMps == 64 && (t.hcAt 0).mps == 64) = true ∧
    next (runCommand 0x60000000 { bytes 0x8022 [0x19, 0] pairOpen with
        host.xferState := .OK, host.enumState := .GET_CFG_DESC }) (fun t =>
      t.port.res == 5 && t.word 0xF00 == 0x02000680 && t.word 0xF04 == 0x00190000 && t.host.ctrlBuf == 0x8020 &&
      t.host.xferState == .WAITING) = true ∧
    next (runCommand 0x60000000 { waiting .STATUS_OUT 0 .OK with
        host.xferState := .WAITING, host.enumState := .SET_CFG }) (fun t =>
      t.port.res == 10 && t.events == [.enumDone]) = true ∧
    (let s := { waiting .STATUS_OUT 0 .OK with
      host.xferState := .WAITING, host.enumState := .GET_CFG_DESC, env.par.enumBase := 0xFFFFFFDA }
     next (runCommand 0x60000000 (bytes 0xFFFFFFFA [6, 2, 6, 0] s)) (fun t => t.port.res == 6) &&
       next (runCommand 0x60000000 (bytes 0xFFFFFFFA [6, 2, 7, 0] s)) (fun t =>
        t.port.res == 0xFFFFFFFF && t.host == s.host)) = true := by decide +kernel

def cfg25 : List Byte :=
  [9, 2, 0x19, 0, 1, 1, 0, 0x80, 0x32] ++ [9, 4, 0, 0, 1, 8, 6, 0x50, 0] ++ [7, 5, 0x81, 2, 0x40, 0, 0]
def cfg39 : List Byte :=
  [9, 2, 0x27, 0, 1, 1, 0, 0x80, 0x32] ++ [9, 4, 0, 0, 3, 0xFF, 0, 0, 0] ++ [7, 5, 0x81, 2, 0x40, 0, 0] ++
    [7, 5, 2, 2, 0x40, 0, 0] ++ [7, 5, 0x83, 3, 8, 0, 10]
def parse (l : List Byte) (len : Word) : Host.Outcome State Fault Refusal :=
  runCommand 0x61000000 (args (bytes 0x4000 l hostStart) len 0x4000)
/-- V45.9 (P5), V45.10, V45.11, V45.13 -/
theorem test_cfgparse :
    next (parse cfg25 25) (fun t => t.port.res == 1 && t.host.itfCount == 1 && t.host.itf[0].epCount == 1 &&
      t.host.itf[0].raw.toList == [9, 4, 0, 0, 1, 8, 6, 0x50, 0] &&
      t.host.itf[0].ep[0].toList == [7, 5, 0x81, 2, 0x40, 0, 0]) = true ∧
    next (parse cfg25 24) (fun t => t.port.res == 1 && t.host.itf[0].epCount == 0) = true ∧
    next (parse cfg25 3) (fun t => t.port.res == 0) = true ∧
    next (parse cfg39 39) (fun t => t.port.res == 1 && t.host.itf[0].epCount == 2) = true := by decide +kernel
/-- V45.16 -/
theorem test_cfgparse_stuck : next (parse (cfg25.set 9 0) 25) (fun t => t.env.fgStuck && t.port.res == 0) = true := by
  decide +kernel

/-! ## The IRQ agent (60_exceptions.md) -/

def inChan (len cnt : BitVec 32) (pk : BitVec 10) (p : Addr) (q : List Word) : State :=
  { (hostStart.setHc 1 (chan .BULK .IN 64 true false)).setPipe 1
      ⟨true, .IN, 64, .BULK, ⟨p, len, cnt, pk, false, .IDLE, .OK⟩⟩ with fifo.rxq := q }
/-- V60.1, V60.3 -/
theorem test_receive_host :
    next (runIrq (inChan 100 0 2 0x2000 (0x00048401 :: List.replicate 16 0x01010101))) (fun t =>
      t.word 0x203C == 0x01010101 && t.word 0x2040 == 0 && (t.pipeAt 1).buf.bufPtr == 0x2040 &&
      (t.pipeAt 1).buf.bufLen == 36 && (t.pipeAt 1).buf.xferCount == 64 && (t.pipeAt 1).buf.pktCnt == 1 &&
      t.runState 1 == .ACTIVE && t.gmask .RXFLVL) = true ∧
    next (runIrq (inChan 0 100 0 0x2064 [0x00040011, 0x55])) (fun t =>
      t.fault.rxOverrun && t.fifo.rxq == [0x55] && !t.gmask .RXFLVL) = true := by decide +kernel
/-- V60.6, V60.7 -/
theorem test_receive_device :
    next (runIrq { devReady.setEpb .OUT 1 { XferBuf.zero with bufPtr := 0x3200, bufLen := 7, pktCnt := 1 } with
        fifo.rxq := [0x00040071, 0x44332211, 0x00776655] }) (fun t =>
      t.word 0x3200 == 0x44332211 && t.word 0x3204 == 0x00776655 && (t.epbAt .OUT 1).bufPtr == 0x3207 &&
      (t.epbAt .OUT 1).xferCount == 7 && (t.epbAt .OUT 1).pktCnt == 0) = true ∧
    next (runIrq { devReady with fifo.rxq := [0x000C0040, 0] }) (fun t => t.fault.rxBadStatus) = true := by
  decide +kernel
/-- V60.9, V60.10 -/
theorem test_nak :
    next (runIrq { hostStart.setHc 2 (chan .BULK .OUT 64 true false 0x010) with haintmsk := 0x004 }) (fun t =>
      !(t.hcAt 2).flag .NAK && t.runState 2 == .ACTIVE && (t.pipeAt 2).buf.pipeState == .OK) = true ∧
    next (runIrq { hostStart.setHc 5 (chan .INTERRUPT .IN 8 true false 0x010) with haintmsk := 0x020 }) (fun t =>
      t.runState 5 == .HALTING && (t.pipeAt 5).buf.pipeState == .NAK) = true := by decide +kernel
/-- V60.12 -/
theorem test_flag_priority :
    next (runIrq { hostStart.setHc 2 (chan .BULK .OUT 64 true false 0x009) with haintmsk := 0x004 }) (fun t =>
      (t.pipeAt 2).buf.pipeState == .STALL && (t.hcAt 2).flag .XFRC && t.runState 2 == .HALTING &&
      next (runIrq t) (fun u => (u.pipeAt 2).buf.pipeState == .OK && !(u.hcAt 2).flag .XFRC)) = true := by
  decide +kernel
/-- T4: transfers 2 and 5 -/
theorem test_toggle_parity :
    (Pipe.converge ⟨true, .OUT, 64, .BULK, ⟨0, 0, 130, 3, true, .IDLE, .OK⟩⟩).buf = ⟨0, 0, 130, 3, false, .OK, .HALTED⟩ ∧
    (Pipe.converge ⟨true, .OUT, 64, .BULK, ⟨0, 0, 0, 1, true, .IDLE, .STALL⟩⟩).buf =
      ⟨0, 0, 0, 1, true, .STALL, .HALTED⟩ := by decide +kernel
/-- V60.15, V60.16 -/
theorem test_port :
    next (runIrq { hostStart with hprt.pcsts := true, hprt.pcdet := true }) (fun t =>
      !t.hprt.pcdet && t.host.connected && t.events == [.deviceAttached]) = true ∧
    next (runIrq { hostStart with hprt := ⟨true, false, true, true, false, .FULL⟩, hostClkSel := .FULL }) (fun t =>
      !t.hprt.penchng && t.host.speed == .FULL && t.host.portEnabled && t.gintmsk == 0x039 &&
      t.events == [.deviceSpeedDetected .FULL]) = true := by decide +kernel
/-- V60.17 -/
theorem test_detach : next (runIrq { requested with gintmsk := 0x039, lat.discint := true }) (fun t =>
    t.gintmsk == 0 && t.haintmsk == 0 && (t.hcAt 0).intMsk == 0 && (t.pipeAt 0).alloc && !t.host.connected &&
    t.host.verdict == .BUSY && t.events == [.deviceDetached]) = true := by decide +kernel
/-- V60.19 -/
theorem test_bus_reset : next (runIrq { devStart with
      lat.usbrst := true, dev.addr := 5, dev.devState := .CONFIGURED, dev.curConfiguration := 1, dev.selfPowered := true })
    (fun t => !t.lat.usbrst && t.dev.addr == 0 && t.dev.devState == .DEFAULT && t.dev.selfPowered &&
      (t.epAt .OUT 0).active && (t.epAt .IN 0).active && t.dep.daintmskIn == 1 && t.dep.daintmskOut == 1 &&
      t.events == [.reset]) = true := by decide +kernel
/-- P4: one pass runs RXFLVL, then OEPINT and the request -/
theorem test_setup_pass : next (runIrq { devReady.setEp .OUT 0 { devReady.epAt .OUT 0 with stup := true } with
      fifo.rxq := [0x000C0080, 0x00050500, 0x00000000], dev.addr := 3, dev.devState := .CONFIGURED }) (fun t =>
    t.word 0xF00 == 0x00050500 && t.fifo.rxq == [] && t.dev.addr == 3 && stalled t && !t.irq) = true := by
  decide +kernel
/-- V60.8: the handler keeps the interrupt and writes nothing -/
theorem test_txfe_waits : next (runIrq { (out130 8).setHc 2 (chan .BULK .OUT 64 true false) with
      gintmsk := 0x01B, pipe := (hostStart.pipe.set 2 ⟨true, .OUT, 64, .BULK, ⟨0x1000, 130, 0, 3, false, .IDLE, .OK⟩⟩) })
    (fun t => t.txqAt 2 == [] && (t.pipeAt 2).buf.bufLen == 130 && t.gintmsk == 0x01B) = true := by decide +kernel
/-- Step 6 of P6 -/
theorem test_txfe_drains : next (runIrq { (out130 64).setHc 2 (chan .BULK .OUT 64 true false) with
      gintmsk := 0x01B, pipe := (hostStart.pipe.set 2 ⟨true, .OUT, 64, .BULK, ⟨0x1040, 66, 64, 3, false, .IDLE, .OK⟩⟩) })
    (fun t => (t.txqAt 2).length == 17 && (t.pipeAt 2).buf == ⟨0x1082, 0, 130, 3, false, .IDLE, .OK⟩ &&
      t.gintmsk == 0x019) = true := by decide +kernel

/-! ## The BUS agent's liberties (70_reset_and_hazards.md) -/

/-- Is the move taken, with `p` of the state after it? -/
def moved (m : BusMove) (s : State) (p : State → Bool := fun _ => true) : Bool := next (runBus m s) p
/-- "BUS does not push (on the wire the packet is refused)": R405, and after a detach (R410) -/
theorem test_bus_rxPush :
    moved (.rxPush 0x00048081 [1, 2]) hostStart (fun t => t.fifo.rxq == [0x00048081, 1, 2]) = true ∧
    moved (.rxPush 0x00048081 [1, 2]) { hostStart with env.par.rxFifoWords := 2 } = false ∧
    moved (.rxPush 0x00048081 [1]) hostStart = false ∧ moved (.rxPush 0x00248081 [1, 2]) hostStart = false ∧
    moved (.rxPush 0x00048081 [1, 2]) { hostStart with env.log := [.bus .disconnect] } = false ∧
    moved (.rxPush 0x00060001 []) { hostStart with env.log := [.bus .disconnect] } = true := by decide +kernel
/-- After a detach no channel flag is raised "until a new connection and port enable" (R410). -/
theorem test_bus_detached :
    moved (.chFlag 3 .XFRC) { bulk3 4 with env.log := [.bus .disconnect] } = false ∧
    moved (.chFlag 3 .XFRC) { bulk3 4 with env.log := [.bus .connect, .bus .disconnect] } = false ∧
    moved (.chFlag 3 .XFRC) { bulk3 4 with env.log := [.bus (.portEnable .FULL), .bus .connect, .bus .disconnect] }
      (fun t => (t.hcAt 3).flag .XFRC) = true := by decide +kernel
/-- "enumeration done after a USBRST"; one STUP per SETUP_DATA entry (R411) -/
theorem test_bus_device_events :
    moved (.enumDone .FULL) devReady = false ∧
    moved (.enumDone .FULL) { devReady with env.log := [.pass, .bus .busReset] } (fun t =>
      t.lat.enumdne && t.dev.speed == .FULL) = true ∧
    moved .setupDone devReady = false ∧
    moved .setupDone { devReady with env.log := [.bus (.rxPush 0x000C0080 [0, 0])] } (fun t => (t.epAt .OUT 0).stup) =
      true ∧
    moved .setupDone { devReady with env.log := [.bus .setupDone, .bus (.rxPush 0x000C0080 [0, 0])] } = false := by
  decide +kernel
/-- OUT endpoint 0 armed by CTRLOUT for 70 bytes: two packets of 64, or one that is shorter (R411). -/
def outWaits (l : List LogEntry) : State :=
  let s := afterCommand ctrlout (args devReady 70 0x3200)
  { s with env.log := l ++ s.env.log }
theorem test_bus_outDone :
    moved (.outDone 0) (outWaits []) = false ∧
    moved (.outDone 0) (outWaits [.bus (.rxPush 0x00040400 [])]) = false ∧
    moved (.outDone 0) (outWaits [.bus (.rxPush 0x00040400 []), .bus (.rxPush 0x00040400 [])]) (fun t =>
      (t.epAt .OUT 0).xfrc && !(t.epAt .OUT 0).epEna) = true ∧
    moved (.outDone 0) (outWaits [.bus (.rxPush 0x00040060 [])]) = true ∧
    moved (.outDone 0) (outWaits [.bus (.rxPush 0x00040061 [])]) = false := by decide +kernel

/-! ## Raw register writes (U5 of 93_implementation_defined.md) -/

/-- Does the foreground's write of `w` to HCCHAR(3) fault on channel 3? -/
def disableFaults (w : Word) (s : State) : Bool :=
  match runMove (.regWrite 0x130 w) s with
  | .fault f => f == .channelDisabledInFlight 3
  | .next _ => false
  | .refused _ => false
/-- Clearing `chEna`, or setting `chDis`, on an ACTIVE channel; clearing `chEna` on a HALTING one. An IDLE channel is not
disabled, nor is one whose bits stay as they are. -/
theorem test_disable_in_flight :
    disableFaults 0x00000000 (bulk3 0) = true ∧ disableFaults 0xC0000000 (bulk3 4) = true ∧
    disableFaults 0x40000000 halting3 = true ∧ disableFaults 0xC0000000 halting3 = false ∧
    disableFaults 0x80000000 (bulk3 0) = false ∧ disableFaults 0x00000000 hostStart = false := by decide +kernel

/-! ## The history, the enumeration codes and the layout of memory -/

/-- R105: the codes of `ctrlState`, `xferState` and `devState` -/
theorem test_codes :
    [CtrlState.SETUP, .DATA_IN, .DATA_OUT, .STATUS_IN, .STATUS_OUT, .STALL, .ERROR, .COMPLETE].map CtrlState.code =
      [0, 1, 2, 3, 4, 5, 6, 7] ∧
    [XferState.START, .WAITING, .OK].map XferState.code = [0, 1, 2] ∧
    [DevState.DEFAULT, .ADDRESS, .CONFIGURED].map DevState.code = [0, 1, 2] := by decide +kernel
/-- R85: what the parser keeps of a two-byte descriptor and what a hook is called with are recorded reads. -/
theorem test_reads_recorded :
    ((bytes 0x4000 [2, 4] hostStart).loggedBytes 0x4000 0 2).env.log = [.memRead 0x4001 1 4, .memRead 0x4000 1 2] ∧
    (setupRun { devReady with env.hookAnswers := [.Stall] } [0xC0, 0x33, 0, 0, 0, 0, 2, 0]).env.log.contains
      (.memRead 0xF04 4 0x00020000) = true := by decide +kernel
/-- R77: the reset parameters keep the layout; the vectors' cache base puts the scratch region inside the cache. -/
theorem test_layout : Config.resetParams.apart = true ∧ State.reset.layoutKept = true ∧
    ({ Config.resetParams with enumBase := 0x0E00 } : Params).apart = false ∧
    (inChan 100 0 2 0x7FC0 []).layoutKept = false ∧ (inChan 100 0 2 0x2000 []).layoutKept = true := by decide +kernel
/-! ## Witnesses: states and operands that meet the hypotheses of an obligation, clause by clause

Each theorem is named after its obligation and lists the hypotheses of each clause at a concrete state, at a boundary
of the clause's range where it has one. -/

theorem not_ok_of_error {r : Except Reject Instr} {e : Reject} (h : r = .error e) (i : Instr) : r ≠ .ok i := by
  rw [h]; exact nofun

theorem witness_WordsOfTheOpcodeTable : decode (.command 0x30000000) = .ok .challoc ∧
    encode (.chhalt 11) = .command 0x22B00000 ∧ encode (.setInterface .IN 31) = .setup 0x0B9F := by decide +kernel

theorem witness_StepRunsCommand : (hostStart.scheduleCommand 0x30000000).env.sched = [.cmd 0x30000000] ∧
    (hostStart.scheduleCommand 0x30000000).env.fgStuck = false ∧ decodeCommand 0x30000000 = .ok .challoc := by
  decide +kernel

def setupPending : State := devReady.scheduleSetup 0x0500
theorem witness_StepRunsRequest : setupPending.env.sched = [.irq] ∧ setupPending.mode = .DEVICE ∧
    setupPending.gintmsk = BitVec.twoPow 13 10 ∧ setupPending.dep.daintmskOut = 1 ∧
    (setupPending.epAt .OUT 0).xfrc = false ∧ (setupPending.epAt .OUT 0).stup = true ∧
    (setupPending.epAt .OUT 0).mAux = true ∧ decodeSetup setupPending.reqCode = .ok (.setAddress .OUT 0) := by
  decide +kernel

theorem witness_UnknownRequestStalls : (∀ i, decodeSetup 0x0280 ≠ .ok i) ∧ (∀ i, decodeSetup 0x049F ≠ .ok i) ∧
    (∀ i, decodeSetup 0x0C00 ≠ .ok i) ∧ (∀ i, decodeSetup 0xFF80 ≠ .ok i) :=
  ⟨not_ok_of_error (e := .unrecognizedRequest) (by decide +kernel),
    not_ok_of_error (e := .unrecognizedRequest) (by decide +kernel),
    not_ok_of_error (e := .unrecognizedRequest) (by decide +kernel),
    not_ok_of_error (e := .unrecognizedRequest) (by decide +kernel)⟩

theorem witness_RefusedCommands : (∀ i, decodeCommand 0x30000001 ≠ .ok i) ∧ devStart.mode = .DEVICE ∧
    hostStart.mode = .HOST ∧ 11 < (12 : BitVec 4).toNat ∧ 7 < (8 : BitVec 4).toNat ∧
    (args devStart 1 0xFFFFFFFF).port.arg1.toNat + (args devStart 1 0xFFFFFFFF).port.arg0.toNat ≤ 2 ^ 32 ∧
    128 ≤ (args hostStart 128 0).port.arg0.toNat ∧ 2 ≤ (args hostStart 2 0).port.arg0.toNat ∧
    (24 : BitVec 11) ≠ 8 ∧ (24 : BitVec 11) ≠ 16 ∧ (24 : BitVec 11) ≠ 32 ∧ (24 : BitVec 11) ≠ 64 :=
  ⟨not_ok_of_error (e := .mustBeZero) (by decide +kernel), by decide +kernel⟩

/-- At the top of the address space: the word's last two bytes lie at 0 and 1. -/
theorem witness_MemoryWord : memWf (rxStart []).mem = true ∧
    ∀ k < 4, (2 : Addr) ≠ 0xFFFFFFFE#32 + BitVec.ofNat 32 k := by decide +kernel

def rdArgs (q : List Word) (len dst : Word) : State := args (rxStart q) len dst
theorem witness_RdpktResult :
    memWf (rdArgs [1] 4 0xFFFFFFFC).mem = true ∧
    ((rdArgs [1] 4 0xFFFFFFFC).port.arg1.toNat + (rdArgs [1] 4 0xFFFFFFFC).port.arg0.toNat ≤ 2 ^ 32 ∧
      wordsOf (rdArgs [1] 4 0xFFFFFFFC).port.arg0.toNat ≤ (rdArgs [1] 4 0xFFFFFFFC).fifo.rxq.length) ∧
    ((rdArgs [1] 5 0x100).port.arg1.toNat + (rdArgs [1] 5 0x100).port.arg0.toNat ≤ 2 ^ 32 ∧
      (rdArgs [1] 5 0x100).fifo.rxq.length < wordsOf (rdArgs [1] 5 0x100).port.arg0.toNat) ∧
    2 ^ 32 < (rdArgs [1] 5 0xFFFFFFFC).port.arg1.toNat + (rdArgs [1] 5 0xFFFFFFFC).port.arg0.toNat := by
  decide +kernel

/-- One free word in the class of channel 2. -/
def wrArgs (len src : Word) : State := args { txStart hostStart with env.par.npTxWords := 1 } len src
theorem witness_WrpktResult :
    ((wrArgs 4 0x200).mode = .DEVICE → (2 : Ch).val < 8) ∧
    ((wrArgs 4 0xFFFFFFFC).port.arg1.toNat + (wrArgs 4 0xFFFFFFFC).port.arg0.toNat ≤ 2 ^ 32 ∧
      wordsOf (wrArgs 4 0x200).port.arg0.toNat ≤ (wrArgs 4 0x200).txSpace ((wrArgs 4 0x200).classOf 2)) ∧
    (wrArgs 5 0x200).txSpace ((wrArgs 5 0x200).classOf 2) < wordsOf (wrArgs 5 0x200).port.arg0.toNat ∧
    2 ^ 32 < (wrArgs 5 0xFFFFFFFC).port.arg1.toNat + (wrArgs 5 0xFFFFFFFC).port.arg0.toNat := by decide +kernel

/-- The state after WRPKT of the four bytes at 0x200, and one whose RxFIFO holds the pushed word. -/
def written : State := afterCommand (wrpkt 2) (wrArgs 4 0x200)
def looped : State := { args written 4 0xFFFFFFFC with fifo.rxq := [0x44332211] }
theorem witness_FifoRoundTrip : exec (.wrpkt (.ofNat 4 (2 : Ch))) (wrArgs 4 0x200) = .next written ∧
    written.txqAt 2 = (wrArgs 4 0x200).txqAt 2 ++ [0x44332211] ∧ looped.fifo.rxq = [0x44332211] ∧
    looped.mem = written.mem ∧ memWf looped.mem = true ∧ looped.port.arg0 = (wrArgs 4 0x200).port.arg0 ∧
    looped.port.arg1.toNat + looped.port.arg0.toNat ≤ 2 ^ 32 := ⟨rfl, by decide +kernel⟩

theorem witness_ChopenResult : (args hostStart 127 0).mode = .HOST ∧ (64 : BitVec 11) ≠ 0 ∧
    (args hostStart 127 0).port.arg0.toNat < 128 ∧ ((args hostStart 127 0).hcAt 11).chEna = false ∧
    ((bulk3 0).hcAt 3).chEna = true := by decide +kernel

theorem witness_EpactResult : devStart.mode = .DEVICE ∧ (64 : BitVec 11) ≠ 0 ∧
    ((0 : EpIx) = 0 → (64 : BitVec 11) = 8 ∨ (64 : BitVec 11) = 16 ∨ (64 : BitVec 11) = 32 ∨ (64 : BitVec 11) = 64) ∧
    (devStart.epAt .IN 0).epEna = false ∧ ((devReady.armZero .IN).epAt .IN 0).epEna = true := by decide +kernel

/-- Channel 3 ACTIVE, HALTING and IDLE. -/
theorem witness_ChhaltResult : (bulk3 0).mode = .HOST ∧
    (((bulk3 0).hcAt 3).chEna = true ∧ ((bulk3 0).hcAt 3).chDis = false) ∧ (hostStart.hcAt 3).chEna = false ∧
    (((bulk3 0).halt 3).hcAt 3).chDis = true ∧
    exec (.chhalt (.ofNat 4 (3 : Ch))) (bulk3 0) = .next (afterCommand (chhalt 3) (bulk3 0)) :=
  ⟨by decide +kernel, by decide +kernel, by decide +kernel, by decide +kernel, rfl⟩

def attached : State := { hostStart with hprt.pcsts := true }
/-- A state with a history, newest entry first. -/
def hist (s : State) (l : List LogEntry) : State := { s with env.log := l }
/-- An armed OUT endpoint 1 with packets of 64 bytes. -/
def outArmed : State := (devReady.activateEp 1 .BULK 64 .OUT).setEp .OUT 1
  { (devReady.activateEp 1 .BULK 64 .OUT).epAt .OUT 1 with epEna := true }
theorem witness_BusMoves :
    ((halting3.hcAt 3).chEna = true ∧ (halting3.hcAt 3).chDis = true) ∧
    ¬ (((bulk3 0).hcAt 3).chEna = true ∧ ((bulk3 0).hcAt 3).chDis = true) ∧
    ((0x00048081#32).extractLsb' 21 11 = 0 ∧ [(1 : Word), 2].length = wordsOf ((0x00048081#32).extractLsb' 4 11).toNat ∧
      hostStart.fifo.rxq.length + 1 + wordsOf ((0x00048081#32).extractLsb' 4 11).toNat ≤
        hostStart.env.par.rxFifoWords ∧
      ({ hostStart with env.par.rxFifoWords := 2 } : State).env.par.rxFifoWords <
        hostStart.fifo.rxq.length + 1 + wordsOf ((0x00048081#32).extractLsb' 4 11).toNat ∧
      hostStart.mode = .HOST ∧ (0x00048081#32).extractLsb' 17 4 = 2 ∧ (0x00060001#32).extractLsb' 17 4 ≠ 2) ∧
    (((bulk3 0).hcAt 3).chEna = true ∧ ((bulk3 0).hcAt 3).chDis = false ∧ ChFlag.XFRC ≠ .CHH) ∧
    ((2 : BitVec 10) ≤ 2 ∧ ¬ (3 : BitVec 10) ≤ 2 ∧ ((out130 64).hcAt 2).pktCnt = 0) ∧
    (let s := (bulk3 0).setTxq 3 [1]
     s.mode = .HOST ∧ (s.hcAt 3).chEna = true ∧ (s.hcAt 3).dir = .OUT ∧ 1 ≤ 1 ∧ 1 ≤ (s.txqAt 3).length) ∧
    (let s := (devReady.armZero .IN).setTxq 0 [1]
     s.mode = .DEVICE ∧ (s.epAt .IN 0).epEna = true ∧ 1 ≤ (s.txqAt 0).length ∧ s.txqAt (Tgt.ep .IN 0).num ≠ []) ∧
    hostStart.hprt.pcsts = false ∧ attached.hprt.pcsts = true ∧ hostStart.hprt.pena = false ∧
    ({ attached with hprt.pena := true } : State).hprt.pena = true ∧ 0 ≤ hostStart.env.par.qDepth ∧
    8 ≤ hostStart.env.par.qDepth ∧ ¬ 9 ≤ hostStart.env.par.qDepth ∧ devReady.mode = .DEVICE ∧
    LogEntry.bus .busReset ∈ (hist devReady [.pass, .bus .busReset]).env.log ∧
    LogEntry.bus .busReset ∉ devReady.env.log ∧
    ((outArmed.epAt .OUT 1).epEna = true ∧ (outArmed.epMps .OUT 1).toNat = 64) ∧
    (let s := devReady.armZero .IN
     (s.epAt .IN 0).epEna = true ∧ s.txqAt (Tgt.ep .IN 0).num = [] ∧ (s.epbAt .IN 0).bufLen = 0) := by
  decide +kernel
/-- The port is lost after a detach, and not once it has been enabled again. -/
theorem witness_BusMoves_lost :
    (∃ new old, (hist attached [.pass, .bus .disconnect]).env.log = new ++ LogEntry.bus .disconnect :: old ∧
      ∀ sp, LogEntry.bus (.portEnable sp) ∉ new) ∧
    ¬ ∃ new old, (hist attached [.bus (.portEnable .FULL), .bus .disconnect]).env.log =
        new ++ LogEntry.bus .disconnect :: old ∧ ∀ sp, LogEntry.bus (.portEnable sp) ∉ new := by
  refine ⟨⟨[.pass], [], rfl, by simp⟩, ?_⟩
  rintro ⟨new, old, h, hn⟩
  rcases new with _ | ⟨e, new⟩
  · simp [hist] at h
  · obtain ⟨rfl, -⟩ : LogEntry.bus (.portEnable .FULL) = e ∧ _ := by simpa [hist] using h
    exact hn .FULL (by simp)
/-- Two of two packets of 64 bytes received since the endpoint was armed, or one packet of 63. -/
theorem witness_BusMoves_outDone :
    (hist outArmed ([.bus (.rxPush 0x00040401 []), .bus (.rxPush 0x00040401 [])] ++ .armed 1 2 :: [.pass])).env.log =
      [.bus (.rxPush 0x00040401 []), .bus (.rxPush 0x00040401 [])] ++ .armed 1 2 :: [.pass] ∧
    (∀ k, LogEntry.armed 1 k ∉ [LogEntry.bus (.rxPush 0x00040401 []), .bus (.rxPush 0x00040401 [])]) ∧
    (0x00040401#32).extractLsb' 17 4 = 2 ∧ (0x00040401#32).extractLsb' 0 4 = .ofNat 4 (1 : EpIx) ∧
    ((0x00040401#32).extractLsb' 4 11).toNat = 64 ∧ ((0x000403F1#32).extractLsb' 4 11).toNat = 63 ∧
    (∀ k, LogEntry.armed 1 k ∉ outArmed.env.log) ∧
    ([LogEntry.bus .setupDone, .bus (.rxPush 0x000C0080 [0, 0])].filter fun e => e = .bus .setupDone).length = 1 ∧
    (0x000C0080#32).extractLsb' 17 4 = 6 := by
  refine ⟨rfl, by simp, by decide +kernel, by decide +kernel, by decide +kernel, by decide +kernel, fun k => by
    have h : outArmed.env.log = [] := by decide +kernel
    simp [h], by decide +kernel, by decide +kernel⟩

/-- V41.11 with the buffer at the very top of the address space, and one byte higher. -/
def xf (buf : Word) : State := args (out130 64) 130 buf
theorem witness_XferenHostResult : (xf 0xFFFFFF7E).mode = .HOST ∧ (64 : BitVec 11) ≠ 0 ∧
    (Dir.OUT = ((xf 0xFFFFFF7E).hcAt 2).dir ∧ EpType.BULK = ((xf 0xFFFFFF7E).hcAt 2).epType ∧
      64 = ((xf 0xFFFFFF7E).hcAt 2).mps ∧ ((xf 0xFFFFFF7E).hcAt 2).chEna = false) ∧
    (xf 0xFFFFFF7E).port.arg1.toNat + (clampPackets (xf 0xFFFFFF7E).port.arg0.toNat 64).2 ≤ 2 ^ 32 ∧
    2 ^ 32 < (xf 0xFFFFFF7F).port.arg1.toNat + (clampPackets (xf 0xFFFFFF7F).port.arg0.toNat 64).2 ∧
    Dir.IN ≠ ((xf 0).hcAt 2).dir ∧ EpType.CONTROL ≠ ((xf 0).hcAt 2).epType ∧ 32 ≠ ((xf 0).hcAt 2).mps ∧
    (((xf 0).enableChannel 2).hcAt 2).chEna = true ∧ 64 = (((xf 0).enableChannel 2).hcAt 2).mps := by decide +kernel

def xd (buf : Word := 0xFFFFFF7E) : State := args devReady 130 buf
theorem witness_XferenDeviceResult : xd.mode = .DEVICE ∧ (64 : BitVec 11) ≠ 0 ∧
    ((xd.epAt .IN 0).active = true ∧ EpType.CONTROL = (xd.epAt .IN 0).epType ∧ 64 = xd.epMps .IN 0 ∧
      (xd.epAt .IN 0).epEna = false ∧ xd.port.arg1.toNat + (clampPackets xd.port.arg0.toNat 64).2 ≤ 2 ^ 32) ∧
    (xd.epAt .IN 7).active = false ∧ (EpType.BULK ≠ (xd.epAt .IN 0).epType ∧ 32 ≠ xd.epMps .IN 0) ∧
    (let s := xd.armZero .IN
     (s.epAt .IN 0).active = true ∧ EpType.CONTROL = (s.epAt .IN 0).epType ∧ 64 = s.epMps .IN 0 ∧
      (s.epAt .IN 0).epEna = true) ∧
    (let s := xd 0xFFFFFF7F
     (s.epAt .IN 0).active = true ∧ EpType.CONTROL = (s.epAt .IN 0).epType ∧ 64 = s.epMps .IN 0 ∧
      (s.epAt .IN 0).epEna = false ∧ 2 ^ 32 < s.port.arg1.toNat + (clampPackets s.port.arg0.toNat 64).2) := by
  decide +kernel

theorem witness_PacketCountLaw : (xf 0).mode = .HOST ∧ 130 = (xf 0).port.arg0.toNat ∧
    64 = ((xf 0).hcAt 2).mps.toNat ∧ 0 < 64 ∧ 3 = max 1 ((130 + 64 - 1) / 64) ∧
    130 = (if 3 ≤ 256 then 130 else 256 * 64) ∧ ((xf 0).hcAt 2).chEna = false ∧
    (xf 0xFFFFFF7E).port.arg1.toNat + 130 ≤ 2 ^ 32 ∧ 0 < 2047 := by decide +kernel

theorem witness_ChenaResult : hostStart.mode = .HOST ∧ devStart.mode = .DEVICE ∧ 11 < (12 : BitVec 4).toNat := by
  decide +kernel
theorem witness_EndpointStallResult : hostStart.mode = .HOST ∧ devStart.mode = .DEVICE ∧ 7 < (8 : BitVec 4).toNat := by
  decide +kernel

/-- Only channel 11 free; none free; device mode. -/
theorem witness_ChallocResult :
    (let s := (allUsed hostStart).setPipe 11 .zero
     s.mode = .HOST ∧ (s.pipeAt 11).alloc = false ∧ ∀ j < (11 : Ch), (s.pipeAt j).alloc = true) ∧
    (∀ j, ((allUsed hostStart).pipeAt j).alloc = true) ∧ devStart.mode = .DEVICE := by decide +kernel
theorem witness_ChfreeResult : (allUsed hostStart).mode = .HOST ∧ devStart.mode = .DEVICE ∧
    11 < (12 : BitVec 4).toNat ∧ (∀ j < (11 : Ch), ((allUsed hostStart).pipeAt j).alloc = true) ∧
    exec (.chfree (.ofNat 4 (11 : Ch))) (allUsed hostStart) = .next (afterCommand (chfree 11) (allUsed hostStart)) :=
  ⟨by decide +kernel, by decide +kernel, by decide +kernel, by decide +kernel, rfl⟩
theorem witness_PipegetResult : hostStart.mode = .HOST ∧ devStart.mode = .DEVICE := by decide +kernel
theorem witness_InitAndPortreset : (args hostStart 1 0).port.arg0 = (if Mode.HOST = .HOST then 1 else 0) ∧
    (args hostStart 0 0).port.arg0 = (if Mode.DEVICE = .HOST then 1 else 0) ∧ hostStart.mode = .HOST := by
  decide +kernel
theorem witness_OnlyInitChangesMode : next (step ((args State.reset 1 0).scheduleCommand 0x01000000)) (fun t =>
    t.mode != ((args State.reset 1 0).scheduleCommand 0x01000000).mode) = true := by decide +kernel

/-- Channels 3 and 11 the only free ones; channel 4 the only free one. -/
def two : State := args (((allUsed hostStart).setPipe 3 .zero).setPipe 11 .zero) 127 0
def one : State := args ((allUsed hostStart).setPipe 4 .zero) 0 0
theorem witness_CtrlopenFirst : two.mode = .HOST ∧ (1 : BitVec 11) ≠ 0 ∧ two.port.arg0.toNat < 128 ∧
    two.host.hcCtlOut = none ∧ (two.pipeAt 3).alloc = false ∧ (∀ j < (3 : Ch), (two.pipeAt j).alloc = true) ∧
    (3 : Ch) < 11 ∧ (two.pipeAt 11).alloc = false ∧
    (∀ j : Ch, 3 < j → j < 11 → (two.pipeAt j).alloc = true) ∧ (two.hcAt 3).chEna = false ∧
    (two.hcAt 11).chEna = false ∧ ((two.enableChannel 3).hcAt 3).chEna = true ∧
    ((two.enableChannel 11).hcAt 11).chEna = true ∧ ((two.enableChannel 11).pipeAt 11).alloc = false ∧ one.mode = .HOST ∧ one.host.hcCtlOut = none ∧
    (∀ i j, (one.pipeAt i).alloc = false → (one.pipeAt j).alloc = false → i = j) := by decide +kernel
theorem witness_CtrlopenAgain : pairOpen.mode = .HOST ∧ pairOpen.port.arg0.toNat < 128 ∧
    pairOpen.host.hcCtlOut = some 0 ∧ pairOpen.host.hcCtlIn = some 1 ∧ pairOpen.host.verdict ≠ .BUSY ∧
    (pairOpen.hcAt 0).chEna = false ∧ (pairOpen.hcAt 1).chEna = false ∧ requested.host.verdict = .BUSY ∧
    requested.host.hcCtlOut = some 0 ∧ requested.host.hcCtlIn = some 1 ∧
    ((pairOpen.enableChannel 1).host.verdict ≠ .BUSY ∧ ((pairOpen.enableChannel 1).hcAt 1).chEna = true) := by
  decide +kernel

/-- A data buffer that ends with the address space, and one that passes it. -/
def sub (buf : Word) (s : State) : State := args s 0 buf 0x01000680 0x00080000
theorem witness_CtrlsubmitResult : memWf (sub 0xFFFFFFF8 pairOpen).mem = true ∧
    (sub 0xFFFFFFF8 pairOpen).mode = .HOST ∧ (sub 0xFFFFFFF8 pairOpen).host.hcCtlOut = some 0 ∧
    (sub 0xFFFFFFF8 pairOpen).host.hcCtlIn = some 1 ∧ (sub 0xFFFFFFF8 pairOpen).host.verdict ≠ .BUSY ∧
    (sub 0xFFFFFFF8 pairOpen).port.arg1.toNat +
      ((sub 0xFFFFFFF8 pairOpen).port.arg3.extractLsb' 16 16).toNat ≤ 2 ^ 32 ∧
    2 ^ 32 < (sub 0xFFFFFFF9 pairOpen).port.arg1.toNat +
      ((sub 0xFFFFFFF9 pairOpen).port.arg3.extractLsb' 16 16).toNat ∧
    requested.host.verdict = .BUSY ∧ memWf requested.mem = true ∧ hostStart.host.hcCtlOut = none := by decide +kernel

/-- The request outstanding, about to issue phase `ph`. -/
def issuing (ph : CtrlState) : State := { requested with host.ctrlState := ph }
theorem witness_CtrlpollIssues :
    (∀ p ∈ [(CtrlState.SETUP, (0 : Ch), Dir.OUT, 8, requested.scratch),
        (.DATA_IN, 1, .IN, requested.host.ctrlLen.toNat, requested.host.ctrlBuf),
        (.DATA_OUT, 0, .OUT, requested.host.ctrlLen.toNat, requested.host.ctrlBuf),
        (.STATUS_IN, 1, .IN, 0, requested.host.ctrlBuf), (.STATUS_OUT, 0, .OUT, 0, requested.host.ctrlBuf)],
      (issuing p.1).mode = .HOST ∧ (issuing p.1).host.hcCtlOut = some 0 ∧ (issuing p.1).host.hcCtlIn = some 1 ∧
      (issuing p.1).host.verdict = .BUSY ∧ (issuing p.1).host.ctrlWait = false ∧
      (issuing p.1).host.ctrlState = p.1 ∧ (issuing p.1).host.ctrlMps ≠ 0 ∧
      ((issuing p.1).hcAt p.2.1).mps = (issuing p.1).host.ctrlMps ∧ ((issuing p.1).hcAt p.2.1).dir = p.2.2.1 ∧
      ((issuing p.1).hcAt p.2.1).epType = .CONTROL ∧
      p.2.2.2.2.toNat + (clampPackets p.2.2.2.1 (issuing p.1).host.ctrlMps.toNat).2 ≤ 2 ^ 32 ∧
      ((issuing p.1).hcAt p.2.1).chEna = false) ∧
    (((issuing .SETUP).enableChannel 0).hcAt 0).chEna = true := by decide +kernel
theorem witness_CtrlpollRows :
    (∀ u ∈ [UrbStatus.OK, .ERROR, .STALL, .NOREADY, .IDLE, .PING],
      ∀ p ∈ [(CtrlState.SETUP, (0 : Ch)), (.DATA_OUT, 0), (.STATUS_OUT, 0), (.DATA_IN, 1), (.STATUS_IN, 1)],
      (waiting p.1 p.2 u).mode = .HOST ∧ (waiting p.1 p.2 u).host.hcCtlOut = some 0 ∧
      (waiting p.1 p.2 u).host.hcCtlIn = some 1 ∧ (waiting p.1 p.2 u).host.verdict = .BUSY ∧
      (waiting p.1 p.2 u).host.ctrlWait = true ∧ (waiting p.1 p.2 u).host.ctrlState = p.1 ∧
      ((waiting p.1 p.2 u).pipeAt p.2).buf.urbStatus = u ∧ (waiting p.1 p.2 u).host.errCnt.toNat < 2) ∧
    2 ≤ ({ waiting .SETUP 0 .ERROR with host.errCnt := 2 } : State).host.errCnt.toNat ∧
    pairOpen.host.verdict ≠ .BUSY := by decide +kernel
theorem witness_CtrlreqResult : (sub 0xFFFFFFF8 pairOpen).host.hcCtlOut = some 0 ∧
    (sub 0xFFFFFFF8 pairOpen).host.hcCtlIn = some 1 ∧ (sub 0xFFFFFFF8 pairOpen).host.xferState ≠ .WAITING ∧
    (sub 0xFFFFFFF8 pairOpen).host.verdict ≠ .BUSY ∧
    (sub 0xFFFFFFF8 pairOpen).port.arg1.toNat +
      ((sub 0xFFFFFFF8 pairOpen).port.arg3.extractLsb' 16 16).toNat ≤ 2 ^ 32 ∧
    (requested.host.xferState ≠ .WAITING ∧ requested.host.verdict = .BUSY) ∧
    ({ requested with host.xferState := .WAITING } : State).host.xferState = .WAITING := by decide +kernel

theorem witness_DataStageCommands : devReady.mode = .DEVICE ∧ (devReady.epAt .IN 0).active = true ∧
    (devReady.epAt .IN 0).epEna = false ∧ (devReady.epAt .OUT 0).active = true ∧ (devReady.epAt .OUT 0).epEna = false ∧
    (args devReady 1 0xFFFFFFFF).port.arg1.toNat + (args devReady 1 0xFFFFFFFF).port.arg0.toNat ≤ 2 ^ 32 ∧
    (devStart.epAt .IN 0).active = false ∧ (devStart.epAt .OUT 0).active = false ∧
    (((devReady.armZero .IN).epAt .IN 0).active = true ∧ ((devReady.armZero .IN).epAt .IN 0).epEna = true) ∧
    (((devReady.armZero .OUT).epAt .OUT 0).active = true ∧ ((devReady.armZero .OUT).epAt .OUT 0).epEna = true) ∧
    2 ^ 32 < (args devReady 2 0xFFFFFFFF).port.arg1.toNat + (args devReady 2 0xFFFFFFFF).port.arg0.toNat := by
  decide +kernel

/-- The eight bytes of a setup packet in the scratch region of a device that is ready. -/
def req (l : List Byte) (s : State := devReady) : State := bytes 0x0F00 l s
theorem witness_StatusReplies :
    (req [0x82, 0, 0, 0, 0x87, 0, 2, 0]).reqIndex.extractLsb' 0 4 = .ofNat 4 (7 : EpIx) := by decide +kernel
theorem witness_FeatureRequests : (req [0, 3, 1, 0, 0, 0, 0, 0]).reqValue = 1 ∧
    (let s := req [2, 1, 0, 0, 0x87, 0, 0, 0]
     s.reqValue = 0 ∧ s.dev.curConfiguration = 0 ∧ s.reqIndex.extractLsb' 0 4 = .ofNat 4 (7 : EpIx) ∧
      Dir.IN = (if s.reqIndex.getLsbD 7 then .IN else .OUT) ∧ (7 : EpIx) ≠ 0 ∧ s.reqValue ≠ 1) ∧
    (let s := req [2, 1, 0, 0, 0, 0, 0, 0]
     s.reqIndex.extractLsb' 0 4 = .ofNat 4 (0 : EpIx) ∧ Dir.OUT = if s.reqIndex.getLsbD 7 then .IN else .OUT) ∧
    (req [2, 1, 0, 0, 0x81, 0, 0, 0] { devReady with dev.curConfiguration := 1 }).dev.curConfiguration ≠ 0 ∧
    8 ≤ ((req [2, 1, 0, 0, 0x88, 0, 0, 0]).reqIndex.extractLsb' 0 4).toNat ∧
    (req [2, 1, 1, 0, 0x81, 0, 0, 0]).reqValue ≠ 0 := by decide +kernel
theorem witness_AddressAndInterface :
    (let s := req [0, 5, 0x7F, 0, 0, 0, 0, 0]
     s.dev.devState ≠ .CONFIGURED ∧ s.reqValue.toNat ≤ 127) ∧
    127 < (req [0, 5, 0x80, 0, 0, 0, 0, 0]).reqValue.toNat ∧
    ({ devReady with dev.devState := .CONFIGURED } : State).dev.devState = .CONFIGURED := by decide +kernel

/-- One string descriptor and a qualifier. -/
def described : State :=
  { devReady with env.par.tblStrings := [⟨0x3100, 4⟩], env.par.tblQualifier := ⟨0x3200, 10⟩ }
theorem witness_GetDescriptorReply :
    (∀ p ∈ [([0x80, 6, 0, 1, 0, 0, 8, 0], 1, 0, described.env.par.tblDevice),
        ([0x80, 6, 0, 2, 0, 0, 8, 0], 2, 0, described.env.par.tblConfiguration),
        ([0x80, 6, 0, 3, 0, 0, 8, 0], 3, 0, ⟨0x3100, 4⟩), ([0x80, 6, 0, 6, 0, 0, 8, 0], 6, 0, ⟨0x3200, 10⟩)],
      let s := req p.1 described
      (s.reqValue.extractLsb' 8 8).toNat = p.2.1 ∧ (s.reqValue.extractLsb' 0 8).toNat = p.2.2.1 ∧
      (p.2.1 = 1 ∧ p.2.2.2 = s.env.par.tblDevice ∨ p.2.1 = 2 ∧ p.2.2.2 = s.env.par.tblConfiguration ∨
        p.2.1 = 3 ∧ s.env.par.tblStrings[p.2.2.1]? = some p.2.2.2 ∨
        p.2.1 = 6 ∧ p.2.2.2 = s.env.par.tblQualifier ∧ p.2.2.2.len ≠ 0)) ∧
    (let s := req [0x80, 6, 0, 5, 0, 0, 7, 0] described
     (s.reqValue.extractLsb' 8 8).toNat = 5) ∧
    (let s := req [0x80, 6, 1, 3, 0, 0, 7, 0] described
     (s.reqValue.extractLsb' 8 8).toNat = 3 ∧ s.env.par.tblStrings.length ≤ (s.reqValue.extractLsb' 0 8).toNat) ∧
    devReady.env.par.tblQualifier.len = 0 := by decide +kernel
theorem witness_SetConfigurationRequest :
    (∀ d ∈ [DevState.DEFAULT, .ADDRESS, .CONFIGURED], ∀ v ∈ [(0 : Byte), 1, 2],
      let s := req [0, 9, v, 0, 0, 0, 0, 0] { devReady with dev.devState := d, dev.curConfiguration := 1 }
      v = s.reqValue.extractLsb' 0 8 ∧ s.dev.devState = d ∧ s.dev.curConfiguration = 1) := by decide +kernel
theorem witness_HookRequests :
    ({ devReady with env.par.setDescriptorHook := true } : State).env.par.setDescriptorHook = true ∧
    devReady.env.par.setDescriptorHook = false := by decide +kernel
theorem witness_StalledRequests : (3 : BitVec 5) ≠ 0 ∧ (3 : BitVec 5) ≠ 1 ∧ (3 : BitVec 5) ≠ 2 ∧
    8 ≤ ((req [0x82, 0, 0, 0, 0x88, 0, 2, 0]).reqIndex.extractLsb' 0 4).toNat := by decide +kernel

/-- A state of the enumeration with a port enabled. -/
def enum (e : EnumState) (s : State) : State := { s with host.enumState := e, host.portEnabled := true }
theorem witness_EnumpollIdle : hostStart.mode = .HOST ∧ hostStart.host.enumState = .IDLE ∧
    hostStart.host.portEnabled = false ∧ (enum .CONFIGURED hostStart).host.enumState = .CONFIGURED ∧
    ((enum .GET_SER_STR hostStart).host.enumState = .GET_SER_STR ∧
      (enum .GET_SER_STR hostStart).byte ((enum .GET_SER_STR hostStart).devDesc + 16) = 0) ∧
    (∀ p ∈ [(requested, 0xFFFFFFFF), (allUsed hostStart, 0xFF), (hostStart, 0x100)],
      (enum .IDLE p.1).host.portEnabled = true ∧
      next (exec (.ctrlopen 8) { enum .IDLE p.1 with port.arg0 := 0 }) (fun t => t.port.res == p.2) = true) := by
  decide +kernel

/-- The pair open in enumeration state `e`, with 257 as wTotalLength and string indexes 1, 2, 3. -/
def enumReq (e : EnumState) (s : State := pairOpen) : State :=
  enum e (bytes 0x8022 [1, 1, 0, 1] (bytes 0x800E [1, 2, 3] s))
theorem witness_EnumpollRequests :
    (∀ p ∈ [(EnumState.GET_DEV_DESC8, 0x01000680#32, 0x00080000#32, 0x8000#32), (.SET_ADDR, 0x00010500, 0, 0x8000),
        (.GET_DEV_DESC, 0x01000680, 0x00120000, 0x8000), (.GET_CFG_DESC9, 0x02000680, 0x00090000, 0x8020),
        (.GET_CFG_DESC, 0x02000680, BitVec.ofNat 32 (65536 * min 257 256), 0x8020),
        (.GET_MFC_STR, 0x03000680 ||| (1 : Byte).setWidth 32 <<< 16, 0x00FF0409, 0x8120),
        (.GET_PROD_STR, 0x03000680 ||| (2 : Byte).setWidth 32 <<< 16, 0x00FF0409, 0x8220),
        (.GET_SER_STR, 0x03000680 ||| (3 : Byte).setWidth 32 <<< 16, 0x00FF0409, 0x8320),
        (.SET_CFG, 0x00000900 ||| (1 : Byte).setWidth 32 <<< 16, 0, 0x8000)],
      let s := enumReq p.1
      s.mode = .HOST ∧ s.host.enumState = p.1 ∧ (s.half (s.cfgDesc + 2)).toNat = 257 ∧ s.byte (s.cfgDesc + 5) = 1 ∧
      s.byte (s.devDesc + 14) = 1 ∧ s.byte (s.devDesc + 15) = 2 ∧ s.byte (s.devDesc + 16) = 3 ∧
      s.devDesc = 0x8000 ∧ s.cfgDesc = 0x8020 ∧ s.strDesc 0 = 0x8120 ∧ s.strDesc 1 = 0x8220 ∧
      s.strDesc 2 = 0x8320 ∧
      next (exec .ctrlreq { s with port := { s.port with arg1 := p.2.2.2, arg2 := p.2.1, arg3 := p.2.2.1 } })
        (fun t => t.port.res == 0) = true) ∧
    next (exec .ctrlreq (enumReq .GET_DEV_DESC hostStart)) (fun t => t.port.res == 0xFFFFFFFF) = true ∧
    (∀ e ∈ [EnumState.GET_DEV_DESC, .GET_CFG_DESC9, .GET_MFC_STR, .GET_PROD_STR, .GET_SER_STR, .SET_CFG],
      next (exec .ctrlreq (enumReq e { waiting .STATUS_OUT 0 .OK with host.xferState := .WAITING })) (fun t =>
        t.port.res == 7) = true) := by decide +kernel

/-- The last poll of a request in enumeration state `e`. -/
def lastPoll (e : EnumState) (size : Byte) : State :=
  enum e (bytes 0x8007 [size] { waiting .STATUS_OUT 0 .OK with host.xferState := .WAITING })
theorem witness_EnumpollCompletes :
    (∀ e ∈ [EnumState.GET_DEV_DESC8, .SET_ADDR, .GET_CFG_DESC], ∀ size ∈ [(0 : Byte), 64],
      let s := lastPoll e size
      s.mode = .HOST ∧ s.host.xferState = .WAITING ∧ s.host.enumState = e ∧ s.byte (s.devDesc + 7) = size ∧
      s.env.fgStuck = false ∧ 0 = min (s.half (s.cfgDesc + 2)).toNat 256 ∧ s.cfgDesc.toNat + 0 ≤ 2 ^ 32 ∧
      next (exec .ctrlpoll s) (fun t => t.port.res == 7 &&
        next (exec (.ctrlopen 64) { t with port.arg0 := 0 }) (fun u => u.port.res == 0x100) &&
        next (exec (.ctrlopen s.host.ctrlMps) { t with port.arg0 := 1 }) (fun u => u.port.res == 0x100) &&
        next (exec .cfgparse { t with port := { t.port with arg0 := BitVec.ofNat 32 0, arg1 := s.cfgDesc } }) (fun u =>
          !u.env.fgStuck)) = true) ∧
    (let s := { lastPoll .GET_CFG_DESC 0 with env.par.enumBase := 0xFFFFFFDA }
     let s := s.setHalf (s.cfgDesc + 2) 7
     s.mode = .HOST ∧ s.host.xferState = .WAITING ∧ s.host.enumState = .GET_CFG_DESC ∧
      2 ^ 32 < s.cfgDesc.toNat + min (s.half (s.cfgDesc + 2)).toNat 256 ∧
      next (exec .ctrlpoll s) (fun t => t.port.res == 7) = true) := by decide +kernel

def cfgState (l : List Byte) (len : Word) : State := args (bytes 0x4000 l hostStart) len 0x4000
def cfgByte (l : List Byte) (k : Nat) : Byte := (cfgState l 0).byte (0x4000 + BitVec.ofNat 32 k)
/-- Two slots, the second left over from a parse before: one interface kept, and a walk that meets a length of 0. -/
theorem witness_CfgparseResult : (cfgState cfg39 39).mode = .HOST ∧
    (cfgState cfg39 39).port.arg1.toNat + (cfgState cfg39 39).port.arg0.toNat ≤ 2 ^ 32 ∧
    (∀ k, cfgByte cfg39 k = (cfgState cfg39 39).byte ((cfgState cfg39 39).port.arg1 + BitVec.ofNat 32 k)) ∧
    (cfgState cfg39 3).port.arg0.toNat < 4 ∧ 4 ≤ (cfgState cfg39 4).port.arg0.toNat ∧
    descriptorWalk (cfgByte cfg39) (min (256 * (cfgByte cfg39 3).toNat + (cfgByte cfg39 2).toNat) 39) =
      ([0, 9, 18, 25, 32], false) ∧
    (keptInterfaces (cfgByte cfg39) [0, 9, 18, 25, 32])[0]? = some 9 ∧
    keptEndpoints (cfgByte cfg39) [0, 9, 18, 25, 32] 9 = [18, 25] ∧
    (keptInterfaces (cfgByte cfg39) [0, 9, 18, 25, 32])[1]? = none ∧
    descriptorWalk (cfgByte (cfg25.set 18 0)) (min 25 25) = ([0, 9], true) ∧
    (keptInterfaces (cfgByte (cfg25.set 18 0)) [0, 9])[0]? = some 9 ∧
    keptEndpoints (cfgByte (cfg25.set 18 0)) [0, 9] 9 = [] :=
  ⟨by decide +kernel, by decide +kernel, fun _ => rfl, by decide +kernel⟩

/-- A packet of exactly the length that remains, and one byte more; then a status word of no data. -/
def rxHost (len : BitVec 32) (q : List Word) : State := inChan len 0 2 0x2000 q
theorem witness_HostReceive : memWf (rxHost 8 []).mem = true ∧ (rxHost 8 []).mode = .HOST ∧
    (rxHost 8 [0x00048081, 1, 2]).fifo.rxq = [0x00048081, 1, 2] ∧ (0x00048081#32).extractLsb' 17 4 = 2 ∧
    (0x00048081#32).extractLsb' 0 4 = .ofNat 4 (1 : Ch) ∧ ((0x00048081#32).extractLsb' 4 11).toNat = 8 ∧
    8 ≤ ((rxHost 8 []).pipeAt 1).buf.bufLen.toNat ∧ wordsOf 8 ≤ [1, 2].length ∧
    (0x00060001#32).extractLsb' 17 4 ≠ 2 := by decide +kernel
theorem witness_DeviceReceive :
    (let s := devReady.setEpb .OUT 1 { XferBuf.zero with bufPtr := 0x3200, bufLen := 7, pktCnt := 1 }
     memWf s.mem = true ∧ s.mode = .DEVICE ∧ 7 ≤ (s.epbAt .OUT 1).bufLen.toNat) ∧
    (0x00040071#32).extractLsb' 17 4 = 2 ∧ (0x00040071#32).extractLsb' 0 4 = .ofNat 4 (1 : EpIx) ∧
    ((0x00040071#32).extractLsb' 4 11).toNat = 7 ∧ wordsOf 7 ≤ [1, 2].length ∧
    (0x000C0080#32).extractLsb' 17 4 = 6 ∧ (0x000C0080#32).extractLsb' 4 11 = 8 ∧ 2 ≤ [1, 2].length ∧
    (0x00060001#32).extractLsb' 17 4 ≠ 2 ∧ (0x00060001#32).extractLsb' 17 4 ≠ 6 := by decide +kernel
theorem witness_ReceiveFaults :
    (memWf (rxHost 8 [0x0004000C]).mem = true ∧ (rxHost 8 [0x0004000C]).fifo.rxq = [0x0004000C] ∧
      (rxHost 8 []).mode = .HOST ∧ devReady.mode = .DEVICE ∧ memWf devReady.mem = true) ∧
    ((0x0004000C#32).extractLsb' 17 4 = 2 ∧ 11 < ((0x0004000C#32).extractLsb' 0 4).toNat) ∧
    ((0x00040008#32).extractLsb' 17 4 = 2 ∧ 7 < ((0x00040008#32).extractLsb' 0 4).toNat) ∧
    ((0x000C0040#32).extractLsb' 17 4 = 6 ∧ (0x000C0040#32).extractLsb' 4 11 ≠ 8) ∧
    ((0x00048081#32).extractLsb' 0 4 = .ofNat 4 (1 : Ch) ∧ (0x00048081#32).extractLsb' 17 4 = 2 ∧
      ((rxHost 7 []).pipeAt 1).buf.bufLen.toNat < ((0x00048081#32).extractLsb' 4 11).toNat ∧
      ((0x00048081#32).extractLsb' 4 11).toNat ≤ ((rxHost 8 []).pipeAt 1).buf.bufLen.toNat ∧
      ((rxHost 8 []).pipeAt 1).buf.bufPtr = 0x2000 ∧
      [(1 : Word)].length < wordsOf ((0x00048081#32).extractLsb' 4 11).toNat) ∧
    ((0x00040071#32).extractLsb' 0 4 = .ofNat 4 (1 : EpIx) ∧ (0x00040071#32).extractLsb' 17 4 = 2 ∧
      (devReady.epbAt .OUT 1).bufLen.toNat < ((0x00040071#32).extractLsb' 4 11).toNat ∧
      ((0x00040071#32).extractLsb' 4 11).toNat ≤ (XferBuf.mk 0x3200 7 0 1 false .IDLE .OK).bufLen.toNat ∧
      [(1 : Word)].length < wordsOf ((0x00040071#32).extractLsb' 4 11).toNat) ∧
    ((0x000C0080#32).extractLsb' 17 4 = 6 ∧ (0x000C0080#32).extractLsb' 4 11 = 8 ∧
      [(1 : Word)].length < wordsOf ((0x000C0080#32).extractLsb' 4 11).toNat) := by decide +kernel

/-- Channel 2 ACTIVE and OUT with 66 bytes left in packets of 64, and `n` words of room. -/
def pend (n : Nat) : State :=
  { ((out130 n).setHc 2 (chan .BULK .OUT 64 true false)).setPipe 2
      ⟨true, .OUT, 64, .BULK, ⟨0x1040, 66, 64, 3, false, .IDLE, .OK⟩⟩ with gintmsk := 0x01B }
def waits (s : State) (k : TxClass) (c : Ch) : Bool := s.classOf c = k ∧ (s.hcAt c).dir = .OUT ∧
  (s.hcAt c).chEna = true ∧ (s.hcAt c).chDis = false ∧ (s.pipeAt c).buf.bufLen ≠ 0
theorem witness_TxfeDrain : (pend 18).mode = .HOST ∧ (∀ c, waits (pend 18) .P c = false) ∧
    waits (pend 18) .NP 2 = true ∧ (∀ j < (2 : Ch), waits (pend 18) .NP j = false) ∧
    (pend 17).txSpace .NP ≤ wordsOf ((pend 17).pipeAt 2).buf.bufLen.toNat ∧
    wordsOf ((pend 18).pipeAt 2).buf.bufLen.toNat < (pend 18).txSpace .NP ∧ ((pend 18).hcAt 2).mps ≠ 0 ∧
    ((pend 18).hcAt 2).mps.toNat % 4 = 0 ∧ (∀ j, j ≠ 2 → waits (pend 18) .NP j = false) ∧
    (let s := ((pend 18).setHc 3 ((pend 18).hcAt 2)).setPipe 3 ((pend 18).pipeAt 2)
     waits s .NP 2 = true ∧ waits s .NP 3 = true) := by decide +kernel
/-- Endpoint 1 IN armed with 66 bytes left in packets of 64, and `n` words of room. -/
def epPend (n : Nat) : State :=
  { ((devReady.activateEp 1 .BULK 64 .IN).setEp .IN 1
      { (devReady.activateEp 1 .BULK 64 .IN).epAt .IN 1 with epEna := true, mAux := true }).setEpb .IN 1
      { XferBuf.zero with bufPtr := 0x1040, bufLen := 66 } with env.par.dTxWords := n }
theorem witness_EndpointTxfeDrain : (epPend 18).mode = .DEVICE ∧ ((epPend 18).epAt .IN 2).epEna = false ∧
    ((epPend 18).epAt .IN 1).epEna = true ∧ ((epPend 18).epbAt .IN 1).bufLen ≠ 0 ∧
    (epPend 17).txSpace (.EP (Tgt.ep .IN 1).num) ≤ wordsOf ((epPend 17).epbAt .IN 1).bufLen.toNat ∧
    wordsOf ((epPend 18).epbAt .IN 1).bufLen.toNat < (epPend 18).txSpace (.EP (Tgt.ep .IN 1).num) ∧
    (epPend 18).epMps .IN 1 ≠ 0 ∧ ((epPend 18).epMps .IN 1).toNat % 4 = 0 := by decide +kernel

def flagged : State := { hostStart.setHc 2 (chan .BULK .OUT 64 true false 0x009) with haintmsk := 0x004 }
/-- The first flag in the priority list that channel `i` of `s` has pending. -/
def firstOf (s : State) (i : Ch) : Option ChFlag :=
  [ChFlag.AHBERR, .ACK, .STALL, .DTERR, .FRMOR, .XFRC, .CHH, .XACTERR, .NAK, .BBLERR, .NYET].find? fun g =>
    ((s.hcAt i).int &&& (s.hcAt i).intMsk).getLsbD g.bit
/-- Channel 2 serves STALL, which sets the flush bit of its full queue; channel 0 is disabled, channel 3 has no flag. -/
theorem witness_HcintServesOneFlag : flagged.haintmsk.getLsbD 0 = false ∧ flagged.haintmsk.getLsbD 2 = true ∧
    firstOf flagged 2 = some .STALL ∧ (flagged.hcAt 3).int &&& (flagged.hcAt 3).intMsk = 0 ∧
    ((({ flagged with fifo.qSlotsNP := 0 } : State).setHc 2 { flagged.hcAt 2 with
      int := (flagged.hcAt 2).int &&& ~~~BitVec.twoPow 11 3 }).serveChFlag 2 .STALL).fifo.qFlushNP = true := by
  decide +kernel
/-- The freed record of a control channel has packet size 0. -/
theorem witness_ChannelFlags :
    (∀ type ∈ [EpType.CONTROL, .BULK, .INTERRUPT, .ISOCHRONOUS],
      ((hostStart.setHc 2 (chan type .OUT 64 true false)).hcAt 2).epType = type) ∧
    (∀ x ∈ [PipeState.OK, .HALTED, .NAK, .NYET, .STALL, .XACTERR, .BBLERR, .DATATGLERR],
      (((pend 18).setPipeState 2 x).pipeAt 2).buf.pipeState = x ∧ (((pend 18).setPipeState 2 x).pipeAt 2).mps ≠ 0) ∧
    ((hostStart.setPipe 2 .zero).pipeAt 2).mps = 0 ∧ ((hostStart.setPipe 2 .zero).pipeAt 2).epType = .CONTROL ∧
    ((hostStart.setPipe 2 .zero).pipeAt 2).buf.pipeState = .OK := by
  decide +kernel
theorem witness_PortAndDetach : ∀ det ∈ [false, true], ∀ chng ∈ [false, true], ∀ ena ∈ [false, true],
    let s := { hostStart with hprt := ⟨true, det, ena, chng, false, .FULL⟩ }
    s.hprt.pcdet = det ∧ s.hprt.penchng = chng ∧ s.hprt.pena = ena := by decide +kernel
theorem witness_Ep0Stages :
    (∀ c ∈ [CtrlState.SETUP, .DATA_IN, .DATA_OUT, .STATUS_IN, .STATUS_OUT, .STALL], ∀ z ∈ [false, true],
      let s := { devReady with dev.ctrlState := c, dev.zlpPending := z, env.ackAnswers := [true] }
      s.dev.ctrlState = c ∧ s.dev.zlpPending = z ∧ s.env.ackAnswers = true :: [] ∧ 0 = s.env.draws) ∧
    devReady.env.ackAnswers = [] ∧
    (devReady.dep.daintmskOut.getLsbD 0 = true ∧ devReady.dep.daintmskOut.getLsbD 7 = false ∧
      devReady.dep.daintmskIn.getLsbD 0 = true ∧ devReady.dep.daintmskIn.getLsbD 7 = false) ∧
    (∃ s2, dataOutStage (devReady.setEp .OUT 0 { devReady.epAt .OUT 0 with xfrc := false }) = .ok () s2) ∧
    ∃ s2, dataInStage (devReady.setEp .IN 0 { devReady.epAt .IN 0 with xfrc := false }) = .ok () s2 :=
  ⟨by decide +kernel, by decide +kernel, by decide +kernel, ⟨_, rfl⟩, _, rfl⟩
theorem witness_PassOrder : State.reset.irq = false ∧
    (let s := { hostStart with fifo.rxq := [0x00060001] }
     s.irq = true ∧ s.fifo.rxq ≠ [] ∧ s.gintmsk.getLsbD 0 = true ∧ s.mode = .HOST) ∧
    (let s := { devReady with fifo.rxq := [0x00060001] }
     s.irq = true ∧ s.mode = .DEVICE) := by decide +kernel

/-- A state of the invariant other than reset, with a step to take. -/
theorem witness_InvariantOfStep : (hostStart.scheduleCommand 0x30000000).Inv ∧
    next (step (hostStart.scheduleCommand 0x30000000)) (fun t => (t.pipeAt 0).alloc) = true where
  left :=
    { mem := by decide +kernel, pair := by decide +kernel, phase := by decide +kernel, retries := by decide +kernel
      pulse := by decide +kernel, slots := by decide +kernel, rxRoom := by decide +kernel
      ep0Code := fun d => by cases d <;> decide +kernel, configured := by decide +kernel
      addressed := by decide +kernel, halting := by decide +kernel, packets := by decide +kernel
      epPackets := fun d => by cases d <;> decide +kernel, epStatus := fun d => by cases d <;> decide +kernel
      parsed := by decide +kernel }
  right := by decide +kernel
theorem witness_FaultLatchSticky : next (step { devReady with
      fault.txOverflow := true, env.sched := [.regRead 0x00C] }) (fun t => t.fault.txOverflow && t.fault.rxUnderflow) =
    true := by decide +kernel
theorem witness_CommandPortWriters : next (runIrq (rxHost 8 [0x00060001])) (fun t => t.fifo.rxq == []) = true ∧
    next (runBus .connect hostStart) (fun t => t.hprt.pcdet) = true ∧
    next (runCommand 0x02000000 hostStart) (fun t => t.port.cmd == 0x02000000) = true ∧
    next (step (hostStart.scheduleCommand 0x02000000)) (fun t => t.env.par == hostStart.env.par) = true := by
  decide +kernel
theorem witness_RegisterWords : hostStart.env.fgStuck = false ∧ (rxHost 8 [1]).fifo.rxq = [1] ∧
    hostStart.fifo.rxq = [] ∧ hostStart.txSpace (hostStart.classOf 11) ≠ 0 ∧
    ({ hostStart with env.par.npTxWords := 0 } : State).txSpace .NP = 0 ∧
    ({ hostStart with env.par.npTxWords := 0 } : State).classOf 2 = .NP := by decide +kernel

end Sys2Proof.Tests
end

section
/-! What no step of any agent gives up: the clauses of the invariant component by component, the parameters and the fault
latch (`StepKept`); what a computation run by a handler or a command keeps besides, the command port and the record of
the sources served (`RunKept`); and one rule per update of the state. -/

namespace Sys2Proof.Machine

/-! ## The invariant, by component -/

/-- A channel register set: a halt request only on an enabled channel (R32), a packet count in range (R159). -/
def HostChannel.Sane (c : HostChannel) : Prop := (c.chDis = true → c.chEna = true) ∧ c.pktCnt.toNat ≤ 256

/-- A pipe's bookkeeping: the packet count in range (R159). -/
def XferBuf.Bounded (b : XferBuf) : Prop := b.pktCnt.toNat ≤ 256

/-- An endpoint's bookkeeping: a pipe's, with the three fields that keep their reset value (R37). -/
def XferBuf.EpSane (b : XferBuf) : Prop :=
  b.pktCnt.toNat ≤ 256 ∧ b.toggle = false ∧ b.urbStatus = .IDLE ∧ b.pipeState = .OK

/-- The registers of endpoint `n`: the size code of endpoint 0 (R119), a packet count in range (R159). -/
def DevEp.Sane (n : EpIx) (e : DevEp) : Prop := (n = 0 → e.mps.toNat < 4) ∧ e.pktCnt.toNat ≤ 256

/-- The host session: the pair, the phase, the retries and the parsed slots (R39, R190, R199, R285). -/
def HostSess.Sane (h : HostSess) : Prop :=
  h.hcCtlOut.isSome = h.hcCtlIn.isSome ∧ isPhase h.ctrlState = true ∧ h.errCnt.toNat ≤ Config.ctrlRetry ∧
    h.itfCount.toNat ≤ Config.maxItf ∧ ∀ j : Fin 2, h.itf[j].epCount.toNat ≤ Config.maxEp

/-- The device session: configuration and address go with the device state (R227, R231, R350). -/
def DevSess.Sane (d : DevSess) : Prop :=
  (d.devState = .CONFIGURED ↔ d.curConfiguration ≠ 0) ∧ (d.devState = .DEFAULT ↔ d.addr = 0)

/-- The queues: free slots and RxFIFO words in range (R26, R27). -/
def Fifos.Sane (p : Params) (f : Fifos) : Prop :=
  f.qSlotsNP ≤ p.qDepth ∧ f.qSlotsP ≤ p.qDepth ∧ f.rxq.length ≤ p.rxFifoWords

/-- The invariant says these things of the components and nothing else. -/
theorem State.inv_iff (s : State) : s.Inv ↔
    memWf s.mem = true ∧ s.hprt.prst = false ∧ s.fifo.Sane s.env.par ∧ s.host.Sane ∧ s.dev.Sane ∧
    (∀ i, (s.hcAt i).Sane) ∧ (∀ i, (s.pipeAt i).buf.Bounded) ∧ (∀ d n, (s.epAt d n).Sane n) ∧
    ∀ d n, (s.epbAt d n).EpSane := by
  constructor
  · intro h
    exact ⟨h.mem, h.pulse, ⟨h.slots.1, h.slots.2, h.rxRoom⟩, ⟨h.pair, h.phase, h.retries, h.parsed⟩,
      ⟨h.configured, h.addressed⟩, fun i => ⟨h.halting i, (h.packets i).1⟩, fun i => (h.packets i).2,
      fun d n => ⟨fun hn => hn ▸ h.ep0Code d, (h.epPackets d n).1⟩, fun d n => ⟨(h.epPackets d n).2, h.epStatus d n⟩⟩
  · rintro ⟨hmem, hpulse, ⟨hnp, hp, hrx⟩, ⟨hpair, hphase, hretries, hparsed⟩, ⟨hcfg, haddr⟩, hhc, hpipe, hep, hepb⟩
    exact
      { mem := hmem, pulse := hpulse, slots := ⟨hnp, hp⟩, rxRoom := hrx, pair := hpair, phase := hphase
        retries := hretries, parsed := hparsed, configured := hcfg, addressed := haddr
        halting := fun i => (hhc i).1, packets := fun i => ⟨(hhc i).2, hpipe i⟩
        ep0Code := fun d => (hep d 0).1 rfl, epPackets := fun d n => ⟨(hep d n).2, (hepb d n).1⟩
        epStatus := fun d n => (hepb d n).2 }

/-! ## The fault latch -/

theorem FaultLatch.within_refl (l : FaultLatch) : l.within l := ⟨id, id, id, id⟩
theorem FaultLatch.within_trans {l m n : FaultLatch} (h : l.within m) (h' : m.within n) : l.within n := by
  obtain ⟨h1, h2, h3, h4⟩ := h
  obtain ⟨k1, k2, k3, k4⟩ := h'
  exact ⟨k1 ∘ h1, k2 ∘ h2, k3 ∘ h3, k4 ∘ h4⟩
theorem FaultLatch.within_record (l : FaultLatch) (f : FaultName) : l.within (l.record f) := by
  cases f <;> simp [FaultLatch.within, FaultLatch.record]

/-! ## What is kept -/

/-- The sources that a history records as served, newest first (R85, R300). -/
def servedSources (l : List LogEntry) : List GFlag :=
  l.filterMap fun
    | .source f => some f
    | _ => none

/-- What every step of every agent keeps. A component that a step does not touch needs no argument. -/
structure StepKept (s t : State) : Prop where
  par : t.env.par = s.env.par := by rfl
  fault : s.fault.within t.fault := by exact FaultLatch.within_refl _
  mem : memWf s.mem = true → memWf t.mem = true := by exact id
  pulse : s.hprt.prst = false → t.hprt.prst = false := by exact id
  fifo : s.fifo.Sane s.env.par → t.fifo.Sane t.env.par := by exact id
  host : s.host.Sane → t.host.Sane := by exact id
  dev : s.dev.Sane → t.dev.Sane := by exact id
  hc : ∀ i, (s.hcAt i).Sane → (t.hcAt i).Sane := by exact fun _ => id
  pipe : ∀ i, (s.pipeAt i).buf.Bounded → (t.pipeAt i).buf.Bounded := by exact fun _ => id
  ep : ∀ d n, (s.epAt d n).Sane n → (t.epAt d n).Sane n := by exact fun _ _ => id
  epb : ∀ d n, (s.epbAt d n).EpSane → (t.epbAt d n).EpSane := by exact fun _ _ => id

/-- What a command keeps besides: the command port, but for RES (R21). -/
structure CommandKept (s t : State) : Prop extends StepKept s t where
  port : t.port = { s.port with res := t.port.res } := by rfl

/-- What an IRQ pass and a BUS move keep besides: the whole command port (R374). -/
structure PortKept (s t : State) : Prop extends StepKept s t where
  port : t.port = s.port := by rfl

/-- What a computation keeps besides: the record of the sources served. -/
structure RunKept (s t : State) : Prop extends PortKept s t where
  sources : servedSources t.env.log = servedSources s.env.log := by rfl

theorem StepKept.refl (s : State) : StepKept s s := {}

theorem StepKept.trans {s t u : State} (h : StepKept s t) (h' : StepKept t u) : StepKept s u where
  par := h'.par.trans h.par
  fault := FaultLatch.within_trans h.fault h'.fault
  mem := h'.mem ∘ h.mem
  pulse := h'.pulse ∘ h.pulse
  fifo := h'.fifo ∘ h.fifo
  host := h'.host ∘ h.host
  dev := h'.dev ∘ h.dev
  hc i := h'.hc i ∘ h.hc i
  pipe i := h'.pipe i ∘ h.pipe i
  ep d n := h'.ep d n ∘ h.ep d n
  epb d n := h'.epb d n ∘ h.epb d n

theorem StepKept.inv {s t : State} (h : StepKept s t) (hs : s.Inv) : t.Inv := by
  rw [State.inv_iff] at hs ⊢
  obtain ⟨hmem, hpulse, hfifo, hhost, hdev, hhc, hpipe, hep, hepb⟩ := hs
  exact ⟨h.mem hmem, h.pulse hpulse, h.fifo hfifo, h.host hhost, h.dev hdev, fun i => h.hc i (hhc i),
    fun i => h.pipe i (hpipe i), fun d n => h.ep d n (hep d n), fun d n => h.epb d n (hepb d n)⟩

theorem CommandKept.refl (s : State) : CommandKept s s := {}
theorem CommandKept.trans {s t u : State} (h : CommandKept s t) (h' : CommandKept t u) : CommandKept s u where
  toStepKept := h.toStepKept.trans h'.toStepKept
  port := by rw [h'.port, h.port]

theorem commandKept_chain : Chain CommandKept := ⟨CommandKept.refl, CommandKept.trans⟩

theorem PortKept.refl (s : State) : PortKept s s := {}
theorem PortKept.trans {s t u : State} (h : PortKept s t) (h' : PortKept t u) : PortKept s u where
  toStepKept := h.toStepKept.trans h'.toStepKept
  port := h'.port.trans h.port
theorem portKept_chain : Chain PortKept := ⟨PortKept.refl, PortKept.trans⟩

namespace RunKept

theorem toCommandKept {s t : State} (h : RunKept s t) : CommandKept s t where
  toStepKept := h.toStepKept
  port := by rw [h.port]

theorem refl (s : State) : RunKept s s := {}

theorem trans {s t u : State} (h : RunKept s t) (h' : RunKept t u) : RunKept s u where
  toPortKept := h.toPortKept.trans h'.toPortKept
  sources := h'.sources.trans h.sources

theorem ite {s t u : State} {c : Prop} [Decidable c] (ht : RunKept s t) (hu : RunKept s u) :
    RunKept s (if c then t else u) := by split <;> assumption

/-! ## One rule per update -/

variable {s : State}

theorem setHc {i : Ch} {c : HostChannel} (h : (s.hcAt i).Sane → c.Sane) : RunKept s (s.setHc i c) where
  hc j hj := by
    rw [State.hcAt_setHc]
    split
    · next e => exact h (e ▸ hj)
    · exact hj

theorem setPipe {i : Ch} {p : Pipe} (h : (s.pipeAt i).buf.Bounded → p.buf.Bounded) : RunKept s (s.setPipe i p) where
  pipe j hj := by
    rw [State.pipeAt_setPipe]
    split
    · next e => exact h (e ▸ hj)
    · exact hj

theorem setEp {d : Dir} {n : EpIx} {e : DevEp} (h : (s.epAt d n).Sane n → e.Sane n) : RunKept s (s.setEp d n e) := by
  have hep : ∀ d' m, (s.epAt d' m).Sane m → ((s.setEp d n e).epAt d' m).Sane m := fun d' m hm => by
    rw [State.epAt_setEp]
    split
    · next he => obtain ⟨rfl, rfl⟩ := he; exact h hm
    · exact hm
  have hepb : ∀ d' m, (s.epbAt d' m).EpSane → ((s.setEp d n e).epbAt d' m).EpSane := fun d' m hm => by
    rw [State.epbAt_setEp]; exact hm
  cases d <;> exact { ep := hep, epb := hepb }

theorem setEpb {d : Dir} {n : EpIx} {b : XferBuf} (h : (s.epbAt d n).EpSane → b.EpSane) :
    RunKept s (s.setEpb d n b) := by
  have hep : ∀ d' m, (s.epAt d' m).Sane m → ((s.setEpb d n b).epAt d' m).Sane m := fun d' m hm => by
    rw [State.epAt_setEpb]; exact hm
  have hepb : ∀ d' m, (s.epbAt d' m).EpSane → ((s.setEpb d n b).epbAt d' m).EpSane := fun d' m hm => by
    rw [State.epbAt_setEpb]
    split
    · next he => obtain ⟨rfl, rfl⟩ := he; exact h hm
    · exact hm
  cases d <;> exact { ep := hep, epb := hepb }

theorem setTxq {num : Ch} {q : List Word} : RunKept s (s.setTxq num q) := {}
theorem setGmask {f : GFlag} {b : Bool} : RunKept s (s.setGmask f b) := {}
theorem setQFlush {p b : Bool} : RunKept s (s.setQFlush p b) := by cases p <;> exact {}
theorem clearLatched {f : GFlag} : RunKept s (s.clearLatched f) := by cases f <;> exact {}

theorem setByte {a : Addr} {b : Byte} : RunKept s (s.setByte a b) where
  mem h := State.wf_setByte h a b
theorem setHalf {a : Addr} {v : BitVec 16} : RunKept s (s.setHalf a v) := setByte.trans setByte
theorem setWord {a : Addr} {w : Word} : RunKept s (s.setWord a w) :=
  ((setByte.trans setByte).trans setByte).trans setByte

/-- Every entry of the history but a source served. -/
theorem logged {e : LogEntry} (h : servedSources [e] = [] := by rfl) : RunKept s (s.logged e) where
  sources := by
    have : servedSources (e :: s.env.log) = servedSources [e] ++ servedSources s.env.log :=
      List.filterMap_append (l := [e])
    rw [State.log_logged, this, h, List.nil_append]

theorem raised {f : FaultName} : RunKept s { s with fault := s.fault.record f } where
  fault := FaultLatch.within_record _ f

/-- A target's bookkeeping, where the count stays in range and the three status fields stay as they are. -/
theorem setBuf {x : Tgt} {b : XferBuf} (hp : (s.bufAt x).pktCnt.toNat ≤ 256 → b.pktCnt.toNat ≤ 256)
    (ht : b.toggle = (s.bufAt x).toggle := by rfl) (hu : b.urbStatus = (s.bufAt x).urbStatus := by rfl)
    (hs : b.pipeState = (s.bufAt x).pipeState := by rfl) : RunKept s (s.setBuf x b) := by
  cases x with
  | ch c => exact setPipe hp
  | ep d n => exact setEpb fun ⟨h, ht', hu', hs'⟩ => ⟨hp h, ht.trans ht', hu.trans hu', hs.trans hs'⟩

end RunKept

theorem runKept_chain : Chain RunKept := ⟨RunKept.refl, RunKept.trans⟩

end Sys2Proof.Machine
end

section
/-! Every computation of the model keeps what `RunKept` says: one lemma per computation, from the lemmas of those it
calls. -/

-- As in the tests: many proofs elaborated at once exhaust the threads of the sandbox.
set_option Elab.async false

namespace Sys2Proof.Machine

/-- Every run of `m` keeps what `RunKept` says, however it ends. -/
abbrev Keeps {α : Type} (m : M α) : Prop := Moves RunKept m

/-! ## The ways of building a computation -/

section Build
variable {α β : Type}

theorem Keeps.bind {m : M α} {f : α → M β} (hm : Keeps m) (hf : ∀ a, Keeps (f a)) : Keeps (m >>= f) :=
  moves_bind runKept_chain hm hf
theorem keeps_pure {a : α} : Keeps (pure a : M α) := moves_pure runKept_chain a
theorem keeps_get : Keeps (get : M State) := moves_get runKept_chain
theorem keeps_look {f : State → α} : Keeps (look f) := moves_look runKept_chain f
theorem keeps_upd {f : State → State} (h : ∀ s, RunKept s (f s)) : Keeps (upd f) := moves_upd h
theorem keeps_refuseIf {c : Prop} [Decidable c] {r : RefuseName} : Keeps (refuseIf c r) :=
  moves_refuseIf runKept_chain c r
theorem keeps_raise {f : FaultName} : Keeps (raise f : M α) := moves_raise (fun _ _ => .raised) f
theorem keeps_raiseIf {c : Prop} [Decidable c] {f : FaultName} : Keeps (raiseIf c f) :=
  moves_raiseIf runKept_chain (fun _ _ => .raised) c f
theorem keeps_stuck : Keeps (stuck : M α) := moves_stuck runKept_chain
theorem keeps_needHost : Keeps needHost := moves_needHost runKept_chain
theorem keeps_needDevice : Keeps needDevice := moves_needDevice runKept_chain
theorem keeps_chOperand {n : BitVec 4} : Keeps (chOperand n) := moves_chOperand runKept_chain n
theorem keeps_epOperand {n : BitVec 4} : Keeps (epOperand n) := moves_epOperand runKept_chain n
theorem Keeps.ite {c : Prop} [Decidable c] {m n : M α} (hm : Keeps m) (hn : Keeps n) :
    Keeps (if c then m else n) := moves_ite hm hn
theorem Keeps.dite {c : Prop} [Decidable c] {m : c → M α} {n : ¬ c → M α} (hm : ∀ h, Keeps (m h))
    (hn : ∀ h, Keeps (n h)) : Keeps (if h : c then m h else n h) := moves_dite hm hn
theorem keeps_forEach {l : List α} {f : α → M Unit} (h : ∀ a, Keeps (f a)) : Keeps (forEach l f) :=
  moves_forEach runKept_chain h
/-- The result of a computation dropped. -/
theorem Keeps.done {m : M α} (hm : Keeps m) : Keeps (do let _ ← m; pure ()) := hm.bind fun _ => keeps_pure
/-- One part of a run at a time, where what follows depends on the state reached. -/
theorem RunKept.of_bind {m : M α} {f : α → M β} {s t : State} {a : α} (hm : m s = .ok a t) (ht : RunKept s t)
    (hf : RunKept t (finalState (f a) t)) : RunKept s (finalState (m >>= f) s) := by
  rw [finalState, bind_ok hm]; exact ht.trans hf
theorem keeps_needPair : Keeps needPair := fun s => by
  have h : finalState needPair s = s := by
    cases ho : s.host.hcCtlOut <;> cases hi : s.host.hcCtlIn <;> simp [needPair, finalState, ho, hi]
  rw [h]; exact .refl s

end Build

/-! ## Memory, events and free values -/

theorem keeps_memRead8 {a : Addr} : Keeps (memRead8 a) := fun _ => .logged
theorem keeps_memRead16 {a : Addr} : Keeps (memRead16 a) := fun _ => .logged
theorem keeps_memRead32 {a : Addr} : Keeps (memRead32 a) := fun _ => .logged
theorem keeps_memWrite8 {a : Addr} {b : Byte} : Keeps (memWrite8 a b) := fun _ => RunKept.setByte.trans .logged
theorem keeps_memWrite16 {a : Addr} {v : BitVec 16} : Keeps (memWrite16 a v) := fun _ =>
  RunKept.setHalf.trans .logged
theorem keeps_memWrite32 {a : Addr} {w : Word} : Keeps (memWrite32 a w) := fun _ =>
  RunKept.setWord.trans .logged
theorem keeps_emit {e : Event} : Keeps (emit e) := fun _ => .logged
theorem keeps_drawPad : Keeps drawPad := fun _ => {}

/-- Taking an answer changes the model's own fields only. -/
theorem keeps_askHook {call : Event} : Keeps (askHook call) := fun s => by
  cases h : s.env.hookAnswers with
  | nil => simp only [askHook, finalState, h]; exact {}
  | cons r rest => simp only [askHook, finalState, h]; exact {}
theorem keeps_askAck {call : Event} : Keeps (askAck call) := fun s => by
  cases h : s.env.ackAnswers with
  | nil => simp only [askAck, finalState, h]; exact {}
  | cons a rest => simp only [askAck, finalState, h]; exact {}

theorem keeps_readCode : Keeps readCode := keeps_look.bind fun _ => keeps_memRead16
theorem keeps_readValue : Keeps readValue := keeps_look.bind fun _ => keeps_memRead16
theorem keeps_readIndex : Keeps readIndex := keeps_look.bind fun _ => keeps_memRead16
theorem keeps_readLength : Keeps readLength := keeps_look.bind fun _ => keeps_memRead16
theorem keeps_readRequest : Keeps readRequest :=
  keeps_look.bind fun _ => keeps_memRead32.bind fun _ => keeps_memRead32.bind fun _ => keeps_pure

/-! ## FIFO transport -/

theorem keeps_rxPop : Keeps rxPop := fun s => by
  cases h : s.fifo.rxq with
  | nil => rw [finalState_error (rxPop_nil h)]; exact .raised
  | cons w q =>
    rw [finalState_ok (rxPop_cons h)]
    have hq : s.fifo.Sane s.env.par → Fifos.Sane s.env.par { s.fifo with rxq := q } := fun ⟨hnp, hp, hr⟩ =>
      ⟨hnp, hp, by rw [h, List.length_cons] at hr; exact Nat.le_of_succ_le hr⟩
    exact { fifo := hq }

theorem keeps_txPush {num : Ch} {w : Word} : Keeps (txPush num w) := fun s => by
  by_cases h : s.txSpace (s.classOf num) = 0
  · rw [finalState_error (txPush_overflow w h)]; exact .raised
  · rw [finalState_ok (txPush_ok w (Nat.pos_of_ne_zero h))]; exact RunKept.setTxq.trans .logged

theorem keeps_readWords {n : Nat} {dst : Addr} : Keeps (readWords dst n) := by
  induction n generalizing dst with
  | zero => exact keeps_pure
  | succ n ih => exact keeps_rxPop.bind fun _ => keeps_memWrite32.bind fun _ => ih
theorem keeps_readTail {r : Nat} {dst : Addr} {w : Word} : Keeps (readTail dst w r) := by
  induction r generalizing dst w with
  | zero => exact keeps_pure
  | succ r ih => exact keeps_memWrite8.bind fun _ => ih
theorem keeps_readPacket {dst : Addr} {len : Nat} : Keeps (readPacket dst len) :=
  keeps_readWords.bind fun _ => Keeps.ite keeps_pure (keeps_rxPop.bind fun _ => keeps_readTail)

theorem keeps_writeWords {num : Ch} {n : Nat} {src : Addr} : Keeps (writeWords num src n) := by
  induction n generalizing src with
  | zero => exact keeps_pure
  | succ n ih => exact keeps_memRead32.bind fun _ => keeps_txPush.bind fun _ => ih
theorem keeps_gatherTail {r : Nat} {src : Addr} : Keeps (gatherTail src r) := by
  induction r generalizing src with
  | zero => exact keeps_pure
  | succ r ih => exact keeps_memRead8.bind fun _ => ih.bind fun _ => keeps_pure
theorem keeps_writeTail {num : Ch} {src : Addr} {r : Nat} : Keeps (writeTail num src r) :=
  keeps_gatherTail.bind fun _ => keeps_drawPad.bind fun _ => keeps_txPush
theorem keeps_writePacket {num : Ch} {src : Addr} {len : Nat} : Keeps (writePacket num src len) :=
  keeps_writeWords.bind fun _ => Keeps.ite keeps_pure keeps_writeTail

theorem keeps_rdpkt : Keeps rdpkt :=
  keeps_get.bind fun _ => keeps_refuseIf.bind fun _ => keeps_readPacket.bind fun _ => keeps_pure
theorem keeps_wrpkt {num : BitVec 4} : Keeps (wrpkt num) :=
  keeps_get.bind fun _ => keeps_chOperand.bind fun _ => keeps_refuseIf.bind fun _ =>
    keeps_refuseIf.bind fun _ => keeps_writePacket.bind fun _ => keeps_pure

/-! ## The channel and endpoint driver: register updates -/

section Driver
variable {s : State}

theorem RunKept.openChannel {c : Ch} {devAddr : BitVec 7} {type : EpType} {mps : BitVec 11} {dir : Dir}
    {epn : BitVec 4} : RunKept s (s.openChannel c devAddr type mps dir epn) := by
  unfold State.openChannel
  extract_lets _ s₁ s₂ s₃
  have h₁ : RunKept s s₁ := .setHc id
  have h₂ : RunKept s₁ s₂ := {}
  have h₃ : RunKept s₂ s₃ := .setGmask
  exact ((h₁.trans h₂).trans h₃).trans (.setPipe id)

/-- A halt request goes to an enabled channel only (R155). -/
theorem RunKept.halt {c : Ch} : RunKept s (s.halt c) := by
  unfold State.halt
  split
  · next hact =>
    have hena := ((s.runState_active_iff c).1 hact).1
    refine .trans (.ite .setQFlush (.refl s)) (.setHc fun ⟨_, hp⟩ => ⟨fun _ => ?_, hp⟩)
    split
    · cases periodicType (s.hcAt c).epType <;> exact hena
    · exact hena
  · exact .refl s

theorem RunKept.activateEp {n : EpIx} {type : EpType} {mps : BitVec 11} {dir : Dir} :
    RunKept s (s.activateEp n type mps dir) := by
  have hcode : n = 0 → (mpsField n mps).toNat < 4 := by
    rintro rfl
    simp only [mpsField, if_true, ep0Code]
    split
    · decide
    · split
      · decide
      · split <;> decide
  unfold State.activateEp
  extract_lets _ s₁
  have h₁ : RunKept s s₁ := .setEp fun ⟨_, hp⟩ => ⟨hcode, hp⟩
  cases dir <;> exact h₁.trans {}

theorem ofNat10_toNat_le {pk : Nat} (h : pk ≤ 256) : (BitVec.ofNat 10 pk).toNat ≤ 256 := by
  rw [BitVec.toNat_ofNat]; omega

theorem RunKept.programRegs {x : Tgt} {len : Nat} {pk : Nat} {pid : Pid} (h : pk ≤ 256) :
    RunKept s (s.programRegs x len pk pid) := by
  rcases x with c | ⟨_ | _, n⟩
  · exact .setHc fun _ => ⟨fun _ => rfl, ofNat10_toNat_le h⟩
  · exact (setEp (d := .OUT) (n := n) fun ⟨hc, _⟩ => ⟨hc, ofNat10_toNat_le h⟩).trans .logged
  · exact setEp (d := .IN) (n := n) fun ⟨hc, _⟩ => ⟨hc, ofNat10_toNat_le h⟩

theorem RunKept.submitBuf {x : Tgt} {len : Nat} {pk : Nat} {buf : Addr} (h : pk ≤ 256) :
    RunKept s (s.submitBuf x len pk buf) := by
  cases x with
  | ch c => exact .setPipe fun _ => ofNat10_toNat_le h
  | ep d n => exact .setBuf (x := .ep d n) fun _ => ofNat10_toNat_le h

theorem RunKept.enableTxfe {x : Tgt} : RunKept s (s.enableTxfe x) := by
  cases x with
  | ch c =>
    simp only [State.enableTxfe]
    split
    · exact .setGmask
    · exact .setGmask
    · exact .refl s
  | ep d n => exact setEp (d := .IN) (n := n) id

theorem RunKept.enableChannel {c : Ch} : RunKept s (s.enableChannel c) := .setHc fun ⟨_, hp⟩ => ⟨fun _ => rfl, hp⟩
theorem RunKept.stallEp {d : Dir} {n : EpIx} : RunKept s (s.stallEp d n) := .setEp id
theorem RunKept.clearStallEp {d : Dir} {n : EpIx} : RunKept s (s.clearStallEp d n) := .setEp id

end Driver

/-! ## The channel and endpoint driver: computations -/

theorem keeps_openChannel {c : Ch} {devAddr : BitVec 7} {type : EpType} {mps : BitVec 11} {dir : Dir}
    {epn : BitVec 4} : Keeps (openChannel c devAddr type mps dir epn) :=
  keeps_get.bind fun _ => keeps_refuseIf.bind fun _ => keeps_upd fun _ => .openChannel
theorem keeps_chopen {num : BitVec 4} {dir : Dir} {type : EpType} {epn : BitVec 4} {mps : BitVec 11} :
    Keeps (chopen num dir type epn mps) :=
  keeps_needHost.bind fun _ => keeps_get.bind fun _ => keeps_chOperand.bind fun _ =>
    keeps_refuseIf.bind fun _ => keeps_openChannel.bind fun _ => keeps_pure
theorem keeps_epact {num : BitVec 4} {dir : Dir} {type : EpType} {mps : BitVec 11} : Keeps (epact num dir type mps) :=
  keeps_needDevice.bind fun _ => keeps_epOperand.bind fun _ => keeps_refuseIf.bind fun _ =>
    keeps_refuseIf.bind fun _ => keeps_get.bind fun _ => keeps_refuseIf.bind fun _ =>
    (keeps_upd fun _ => .activateEp).bind fun _ => keeps_pure
theorem keeps_chhalt {num : BitVec 4} : Keeps (chhalt num) :=
  keeps_needHost.bind fun _ => keeps_chOperand.bind fun _ => (keeps_upd fun _ => .halt).bind fun _ => keeps_pure

theorem keeps_sendPacket {x : Tgt} {n : Nat} : Keeps (sendPacket x n) :=
  keeps_look.bind fun _ => keeps_writePacket.bind fun _ => keeps_upd fun _ => .setBuf id
theorem keeps_txFirstPacket {x : Tgt} {len mps : Nat} : Keeps (txFirstPacket x len mps) :=
  keeps_get.bind fun _ => Keeps.ite keeps_pure <| Keeps.ite
    (keeps_sendPacket.bind fun _ => keeps_upd fun s => .ite .enableTxfe (.refl s))
    (keeps_upd fun _ => .enableTxfe)
/-- A transfer of at most MAX_PKT packets (R6, R159). -/
theorem keeps_startTransfer {x : Tgt} {dir : Dir} {pid : Pid} {mps len : Nat} {pk : Nat} {buf : Addr} (h : pk ≤ 256) :
    Keeps (startTransfer x dir pid mps len pk buf) :=
  (keeps_upd fun _ => .programRegs h).bind fun _ => (keeps_upd fun _ => .submitBuf h).bind fun _ =>
    Keeps.ite (keeps_txFirstPacket.bind fun _ => keeps_pure) keeps_pure
theorem keeps_submitTransfer {x : Tgt} {dir : Dir} {pid : Pid} {mps len : Nat} {buf : Addr} :
    Keeps (submitTransfer x dir pid mps len buf) :=
  keeps_refuseIf.bind fun _ => keeps_startTransfer (clampPackets_fst_le len mps)
theorem keeps_enableChannelTransfer {c : Ch} {dir : Dir} {type : EpType} {pid : Pid} {mps : BitVec 11} {len : Nat}
    {buf : Addr} : Keeps (enableChannelTransfer c dir type pid mps len buf) :=
  keeps_get.bind fun _ => keeps_refuseIf.bind fun _ => keeps_refuseIf.bind fun _ =>
    keeps_refuseIf.bind fun _ => keeps_submitTransfer
theorem keeps_enableEndpointTransfer {n : EpIx} {dir : Dir} {type : EpType} {pid : Pid} {mps : BitVec 11} {len : Nat}
    {buf : Addr} : Keeps (enableEndpointTransfer n dir type pid mps len buf) :=
  keeps_get.bind fun _ => keeps_refuseIf.bind fun _ => keeps_refuseIf.bind fun _ =>
    keeps_refuseIf.bind fun _ => keeps_refuseIf.bind fun _ => keeps_submitTransfer
theorem keeps_xferen {num : BitVec 4} {dir : Dir} {type : EpType} {pid : BitVec 2} {mps : BitVec 11} :
    Keeps (xferen num dir type pid mps) :=
  keeps_get.bind fun s => keeps_refuseIf.bind fun _ => by
    cases s.mode with
    | HOST => exact keeps_chOperand.bind fun _ => keeps_enableChannelTransfer
    | DEVICE => exact keeps_epOperand.bind fun _ => keeps_enableEndpointTransfer
theorem keeps_chena {num : BitVec 4} : Keeps (chena num) :=
  keeps_needHost.bind fun _ => keeps_chOperand.bind fun _ => (keeps_upd fun _ => .enableChannel).bind fun _ =>
    keeps_pure
theorem keeps_epstall {num : BitVec 4} {dir : Dir} : Keeps (epstall num dir) :=
  keeps_needDevice.bind fun _ => keeps_epOperand.bind fun _ => (keeps_upd fun _ => .stallEp).bind fun _ =>
    keeps_pure
theorem keeps_epclrstall {num : BitVec 4} {dir : Dir} : Keeps (epclrstall num dir) :=
  keeps_needDevice.bind fun _ => keeps_epOperand.bind fun _ => (keeps_upd fun _ => .clearStallEp).bind fun _ =>
    keeps_pure

/-! ## Bookkeeping and the port -/

theorem RunKept.usePipe {s : State} {i : Ch} : RunKept s (s.usePipe i) := .setPipe id

theorem keeps_challoc : Keeps challoc :=
  keeps_needHost.bind fun _ => keeps_get.bind fun s => by
    cases s.firstFree with
    | some i => exact (keeps_upd fun _ => .usePipe).bind fun _ => keeps_pure
    | none => exact keeps_pure
theorem keeps_chfree {num : BitVec 4} : Keeps (chfree num) :=
  keeps_needHost.bind fun _ => keeps_chOperand.bind fun _ =>
    (keeps_upd fun _ => .setPipe fun _ => Nat.zero_le _).bind fun _ => keeps_pure
theorem keeps_pipeget {num : BitVec 4} {dir : Dir} : Keeps (pipeget num dir) :=
  keeps_get.bind fun s => by
    cases s.mode with
    | HOST => exact keeps_chOperand.bind fun _ => by cases dir <;> exact keeps_pure
    | DEVICE => exact keeps_epOperand.bind fun _ => keeps_pure
theorem keeps_portReset : Keeps portReset := keeps_emit
theorem keeps_portreset : Keeps portreset :=
  keeps_needHost.bind fun _ => keeps_portReset.bind fun _ => keeps_pure

theorem RunKept.resetPipes {s : State} : RunKept s s.resetPipes where
  pipe i _ := by simp [XferBuf.Bounded, State.pipeAt, State.resetPipes, XferBuf.zero]

theorem XferBuf.zero_epSane : XferBuf.zero.EpSane := ⟨Nat.zero_le _, rfl, rfl, rfl⟩
theorem DevEp.zero_sane (n : EpIx) : DevEp.zero.Sane n := ⟨fun _ => by decide, Nat.zero_le _⟩

theorem DevEps.zero_epAt {s : State} (h : s.dep = .zero) (d : Dir) (n : EpIx) : s.epAt d n = .zero := by
  cases d <;> simp [State.epAt, h, DevEps.zero]
theorem DevEps.zero_epbAt {s : State} (h : s.dep = .zero) (d : Dir) (n : EpIx) : s.epbAt d n = .zero := by
  cases d <;> simp [State.epbAt, h, DevEps.zero]

theorem RunKept.resetEndpoints {s : State} : RunKept s s.resetEndpoints where
  ep d n _ := by rw [DevEps.zero_epAt rfl]; exact DevEp.zero_sane n
  epb d n _ := by rw [DevEps.zero_epbAt rfl]; exact XferBuf.zero_epSane

/-! ## Reset and INIT -/

section Reset
variable (p : Params)

@[simp] theorem State.hcAt_resetWith (i : Ch) : (State.resetWith p).hcAt i = .zero := by
  simp [State.hcAt, State.resetWith]
@[simp] theorem State.pipeAt_resetWith (i : Ch) : (State.resetWith p).pipeAt i = .zero := by
  simp [State.pipeAt, State.resetWith]
@[simp] theorem State.epAt_resetWith (d : Dir) (n : EpIx) : (State.resetWith p).epAt d n = .zero := DevEps.zero_epAt rfl d n
@[simp] theorem State.epbAt_resetWith (d : Dir) (n : EpIx) : (State.resetWith p).epbAt d n = .zero :=
  DevEps.zero_epbAt rfl d n
@[simp] theorem State.txqAt_resetWith (num : Ch) : (State.resetWith p).txqAt num = [] := by
  simp [State.txqAt, State.resetWith]

theorem HostChannel.zero_sane : HostChannel.zero.Sane := ⟨nofun, Nat.zero_le _⟩
theorem Pipe.zero_bounded : Pipe.zero.buf.Bounded := Nat.zero_le _
theorem DevSess.zero_sane : DevSess.zero.Sane := ⟨⟨nofun, (absurd rfl ·)⟩, fun _ => rfl, fun _ => rfl⟩
theorem HostSess.zero_sane : HostSess.zero.Sane :=
  ⟨rfl, rfl, Nat.zero_le _, Nat.zero_le _, fun j => by simp [HostSess.zero, ItfSlot.zero]⟩

/-- The invariant holds right after reset, for every setting of the parameters. -/
theorem State.inv_resetWith : (State.resetWith p).Inv := by
  rw [State.inv_iff]
  exact ⟨rfl, rfl, ⟨Nat.le_refl _, Nat.le_refl _, Nat.zero_le _⟩, HostSess.zero_sane, DevSess.zero_sane,
    fun i => State.hcAt_resetWith p i ▸ HostChannel.zero_sane,
    fun i => State.pipeAt_resetWith p i ▸ Pipe.zero_bounded,
    fun d n => State.epAt_resetWith p d n ▸ DevEp.zero_sane n,
    fun d n => State.epbAt_resetWith p d n ▸ XferBuf.zero_epSane⟩

/-- INIT keeps the fault latch, the free slots, memory and the model's own fields; all else is as after reset (R185). -/
theorem StepKept.initialise {s : State} {m : Mode} : StepKept s (s.initialise m) := by
  obtain ⟨_, hpulse, _, hhost, hdev, hhc, hpipe, hep, hepb⟩ := (State.inv_iff _).1 (State.inv_resetWith s.env.par)
  exact
    { pulse := fun _ => hpulse, fifo := fun ⟨hnp, hp, _⟩ => ⟨hnp, hp, Nat.zero_le _⟩, host := fun _ => hhost
      dev := fun _ => hdev, hc := fun i _ => hhc i, pipe := fun i _ => hpipe i, ep := fun d n _ => hep d n
      epb := fun d n _ => hepb d n }

end Reset

/-! ## The host sequencer: state updates -/

section HostUpdates
variable {s : State}

theorem RunKept.claimPair {o i : Ch} : RunKept s (s.claimPair o i) := by
  have h : RunKept s ((s.usePipe o).usePipe i) := usePipe.trans usePipe
  exact h.trans { host := fun ⟨_, _, _, hparsed⟩ => ⟨rfl, rfl, Nat.zero_le _, hparsed⟩ }

theorem RunKept.toggleOne {c : Ch} : RunKept s (s.toggleOne c) := .setPipe id

/-- A phase that may stand between steps (R39). -/
theorem RunKept.toPhase {c : CtrlState} (h : isPhase c = true := by rfl) : RunKept s (s.toPhase c) where
  host := fun ⟨hpair, _, hretries⟩ => ⟨hpair, h, hretries⟩
theorem RunKept.surface {v : Verdict} : RunKept s (s.surface v) where
  host := fun ⟨hpair, _, _, hparsed⟩ => ⟨hpair, rfl, Nat.zero_le _, hparsed⟩

/-- A retry is counted only while the budget allows it (R199). -/
theorem RunKept.urbError : RunKept s s.urbError := by
  unfold State.urbError
  split
  · next hbudget =>
    have hcount : (s.host.errCnt + 1).toNat ≤ Config.ctrlRetry := by
      rw [BitVec.toNat_add]; exact (Nat.mod_le _ _).trans hbudget
    exact { host := fun ⟨hpair, _, _, hparsed⟩ => ⟨hpair, rfl, hcount, hparsed⟩ }
  · exact .surface

theorem RunKept.urbNoReady : RunKept s s.urbNoReady := .ite {} (.refl s)

end HostUpdates

/-! ## The host sequencer: computations -/

theorem keeps_openPair {o i : Ch} {mps : BitVec 11} {devAddr : BitVec 7} : Keeps (openPair o i mps devAddr) :=
  keeps_openChannel.bind fun _ => keeps_openChannel.bind fun _ => (keeps_upd fun _ => {}).bind fun _ => keeps_pure
theorem keeps_ctrlOpen {mps : BitVec 11} {devAddr : BitVec 7} : Keeps (ctrlOpen mps devAddr) :=
  keeps_get.bind fun s => keeps_refuseIf.bind fun _ => by
    split
    · exact keeps_refuseIf.bind fun _ => keeps_refuseIf.bind fun _ => keeps_openPair
    · split
      · exact keeps_pure
      · exact (keeps_upd fun _ => .claimPair).bind fun _ => keeps_openPair
theorem keeps_ctrlopen {mps : BitVec 11} : Keeps (ctrlopen mps) :=
  keeps_needHost.bind fun _ => keeps_get.bind fun _ => keeps_refuseIf.bind fun _ => keeps_ctrlOpen.bind fun _ =>
    keeps_pure

theorem keeps_ctrlSubmit {buf : Addr} {w0 w1 : Word} : Keeps (ctrlSubmit buf w0 w1) :=
  keeps_needHost.bind fun _ => keeps_needPair.bind fun _ => keeps_get.bind fun _ => keeps_refuseIf.bind fun _ =>
    keeps_refuseIf.bind fun _ => keeps_memWrite32.bind fun _ => keeps_memWrite32.bind fun _ =>
    keeps_upd fun _ => { host := fun ⟨hpair, _, _, hparsed⟩ => ⟨hpair, rfl, Nat.zero_le _, hparsed⟩ }
theorem keeps_ctrlsubmit : Keeps ctrlsubmit := keeps_get.bind fun _ => keeps_ctrlSubmit.bind fun _ => keeps_pure

theorem keeps_issuePhase {o i : Ch} : Keeps (issuePhase o i) :=
  keeps_get.bind fun s => by
    cases s.host.ctrlState with
    | SETUP =>
      exact (keeps_upd fun _ => RunKept.toggleOne.trans .toggleOne).bind fun _ => keeps_enableChannelTransfer.done
    | DATA_IN | DATA_OUT | STATUS_IN | STATUS_OUT => exact keeps_enableChannelTransfer.done
    | STALL | ERROR | COMPLETE => exact keeps_pure
theorem keeps_urbOk : Keeps urbOk :=
  keeps_get.bind fun s => by
    cases s.host.ctrlState with
    | SETUP =>
      exact keeps_memRead8.bind fun _ => keeps_upd fun _ => .ite .toPhase (.ite .toPhase (.ite .toPhase .toPhase))
    | DATA_IN | DATA_OUT => exact keeps_upd fun _ => .toPhase
    | STATUS_IN | STATUS_OUT => exact keeps_upd fun _ => .surface
    | STALL | ERROR | COMPLETE => exact keeps_pure
theorem keeps_urbRow {u : UrbStatus} : Keeps (urbRow u) := by
  cases u with
  | OK => exact keeps_urbOk
  | ERROR => exact keeps_upd fun _ => .urbError
  | STALL => exact keeps_upd fun _ => .surface
  | NOREADY => exact keeps_upd fun _ => .urbNoReady
  | IDLE | PING => exact keeps_pure
theorem keeps_ctrlPoll : Keeps ctrlPoll :=
  keeps_needHost.bind fun _ => keeps_needPair.bind fun _ => keeps_get.bind fun s => Keeps.ite keeps_pure <| by
    split
    · exact keeps_pure
    · exact .ite (keeps_issuePhase.bind fun _ => keeps_upd fun _ => {}) keeps_urbRow
theorem keeps_ctrlpoll : Keeps ctrlpoll := keeps_ctrlPoll.bind fun _ => keeps_get.bind fun _ => keeps_pure
theorem keeps_ctrlReq {buf : Addr} {w0 w1 : Word} : Keeps (ctrlReq buf w0 w1) :=
  keeps_needHost.bind fun _ => keeps_needPair.bind fun _ => keeps_get.bind fun s => by
    cases s.host.xferState with
    | WAITING => exact keeps_ctrlPoll.bind fun _ => (keeps_upd fun _ => {}).bind fun _ => keeps_look
    | START | OK => exact keeps_ctrlSubmit.bind fun _ => (keeps_upd fun _ => {}).bind fun _ => keeps_pure
theorem keeps_ctrlreq : Keeps ctrlreq := keeps_get.bind fun _ => keeps_ctrlReq.bind fun _ => keeps_pure

/-! ## The data-stage engine of endpoint 0 -/

theorem RunKept.ctrlStall {s : State} : RunKept s s.ctrlStall := by
  unfold State.ctrlStall
  extract_lets _ s₁ _ s₂
  have h₁ : RunKept s s₁ := .setEp id
  have h₂ : RunKept s₁ s₂ := .setEp id
  exact (h₁.trans h₂).trans {}

theorem keeps_ep0Arm {d : Dir} {len : Nat} {buf : Addr} : Keeps (ep0Arm d len buf) :=
  keeps_get.bind fun s => keeps_startTransfer (clampPackets_fst_le len s.m0)
theorem keeps_ctrlInData {buf : Addr} {len : Nat} : Keeps (ctrlInData buf len) :=
  keeps_readLength.bind fun _ => (keeps_upd fun _ => {}).bind fun _ => keeps_ep0Arm
theorem keeps_ctrlOutData {buf : Addr} {len : Nat} : Keeps (ctrlOutData buf len) :=
  (keeps_upd fun _ => {}).bind fun _ => keeps_ep0Arm
theorem keeps_ep0Command {d : Dir} : Keeps (ep0Command d) :=
  keeps_needDevice.bind fun _ => keeps_get.bind fun _ => keeps_refuseIf.bind fun _ => keeps_refuseIf.bind fun _ =>
    keeps_refuseIf
theorem keeps_ctrlin : Keeps ctrlin := keeps_ep0Command.bind fun _ => keeps_get.bind fun _ => keeps_ctrlInData
theorem keeps_ctrlout : Keeps ctrlout := keeps_ep0Command.bind fun _ => keeps_get.bind fun _ => keeps_ctrlOutData
theorem keeps_stallRequest : Keeps stallRequest := keeps_upd fun _ => .ctrlStall
theorem keeps_ctrlstall : Keeps ctrlstall :=
  keeps_needDevice.bind fun _ => (keeps_upd fun _ => .ctrlStall).bind fun _ => keeps_pure
theorem keeps_sendStatus : Keeps sendStatus :=
  (keeps_upd fun _ => {}).bind fun _ => keeps_get.bind fun _ => keeps_ep0Arm.done
theorem keeps_awaitStatus : Keeps awaitStatus :=
  (keeps_upd fun _ => {}).bind fun _ => keeps_get.bind fun _ => keeps_ep0Arm.done
theorem keeps_sendData {addr : Addr} {len : Nat} : Keeps (sendData addr len) :=
  keeps_readLength.bind fun _ => .ite keeps_awaitStatus keeps_ctrlInData.done
theorem keeps_receiveData {addr : Addr} {len : Nat} : Keeps (receiveData addr len) :=
  keeps_readLength.bind fun _ => keeps_ctrlOutData.done

/-! ## The requests -/

theorem keeps_getStatus {recipient : BitVec 5} : Keeps (getStatus recipient) :=
  keeps_get.bind fun _ => .ite (keeps_memWrite16.bind fun _ => keeps_sendData) <| .ite
    (keeps_readIndex.bind fun _ => .dite (fun _ => keeps_memWrite16.bind fun _ => keeps_sendData)
      fun _ => keeps_stallRequest) keeps_stallRequest
/-- SET_FEATURE and CLEAR_FEATURE, where the change of an endpoint is kept. -/
theorem keeps_featureRequest {recipient : BitVec 5} {wake : Bool} {onEp : State → Dir → EpIx → State}
    (h : ∀ s d n, RunKept s (onEp s d n)) : Keeps (featureRequest recipient wake onEp) :=
  keeps_readValue.bind fun _ => .ite ((keeps_upd fun _ => {}).bind fun _ => keeps_sendStatus) <| .ite
    (keeps_get.bind fun _ => .ite keeps_stallRequest <| keeps_readIndex.bind fun _ => .dite
      (fun _ => (keeps_upd fun s => .ite (h s _ _) (.refl s)).bind fun _ => keeps_sendStatus)
      fun _ => keeps_stallRequest) keeps_stallRequest

/-- An address is held exactly outside DEFAULT; outside CONFIGURED no configuration value is held (R227). -/
theorem DevSess.Sane.addressed {d : DevSess} (h : d.Sane) (hcfg : d.devState ≠ .CONFIGURED) (a : BitVec 7) :
    DevSess.Sane { d with addr := a, devState := if a ≠ 0 then .ADDRESS else .DEFAULT } := by
  have hzero : d.curConfiguration = 0 := not_not.1 fun h0 => hcfg (h.1.2 h0)
  by_cases ha : a = 0
  · rw [if_neg (not_not.2 ha)]; exact ⟨iff_of_false nofun (not_not.2 hzero), iff_of_true rfl ha⟩
  · rw [if_pos ha]; exact ⟨iff_of_false nofun (not_not.2 hzero), iff_of_false nofun ha⟩

/-- A configuration value that is not 0 takes the device to CONFIGURED from a state that holds an address (R231). -/
theorem DevSess.Sane.configured {d : DevSess} (h : d.Sane) (hdef : d.devState ≠ .DEFAULT) {v : Byte} (hv : v ≠ 0) :
    DevSess.Sane { d with curConfiguration := v, devState := .CONFIGURED } :=
  ⟨iff_of_true rfl hv, iff_of_false nofun fun ha => hdef (h.2.2 ha)⟩

/-- The value 0 takes it back to ADDRESS (R231). -/
theorem DevSess.Sane.deconfigured {d : DevSess} (h : d.Sane) (hdef : d.devState ≠ .DEFAULT) :
    DevSess.Sane { d with curConfiguration := 0, devState := .ADDRESS } :=
  ⟨iff_of_false nofun (absurd rfl ·), iff_of_false nofun fun ha => hdef (h.2.2 ha)⟩

theorem keeps_setAddress {recipient : BitVec 5} : Keeps (setAddress recipient) := by
  refine .ite (moves_get_bind fun s => ?_) keeps_stallRequest
  split
  · exact keeps_stallRequest s
  · next hcfg =>
    refine .of_bind (m := readValue) rfl .logged ?_
    split
    · exact keeps_stallRequest _
    · exact .of_bind rfl { dev := fun h => h.addressed hcfg _ } (keeps_sendStatus _)
theorem keeps_setConfiguration {recipient : BitVec 5} : Keeps (setConfiguration recipient) := by
  refine .ite (keeps_readValue.bind fun w => moves_get_bind fun s => ?_) keeps_stallRequest
  cases hd : s.dev.devState with
  | DEFAULT => exact keeps_stallRequest s
  | ADDRESS =>
    have hdef : s.dev.devState ≠ .DEFAULT := by rw [hd]; nofun
    dsimp only
    split
    · next hv =>
      exact .of_bind rfl { dev := fun h => h.configured hdef hv } ((keeps_emit.bind fun _ => keeps_sendStatus) _)
    · exact keeps_sendStatus s
  | CONFIGURED =>
    have hdef : s.dev.devState ≠ .DEFAULT := by rw [hd]; nofun
    dsimp only
    split
    · exact .of_bind rfl .logged (.of_bind rfl { dev := fun h => h.deconfigured hdef } (keeps_sendStatus _))
    · next hv =>
      split
      · refine .of_bind rfl .logged (.of_bind rfl { dev := fun h => ?_ } ((keeps_emit.bind fun _ => keeps_sendStatus) _))
        have := h.configured hdef hv
        rwa [← hd] at this
      · exact keeps_sendStatus s
theorem keeps_getDescriptor {recipient : BitVec 5} : Keeps (getDescriptor recipient) :=
  .ite (keeps_get.bind fun _ => keeps_readValue.bind fun _ => by
    split
    · exact keeps_sendData
    · exact keeps_stallRequest) keeps_stallRequest
theorem keeps_applyHook {dir : Dir} {r : HookResult} : Keeps (applyHook dir r) :=
  keeps_readLength.bind fun _ => by
    cases r with
    | Stall => exact keeps_stallRequest
    | NoData => exact .ite keeps_sendStatus keeps_stallRequest
    | DataIn addr len => exact .ite keeps_sendData keeps_stallRequest
    | DataOut addr len => exact .ite keeps_receiveData keeps_stallRequest
theorem keeps_setDescriptor {dir : Dir} {recipient : BitVec 5} : Keeps (setDescriptor dir recipient) :=
  .ite (keeps_get.bind fun _ => .ite
    (keeps_readRequest.bind fun _ => keeps_askHook.bind fun _ => keeps_applyHook) keeps_stallRequest) keeps_stallRequest
theorem keeps_getConfiguration {recipient : BitVec 5} : Keeps (getConfiguration recipient) :=
  .ite (keeps_get.bind fun _ => keeps_memWrite8.bind fun _ => keeps_sendData) keeps_stallRequest
theorem keeps_getInterface {recipient : BitVec 5} : Keeps (getInterface recipient) :=
  .ite (keeps_get.bind fun _ => keeps_memWrite8.bind fun _ => keeps_sendData) keeps_stallRequest
theorem keeps_setInterface {recipient : BitVec 5} : Keeps (setInterface recipient) :=
  .ite (keeps_readIndex.bind fun _ => keeps_readValue.bind fun _ => (keeps_upd fun _ => {}).bind fun _ =>
    keeps_sendStatus) keeps_stallRequest
theorem keeps_classRequest {dir : Dir} : Keeps (classRequest dir) :=
  keeps_readRequest.bind fun _ => keeps_askHook.bind fun _ => keeps_applyHook
theorem keeps_vendorRequest {dir : Dir} : Keeps (vendorRequest dir) :=
  keeps_readRequest.bind fun _ => keeps_askHook.bind fun _ => keeps_applyHook

/-! ## The configuration parser and the enumeration sequencer -/

theorem keeps_bufByte {buf : Addr} {p : Nat} : Keeps (bufByte buf p) := keeps_memRead8

theorem RunKept.loggedBytes {s : State} {buf : Addr} {p n : Nat} : RunKept s (s.loggedBytes buf p n) := by
  induction n with
  | zero => exact .refl s
  | succ n ih => exact ih.trans .logged

/-- One more in an 8-bit count below 2. -/
theorem succ_toNat_le_two {n : BitVec 8} (h : n.toNat < 2) : (n + 1).toNat ≤ 2 := by
  rw [BitVec.toNat_add]; exact (Nat.mod_le _ _).trans h

theorem RunKept.addInterface {s : State} {j : Fin 2} {raw : Vector Byte 9} (h : s.host.itfCount.toNat < 2) :
    RunKept s (s.addInterface j raw) where
  host := fun ⟨hpair, hphase, hretries, _, hep⟩ => ⟨hpair, hphase, hretries, succ_toNat_le_two h, fun i => by
    simp only [State.addInterface_itf, Fin.getElem_fin, Vector.getElem_set]
    split
    · exact Nat.zero_le _
    · exact hep i⟩

theorem RunKept.addEndpoint {s : State} {j k : Fin 2} {raw : Vector Byte 7} (h : s.host.itf[j].epCount.toNat < 2) :
    RunKept s (s.addEndpoint j k raw) where
  host := fun ⟨hpair, hphase, hretries, hitf, hep⟩ => ⟨hpair, hphase, hretries, hitf, fun i => by
    simp only [State.addEndpoint_itf, Fin.getElem_fin, Vector.getElem_set]
    split
    · exact succ_toNat_le_two h
    · exact hep i⟩

theorem keeps_keepInterface {buf : Addr} {p bl : Nat} : Keeps (keepInterface buf p bl) :=
  moves_get_bind fun s => by
    split
    · next h =>
      refine .of_bind rfl .loggedBytes (.of_bind rfl (.addInterface ?_) (.refl _))
      rwa [State.loggedBytes_host]
    · exact .refl s
theorem keeps_keepEndpoint {cur : Option (Fin 2)} {buf : Addr} {p bl : Nat} : Keeps (keepEndpoint cur buf p bl) :=
  moves_get_bind fun s => by
    cases cur with
    | none => exact .refl s
    | some j =>
      dsimp only
      split
      · next h =>
        refine .of_bind rfl .loggedBytes (RunKept.addEndpoint ?_)
        rwa [State.loggedBytes_host]
      · exact .refl s

theorem keeps_walk {buf : Addr} {stop fuel p : Nat} {cur : Option (Fin 2)} : Keeps (walk buf stop fuel p cur) := by
  induction fuel generalizing p cur with
  | zero => exact keeps_pure
  | succ fuel ih =>
    exact .ite keeps_pure <| keeps_bufByte.bind fun _ => keeps_bufByte.bind fun _ => .ite keeps_stuck <|
      .ite keeps_pure <| .ite (keeps_keepInterface.bind fun _ => ih) <| .ite (keeps_keepEndpoint.bind fun _ => ih) ih
theorem keeps_cfgParse {buf : Addr} {len : Nat} : Keeps (cfgParse buf len) := by
  refine keeps_needHost.bind fun _ => keeps_refuseIf.bind fun _ => (keeps_upd fun s => ?_).bind fun _ =>
    .ite keeps_pure (keeps_memRead16.bind fun _ => keeps_walk)
  exact { host := fun ⟨hpair, hphase, hretries, _⟩ => ⟨hpair, hphase, hretries, Nat.zero_le _, fun j => by simp⟩ }
theorem keeps_cfgparse : Keeps cfgparse :=
  keeps_get.bind fun _ => keeps_cfgParse.bind fun _ => keeps_get.bind fun _ => keeps_pure

theorem keeps_toEnum {e : EnumState} : Keeps (toEnum e) := keeps_upd fun _ => {}
theorem keeps_enumStep {w0 w1 : Word} {buf : Addr} {done : M Unit} (h : Keeps done) :
    Keeps (enumStep w0 w1 buf done) := keeps_ctrlReq.bind fun _ => .ite h keeps_pure
theorem keeps_strStep {index : Byte} {buf : Addr} {next : EnumState} : Keeps (strStep index buf next) :=
  keeps_enumStep keeps_toEnum
theorem keeps_enumStart : Keeps enumStart :=
  keeps_get.bind fun _ => .ite keeps_pure <| keeps_ctrlOpen.bind fun _ => keeps_refuseIf.bind fun _ =>
    keeps_upd fun _ => { host := fun ⟨hpair, hphase, hretries, _, hep⟩ =>
      ⟨hpair, hphase, hretries, Nat.zero_le _, hep⟩ }
theorem keeps_learnMps : Keeps learnMps :=
  keeps_get.bind fun _ => keeps_memRead8.bind fun _ => .ite keeps_toEnum (keeps_ctrlOpen.bind fun _ => keeps_toEnum)
theorem keeps_addressed : Keeps addressed :=
  (keeps_upd fun _ => {}).bind fun _ => keeps_get.bind fun _ => keeps_ctrlOpen.bind fun _ => keeps_toEnum
theorem keeps_fetchConfiguration : Keeps fetchConfiguration :=
  keeps_get.bind fun _ => keeps_memRead16.bind fun _ => keeps_enumStep <| keeps_cfgParse.bind fun _ => keeps_toEnum
theorem keeps_enumPoll : Keeps enumPoll :=
  keeps_needHost.bind fun _ => keeps_get.bind fun s => by
    cases s.host.enumState with
    | IDLE => exact keeps_enumStart
    | GET_DEV_DESC8 => exact keeps_enumStep keeps_learnMps
    | SET_ADDR => exact keeps_enumStep keeps_addressed
    | GET_DEV_DESC | GET_CFG_DESC9 => exact keeps_enumStep keeps_toEnum
    | GET_CFG_DESC => exact keeps_fetchConfiguration
    | GET_MFC_STR | GET_PROD_STR => exact keeps_memRead8.bind fun _ => keeps_strStep
    | GET_SER_STR => exact keeps_memRead8.bind fun _ => .ite keeps_toEnum keeps_strStep
    | SET_CFG => exact keeps_memRead8.bind fun _ => keeps_enumStep (keeps_toEnum.bind fun _ => keeps_emit)
    | CONFIGURED => exact keeps_pure
theorem keeps_enumpoll : Keeps enumpoll := keeps_enumPoll.bind fun _ => keeps_get.bind fun _ => keeps_pure

end Sys2Proof.Machine
end

section
/-! The instructions, the handlers, the BUS moves and the step: what each keeps, from the computations they run. -/

-- As in the tests: many proofs elaborated at once exhaust the threads of the sandbox.
set_option Elab.async false

namespace Sys2Proof.Machine

/-! ## Requests and commands -/

/-- The rows of the opcode table that are setup packets (R112, R114). -/
def isRequest : Instr → Bool
  | .getStatus .. | .clearFeature .. | .setFeature .. | .setAddress .. | .getDescriptor .. | .setDescriptor ..
  | .getConfiguration .. | .setConfiguration .. | .getInterface .. | .setInterface .. | .classRequest ..
  | .vendorRequest .. | .reservedTypeRequest .. => true
  | _ => false

/-- One row of a decode table: the request it names, or a later row. -/
theorem isRequest_of_ite {c : Prop} [Decidable c] {i j : Instr} {rest : Except Reject Instr}
    (h : (if c then .ok j else rest) = .ok i) (hj : isRequest j = true)
    (hrest : rest = .ok i → isRequest i = true) : isRequest i = true := by
  by_cases hc : c
  · rw [if_pos hc] at h; cases h; exact hj
  · rw [if_neg hc] at h; exact hrest h

theorem isRequest_of_decodeStandard {f : SetupFields} {i : Instr} (h : decodeStandard f = .ok i) :
    isRequest i = true :=
  isRequest_of_ite h rfl fun h => isRequest_of_ite h rfl fun h => isRequest_of_ite h rfl fun h =>
  isRequest_of_ite h rfl fun h => isRequest_of_ite h rfl fun h => isRequest_of_ite h rfl fun h =>
  isRequest_of_ite h rfl fun h => isRequest_of_ite h rfl fun h => isRequest_of_ite h rfl fun h =>
  isRequest_of_ite h rfl nofun

theorem isRequest_of_decodeSetup {c : BitVec 16} {i : Instr} (h : decodeSetup c = .ok i) : isRequest i = true := by
  unfold decodeSetup decodeSetupFields at h
  split at h
  · exact isRequest_of_decodeStandard h
  · refine isRequest_of_ite h rfl fun h => isRequest_of_ite h rfl fun h => ?_
    cases h; rfl

section
variable {s t : State}

theorem Keeps.handlerOutcome {m : M Unit} (hm : Keeps m) (h : handlerOutcome m s = .next t) : RunKept s t := by
  cases h; exact hm s

theorem commandOutcome_kept {m : M Word} (hm : Moves CommandKept m) (h : commandOutcome m s = .next t) :
    CommandKept s t := by
  cases h; exact moves_command commandKept_chain hm (fun _ _ => {}) (fun _ _ => {}) (fun _ => {}) s
theorem Keeps.commandOutcome {m : M Word} (hm : Keeps m) (h : commandOutcome m s = .next t) : CommandKept s t :=
  commandOutcome_kept (fun s => (hm s).toCommandKept) h

theorem moves_init : Moves CommandKept init :=
  moves_bind commandKept_chain (moves_get commandKept_chain) fun _ =>
    moves_bind commandKept_chain (moves_refuseIf commandKept_chain _ _) fun _ =>
    moves_bind commandKept_chain (moves_upd fun _ => { toStepKept := .initialise }) fun _ =>
    moves_pure commandKept_chain _

/-- A request is run by a handler. -/
theorem execRequest_kept {i : Instr} (hi : isRequest i = true) (h : exec i s = .next t) : RunKept s t := by
  cases i with
  | getStatus => exact keeps_getStatus.handlerOutcome h
  | clearFeature => exact (keeps_featureRequest fun _ _ _ => .clearStallEp).handlerOutcome h
  | setFeature => exact (keeps_featureRequest fun _ _ _ => .stallEp).handlerOutcome h
  | setAddress => exact keeps_setAddress.handlerOutcome h
  | getDescriptor => exact keeps_getDescriptor.handlerOutcome h
  | setDescriptor => exact keeps_setDescriptor.handlerOutcome h
  | getConfiguration => exact keeps_getConfiguration.handlerOutcome h
  | setConfiguration => exact keeps_setConfiguration.handlerOutcome h
  | getInterface => exact keeps_getInterface.handlerOutcome h
  | setInterface => exact keeps_setInterface.handlerOutcome h
  | classRequest => exact keeps_classRequest.handlerOutcome h
  | vendorRequest => exact keeps_vendorRequest.handlerOutcome h
  | reservedTypeRequest => exact keeps_stallRequest.handlerOutcome h
  | _ => cases hi

theorem exec_kept {i : Instr} (h : exec i s = .next t) : CommandKept s t := by
  cases i with
  | init => exact commandOutcome_kept moves_init h
  | portreset => exact keeps_portreset.commandOutcome h
  | rdpkt => exact keeps_rdpkt.commandOutcome h
  | wrpkt => exact keeps_wrpkt.commandOutcome h
  | chopen => exact keeps_chopen.commandOutcome h
  | epact => exact keeps_epact.commandOutcome h
  | chhalt => exact keeps_chhalt.commandOutcome h
  | xferen => exact keeps_xferen.commandOutcome h
  | chena => exact keeps_chena.commandOutcome h
  | epstall => exact keeps_epstall.commandOutcome h
  | epclrstall => exact keeps_epclrstall.commandOutcome h
  | challoc => exact keeps_challoc.commandOutcome h
  | chfree => exact keeps_chfree.commandOutcome h
  | pipeget => exact keeps_pipeget.commandOutcome h
  | ctrlopen => exact keeps_ctrlopen.commandOutcome h
  | ctrlsubmit => exact keeps_ctrlsubmit.commandOutcome h
  | ctrlpoll => exact keeps_ctrlpoll.commandOutcome h
  | ctrlreq => exact keeps_ctrlreq.commandOutcome h
  | ctrlin => exact keeps_ctrlin.commandOutcome h
  | ctrlout => exact keeps_ctrlout.commandOutcome h
  | ctrlstall => exact keeps_ctrlstall.commandOutcome h
  | enumpoll => exact keeps_enumpoll.commandOutcome h
  | cfgparse => exact keeps_cfgparse.commandOutcome h
  | _ => exact (execRequest_kept rfl h).toCommandKept

end

/-! ## The handlers: state updates -/

section HandlerUpdates
variable {s : State}

theorem decSat_toNat_le (x : BitVec 10) : (decSat x).toNat ≤ x.toNat := by
  unfold decSat
  split
  · exact Nat.zero_le _
  · next h => bv_omega

theorem RunKept.setPipeState {i : Ch} {x : PipeState} : RunKept s (s.setPipeState i x) := .setPipe id
theorem RunKept.recordHalt {i : Ch} {x : PipeState} : RunKept s (s.recordHalt i x) := setPipeState.trans .halt
theorem RunKept.backOff {i : Ch} {x : PipeState} : RunKept s (s.backOff i x) := by
  unfold State.backOff
  cases (s.hcAt i).epType with
  | CONTROL | BULK => exact .ite .enableChannel (.refl s)
  | INTERRUPT => exact .recordHalt
  | ISOCHRONOUS => exact .refl s

theorem Pipe.pktCnt_converge (p : Pipe) : p.converge.buf.pktCnt = p.buf.pktCnt := by
  unfold Pipe.converge; split <;> rfl

theorem RunKept.serveChFlag {i : Ch} {f : ChFlag} : RunKept s (s.serveChFlag i f) := by
  cases f with
  | AHBERR | ACK => exact .refl s
  | STALL | DTERR | FRMOR | XFRC | XACTERR | BBLERR => exact .recordHalt
  | CHH => exact .setPipe fun h => by rwa [XferBuf.Bounded, Pipe.pktCnt_converge]
  | NAK | NYET => exact .backOff

/-- The flags of a channel are no part of the invariant. -/
theorem RunKept.setChInt {i : Ch} {v : BitVec 11} : RunKept s (s.setHc i { s.hcAt i with int := v }) := .setHc id
theorem RunKept.clearChFlag {i : Ch} {f : ChFlag} : RunKept s (s.clearChFlag i f) := .setChInt

theorem RunKept.serveChannel {i : Ch} : RunKept s (s.serveChannel i) := by
  refine .ite ?_ (.refl s)
  split
  · exact (RunKept.clearChFlag.trans .serveChFlag).trans .logged
  · exact .refl s

/-- The detach leaves every channel IDLE and every pipe's bookkeeping zero (R345). -/
theorem RunKept.detached : RunKept s s.detached where
  host := fun ⟨hpair, hphase, hretries, _, hep⟩ => ⟨hpair, hphase, hretries, Nat.zero_le _, hep⟩
  hc i := fun ⟨_, hp⟩ => by
    have : s.detached.hcAt i = { s.hcAt i with intMsk := 0, chEna := false, chDis := false } := by
      simp [State.hcAt, State.detached]
    rw [this]; exact ⟨nofun, hp⟩
  pipe i h := RunKept.resetPipes.pipe i h

theorem RunKept.busReset : RunKept s s.busReset := by
  unfold State.busReset
  extract_lets s₁ _ _ s₂
  have h₂ : RunKept s₁ s₂ := { dev := fun _ => by simp [s₂, DevSess.Sane] }
  exact ((RunKept.resetEndpoints.trans h₂).trans .activateEp).trans .activateEp

theorem RunKept.beginSetup : RunKept s s.beginSetup := by
  unfold State.beginSetup
  extract_lets _ s₁ _ s₂ s₃
  have h₁ : RunKept s s₁ := .setEp id
  have h₂ : RunKept s₁ s₂ := .setEp id
  have h₃ : RunKept s₂ s₃ := .setTxq
  exact ((h₁.trans h₂).trans h₃).trans {}

end HandlerUpdates

/-! ## The handlers: computations -/

theorem keeps_receivePacket {x : Tgt} {bcnt : Nat} : Keeps (receivePacket x bcnt) :=
  keeps_look.bind fun _ => keeps_raiseIf.bind fun _ => keeps_readPacket.bind fun _ =>
    keeps_upd fun _ => .setBuf fun h => (decSat_toNat_le _).trans h
theorem keeps_receiveOut {num : BitVec 4} {bcnt : Nat} : Keeps (receiveOut num bcnt) :=
  .dite (fun _ => keeps_receivePacket) fun _ => keeps_raise
theorem keeps_receiveSetup {bcnt : Nat} : Keeps (receiveSetup bcnt) :=
  keeps_raiseIf.bind fun _ => keeps_get.bind fun _ => keeps_readPacket
theorem keeps_receiveIn {num : BitVec 4} {bcnt : Nat} : Keeps (receiveIn num bcnt) :=
  .dite (fun _ => keeps_receivePacket.bind fun _ => keeps_upd fun s => .ite .enableChannel (.refl s))
    fun _ => keeps_raise
theorem keeps_receiveEntry {st : Word} : Keeps (receiveEntry st) :=
  keeps_get.bind fun s => by
    cases s.mode with
    | DEVICE => exact .ite keeps_receiveOut (.ite keeps_receiveSetup keeps_pure)
    | HOST => exact .ite keeps_receiveIn keeps_pure
theorem keeps_rxflvlHandler : Keeps rxflvlHandler :=
  (keeps_upd fun _ => .setGmask).bind fun _ => keeps_rxPop.bind fun _ => keeps_receiveEntry.bind fun _ =>
    keeps_upd fun _ => .setGmask

theorem keeps_drainLoop {x : Tgt} {mps fuel : Nat} : Keeps (drainLoop x mps fuel) := by
  induction fuel with
  | zero => exact keeps_pure
  | succ fuel ih => exact keeps_get.bind fun _ => .ite (keeps_sendPacket.bind fun _ => ih) keeps_pure
theorem keeps_drain {x : Tgt} {mps : Nat} : Keeps (drain x mps) := keeps_look.bind fun _ => keeps_drainLoop
theorem keeps_txfeHandler {k : TxClass} {f : GFlag} : Keeps (txfeHandler k f) := by
  have last : Keeps (upd fun s => if allCh.any (s.waiting k) then s else s.setGmask f false) :=
    keeps_upd fun s => .ite (.refl s) .setGmask
  refine keeps_get.bind fun s => ?_
  cases allCh.find? (s.waiting k) with
  | some c => exact keeps_drain.bind fun _ => last
  | none => exact last

theorem keeps_hcintHandler : Keeps hcintHandler := keeps_forEach fun _ => keeps_upd fun _ => .serveChannel

theorem keeps_portConnect : Keeps portConnect := (keeps_upd fun _ => {}).bind fun _ => keeps_emit
theorem keeps_portEnabled : Keeps portEnabled := by
  refine (keeps_upd fun _ => {}).bind fun _ => keeps_get.bind fun s => ?_
  extract_lets announce
  have hann : ∀ u, Keeps (announce u) := fun _ =>
    (keeps_upd fun _ => RunKept.setGmask.trans {}).bind fun _ => keeps_emit
  exact .ite ((keeps_upd fun _ => {}).bind fun _ => keeps_portReset.bind hann) (hann ())
theorem keeps_hprtHandler : Keeps hprtHandler := by
  refine keeps_get.bind fun s => ?_
  extract_lets change
  have hchange : ∀ u, Keeps (change u) := fun _ => keeps_get.bind fun _ =>
    .ite ((keeps_upd fun _ => {}).bind fun _ => .ite keeps_portEnabled (keeps_upd fun _ => {})) keeps_pure
  exact .ite (keeps_portConnect.bind hchange) (hchange ())
theorem keeps_discHandler : Keeps discHandler := (keeps_upd fun _ => .detached).bind fun _ => keeps_emit
theorem keeps_usbrstHandler : Keeps usbrstHandler := (keeps_upd fun _ => .busReset).bind fun _ => keeps_emit

theorem keeps_runRequest {code : BitVec 16} : Keeps (runRequest code) := fun s => by
  unfold finalState runRequest
  cases hd : decodeSetup code with
  | error => exact .ctrlStall
  | ok i =>
    obtain ⟨t, ht⟩ := exec_next i s
    simp only [ht]
    exact execRequest_kept (isRequest_of_decodeSetup hd) ht
theorem keeps_setupStage : Keeps setupStage :=
  (keeps_upd fun _ => .beginSetup).bind fun _ => keeps_readCode.bind fun _ => keeps_runRequest
theorem keeps_dataInStage : Keeps dataInStage :=
  keeps_get.bind fun s => by
    cases s.dev.ctrlState with
    | DATA_IN => exact .ite ((keeps_upd fun _ => {}).bind fun _ => keeps_ep0Arm.done) keeps_awaitStatus
    | STATUS_IN => exact keeps_upd fun _ => {}
    | SETUP | DATA_OUT | STATUS_OUT | STALL | ERROR | COMPLETE => exact keeps_pure
theorem keeps_dataOutStage : Keeps dataOutStage :=
  keeps_get.bind fun s => by
    cases s.dev.ctrlState with
    | DATA_OUT =>
      exact keeps_readRequest.bind fun _ => keeps_askAck.bind fun _ => .ite keeps_sendStatus keeps_stallRequest
    | STATUS_OUT => exact keeps_upd fun _ => {}
    | SETUP | DATA_IN | STATUS_IN | STALL | ERROR | COMPLETE => exact keeps_pure

theorem keeps_outComplete {n : EpIx} : Keeps (outComplete n) := .ite keeps_dataOutStage keeps_emit
theorem keeps_inComplete {n : EpIx} : Keeps (inComplete n) := .ite keeps_dataInStage keeps_emit
theorem keeps_serveOut {n : EpIx} : Keeps (serveOut n) := by
  refine keeps_get.bind fun s => .ite ?_ keeps_pure
  extract_lets stup
  have hstup : ∀ u, Keeps (stup u) := fun _ => by
    refine keeps_get.bind fun _ =>
      .ite ((keeps_upd fun _ => ?_).bind fun _ => .ite keeps_setupStage keeps_pure) keeps_pure
    exact .setEp id
  refine .ite ((keeps_upd fun _ => ?_).bind fun _ => keeps_outComplete.bind hstup) (hstup ())
  exact .setEp id
theorem keeps_oepHandler : Keeps oepHandler := keeps_forEach fun _ => keeps_serveOut

theorem keeps_epTxfeHandler {n : EpIx} : Keeps (epTxfeHandler n) := by
  refine keeps_get.bind fun s => ?_
  extract_lets mask
  have hmask : ∀ u, Keeps (mask u) := fun _ => keeps_upd fun s => .ite (.setEp id) (.refl s)
  exact .ite (keeps_drain.bind hmask) (hmask ())
theorem keeps_serveIn {n : EpIx} : Keeps (serveIn n) := by
  refine keeps_get.bind fun s => .ite ?_ keeps_pure
  extract_lets txfe
  have htxfe : ∀ u, Keeps (txfe u) := fun _ => keeps_get.bind fun _ => .ite keeps_epTxfeHandler keeps_pure
  refine .ite ((keeps_upd fun _ => ?_).bind fun _ => keeps_inComplete.bind htxfe) (htxfe ())
  exact .setEp id
theorem keeps_iepHandler : Keeps iepHandler := keeps_forEach fun _ => keeps_serveIn

theorem keeps_handler (f : GFlag) : Keeps (handler f) := by
  cases f with
  | RXFLVL => exact keeps_rxflvlHandler
  | NPTXFE | PTXFE => exact keeps_txfeHandler
  | HCINT => exact keeps_hcintHandler
  | HPRTINT => exact keeps_hprtHandler
  | DISCINT => exact keeps_discHandler
  | SOF | ENUMDNE => exact keeps_upd fun _ => .clearLatched
  | USBRST => exact keeps_usbrstHandler
  | IEPINT => exact keeps_iepHandler
  | OEPINT => exact keeps_oepHandler
  | USBSUSP | WKUPINT => exact (keeps_upd fun _ => .clearLatched).bind fun _ => keeps_emit

/-! ## The step -/

section Step
variable {s t : State}

theorem moves_serve (f : GFlag) : Moves PortKept (serve f) :=
  moves_bind portKept_chain (moves_get portKept_chain) fun _ => moves_ite
    (moves_bind portKept_chain (moves_upd fun _ => {}) fun _ s => (keeps_handler f s).toPortKept)
    (moves_pure portKept_chain ())

theorem moves_pass : Moves PortKept pass :=
  moves_bind portKept_chain (moves_get portKept_chain) fun _ => moves_forEach portKept_chain moves_serve

theorem runIrq_kept (h : runIrq s = .next t) : PortKept s t := by
  unfold runIrq at h
  split at h
  · cases h
    have hlog : PortKept s (s.logged .pass) := {}
    exact hlog.trans (moves_pass _)
  · cases h; exact .refl s

/-- A BUS move that its liberties allow (R157, R405 to R413). -/
theorem RunKept.busEffect {m : BusMove} {e : LogEntry} (h : s.busAllowed m = true) :
    RunKept (s.logged e) ((s.logged e).busEffect m) := by
  cases m with
  | rxPush st data =>
    simp only [State.busAllowed, State.rxFits, Bool.and_eq_true, decide_eq_true_eq] at h
    refine { fifo := fun ⟨hnp, hp, _⟩ => ⟨hnp, hp, ?_⟩ }
    simp only [State.busEffect, State.logged_fifo, State.par_logged, List.length_append, List.length_cons]
    omega
  | lowerHc i pk sz =>
    simp only [State.busAllowed, Bool.and_eq_true, decide_eq_true_eq] at h
    exact .setHc fun ⟨hdis, hp⟩ => ⟨hdis, Nat.le_trans h.1 hp⟩
  | lowerEp n pk sz =>
    simp only [State.busAllowed, Bool.and_eq_true, decide_eq_true_eq] at h
    exact setEp (d := .OUT) (n := n) fun ⟨hcode, hp⟩ => ⟨hcode, Nat.le_trans h.1 hp⟩
  | txTake => exact RunKept.setTxq.trans .logged
  | chFlag => exact .setChInt
  | haltDone i =>
    exact ((RunKept.setHc fun ⟨_, hp⟩ => ⟨nofun, hp⟩).trans .setTxq).trans .setQFlush
  | slots np p =>
    simp only [State.busAllowed, Bool.and_eq_true, decide_eq_true_eq] at h
    exact { fifo := fun ⟨_, _, hrx⟩ => ⟨h.1, h.2, hrx⟩ }
  | setupDone | outDone | inDone => simp only [State.busEffect]; exact .setEp id
  | connect | portEnable | portDisable | disconnect | frame | busReset | enumDone | suspend | resume => exact {}

theorem runBus_kept {m : BusMove} (h : runBus m s = .next t) : PortKept s t := by
  unfold runBus at h
  split at h
  · next hallow =>
    cases h
    exact ((RunKept.logged (e := .bus m)).trans (.busEffect hallow)).toPortKept
  · cases h

theorem StepKept.setArg {k : Fin 4} {v : Word} : StepKept s (s.setArg k v) := by
  unfold State.setArg
  split
  · exact {}
  · split
    · exact {}
    · split <;> exact {}

theorem runCommand_kept {w : Word} (h : runCommand w s = .next t) : CommandKept (s.withCommand w) t := by
  unfold runCommand at h
  split at h
  · exact exec_kept h
  · cases h; exact {}

theorem keeps_regRead {off : Nat} : Keeps (regRead off) :=
  .ite (keeps_rxPop.bind fun _ => keeps_upd fun _ => {}) (keeps_upd fun _ => {})

/-- A choice between two outcomes, each of which would keep what a step keeps. -/
theorem StepKept.of_ite {c : Prop} [Decidable c] {x y : Host.Outcome State Fault Refusal}
    (h : (if c then x else y) = .next t) (hx : x = .next t → StepKept s t) (hy : y = .next t → StepKept s t) :
    StepKept s t := by
  by_cases hc : c
  · exact hx (by rwa [if_pos hc] at h)
  · exact hy (by rwa [if_neg hc] at h)
theorem StepKept.of_dite {c : Prop} [Decidable c] {x : c → Host.Outcome State Fault Refusal}
    {y : ¬ c → Host.Outcome State Fault Refusal} (h : (if hc : c then x hc else y hc) = .next t)
    (hx : ∀ hc, x hc = .next t → StepKept s t) (hy : ∀ hc, y hc = .next t → StepKept s t) : StepKept s t := by
  by_cases hc : c
  · exact hx hc (by rwa [dif_pos hc] at h)
  · exact hy hc (by rwa [dif_neg hc] at h)

theorem regWrite_kept {off : Nat} {w : Word} (h : regWrite off w s = .next t) : StepKept s t := by
  have harg : ∀ k, (.next (s.setArg k w) : Host.Outcome State Fault Refusal) = .next t → StepKept s t := fun k h => by
    cases h; exact .setArg
  refine .of_ite h (harg 0) fun h => .of_ite h (harg 1) fun h => .of_ite h (harg 2) fun h => .of_ite h (harg 3) fun h =>
    .of_dite h (fun _ h => ?txport) fun _ h => .of_dite h (fun _ h => ?hcint) fun _ h =>
    .of_dite h (fun _ h => ?hcchar) fun _ h => .of_ite h nofun fun h => ?ignored
  case txport => cases h; exact (keeps_txPush s).toStepKept
  case hcint => cases h; exact RunKept.setChInt.toStepKept
  case hcchar => exact .of_ite h nofun nofun
  case ignored => cases h; exact .refl s

/-- A foreground step is made by a foreground that is not stuck. -/
theorem foreground_next {k : State → Host.Outcome State Fault Refusal} (h : foreground s k = .next t) :
    k s = .next t := by
  unfold foreground at h
  split at h
  · cases h
  · exact h

theorem runMove_kept {m : Move} (h : runMove m s = .next t) : StepKept s t := by
  have hcommand : ∀ w, runCommand w s = .next t → StepKept s t := fun w hw =>
    StepKept.trans {} (runCommand_kept hw).toStepKept
  cases m with
  | cmd w => exact hcommand w (foreground_next h)
  | setArg k v =>
    dsimp only [runMove] at h
    have hrun := foreground_next h
    cases hrun
    exact StepKept.setArg.trans {}
  | poke a b =>
    dsimp only [runMove] at h
    have hrun := foreground_next h
    cases hrun
    exact (RunKept.setByte.trans .logged).toStepKept
  | regRead off =>
    dsimp only [runMove] at h
    have hrun := foreground_next h
    cases hrun
    exact ((RunKept.logged (e := .regRead off)).trans (keeps_regRead _)).toStepKept
  | regWrite off w =>
    dsimp only [runMove] at h
    have hrun := foreground_next h
    split at hrun
    · exact hcommand w hrun
    · exact StepKept.trans {} (regWrite_kept hrun)
  | irq => exact (runIrq_kept h).toStepKept
  | bus m => exact (runBus_kept h).toStepKept

theorem StepKept.nextMove : StepKept s s.nextMove.2 := by
  unfold State.nextMove
  split <;> exact {}

/-- What every step of every agent keeps. -/
theorem step_kept (h : step s = .next t) : StepKept s t := StepKept.nextMove.trans (runMove_kept h)

end Step

end Sys2Proof.Machine
end

section
/-! The statements about the state, the step and the pass. -/

open Sys2Proof Sys2Proof.Machine

/-- Settles O57: a step keeps every component of the invariant (`step_kept`). -/
theorem invariantOfStep : Obligations.InvariantOfStep := fun _ _ hs hstep => (step_kept hstep).inv hs

/-- Settles O58: the latch is one of the things that a step keeps. -/
theorem faultLatchSticky : Obligations.FaultLatchSticky := fun _ _ hstep => (step_kept hstep).fault

/-- Settles O59: a pass and a BUS move keep the command port, a command keeps all but RES of the port in which CMD holds
its word, and every step keeps the parameters. -/
theorem commandPortWriters : Obligations.CommandPortWriters :=
  ⟨fun _ _ h => (runIrq_kept h).port, fun _ _ _ h => (runBus_kept h).port, fun _ _ _ h => (runCommand_kept h).port,
    fun _ _ h => (step_kept h).par⟩

/-- Settles O56: reset meets the invariant for every setting of the parameters. -/
theorem invariantAtReset : Obligations.InvariantAtReset := State.inv_resetWith Config.resetParams

/-- Settles O4: the next move is a write of the word to CMD, by a foreground that is not stuck. -/
theorem stepRunsCommand : Obligations.StepRunsCommand := by
  intro s w i rest hsched hfg hdec
  have hmove : s.nextMove = (.cmd w, { s with env.sched := rest }) := by rw [State.nextMove, hsched]
  rw [step, hmove]
  show foreground _ (runCommand w) = _
  rw [foreground, if_neg (by simp [hfg]), runCommand, hdec]
  rfl

namespace Sys2Proof.Machine

/-! ## The state after reset -/

theorem State.queued_of_empty {s : State} (h : ∀ c, s.txqAt c = []) (k : TxClass) : s.queued k = 0 := by
  simp [State.queued, h]

end Sys2Proof.Machine

/-- Settles O55: every component of the reset state is its zero; what is derived from them follows. -/
theorem resetState : Obligations.ResetState := by
  refine ⟨rfl, by decide, by decide, fun p => ⟨_, rfl, rfl, rfl, rfl, rfl, rfl, State.txqAt_resetWith p, ?_⟩⟩
  have hqueued := State.queued_of_empty (State.txqAt_resetWith p)
  refine ⟨by rw [State.gintsts, hqueued]; rfl, by rw [State.gintsts, hqueued]; rfl,
    fun n => by rw [State.epTxfe, State.txqAt_resetWith]; rfl, Nat.le_refl _, Nat.le_refl _, rfl, rfl, rfl, rfl, rfl,
    State.hcAt_resetWith p, rfl, State.pipeAt_resetWith p,
    fun d n => ⟨State.epAt_resetWith p d n, State.epbAt_resetWith p d n⟩, rfl, rfl, rfl, rfl, rfl, rfl, rfl, rfl, rfl,
    rfl, rfl, rfl, rfl, rfl, rfl, rfl, rfl, rfl, fun j => ?_, rfl, rfl, ?_⟩
  · simp [State.resetWith, HostSess.zero, ItfSlot.zero]
  · simp [State.irq, State.pending, State.gmask, State.resetWith]

namespace Sys2Proof.Machine

/-! ## The pass -/

section Pass
variable {s : State} {f : GFlag}

theorem State.pending_iff (s : State) (f : GFlag) :
    s.pending f = true ↔ s.gintsts f = true ∧ s.gintmsk.getLsbD f.bit = true := by
  rw [State.pending, State.gmask, Bool.and_eq_true]

/-- A source that is not pending and enabled at its turn is passed over (R300). -/
theorem serve_idle (h : ¬ s.pending f = true) : serve f s = .ok () s := by
  rw [serve, get_bind_apply, if_neg h]; rfl
/-- One that is pending and enabled is recorded and its sub-handler run (R85, R300). -/
theorem serve_pending (h : s.pending f = true) : serve f s = handler f (s.logged (.source f)) := by
  rw [serve, get_bind_apply, if_pos h, upd_bind_apply]

/-- Passing over a list of sources is what `PassOver` says. -/
theorem passOver_forEach (l : List GFlag) (s : State) :
    PassOver (l.map fun f => (f, handler f)) s (finalState (forEach l serve) s) := by
  induction l generalizing s with
  | nil => rfl
  | cons f l ih =>
    rw [List.map_cons, PassOver]
    by_cases hp : s.pending f = true
    · rw [if_pos ((s.pending_iff f).1 hp), forEach, finalState, bind_apply, serve_pending hp]
      cases handler f (s.logged (.source f)) with
      | ok _ u => exact ih u
      | error _ u => rfl
    · rw [if_neg (mt (s.pending_iff f).2 hp), forEach, finalState, bind_ok (serve_idle hp)]
      exact ih s

/-- A handler records no source; serving `f` records it alone. -/
theorem servedSources_handler (f : GFlag) (s : State) :
    servedSources (finalState (handler f) (s.logged (.source f))).env.log = f :: servedSources s.env.log :=
  (keeps_handler f (s.logged (.source f))).sources

/-- The sources that passing over a list of sources serves: a sublist of it, in its order, that begins with the first
one where that is pending and enabled at the start. -/
theorem forEach_serve_sources (l : List GFlag) (s : State) : ∃ served, List.Sublist served l ∧
    servedSources (finalState (forEach l serve) s).env.log = served.reverse ++ servedSources s.env.log ∧
    ∀ f, l.head? = some f → s.pending f = true → served.head? = some f := by
  induction l generalizing s with
  | nil => exact ⟨[], .slnil, rfl, nofun⟩
  | cons f l ih =>
    rw [forEach, finalState, bind_apply]
    by_cases hp : s.pending f = true
    · have hsrc := servedSources_handler f s
      rw [finalState] at hsrc
      rw [serve_pending hp]
      cases hrun : handler f (s.logged (.source f)) with
      | ok _ u =>
        rw [hrun] at hsrc
        obtain ⟨served, hsub, hlog, -⟩ := ih u
        refine ⟨f :: served, hsub.cons_cons f, ?_, fun _ h _ => h⟩
        rw [finalState] at hlog
        rw [hlog, hsrc, List.reverse_cons, List.append_assoc]; rfl
      | error _ u =>
        rw [hrun] at hsrc
        exact ⟨[f], (List.nil_sublist l).cons_cons f, hsrc, fun _ h _ => h⟩
    · obtain ⟨served, hsub, hlog, -⟩ := ih s
      rw [serve_idle hp]
      exact ⟨served, hsub.cons f, hlog, fun g hg hpg => absurd (Option.some.inj hg ▸ hpg) hp⟩

end Pass

end Sys2Proof.Machine

/-- Settles O54: the pass runs over the sources of the mode (`passOver_forEach`), which are served in their order
(`forEach_serve_sources`). -/
theorem passOrder : Obligations.PassOrder := by
  refine ⟨fun s h => by rw [runIrq, if_neg (by simp [h])], fun s h => ?_⟩
  obtain ⟨served, hsub, hlog, hhead⟩ := forEach_serve_sources (sources s.mode) (s.logged .pass)
  have hpass := passOver_forEach (sources s.mode) (s.logged .pass)
  have hrun : runIrq s = .next (finalState (forEach (sources s.mode) serve) (s.logged .pass)) := by
    rw [runIrq, if_pos h]; rfl
  generalize finalState (forEach (sources s.mode) serve) (s.logged .pass) = t at hpass hlog hrun
  refine ⟨t, served, hrun, fun hm => ?_, fun hm => ?_, ?_, hlog, fun hq hm => ?_⟩
  · rw [hm] at hpass; exact hpass
  · rw [hm] at hpass; exact hpass
  · cases hm : s.mode <;> rw [hm] at hsub <;> exact hsub
  · have hrx : (s.logged .pass).pending .RXFLVL = true :=
      (State.pending_iff _ _).2 ⟨by simpa [State.gintsts] using hq, hm⟩
    exact hhead .RXFLVL (by cases s.mode <;> rfl) hrx

end

section
/-! ## Memory words (R70 to R73) -/

namespace Sys2Proof.Machine

/-- The bytes of a word, least significant first, make the word again (R72). -/
theorem wordOfBytes_byteOf (w : Word) : wordOfBytes (byteOf w 0) (byteOf w 1) (byteOf w 2) (byteOf w 3) = w := by
  simp only [wordOfBytes, byteOf]
  iterate 3 rw [BitVec.extractLsb'_append_extractLsb'_eq_extractLsb' (by rfl)]
  exact BitVec.extractLsb'_eq_self

variable {s : State}

theorem State.byte_setWord_base (h : memWf s.mem = true) (a : Addr) (w : Word) :
    (s.setWord a w).byte a = byteOf w 0 := by simpa using State.byte_setWord_at h a w (j := 0) (by decide)

/-- A word read at the address of a word just written gives it back. -/
theorem State.word_setWord (h : memWf s.mem = true) (a : Addr) (w : Word) : (s.setWord a w).word a = w := by
  have h1 : (s.setWord a w).byte (a + 1) = byteOf w 1 := State.byte_setWord_at h a w (by decide)
  have h2 : (s.setWord a w).byte (a + 2) = byteOf w 2 := State.byte_setWord_at h a w (by decide)
  have h3 : (s.setWord a w).byte (a + 3) = byteOf w 3 := State.byte_setWord_at h a w (by decide)
  rw [State.word, State.byte_setWord_base h, h1, h2, h3, wordOfBytes_byteOf]

/-- A half-word read at the address of a word just written gives its low 16 bits. -/
theorem State.half_setWord (h : memWf s.mem = true) (a : Addr) (w : Word) :
    (s.setWord a w).half a = w.extractLsb' 0 16 := by
  have h1 : (s.setWord a w).byte (a + 1) = byteOf w 1 := State.byte_setWord_at h a w (by decide)
  rw [State.half, State.byte_setWord_base h, h1]
  exact BitVec.extractLsb'_append_extractLsb'_eq_extractLsb' rfl

end Sys2Proof.Machine

open Sys2Proof Sys2Proof.Machine

/-- Settles O8: a word write sets its four bytes (`State.byte_setWord_at`) and no other (`State.byte_setWord_off`); the
word and half-word reads put them together again. -/
theorem memoryWord : Obligations.MemoryWord := fun _ a w hm =>
  ⟨State.word_setWord hm a w, fun _ => State.byte_setWord_at hm a w, fun _ => State.byte_setWord_off hm a w,
    State.half_setWord hm a w, State.wf_setWord hm a w⟩

end

section
/-! ## Decoding and encoding (R100 to R104, R112 to R114) -/

namespace Sys2Proof

theorem decode_commandWord (op : BitVec 8) (num : BitVec 4) (dir : BitVec 1) (type pid : BitVec 2) (epn : BitVec 4)
    (mps : BitVec 11) :
    decode (commandWord op num dir type pid epn mps) = decodeFields ⟨op, num, dir, type, pid, epn, mps⟩ := by
  rw [commandWord, decode, decodeCommand, CmdFields.unpack_pack]

theorem decode_setupWord (bRequest : BitVec 8) (dir : Dir) (type : BitVec 2) (recipient : BitVec 5) :
    decode (setupWord bRequest dir type recipient) = decodeSetupFields ⟨bRequest, dir.bit, type, recipient⟩ := by
  rw [setupWord, decode, decodeSetup, SetupFields.unpack_pack]

/-! ### The must-be-zero fields of the formats (R101) -/

@[simp] theorem CmdFields.onlyOp_iff (f : CmdFields) : f.onlyOp = true ↔
    f.num = 0 ∧ f.dir = 0 ∧ f.type = 0 ∧ f.pid = 0 ∧ f.epn = 0 ∧ f.mps = 0 := by
  simp only [CmdFields.onlyOp, Bool.and_eq_true, decide_eq_true_eq, and_assoc]
@[simp] theorem CmdFields.onlyNum_iff (f : CmdFields) : f.onlyNum = true ↔
    f.dir = 0 ∧ f.type = 0 ∧ f.pid = 0 ∧ f.epn = 0 ∧ f.mps = 0 := by
  simp only [CmdFields.onlyNum, Bool.and_eq_true, decide_eq_true_eq, and_assoc]
@[simp] theorem CmdFields.onlyNumDir_iff (f : CmdFields) : f.onlyNumDir = true ↔
    f.type = 0 ∧ f.pid = 0 ∧ f.epn = 0 ∧ f.mps = 0 := by
  simp only [CmdFields.onlyNumDir, Bool.and_eq_true, decide_eq_true_eq, and_assoc]
@[simp] theorem CmdFields.noPid_iff (f : CmdFields) : f.noPid = true ↔ f.pid = 0 := decide_eq_true_iff
@[simp] theorem CmdFields.noPidEpn_iff (f : CmdFields) : f.noPidEpn = true ↔ f.pid = 0 ∧ f.epn = 0 := by
  simp only [CmdFields.noPidEpn, Bool.and_eq_true, decide_eq_true_eq]
@[simp] theorem CmdFields.noEpn_iff (f : CmdFields) : f.noEpn = true ↔ f.epn = 0 := decide_eq_true_iff
@[simp] theorem CmdFields.onlyMps_iff (f : CmdFields) : f.onlyMps = true ↔
    f.num = 0 ∧ f.dir = 0 ∧ f.type = 0 ∧ f.pid = 0 ∧ f.epn = 0 := by
  simp only [CmdFields.onlyMps, Bool.and_eq_true, decide_eq_true_eq, and_assoc]

/-! ### The round trips -/

/-- Row by row: unpacking gives the fields the row packs, its test is the first that succeeds, its must-be-zero fields
are zero, and the codes of `dir` and `type` are inverse. -/
theorem decode_encode (i : Instr) : decode (encode i) = .ok i := by
  cases i <;>
    simp [encode, decode_commandWord, decode_setupWord, decodeFields, decodeSetupFields, decodeStandard, accept]

/-- A decoder that answers does so by one of its tests or by those after it. -/
theorem of_ite_ok {p : Prop} [Decidable p] {r rest : Except Reject Instr} {i : Instr} {P : Prop}
    (hrow : p → r = .ok i → P) (hrest : rest = .ok i → P) : (if p then r else rest) = .ok i → P := by
  split_ifs with hp
  · exact hrow hp
  · exact hrest

/-- The fields that the encoding of a command leaves zero are those that its row requires to be zero. -/
theorem encode_of_decodeFields {f : CmdFields} {i : Instr} : decodeFields f = .ok i → encode i = .command f.pack := by
  obtain ⟨op, num, dir, type, pid, epn, mps⟩ := f
  iterate 23
    refine of_ite_ok (fun hop hrow => ?_) ?_
    · obtain ⟨hzero, rfl⟩ := accept_ok.1 hrow
      obtain rfl := hop
      simp at hzero
      simp [encode, commandWord, hzero]
  exact nofun

theorem encode_of_decodeStandard {f : SetupFields} {i : Instr} (hstd : f.type = 0) :
    decodeStandard f = .ok i → encode i = .setup f.pack := by
  obtain ⟨bRequest, dir, type, recipient⟩ := f
  obtain rfl : type = 0 := hstd
  iterate 10
    refine of_ite_ok (fun hreq hrow => ?_) ?_
    · obtain rfl := hreq
      cases hrow
      simp [encode, setupWord]
  exact nofun

theorem encode_of_decodeSetupFields {f : SetupFields} {i : Instr} (h : decodeSetupFields f = .ok i) :
    encode i = .setup f.pack := by
  have htype : f.type ≠ 0 → f.type ≠ 1 → f.type ≠ 2 → f.type = 3 := by
    generalize f.type = t
    revert t
    decide
  rw [decodeSetupFields] at h
  split_ifs at h with h0 h1 h2
  · exact encode_of_decodeStandard h0 h
  · cases h; simp [encode, setupWord, ← h1]
  · cases h; simp [encode, setupWord, ← h2]
  · cases h; simp [encode, setupWord, ← htype h0 h1 h2]

theorem encode_of_decode {c : Code} {i : Instr} (h : decode c = .ok i) : encode i = c := by
  cases c with
  | command w => rw [encode_of_decodeFields h, CmdFields.pack_unpack]
  | setup w => rw [encode_of_decodeSetupFields h, SetupFields.pack_unpack]

/-! ### The words of a row -/

/-- The lemmas of the family `TableMatch` together. -/
theorem encode_selects (i : Instr) : (encode i).selects (tableRow i) = true := by
  cases i with
  | init => exact Laws.TableMatch.init
  | portreset => exact Laws.TableMatch.portreset
  | rdpkt => exact Laws.TableMatch.rdpkt
  | wrpkt num => exact Laws.TableMatch.wrpkt num
  | chopen num dir type epn mps => exact Laws.TableMatch.chopen num dir type epn mps
  | epact num dir type mps => exact Laws.TableMatch.epact num dir type mps
  | chhalt num => exact Laws.TableMatch.chhalt num
  | xferen num dir type pid mps => exact Laws.TableMatch.xferen num dir type pid mps
  | chena num => exact Laws.TableMatch.chena num
  | epstall num dir => exact Laws.TableMatch.epstall num dir
  | epclrstall num dir => exact Laws.TableMatch.epclrstall num dir
  | challoc => exact Laws.TableMatch.challoc
  | chfree num => exact Laws.TableMatch.chfree num
  | pipeget num dir => exact Laws.TableMatch.pipeget num dir
  | ctrlopen mps => exact Laws.TableMatch.ctrlopen mps
  | ctrlsubmit => exact Laws.TableMatch.ctrlsubmit
  | ctrlpoll => exact Laws.TableMatch.ctrlpoll
  | ctrlreq => exact Laws.TableMatch.ctrlreq
  | ctrlin => exact Laws.TableMatch.ctrlin
  | ctrlout => exact Laws.TableMatch.ctrlout
  | ctrlstall => exact Laws.TableMatch.ctrlstall
  | enumpoll => exact Laws.TableMatch.enumpoll
  | cfgparse => exact Laws.TableMatch.cfgparse
  | getStatus dir r => exact Laws.TableMatch.getStatus dir r
  | clearFeature dir r => exact Laws.TableMatch.clearFeature dir r
  | setFeature dir r => exact Laws.TableMatch.setFeature dir r
  | setAddress dir r => exact Laws.TableMatch.setAddress dir r
  | getDescriptor dir r => exact Laws.TableMatch.getDescriptor dir r
  | setDescriptor dir r => exact Laws.TableMatch.setDescriptor dir r
  | getConfiguration dir r => exact Laws.TableMatch.getConfiguration dir r
  | setConfiguration dir r => exact Laws.TableMatch.setConfiguration dir r
  | getInterface dir r => exact Laws.TableMatch.getInterface dir r
  | setInterface dir r => exact Laws.TableMatch.setInterface dir r
  | classRequest b dir r => exact Laws.TableMatch.classRequest b dir r
  | vendorRequest b dir r => exact Laws.TableMatch.vendorRequest b dir r
  | reservedTypeRequest b dir r => exact Laws.TableMatch.reservedTypeRequest b dir r

theorem CmdFields.unpack_inj {v w : BitVec 32} : CmdFields.unpack v = CmdFields.unpack w ↔ v = w :=
  ⟨fun h => by rw [← CmdFields.pack_unpack v, h, CmdFields.pack_unpack], congrArg _⟩
theorem SetupFields.unpack_inj {v w : BitVec 16} : SetupFields.unpack v = SetupFields.unpack w ↔ v = w :=
  ⟨fun h => by rw [← SetupFields.pack_unpack v, h, SetupFields.pack_unpack], congrArg _⟩

/-- Masking acts on a command word field by field, so a word selects a row iff each field does. -/
theorem selects_command_iff {w : BitVec 32} {f : CmdFields} (hf : CmdFields.unpack w = f) (m k : Nat) :
    (Code.command w).selects (m, k) = true ↔
      (⟨f.op &&& (CmdFields.unpack (.ofNat 32 k)).op, f.num &&& (CmdFields.unpack (.ofNat 32 k)).num,
        f.dir &&& (CmdFields.unpack (.ofNat 32 k)).dir, f.type &&& (CmdFields.unpack (.ofNat 32 k)).type,
        f.pid &&& (CmdFields.unpack (.ofNat 32 k)).pid, f.epn &&& (CmdFields.unpack (.ofNat 32 k)).epn,
        f.mps &&& (CmdFields.unpack (.ofNat 32 k)).mps⟩ : CmdFields) = CmdFields.unpack (.ofNat 32 m) := by
  subst hf
  simp only [Code.selects, beq_iff_eq]
  rw [← CmdFields.unpack_inj]
  simp only [CmdFields.unpack, BitVec.extractLsb'_and]

/-- The same for a request code. -/
theorem selects_setup_iff {w : BitVec 16} {f : SetupFields} (hf : SetupFields.unpack w = f) (m k : Nat) :
    (Code.setup w).selects (m, k) = true ↔
      (⟨f.bRequest &&& (SetupFields.unpack (.ofNat 16 k)).bRequest, f.dir &&& (SetupFields.unpack (.ofNat 16 k)).dir,
        f.type &&& (SetupFields.unpack (.ofNat 16 k)).type,
        f.recipient &&& (SetupFields.unpack (.ofNat 16 k)).recipient⟩ : SetupFields) =
        SetupFields.unpack (.ofNat 16 m) := by
  subst hf
  simp only [Code.selects, beq_iff_eq]
  rw [← SetupFields.unpack_inj]
  simp only [SetupFields.unpack, BitVec.extractLsb'_and]

theorem and_of_eq_allOnes {n : Nat} {x k : BitVec n} (h : k = BitVec.allOnes n) : x &&& k = x := by
  rw [h, BitVec.and_allOnes]

/-- The mask of a row keeps `op` and the must-be-zero fields: a command word that selects the row passes the row's test
with those fields zero. -/
theorem decodeCommand_of_selects {i : Instr} {v w : BitVec 32} (hi : encode i = .command v)
    (h : (Code.command w).selects (tableRow i) = true) :
    ∃ j, decodeCommand w = .ok j ∧ tableRow j = tableRow i := by
  rw [decodeCommand]
  generalize hf : CmdFields.unpack w = f
  obtain ⟨op, num, dir, type, pid, epn, mps⟩ := f
  cases i <;> simp only [encode, setupWord, commandWord, reduceCtorEq] at hi
  all_goals
    rw [tableRow, selects_command_iff hf] at h
    simp [CmdFields.unpack, and_of_eq_allOnes] at h
    simp [decodeFields, h, accept]
  all_goals rfl

/-- The mask of a request's row keeps the type, and `bRequest` where the type is Standard. -/
theorem decodeSetup_of_selects {i : Instr} {v w : BitVec 16} (hi : encode i = .setup v)
    (h : (Code.setup w).selects (tableRow i) = true) :
    ∃ j, decodeSetup w = .ok j ∧ tableRow j = tableRow i := by
  rw [decodeSetup]
  generalize hf : SetupFields.unpack w = f
  obtain ⟨bRequest, dir, type, recipient⟩ := f
  cases i <;> simp only [encode, setupWord, commandWord, reduceCtorEq] at hi
  all_goals
    rw [tableRow, selects_setup_iff hf] at h
    simp [SetupFields.unpack, and_of_eq_allOnes] at h
    simp [decodeSetupFields, decodeStandard, h]
  all_goals rfl

end Sys2Proof

open Sys2Proof Sys2Proof.Machine

/-- Settles O1 (`decode_encode`). -/
theorem decodeOfEncode : Obligations.DecodeOfEncode := decode_encode

/-- Settles O2: a word that selects a row decodes to an instruction of the row; one that decodes is the encoding of what
it decodes to, which selects its own row (`encode_selects`). -/
theorem wordsOfTheOpcodeTable : Obligations.WordsOfTheOpcodeTable := by
  refine ⟨fun c i => encode_of_decode, fun i v w hi => ⟨decodeCommand_of_selects hi, ?_⟩,
    fun i v w hi => ⟨decodeSetup_of_selects hi, ?_⟩⟩
  · rintro ⟨j, hdec, hrow⟩
    rw [← hrow, ← encode_of_decode (c := .command w) hdec]
    exact encode_selects j
  · rintro ⟨j, hdec, hrow⟩
    rw [← hrow, ← encode_of_decode (c := .setup w) hdec]
    exact encode_selects j

/-- Settles O3: fifteen closed decodings. -/
theorem decodedWords : Obligations.DecodedWords := by
  unfold Obligations.DecodedWords
  decide

end

section
/-! ## Refused commands (R104, R371) -/

namespace Sys2Proof.Machine

variable {s : State}

theorem needHost_bind_device {α : Type} {f : Unit → M α} (hm : s.mode = .DEVICE) :
    (needHost >>= f) s = .error (.refuse .WrongMode) s := by rw [needHost_bind_apply, if_pos (by simp [hm])]
theorem needDevice_bind_host {α : Type} {f : Unit → M α} (hm : s.mode = .HOST) :
    (needDevice >>= f) s = .error (.refuse .WrongMode) s := by rw [needDevice_bind_apply, if_pos (by simp [hm])]

/-- A word outside the range of its low `n` bits keeps a bit when they are shifted out. -/
theorem shiftRight_ne_zero {w : Word} {n : Nat} (h : 2 ^ n ≤ w.toNat) : w >>> n ≠ 0 := fun h0 => by
  have hdiv : w.toNat / 2 ^ n = 0 := by
    rw [← Nat.shiftRight_eq_div_pow, ← BitVec.toNat_ushiftRight, h0]; rfl
  exact absurd (Nat.div_pos h (Nat.two_pow_pos n)) (by omega)

/-! ### (a) Words of no row -/

theorem runCommand_undecoded {w : Word} (h : ∀ i, decodeCommand w ≠ .ok i) :
    runCommand w s = .next ((s.withCommand w).refusedWith .IllegalCommand) := by
  rw [runCommand]
  split
  · next i hi => exact absurd hi (h i)
  · rfl

/-! ### (b) Commands of the other mode -/

/-- Every host command, or the body it runs, begins with the mode check. -/
theorem exec_hostCommand_device (hm : s.mode = .DEVICE) (num epn : BitVec 4) (dir : Dir) (type : EpType)
    (mps : BitVec 11) :
    ∀ i ∈ [.portreset, .chopen num dir type epn mps, .chhalt num, .chena num, .challoc, .chfree num, .ctrlopen mps,
      .ctrlsubmit, .ctrlpoll, .ctrlreq, .enumpoll, .cfgparse], exec i s = .next (s.refusedWith .WrongMode) := by
  have direct (f : Unit → M Word) : commandOutcome (needHost >>= f) s = .next (s.refusedWith .WrongMode) :=
    commandOutcome_refuse (needHost_bind_device hm)
  have hsubmit (buf : Addr) (w0 w1 : Word) : ctrlSubmit buf w0 w1 s = .error (.refuse .WrongMode) s :=
    needHost_bind_device hm
  have hreq (buf : Addr) (w0 w1 : Word) : ctrlReq buf w0 w1 s = .error (.refuse .WrongMode) s :=
    needHost_bind_device hm
  have hparse (buf : Addr) (len : Nat) : cfgParse buf len s = .error (.refuse .WrongMode) s :=
    needHost_bind_device hm
  have hpoll : ctrlPoll s = .error (.refuse .WrongMode) s := needHost_bind_device hm
  have henum : enumPoll s = .error (.refuse .WrongMode) s := needHost_bind_device hm
  simp only [List.forall_mem_cons]
  exact ⟨direct _, direct _, direct _, direct _, direct _, direct _, direct _,
    commandOutcome_refuse ((get_bind_apply s _).trans (bind_error (hsubmit _ _ _))),
    commandOutcome_refuse (bind_error hpoll),
    commandOutcome_refuse ((get_bind_apply s _).trans (bind_error (hreq _ _ _))),
    commandOutcome_refuse (bind_error henum),
    commandOutcome_refuse ((get_bind_apply s _).trans (bind_error (hparse _ _))), List.forall_mem_nil _⟩

theorem exec_deviceCommand_host (hm : s.mode = .HOST) (num : BitVec 4) (dir : Dir) (type : EpType) (mps : BitVec 11) :
    ∀ i ∈ [.epact num dir type mps, .epstall num dir, .epclrstall num dir, .ctrlin, .ctrlout, .ctrlstall],
      exec i s = .next (s.refusedWith .WrongMode) := by
  have direct (f : Unit → M Word) : commandOutcome (needDevice >>= f) s = .next (s.refusedWith .WrongMode) :=
    commandOutcome_refuse (needDevice_bind_host hm)
  have hep0 (d : Dir) : ep0Command d s = .error (.refuse .WrongMode) s := needDevice_bind_host hm
  simp only [List.forall_mem_cons]
  exact ⟨direct _, direct _, direct _, commandOutcome_refuse (bind_error (hep0 _)),
    commandOutcome_refuse (bind_error (hep0 _)), direct _, List.forall_mem_nil _⟩

/-! ### (c) Operands out of range -/

theorem exec_host_badChannel (hm : s.mode = .HOST) {num : BitVec 4} (hnum : 11 < num.toNat) (epn : BitVec 4) (dir : Dir)
    (type : EpType) (pid : BitVec 2) (mps : BitVec 11) :
    ∀ i ∈ [.chopen num dir type epn mps, .chhalt num, .chena num, .chfree num, .pipeget num dir, .wrpkt num,
      .xferen num dir type pid mps], exec i s = .next (s.refusedWith .BadOperand) := by
  have hch {α : Type} (f : Ch → M α) : (chOperand num >>= f) s = .error (.refuse .BadOperand) s :=
    chOperand_bind_not s (by omega) f
  simp only [List.forall_mem_cons]
  refine ⟨?_, ?_, ?_, ?_, ?_, ?_, ?_, List.forall_mem_nil _⟩ <;> refine commandOutcome_refuse (t := s) ?_
  · simp [chopen, hm, hch]
  · simp [chhalt, hm, hch]
  · simp [chena, hm, hch]
  · simp [chfree, hm, hch]
  · simp [pipeget, hm, hch]
  · simp [wrpkt, hch]
  · simp [xferen, hm, hch]

/-- WRPKT checks for a channel number and for the wrap first (R141): `hwrap` leaves the check of the endpoint number. -/
theorem exec_device_badEndpoint (hm : s.mode = .DEVICE) {num : BitVec 4} (hnum : 7 < num.toNat)
    (hwrap : s.port.arg1.toNat + s.port.arg0.toNat ≤ 2 ^ 32) (dir : Dir) (type : EpType) (pid : BitVec 2)
    (mps : BitVec 11) :
    ∀ i ∈ [.epact num dir type mps, .epstall num dir, .epclrstall num dir, .pipeget num dir, .wrpkt num,
      .xferen num dir type pid mps], exec i s = .next (s.refusedWith .BadOperand) := by
  have hep {α : Type} (f : EpIx → M α) : (epOperand num >>= f) s = .error (.refuse .BadOperand) s :=
    epOperand_bind_not s (by omega) f
  have hfit : ¬ wraps s.port.arg1 s.port.arg0.toNat = true := by rw [wraps_iff]; omega
  simp only [List.forall_mem_cons]
  refine ⟨?_, ?_, ?_, ?_, ?_, ?_, List.forall_mem_nil _⟩ <;> refine commandOutcome_refuse (t := s) ?_
  · simp [epact, hm, hep]
  · simp [epstall, hm, hep]
  · simp [epclrstall, hm, hep]
  · rw [pipeget, get_bind_apply, hm]; exact hep _
  · rw [wrpkt, get_bind_apply]
    by_cases hch : num.toNat < 12
    · rw [chOperand_bind_of s hch, refuseIf_bind_neg hfit, refuseIf_bind_pos ⟨hm, hnum⟩]
    · exact chOperand_bind_not s hch _
  · simp [xferen, hm, hep]

theorem exec_xferen_badOperand (num : BitVec 4) (dir : Dir) (type : EpType) {pid : BitVec 2} {mps : BitVec 11}
    (h : mps = 0 ∨ pid = 3) : exec (.xferen num dir type pid mps) s = .next (s.refusedWith .BadOperand) :=
  commandOutcome_refuse (refuseIf_bind_pos h.symm)

theorem exec_chopen_badOperand (hm : s.mode = .HOST) (num epn : BitVec 4) (dir : Dir) (type : EpType) {mps : BitVec 11}
    (h : mps = 0 ∨ 128 ≤ s.port.arg0.toNat) :
    exec (.chopen num dir type epn mps) s = .next (s.refusedWith .BadOperand) := by
  refine commandOutcome_refuse (t := s) ?_
  rw [chopen, needHost_bind_of hm, get_bind_apply]
  by_cases hch : num.toNat < 12
  · rw [chOperand_bind_of s hch, refuseIf_bind_pos (h.imp_right shiftRight_ne_zero)]
  · exact chOperand_bind_not s hch _

theorem exec_ctrlopen_badOperand (hm : s.mode = .HOST) {mps : BitVec 11} (h : mps = 0 ∨ 128 ≤ s.port.arg0.toNat) :
    exec (.ctrlopen mps) s = .next (s.refusedWith .BadOperand) := by
  refine commandOutcome_refuse (t := s) ?_
  rw [ctrlopen, needHost_bind_of hm, get_bind_apply]
  by_cases haddr : s.port.arg0 >>> 7 = 0
  · have hmps : mps = 0 := h.resolve_right fun h => shiftRight_ne_zero h haddr
    rw [refuseIf_bind_neg (not_not.2 haddr)]
    exact bind_error (refuseIf_bind_pos hmps)
  · exact refuseIf_bind_pos haddr

theorem exec_epact_badOperand (hm : s.mode = .DEVICE) {num : BitVec 4} (dir : Dir) (type : EpType) {mps : BitVec 11}
    (h : mps = 0 ∨ num = 0 ∧ mps ≠ 8 ∧ mps ≠ 16 ∧ mps ≠ 32 ∧ mps ≠ 64) :
    exec (.epact num dir type mps) s = .next (s.refusedWith .BadOperand) := by
  refine commandOutcome_refuse (t := s) ?_
  rw [epact, needDevice_bind_of hm]
  by_cases hep : num.toNat < 8
  · rw [epOperand_bind_of s hep]
    by_cases hmps : mps = 0
    · exact refuseIf_bind_pos hmps
    · obtain ⟨rfl, hsize⟩ := h.resolve_left hmps
      rw [refuseIf_bind_neg hmps, refuseIf_bind_pos ⟨rfl, by simpa [isEp0Size, and_assoc] using hsize⟩]
  · exact epOperand_bind_not s hep _

theorem exec_init_badOperand (h : 2 ≤ s.port.arg0.toNat) : exec .init s = .next (s.refusedWith .BadOperand) :=
  commandOutcome_refuse (refuseIf_bind_pos (shiftRight_ne_zero h))

end Sys2Proof.Machine

open Sys2Proof Sys2Proof.Machine

/-- Settles O7: one lemma for each clause of R104 and each kind of operand. -/
theorem refusedCommands : Obligations.RefusedCommands :=
  ⟨fun _ _ => runCommand_undecoded, fun _ num epn dir type mps hm => exec_hostCommand_device hm num epn dir type mps,
    fun _ num dir type mps hm => exec_deviceCommand_host hm num dir type mps,
    fun _ _ epn dir type pid mps hm hnum => exec_host_badChannel hm hnum epn dir type pid mps,
    fun _ _ dir type pid mps hm hnum hwrap => exec_device_badEndpoint hm hnum hwrap dir type pid mps,
    fun _ num epn dir type _ _ => ⟨exec_xferen_badOperand num dir type,
      fun hm h => ⟨exec_chopen_badOperand hm num epn dir type h, exec_ctrlopen_badOperand hm h⟩,
      fun hm h => exec_epact_badOperand hm dir type h, exec_init_badOperand⟩⟩

end

section
/-! ## The register space (R106 to R109, R118, R119) -/

namespace Sys2Proof.Machine

/-! ### Bits of a word that is built bit by bit -/

theorem getLsbD_bitWord {n : Nat} (b : Bool) {i : Nat} (hi : i < n) :
    (bitWord b : BitVec n).getLsbD i = (decide (i = 0) && b) := by
  cases b <;> simp [bitWord, hi]

theorem getLsbD_putBit {n : Nat} (v : BitVec n) {i : Nat} (b : Bool) (hi : i < n) (j : Nat) :
    (putBit v i b).getLsbD j = if j = i then b else v.getLsbD j := by
  unfold putBit
  by_cases hj : j = i
  · subst hj; cases b <;> simp [hi]
  · cases b <;> simp [hj, Ne.symm hj]; exact BitVec.lt_of_getLsbD

section Fold
variable {α : Type} {n j : Nat} {f : BitVec n → α → BitVec n} {l : List α}

theorem getLsbD_foldl_of_keep (hkeep : ∀ c ∈ l, ∀ w, (f w c).getLsbD j = w.getLsbD j) (w : BitVec n) :
    (l.foldl f w).getLsbD j = w.getLsbD j := by
  induction l generalizing w with
  | nil => rfl
  | cons c l ih =>
    rw [List.foldl_cons, ih fun d hd => hkeep d (List.mem_cons_of_mem c hd), hkeep c List.mem_cons_self]

/-- A bit that one member of the list sets and no other touches. -/
theorem getLsbD_foldl_of_set {a : α} {b : Bool} (ha : a ∈ l) (hset : ∀ w, (f w a).getLsbD j = b)
    (hkeep : ∀ c, c ≠ a → ∀ w, (f w c).getLsbD j = w.getLsbD j) (w : BitVec n) :
    (l.foldl f w).getLsbD j = b := by
  induction l generalizing w with
  | nil => exact absurd ha List.not_mem_nil
  | cons c l ih =>
    rw [List.foldl_cons]
    by_cases hl : a ∈ l
    · exact ih hl _
    · obtain rfl : a = c := (List.mem_cons.1 ha).resolve_right hl
      rw [getLsbD_foldl_of_keep fun d hd => hkeep d fun e => hl (e ▸ hd), hset]

end Fold

/-- A field of a word is zero if its bits are. -/
theorem extract_eq_zero {m n a : Nat} {w : BitVec m} (h : ∀ i < n, w.getLsbD (a + i) = false) :
    w.extractLsb' a n = 0 := extract_eq fun i hi => by rw [h i hi]; simp

/-- Two fields, the lower one in the bits below `a`. -/
theorem getLsbD_twoFields {m k a i : Nat} (hi : BitVec k) (lo : BitVec m) (hm : m ≤ a) (hi32 : i < 32) :
    (hi.setWidth 32 <<< a ||| lo.setWidth 32 : Word).getLsbD i =
      if i < a then lo.getLsbD i else hi.getLsbD (i - a) := by
  by_cases h : i < a
  · simp [h, hi32]
  · have hlo : lo.getLsbD i = false := BitVec.getLsbD_of_ge lo i (by omega)
    simp [h, hi32, hlo]

theorem extract_twoFields {m k a : Nat} (hi : BitVec k) (lo : BitVec m) (hm : m ≤ a) (hk : a + k ≤ 32) :
    (hi.setWidth 32 <<< a ||| lo.setWidth 32 : Word).extractLsb' 0 m = lo ∧
    (hi.setWidth 32 <<< a ||| lo.setWidth 32 : Word).extractLsb' m (a - m) = 0 ∧
    (hi.setWidth 32 <<< a ||| lo.setWidth 32 : Word).extractLsb' a k = hi ∧
    (hi.setWidth 32 <<< a ||| lo.setWidth 32 : Word).extractLsb' (a + k) (32 - (a + k)) = 0 := by
  refine ⟨extract_eq fun i hi => ?_, extract_eq_zero fun i hi => ?_, extract_eq fun i hi => ?_,
    extract_eq_zero fun i hi => ?_⟩
  · rw [getLsbD_twoFields _ _ hm (by omega), if_pos (by omega), Nat.zero_add]
  · rw [getLsbD_twoFields _ _ hm (by omega), if_pos (by omega), BitVec.getLsbD_of_ge _ _ (by omega)]
  · rw [getLsbD_twoFields _ _ hm (by omega), if_neg (by omega), Nat.add_sub_cancel_left]
  · rw [getLsbD_twoFields _ _ hm (by omega), if_neg (by omega), BitVec.getLsbD_of_ge _ _ (by omega)]

/-! ### The layouts -/

theorem HostChannel.charWord_fields (c : HostChannel) :
    c.charWord.extractLsb' 0 11 = c.mps ∧ c.charWord.extractLsb' 11 4 = c.epNum ∧
    (c.charWord.getLsbD 15 = true ↔ c.dir = .IN) ∧ c.charWord.extractLsb' 16 2 = c.epType.bits ∧
    c.charWord.extractLsb' 18 7 = c.devAddr ∧ c.charWord.extractLsb' 25 4 = 0 ∧
    c.charWord.getLsbD 29 = c.oddFrame ∧ c.charWord.getLsbD 30 = c.chDis ∧ c.charWord.getLsbD 31 = c.chEna := by
  have hdir : c.dir.bit.getLsbD 0 = true ↔ c.dir = .IN := by cases c.dir <;> decide
  simp (disch := omega) only [HostChannel.charWord, BitVec.extractLsb'_append_eq_of_le, BitVec.extractLsb'_eq_self,
    BitVec.extractLsb'_append_eq_of_add_le, getLsbD_append_high, getLsbD_append_low, Nat.reduceSub, getLsbD_bitWord,
    decide_true, Bool.true_and, and_self, hdir]

theorem HostChannel.tsizWord_fields (c : HostChannel) :
    c.tsizWord.extractLsb' 0 19 = c.xferSize ∧ c.tsizWord.extractLsb' 19 10 = c.pktCnt ∧
    c.tsizWord.extractLsb' 29 2 = c.dpid.code ∧ c.tsizWord.getLsbD 31 = c.doPing := by
  simp (disch := omega) only [HostChannel.tsizWord, BitVec.extractLsb'_append_eq_of_le, BitVec.extractLsb'_eq_self,
    BitVec.extractLsb'_append_eq_of_add_le, getLsbD_append_high, Nat.reduceSub, getLsbD_bitWord,
    decide_true, Bool.true_and, and_self]

theorem DevEp.ctlWord_fields (e : DevEp) :
    e.ctlWord.extractLsb' 0 11 = e.mps ∧ e.ctlWord.extractLsb' 11 4 = 0 ∧ e.ctlWord.getLsbD 15 = e.active ∧
    e.ctlWord.extractLsb' 16 2 = e.epType.bits ∧ e.ctlWord.extractLsb' 18 3 = 0 ∧ e.ctlWord.getLsbD 21 = e.stall ∧
    e.ctlWord.extractLsb' 22 7 = 0 ∧ e.ctlWord.getLsbD 29 = e.oddFrame ∧ e.ctlWord.getLsbD 30 = false ∧
    e.ctlWord.getLsbD 31 = e.epEna := by
  simp (disch := omega) only [DevEp.ctlWord, BitVec.extractLsb'_append_eq_of_le, BitVec.extractLsb'_eq_self,
    BitVec.extractLsb'_append_eq_of_add_le, getLsbD_append_high, getLsbD_append_low, Nat.reduceSub, getLsbD_bitWord,
    decide_true, Bool.true_and, BitVec.ofNat_eq_ofNat, BitVec.getLsbD_zero, and_self]

theorem DevEp.tsizWord_fields (e : DevEp) :
    e.tsizWord.extractLsb' 0 19 = e.xferSize ∧ e.tsizWord.extractLsb' 19 10 = e.pktCnt ∧
    e.tsizWord.extractLsb' 29 2 = e.dpid.code ∧ e.tsizWord.getLsbD 31 = false := by
  simp (disch := omega) only [DevEp.tsizWord, BitVec.extractLsb'_append_eq_of_le, BitVec.extractLsb'_eq_self,
    BitVec.extractLsb'_append_eq_of_add_le, getLsbD_append_high, Nat.reduceSub, BitVec.ofNat_eq_ofNat,
    BitVec.getLsbD_zero, and_self]

/-- The flag and mask registers of an endpoint (R119): two flags, in bits 0 and 1. -/
theorem twoFlags_fields {a b : Bool} {w : Word} (hw : w = bitWord a ||| bitWord b <<< 1) :
    w.getLsbD 0 = a ∧ w.getLsbD 1 = b ∧ w.extractLsb' 2 30 = 0 := by
  subst hw
  cases a <;> cases b <;> decide

theorem HPort.word_fields (p : HPort) :
    p.word.getLsbD 0 = p.pcsts ∧ p.word.getLsbD 1 = p.pcdet ∧ p.word.getLsbD 2 = p.pena ∧
    p.word.getLsbD 3 = p.penchng ∧ p.word.getLsbD 4 = p.prst ∧ p.word.extractLsb' 5 2 = p.pspd.code ∧
    p.word.extractLsb' 7 25 = 0 := by
  simp (disch := omega) only [HPort.word, BitVec.extractLsb'_append_eq_of_le, BitVec.extractLsb'_eq_self,
    BitVec.extractLsb'_append_eq_of_add_le, getLsbD_append_high, getLsbD_append_low, Nat.reduceSub, getLsbD_bitWord,
    decide_true, Bool.true_and, and_self]

theorem State.txStatusWord_fields (s : State) (k : TxClass) (periodic flush : Bool) :
    (s.txStatusWord k periodic flush).extractLsb' 0 16 = BitVec.ofNat 16 (s.txSpace k) ∧
    (s.txStatusWord k periodic flush).extractLsb' 16 8 = BitVec.ofNat 8 (s.qSlots periodic) ∧
    (s.txStatusWord k periodic flush).extractLsb' 24 7 = 0 ∧
    (s.txStatusWord k periodic flush).getLsbD 31 = flush := by
  simp (disch := omega) only [State.txStatusWord, BitVec.extractLsb'_append_eq_of_le, BitVec.extractLsb'_eq_self,
    BitVec.extractLsb'_append_eq_of_add_le, getLsbD_append_high, Nat.reduceSub, getLsbD_bitWord,
    decide_true, Bool.true_and, and_self]

theorem GFlag.bit_lt (f : GFlag) : f.bit < 13 := by cases f <;> decide
/-- The list holds each flag at the place of its bit. -/
theorem allGFlags_bit (f : GFlag) : allGFlags[f.bit]? = some f := by cases f <;> rfl
theorem mem_allGFlags (f : GFlag) : f ∈ allGFlags := List.mem_of_getElem? (allGFlags_bit f)
theorem GFlag.bit_injective : Function.Injective GFlag.bit := fun f g h =>
  Option.some.inj (by rw [← allGFlags_bit f, h, allGFlags_bit g])

theorem State.gintstsWord_flag (s : State) (f : GFlag) : s.gintstsWord.getLsbD f.bit = s.gintsts f := by
  have hbit (g : GFlag) : g.bit < 32 := g.bit_lt.trans (by decide)
  refine getLsbD_foldl_of_set (mem_allGFlags f) (fun w => ?_) (fun g hg w => ?_) 0
  · rw [getLsbD_putBit w _ (hbit f), if_pos rfl]
  · rw [getLsbD_putBit w _ (hbit g), if_neg fun h => hg (GFlag.bit_injective h.symm)]

theorem State.gintstsWord_high (s : State) : s.gintstsWord.extractLsb' 13 19 = 0 := by
  refine extract_eq_zero fun i hi => ?_
  rw [State.gintstsWord, getLsbD_foldl_of_keep fun g _ w => ?_]
  · exact BitVec.getLsbD_zero
  · have hlt := g.bit_lt
    rw [getLsbD_putBit w _ (by omega), if_neg (by omega)]

theorem State.haintWord_channel (s : State) (i : Ch) : s.haintWord.getLsbD i.val = s.haint i := by
  refine getLsbD_foldl_of_set (mem_allCh i) (fun w => ?_) (fun c hc w => ?_) 0
  · rw [getLsbD_putBit w _ (by omega), if_pos rfl]
  · rw [getLsbD_putBit w _ (by omega), if_neg fun h => hc (Fin.ext h.symm)]

theorem State.haintWord_high (s : State) : s.haintWord.extractLsb' 12 20 = 0 := by
  refine extract_eq_zero fun i hi => ?_
  rw [State.haintWord, getLsbD_foldl_of_keep fun c _ w => ?_]
  · exact BitVec.getLsbD_zero
  · rw [getLsbD_putBit w _ (by omega), if_neg (by omega)]

/-- What one endpoint does to the word of DAINT: it sets its two bits. -/
theorem getLsbD_putEndpoint (w : Word) (n : EpIx) (a b : Bool) (j : Nat) :
    (putBit (putBit w n.val a) (16 + n.val) b).getLsbD j =
      if j = 16 + n.val then b else if j = n.val then a else w.getLsbD j := by
  rw [getLsbD_putBit _ _ (by omega), getLsbD_putBit _ _ (by omega)]

theorem State.daintWord_in (s : State) (n : EpIx) : s.daintWord.getLsbD n.val = s.inPending n := by
  refine getLsbD_foldl_of_set (mem_allEp n) (fun w => ?_) (fun m hm w => ?_) 0
  · rw [getLsbD_putEndpoint, if_neg (by omega), if_pos rfl]
  · rw [getLsbD_putEndpoint, if_neg (by omega), if_neg fun h => hm (Fin.ext h.symm)]

theorem State.daintWord_out (s : State) (n : EpIx) : s.daintWord.getLsbD (16 + n.val) = s.outPending n := by
  refine getLsbD_foldl_of_set (mem_allEp n) (fun w => ?_) (fun m hm w => ?_) 0
  · rw [getLsbD_putEndpoint, if_pos rfl]
  · rw [getLsbD_putEndpoint, if_neg fun h => hm (Fin.ext (by omega)), if_neg (by omega)]

theorem State.daintWord_gap (s : State) {a : Nat} (ha : a = 8 ∨ a = 24) : s.daintWord.extractLsb' a 8 = 0 := by
  refine extract_eq_zero fun i hi => ?_
  rw [State.daintWord, getLsbD_foldl_of_keep fun n _ w => ?_]
  · exact BitVec.getLsbD_zero
  · rw [getLsbD_putEndpoint, if_neg (by omega), if_neg (by omega)]

theorem State.epTxfe_eq (s : State) (n : EpIx) : s.epTxfe n = decide (s.txqAt (Tgt.ep .IN n).num = []) := by
  rw [State.epTxfe, Tgt.num]
  cases s.txqAt _ <;> rfl

/-! ### Which register an offset names -/

theorem State.regWord_channel (s : State) (i : Ch) {off k : Nat} (hoff : off = 0x100 + 16 * i.val + k) (hk : k < 16) :
    s.regWord off = s.chWord i k := by
  subst hoff
  have hch : (⟨(0x100 + 16 * i.val + k - 0x100) / 16, by omega⟩ : Ch) = i := Fin.ext (by simp only; omega)
  have hreg : (0x100 + 16 * i.val + k) % 16 = k := by omega
  rw [State.regWord, if_neg (by omega), dif_pos (by omega), hch, hreg]

theorem State.regWord_endpoint (s : State) (d : Dir) (n : EpIx) {off k : Nat}
    (hoff : off = (if d = .IN then 0x200 else 0x300) + 16 * n.val + k) (hk : k < 16) :
    s.regWord off = s.epWord d n k := by
  cases d with
  | IN =>
    obtain rfl : off = 0x200 + 16 * n.val + k := hoff
    have hep (h) : (⟨(0x200 + 16 * n.val + k - 0x200) / 16, h⟩ : EpIx) = n := Fin.ext (by simp only; omega)
    have hreg : (0x200 + 16 * n.val + k) % 16 = k := by omega
    rw [State.regWord, if_neg (by omega), dif_neg (by omega), dif_pos (by omega), hep, hreg]
  | OUT =>
    obtain rfl : off = 0x300 + 16 * n.val + k := hoff
    have hep (h) : (⟨(0x300 + 16 * n.val + k - 0x300) / 16, h⟩ : EpIx) = n := Fin.ext (by simp only; omega)
    have hreg : (0x300 + 16 * n.val + k) % 16 = k := by omega
    rw [State.regWord, if_neg (by omega), dif_neg (by omega), dif_neg (by omega), dif_pos (by omega), hep, hreg]

theorem regWrite_hcint (s : State) (i : Ch) (w : Word) :
    regWrite (0x108 + 16 * i.val) w s =
      .next (s.setHc i { s.hcAt i with int := (s.hcAt i).int &&& ~~~(w.extractLsb' 0 11) }) := by
  have hch (h) : (⟨(0x108 + 16 * i.val - 0x100) / 16, h⟩ : Ch) = i := Fin.ext (by simp only; omega)
  rw [regWrite, if_neg (by omega), if_neg (by omega), if_neg (by omega), if_neg (by omega), dif_neg (by omega),
    dif_pos (by omega)]
  simp only [hch]

theorem regWrite_txport (s : State) (c : Ch) (w : Word) :
    regWrite (0x400 + 4 * c.val) w s = .next (finalState (txPush c w) s) := by
  have hch (h) : (⟨(0x400 + 4 * c.val - 0x400) / 4, h⟩ : Ch) = c := Fin.ext (by simp only; omega)
  rw [regWrite, if_neg (by omega), if_neg (by omega), if_neg (by omega), if_neg (by omega), dif_pos (by omega), hch]

section Access
variable {s : State}

theorem foreground_of {k : State → Host.Outcome State Fault Refusal} (h : s.env.fgStuck = false) :
    foreground s k = k s := by rw [foreground, h, if_neg Bool.false_ne_true]

theorem runMove_regRead (h : s.env.fgStuck = false) (off : Nat) :
    runMove (.regRead off) s = .next (finalState (regRead off) (s.logged (.regRead off))) := by
  rw [runMove, foreground_of h]

theorem runMove_regWrite (h : s.env.fgStuck = false) {off : Nat} (hoff : off ≠ 0x040) (w : Word) :
    runMove (.regWrite off w) s = regWrite off w (s.logged (.regWrite off w)) := by
  rw [runMove, foreground_of h, if_neg hoff]

theorem runMove_regRead_plain (h : s.env.fgStuck = false) {off : Nat} (hoff : off ≠ 0x00C) :
    runMove (.regRead off) s = .next { s with env.rdata := s.regWord off, env.log := .regRead off :: s.env.log } := by
  rw [runMove_regRead h, regRead, if_neg hoff]; rfl

theorem runMove_regRead_pop (h : s.env.fgStuck = false) {w : Word} {q : List Word} (hq : s.fifo.rxq = w :: q) :
    runMove (.regRead 0x00C) s = .next { s with
      fifo.rxq := q, env.rdata := w, env.log := .rxPop w :: .regRead 0x00C :: s.env.log } := by
  have hpop := rxPop_cons (s := s.logged (.regRead 0x00C)) hq
  rw [runMove_regRead h, regRead, if_pos rfl, finalState, bind_ok hpop]; rfl

theorem runMove_regRead_underflow (h : s.env.fgStuck = false) (hq : s.fifo.rxq = []) :
    runMove (.regRead 0x00C) s = .next { s with
      fault.rxUnderflow := true, env.log := .regRead 0x00C :: s.env.log } := by
  have hpop := rxPop_nil (s := s.logged (.regRead 0x00C)) hq
  rw [runMove_regRead h, regRead, if_pos rfl, finalState, bind_error hpop]; rfl

theorem runMove_txport (h : s.env.fgStuck = false) (c : Ch) (w : Word) :
    runMove (.regWrite (0x400 + 4 * c.val) w) s =
      .next (finalState (txPush c w) (s.logged (.regWrite (0x400 + 4 * c.val) w))) := by
  rw [runMove_regWrite h (by omega), regWrite_txport]

theorem runMove_txport_push (h : s.env.fgStuck = false) (c : Ch) (w : Word) (hspace : s.txSpace (s.classOf c) ≠ 0) :
    runMove (.regWrite (0x400 + 4 * c.val) w) s = .next { s.setTxq c
      (s.txqAt c ++ [w]) with env.log := .txPush c w :: .regWrite (0x400 + 4 * c.val) w :: s.env.log } := by
  rw [runMove_txport h, finalState_ok (txPush_ok w (by simpa using Nat.pos_of_ne_zero hspace))]; rfl

theorem runMove_txport_overflow (h : s.env.fgStuck = false) (c : Ch) (w : Word)
    (hspace : s.txSpace (s.classOf c) = 0) :
    runMove (.regWrite (0x400 + 4 * c.val) w) s = .next { s with
      fault.txOverflow := true, env.log := .regWrite (0x400 + 4 * c.val) w :: s.env.log } := by
  rw [runMove_txport h, finalState_error (txPush_overflow w (by simpa using hspace))]; rfl

theorem runMove_hcint (h : s.env.fgStuck = false) (i : Ch) (w : Word) :
    runMove (.regWrite (0x108 + 16 * i.val) w) s = .next { s.setHc i { s.hcAt i with
      int := (s.hcAt i).int &&& ~~~(w.extractLsb' 0 11) } with
        env.log := .regWrite (0x108 + 16 * i.val) w :: s.env.log } := by
  rw [runMove_regWrite h (by omega), regWrite_hcint]; rfl

theorem runMove_regWrite_ignored (h : s.env.fgStuck = false) (w : Word) :
    ∀ off ∈ [0x028, 0x034, 0x054],
      runMove (.regWrite off w) s = .next { s with env.log := .regWrite off w :: s.env.log } := by
  simp only [List.forall_mem_cons]
  exact ⟨runMove_regWrite h (by decide) w, runMove_regWrite h (by decide) w, runMove_regWrite h (by decide) w,
    List.forall_mem_nil _⟩

end Access

end Sys2Proof.Machine

open Sys2Proof Sys2Proof.Machine

/-- Settles O60: an offset names a register of a channel or of an endpoint (`State.regWord_channel`,
`State.regWord_endpoint`), the `_fields` lemmas give the layout of its word, and the `runMove_` lemmas say what an
access does. -/
theorem registerWords : Obligations.RegisterWords := by
  refine ⟨fun s off hoff h => runMove_regRead_plain h hoff, fun s i w z hw hz => ?_,
    fun s n d base c z f m hbase hc hz hf hm => ?_, fun s => ?_, fun s w h => ?_,
    fun s i w h => runMove_hcint h i w, fun s w q h => ⟨runMove_regRead_pop h, runMove_regRead_underflow h⟩,
    fun s c w h => ⟨runMove_txport_push h c w, runMove_txport_overflow h c w⟩⟩
  · rw [s.regWord_channel i (k := 0) (by omega) (by decide)] at hw
    rw [s.regWord_channel i (k := 4) (by omega) (by decide)] at hz
    rw [s.regWord_channel i (k := 8) (by omega) (by decide), s.regWord_channel i (k := 12) (by omega) (by decide)]
    obtain ⟨hmps, hnum, hdir, htype, haddr, hw25, hodd, hdis, hena⟩ := (s.hcAt i).charWord_fields
    obtain ⟨hsize, hpkt, hpid, hping⟩ := (s.hcAt i).tsizWord_fields
    subst hw hz
    exact ⟨hmps, hnum, hdir, htype, haddr, hw25, hodd, hdis, hena, hsize, hpkt, hpid, hping, rfl, rfl⟩
  · rw [s.regWord_endpoint d n (k := 0) (by omega) (by decide)] at hc
    rw [s.regWord_endpoint d n (k := 4) (by omega) (by decide)] at hz
    rw [s.regWord_endpoint d n (k := 8) (by omega) (by decide)] at hf
    rw [s.regWord_endpoint d n (k := 12) (by omega) (by decide)] at hm
    obtain ⟨hmps, hc11, hactive, htype, hc18, hstall, hc22, hodd, hc30, hena⟩ := (s.epAt d n).ctlWord_fields
    obtain ⟨hsize, hpkt, hpid, hz31⟩ := (s.epAt d n).tsizWord_fields
    obtain ⟨hxfrc, haux, hf2⟩ := twoFlags_fields hf
    obtain ⟨hmxfrc, hmaux, hm2⟩ := twoFlags_fields hm
    subst hc hz
    refine ⟨hmps, hc11, hactive, htype, hc18, hstall, hc22, hodd, hc30, hena, hsize, hpkt, hpid, hz31, hxfrc,
      haux.trans ?_, hf2, hmxfrc, hmaux, hm2⟩
    cases d with
    | IN => exact s.epTxfe_eq n
    | OUT => rfl
  · obtain ⟨hnp0, hnp16, hnp24, hnp31⟩ := s.txStatusWord_fields .NP false s.fifo.qFlushNP
    obtain ⟨hp0, hp16, hp24, hp31⟩ := s.txStatusWord_fields .P true s.fifo.qFlushP
    obtain ⟨hpcsts, hpcdet, hpena, hpenchng, hprst, hpspd, hhprt7⟩ := s.hprt.word_fields
    obtain ⟨hdcfg0, -, hdcfg8, hdcfg10⟩ :=
      extract_twoFields (a := 8) s.dev.speed.code s.dev.addr (by decide) (by decide)
    have hdcfg7 : (s.regWord 0x030).getLsbD 7 = false :=
      (getLsbD_twoFields _ _ (by decide) (by decide)).trans (BitVec.getLsbD_of_ge _ _ (le_refl 7))
    obtain ⟨hmsk0, hmsk8, hmsk16, hmsk24⟩ :=
      extract_twoFields (a := 16) s.dep.daintmskOut s.dep.daintmskIn (by decide) (by decide)
    refine ⟨?_, s.gintstsWord_flag, s.gintstsWord_high, rfl, hnp0, hnp16, hnp24, hnp31, hp0, hp16, hp24, hp31, rfl,
      rfl, rfl, hpcsts, hpcdet, hpena, hpenchng, hprst, hpspd, hhprt7, s.haintWord_channel, s.haintWord_high, rfl,
      hdcfg0, hdcfg7, hdcfg8, hdcfg10, fun n => ⟨(s.daintWord_in n).trans ?_, s.daintWord_out n⟩,
      s.daintWord_gap (.inl rfl), s.daintWord_gap (.inr rfl), hmsk0, hmsk8, hmsk16, hmsk24, rfl, rfl, rfl, rfl, rfl,
      rfl⟩
    · show s.mode.code.setWidth 32 = _
      cases s.mode <;> rfl
    · rw [State.inPending, State.epTxfe_eq]
  · refine ⟨?_, runMove_regWrite h (by decide) w, runMove_regWrite h (by decide) w, runMove_regWrite h (by decide) w,
      runMove_regWrite h (by decide) w, runMove_regWrite_ignored h w⟩
    rw [runMove, runMove, foreground_of h, foreground_of h, if_pos rfl]

end

section
/-! ## FIFO transport (R140 to R142) -/

namespace Sys2Proof.Machine

/-! ### Past the checks of a command, it runs the transfer -/

theorem rdpkt_of_fits {s : State} (hfit : s.port.arg1.toNat + s.port.arg0.toNat ≤ 2 ^ 32) :
    rdpkt s = (readPacket s.port.arg1 s.port.arg0.toNat >>= fun _ => pure 0) s :=
  refuseIf_bind_neg (by rw [wraps_iff]; omega)

theorem wrpkt_of_fits {s : State} {c : Ch} (hc : s.mode = .DEVICE → c.val < 8)
    (hfit : s.port.arg1.toNat + s.port.arg0.toNat ≤ 2 ^ 32) :
    wrpkt (.ofNat 4 c) s = (writePacket c s.port.arg1 s.port.arg0.toNat >>= fun _ => pure 0) s := by
  have hnum : ¬ (s.mode = .DEVICE ∧ 7 < c.val) := fun ⟨hm, h⟩ => absurd (hc hm) (by omega)
  rw [wrpkt, get_bind_apply, chOperand_ofNat_bind, refuseIf_bind_neg (by rw [wraps_iff]; omega),
    refuseIf_bind_neg hnum]

/-! ### A buffer that wraps is refused -/

theorem exec_rdpkt_wraps {s : State} (hwrap : 2 ^ 32 < s.port.arg1.toNat + s.port.arg0.toNat) :
    exec .rdpkt s = .next (s.refusedWith .AddrWrap) :=
  commandOutcome_refuse (refuseIf_bind_pos ((wraps_iff _ _).mpr hwrap))

/-- The wrap is checked before the endpoint number of device mode, so the number does not matter. -/
theorem exec_wrpkt_wraps {s : State} (c : Ch) (hwrap : 2 ^ 32 < s.port.arg1.toNat + s.port.arg0.toNat) :
    exec (.wrpkt (.ofNat 4 c)) s = .next (s.refusedWith .AddrWrap) :=
  commandOutcome_refuse (t := s) (by
    rw [wrpkt, get_bind_apply, chOperand_ofNat_bind, refuseIf_bind_pos ((wraps_iff _ _).mpr hwrap)])

end Sys2Proof.Machine

open Sys2Proof Sys2Proof.Machine

/-- Settles O9: past the wrap check RDPKT is `ReadPacket`, which completes (`readPacket_ok`) or finds the RxFIFO empty
(`readPacket_underflow`). -/
theorem rdpktResult : Obligations.RdpktResult := by
  intro s hm
  refine ⟨fun hfit hwords => ?_, fun hfit hwords => ?_, exec_rdpkt_wraps⟩
  · obtain ⟨t, hrun, ⟨q, m, l, rfl⟩, hq, -, hbytes, hkept⟩ :=
      readPacket_ok (dst := s.port.arg1) hm hwords (by omega)
    obtain rfl : q = _ := hq
    exact ⟨m, l, commandOutcome_ok ((rdpkt_of_fits hfit).trans (bind_ok hrun)), hbytes, hkept⟩
  · obtain ⟨t, hrun, ⟨q, m, l, rfl⟩, hq, -, hbytes, hkept⟩ :=
      readPacket_underflow (dst := s.port.arg1) hm hwords (by omega)
    obtain rfl : q = [] := hq
    exact ⟨m, l, commandOutcome_raised ((rdpkt_of_fits hfit).trans (bind_error hrun)), hbytes, hkept⟩

/-- Settles O10: past the checks WRPKT is `WritePacket`, which completes (`writePacket_ok`) or runs out of free words
(`writePacket_overflow`). -/
theorem wrpktResult : Obligations.WrpktResult := by
  intro s c hc
  refine ⟨fun hfit hwords => ?_, fun hfit hwords => ?_, exec_wrpkt_wraps c⟩
  · obtain ⟨t, W, hrun, ⟨l, d, rfl⟩, hlen, -, hbytes⟩ := writePacket_ok (src := s.port.arg1) hwords
    exact ⟨W, l, d, ⟨hlen, hbytes⟩, commandOutcome_ok ((wrpkt_of_fits hc hfit).trans (bind_ok hrun))⟩
  · obtain ⟨t, W, hrun, ⟨l, d, rfl⟩, hcarries⟩ := writePacket_overflow (src := s.port.arg1) hwords
    exact ⟨W, l, d, hcarries, commandOutcome_raised ((wrpkt_of_fits hc hfit).trans (bind_error hrun))⟩

/-- Settles O11: the words that WRPKT pushes carry the bytes at the source (`wrpktResult`), and RDPKT writes the bytes
that its words carry (`rdpktResult`), none of them from the padding. -/
theorem fifoRoundTrip : Obligations.FifoRoundTrip := by
  intro s c hc hfit hwords
  obtain ⟨hcompletes, -, -⟩ := wrpktResult s c hc
  obtain ⟨W, l, d, ⟨hlen, hcarries⟩, hwr⟩ := hcompletes hfit hwords
  refine ⟨_, W, hwr, State.txqAt_setTxq_same _ _ _, fun u hq _ hm harg hfit' => ?_⟩
  obtain ⟨hreads, -, -⟩ := rdpktResult u hm
  subst hq
  rw [← harg] at hlen hcarries ⊢
  obtain ⟨m, l', hrd, hbytes, -⟩ := hreads hfit' hlen.ge
  exact ⟨_, hrd, List.drop_eq_nil_of_le hlen.le, fun k hk => (hbytes k hk).trans (hcarries k hk)⟩

end

section
/-! ## The channel and endpoint driver: opening, halting, enabling, stalling (R150 to R156, R163 to R165) -/

namespace Sys2Proof.Machine

variable {s : State}

/-! ### Opening -/

theorem shiftRight_eq_zero {w : Word} {n : Nat} (h : w.toNat < 2 ^ n) : w >>> n = 0 := by
  apply BitVec.eq_of_toNat_eq
  rw [BitVec.toNat_ushiftRight, Nat.shiftRight_eq_div_pow, Nat.div_eq_of_lt h]
  rfl

theorem pingFor_eq (sp : Speed) (type : EpType) (dir : Dir) :
    pingFor sp type dir = decide (sp = .HIGH ∧ dir = .OUT ∧ (type = .CONTROL ∨ type = .BULK)) := by
  rw [pingFor, Bool.decide_and, Bool.decide_and, Bool.decide_or, Bool.and_assoc]

/-- With its operands in range CHOPEN is `OpenChannel`. -/
theorem chopen_of_inRange (hm : s.mode = .HOST) (c : Ch) (dir : Dir) (type : EpType) (epn : BitVec 4) {mps : BitVec 11}
    (hmps : mps ≠ 0) (haddr : s.port.arg0.toNat < 128) :
    chopen (.ofNat 4 c) dir type epn mps s =
      (openChannel c s.devAddrArg type mps dir epn >>= fun _ => pure 0) s := by
  have hrange : ¬ (mps = 0 ∨ s.port.arg0 >>> 7 ≠ 0) := not_or.2 ⟨hmps, not_not.2 (shiftRight_eq_zero haddr)⟩
  rw [chopen, needHost_bind_of hm, get_bind_apply, chOperand_ofNat_bind, refuseIf_bind_neg hrange]

/-- The register writes of CHOPEN (R150) in one update. -/
theorem State.openChannel_eq (s : State) (c : Ch) (devAddr : BitVec 7) (type : EpType) (mps : BitVec 11) (dir : Dir)
    (epn : BitVec 4) :
    s.openChannel c devAddr type mps dir epn = { (s.setHc c { s.hcAt c with
        mps := mps, epNum := epn, dir := dir, epType := type, devAddr := devAddr
        doPing := decide (s.host.speed = .HIGH ∧ dir = .OUT ∧ (type = .CONTROL ∨ type = .BULK))
        int := 0, intMsk := chMask type dir }).setPipe c
        { s.pipeAt c with dir := dir, mps := mps, epType := type } with
      haintmsk := s.haintmsk ||| BitVec.twoPow 12 c.val
      gintmsk := s.gintmsk ||| 0x008 } := by
  rw [← pingFor_eq]; rfl

/-- With its operands in range EPACT refuses an armed endpoint and activates any other. -/
theorem epact_of_inRange (hm : s.mode = .DEVICE) (n : EpIx) (dir : Dir) (type : EpType) {mps : BitVec 11}
    (hmps : mps ≠ 0) (hsize : n = 0 → mps = 8 ∨ mps = 16 ∨ mps = 32 ∨ mps = 64) :
    epact (.ofNat 4 n) dir type mps s = (refuseIf ((s.epAt dir n).epEna = true) .ChannelBusy >>= fun _ =>
      upd (fun s => s.activateEp n type mps dir) >>= fun _ => pure 0) s := by
  have hcode : ¬ (n = 0 ∧ isEp0Size mps = false) := fun ⟨hn, h⟩ => by
    have hsize := hsize hn
    simp only [isEp0Size, Bool.or_eq_false_iff, decide_eq_false_iff_not, and_assoc] at h
    tauto
  rw [epact, needDevice_bind_of hm, epOperand_ofNat_bind, refuseIf_bind_neg hmps, refuseIf_bind_neg hcode,
    get_bind_apply]

/-- The register writes of EPACT (R153, R154) in one update. -/
theorem State.activateEp_eq (s : State) (n : EpIx) (type : EpType) (mps : BitVec 11) (dir : Dir) :
    s.activateEp n type mps dir = { s.setEp dir n { s.epAt dir n with
        active := true, epType := type, stall := false, dpid := .DATA0, xfrc := false, stup := false
        mps := if n = 0 then (if mps = 64 then 0 else if mps = 32 then 1 else if mps = 16 then 2 else 3) else mps
        mXfrc := true, mAux := decide (dir = .OUT ∧ n = 0) } with
      dep.daintmskIn := if dir = .IN then s.dep.daintmskIn ||| BitVec.twoPow 8 n.val else s.dep.daintmskIn
      dep.daintmskOut := if dir = .OUT then s.dep.daintmskOut ||| BitVec.twoPow 8 n.val else s.dep.daintmskOut } := by
  cases dir with
  | IN => rfl
  | OUT => rw [State.activateEp]; simp only [true_and]; rfl

/-! ### Halting -/

/-- Only the flush bit of a full queue is set (R155). -/
theorem State.flushIfFull_eq (s : State) (p : Bool) :
    (if s.qSlots p = 0 then s.setQFlush p true else s) = { s with
      fifo.qFlushNP := s.fifo.qFlushNP || (!p && decide (s.fifo.qSlotsNP = 0))
      fifo.qFlushP := s.fifo.qFlushP || (p && decide (s.fifo.qSlotsP = 0)) } := by
  cases p <;> simp only [State.qSlots, State.setQFlush, Bool.false_eq_true, if_false, if_true] <;> split <;> simp [*]

theorem State.halt_of_active {c : Ch} (h : s.runState c = .ACTIVE) :
    s.halt c = { s.setHc c { s.hcAt c with chDis := true } with
      fifo.qFlushNP := s.fifo.qFlushNP || (!periodicType (s.hcAt c).epType && decide (s.fifo.qSlotsNP = 0))
      fifo.qFlushP := s.fifo.qFlushP || (periodicType (s.hcAt c).epType && decide (s.fifo.qSlotsP = 0)) } := by
  rw [State.halt, if_pos h]
  simp only [State.flushIfFull_eq]
  rfl

theorem State.halt_of_not_active {c : Ch} (h : s.runState c ≠ .ACTIVE) : s.halt c = s := by
  rw [State.halt, if_neg h]

theorem State.halt_mode (s : State) (c : Ch) : (s.halt c).mode = s.mode := by
  by_cases h : s.runState c = .ACTIVE
  · rw [State.halt_of_active h]; rfl
  · rw [State.halt_of_not_active h]

theorem exec_chhalt (hm : s.mode = .HOST) (c : Ch) :
    exec (.chhalt (.ofNat 4 c)) s = .next { s.halt c with port.res := 0 } :=
  commandOutcome_ok (by rw [chhalt, needHost_bind_of hm, chOperand_ofNat_bind]; rfl)

/-- A halt leaves no channel ACTIVE to be halted again (R156). -/
theorem State.runState_halt_ne_active (s : State) (c : Ch) : (s.halt c).runState c ≠ .ACTIVE := by
  by_cases h : s.runState c = .ACTIVE
  · rw [State.halt_of_active h, Ne, State.runState_active_iff]
    rintro ⟨-, hdis⟩
    have hset := s.hcAt_setHc_same c { s.hcAt c with chDis := true }
    exact absurd ((congrArg HostChannel.chDis hset).symm.trans hdis) (by simp)
  · rwa [State.halt_of_not_active h]

/-! ### Enabling and stalling -/

theorem exec_chena (hm : s.mode = .HOST) (c : Ch) :
    exec (.chena (.ofNat 4 c)) s =
      .next { s.setHc c { s.hcAt c with chEna := true, chDis := false } with port.res := 0 } :=
  commandOutcome_ok (by rw [chena, needHost_bind_of hm, chOperand_ofNat_bind]; rfl)

theorem exec_epstall (hm : s.mode = .DEVICE) (n : EpIx) (dir : Dir) :
    exec (.epstall (.ofNat 4 n) dir) s =
      .next { s.setEp dir n { s.epAt dir n with stall := true } with port.res := 0 } :=
  commandOutcome_ok (by rw [epstall, needDevice_bind_of hm, epOperand_ofNat_bind]; rfl)

theorem exec_epclrstall (hm : s.mode = .DEVICE) (n : EpIx) (dir : Dir) :
    exec (.epclrstall (.ofNat 4 n) dir) s =
      .next { s.setEp dir n { s.epAt dir n with stall := false, dpid := .DATA0 } with port.res := 0 } :=
  commandOutcome_ok (by rw [epclrstall, needDevice_bind_of hm, epOperand_ofNat_bind]; rfl)

end Sys2Proof.Machine

open Sys2Proof Sys2Proof.Machine

/-- Settles O12: in range CHOPEN is `OpenChannel` (`chopen_of_inRange`), whose writes `State.openChannel_eq` says; the
enable sets are a finite table. -/
theorem chopenResult : Obligations.ChopenResult := by
  refine ⟨fun s c dir type epn mps hm hmps haddr => ⟨fun hidle => ?_, fun hbusy => ?_⟩,
    rfl, rfl, rfl, rfl, rfl, rfl, rfl, rfl, fun type dir => ?_⟩
  · have hopen := openChannel_ok s.devAddrArg type mps dir epn hidle
    rw [State.openChannel_eq] at hopen
    exact commandOutcome_ok ((chopen_of_inRange hm c dir type epn hmps haddr).trans (bind_ok hopen))
  · have hrefused := openChannel_busy s.devAddrArg type mps dir epn hbusy
    exact commandOutcome_refuse ((chopen_of_inRange hm c dir type epn hmps haddr).trans (bind_error hrefused))
  · cases type <;> cases dir <;> decide

/-- Settles O13: in range EPACT checks only that the endpoint is not armed (`epact_of_inRange`), and its writes are those
of `State.activateEp_eq`. -/
theorem epactResult : Obligations.EpactResult := by
  intro s n dir type mps hm hmps hsize
  have hrun := epact_of_inRange hm n dir type hmps hsize
  refine ⟨fun hidle => ?_, fun harmed => commandOutcome_refuse (hrun.trans (refuseIf_bind_pos harmed))⟩
  rw [refuseIf_bind_neg (by simp [hidle]), upd_bind_apply, State.activateEp_eq] at hrun
  exact commandOutcome_ok hrun

/-- Settles O14: CHHALT is `Halt` (`exec_chhalt`), which acts on an ACTIVE channel only (`State.halt_of_active`) and
leaves none (`State.runState_halt_ne_active`). -/
theorem chhaltResult : Obligations.ChhaltResult := by
  refine ⟨fun s c hm => ⟨fun hena hdis => ?_, fun h => ?_⟩, fun s t c hm ht => ?_⟩
  · rw [exec_chhalt hm, State.halt_of_active ((s.runState_active_iff c).2 ⟨hena, hdis⟩)]
  · have hidle : s.runState c ≠ .ACTIVE := fun hact => by
      obtain ⟨hena, hdis⟩ := (s.runState_active_iff c).1 hact
      simp [hena, hdis] at h
    rw [exec_chhalt hm, State.halt_of_not_active hidle]
  · have hhalt : { s.halt c with port.res := 0 } = t := Host.Outcome.next.inj ((exec_chhalt hm c).symm.trans ht)
    have hmode : t.mode = .HOST := hhalt ▸ (s.halt_mode c).trans hm
    have hidle : t.runState c ≠ .ACTIVE := hhalt ▸ s.runState_halt_ne_active c
    rw [exec_chhalt hmode, State.halt_of_not_active hidle, ← hhalt]

/-- Settles O19: `exec_chena`, the two checks before it, and sixteen closed decodings. -/
theorem chenaResult : Obligations.ChenaResult := by
  refine ⟨fun s c hm => exec_chena hm c, fun s num hm => ?_, fun s num hm hnum => ?_, by decide⟩
  · exact commandOutcome_refuse (needHost_bind_device hm)
  · exact exec_host_badChannel hm hnum 0 .OUT .CONTROL 0 0 (.chena num) (by simp)

/-- Settles O20: `exec_epstall` and `exec_epclrstall`, the two checks before them, and closed decodings. -/
theorem endpointStallResult : Obligations.EndpointStallResult := by
  refine ⟨fun s n dir hm => ⟨exec_epstall hm n dir, exec_epclrstall hm n dir⟩, fun s num dir hm => ?_,
    fun s num dir hm hnum => ?_, ?_⟩
  · exact ⟨commandOutcome_refuse (needDevice_bind_host hm), commandOutcome_refuse (needDevice_bind_host hm)⟩
  · have hbad {m : EpIx → M Word} : (needDevice >>= fun _ => epOperand num >>= m) s = .error (.refuse .BadOperand) s := by
      rw [needDevice_bind_of hm, epOperand_bind_not s (by omega)]
    exact ⟨commandOutcome_refuse hbad, commandOutcome_refuse hbad⟩
  · intro num dir
    cases dir <;> revert num <;> decide

end

section
/-! ## The channel and endpoint driver: transfers (R158 to R162) -/

namespace Sys2Proof.Machine

variable {s : State}

/-! ### The packet-count law (R159) -/

theorem pktCount_eq {mps : Nat} (hmps : 0 < mps) (len : Nat) :
    pktCount len mps = max 1 ((len + mps - 1) / mps) := by
  unfold pktCount ceilDiv
  split
  · next h => subst h; rw [Nat.zero_add, Nat.div_eq_of_lt (by omega)]; rfl
  · next h => exact (max_eq_right ((Nat.one_le_div_iff hmps).2 (by omega))).symm

theorem clampPackets_snd (len mps : Nat) :
    (clampPackets len mps).2 = if pktCount len mps ≤ 256 then len else 256 * mps := by
  unfold clampPackets
  split
  · rw [if_neg (by omega)]
  · rw [if_pos (by omega)]

/-- The clamped length fits the 19-bit size field. -/
theorem clampPackets_snd_le_max {mps : Nat} (hpos : 0 < mps) (hmax : mps ≤ 2047) (len : Nat) :
    (clampPackets len mps).2 ≤ 524032 := by
  have := clampPackets_snd_le len mps
  omega

/-! ### The checks of XFEREN -/

/-- With a pid that is not reserved and a packet size that is not zero, XFEREN is `EnableTransfer`. -/
theorem xferen_host (hm : s.mode = .HOST) (c : Ch) (dir : Dir) (type : EpType) (pid : Pid) {mps : BitVec 11}
    (hmps : mps ≠ 0) :
    xferen (.ofNat 4 c) dir type pid.code mps s =
      enableChannelTransfer c dir type pid mps s.port.arg0.toNat s.port.arg1 s := by
  rw [xferen, get_bind_apply, refuseIf_bind_neg (not_or.2 ⟨pid_code_ne_three pid, hmps⟩), hm, pidOf_code]
  exact chOperand_ofNat_bind c s _

theorem xferen_device (hm : s.mode = .DEVICE) (n : EpIx) (dir : Dir) (type : EpType) (pid : Pid) {mps : BitVec 11}
    (hmps : mps ≠ 0) :
    xferen (.ofNat 4 n) dir type pid.code mps s =
      enableEndpointTransfer n dir type pid mps s.port.arg0.toNat s.port.arg1 s := by
  rw [xferen, get_bind_apply, refuseIf_bind_neg (not_or.2 ⟨pid_code_ne_three pid, hmps⟩), hm, pidOf_code]
  exact epOperand_ofNat_bind n s _

theorem submitTransfer_wraps {x : Tgt} {dir : Dir} {pid : Pid} {mps len : Nat} {buf : Addr}
    (h : 2 ^ 32 < buf.toNat + (clampPackets len mps).2) :
    submitTransfer x dir pid mps len buf s = .error (.refuse .AddrWrap) s := by
  rw [submitTransfer_eq, refuseIf_bind_pos ((wraps_iff _ _).2 h)]

section Channel
variable {c : Ch} {dir : Dir} {type : EpType} {pid : Pid} {mps : BitVec 11} {len : Nat} {buf : Addr} (hmps : mps ≠ 0)
include hmps

theorem enableChannelTransfer_mismatch
    (h : dir ≠ (s.hcAt c).dir ∨ type ≠ (s.hcAt c).epType ∨ mps ≠ (s.hcAt c).mps) :
    enableChannelTransfer c dir type pid mps len buf s = .error (.refuse .BadOperand) s := by
  rw [enableChannelTransfer, get_bind_apply, refuseIf_bind_neg hmps, refuseIf_bind_pos h]

variable (hdir : dir = (s.hcAt c).dir) (htype : type = (s.hcAt c).epType) (hsize : mps = (s.hcAt c).mps)
include hdir htype hsize

theorem enableChannelTransfer_busy (h : (s.hcAt c).chEna = true) :
    enableChannelTransfer c dir type pid mps len buf s = .error (.refuse .ChannelBusy) s := by
  rw [enableChannelTransfer, get_bind_apply, refuseIf_bind_neg hmps,
    refuseIf_bind_neg (by simp [hdir, htype, hsize]), refuseIf_bind_pos (by rw [Ne, State.runState_idle_iff, h]; simp)]

theorem enableChannelTransfer_wraps (hidle : (s.hcAt c).chEna = false)
    (h : 2 ^ 32 < buf.toNat + (clampPackets len mps.toNat).2) :
    enableChannelTransfer c dir type pid mps len buf s = .error (.refuse .AddrWrap) s := by
  rw [enableChannelTransfer, get_bind_apply, refuseIf_bind_neg hmps,
    refuseIf_bind_neg (by simp [hdir, htype, hsize]),
    refuseIf_bind_neg (by rw [not_not, State.runState_idle_iff]; exact hidle), submitTransfer_wraps h]

end Channel

section Endpoint
variable {n : EpIx} {dir : Dir} {type : EpType} {pid : Pid} {mps : BitVec 11} {len : Nat} {buf : Addr} (hmps : mps ≠ 0)
include hmps

theorem enableEndpointTransfer_notActive (h : (s.epAt dir n).active = false) :
    enableEndpointTransfer n dir type pid mps len buf s = .error (.refuse .NotActive) s := by
  rw [enableEndpointTransfer, get_bind_apply, refuseIf_bind_neg hmps, refuseIf_bind_pos h]

variable (hactive : (s.epAt dir n).active = true)
include hactive

theorem enableEndpointTransfer_mismatch (h : type ≠ (s.epAt dir n).epType ∨ mps ≠ s.epMps dir n) :
    enableEndpointTransfer n dir type pid mps len buf s = .error (.refuse .BadOperand) s := by
  rw [enableEndpointTransfer, get_bind_apply, refuseIf_bind_neg hmps, refuseIf_bind_neg (by simp [hactive]),
    refuseIf_bind_pos h]

variable (htype : type = (s.epAt dir n).epType) (hsize : mps = s.epMps dir n)
include htype hsize

theorem enableEndpointTransfer_armed (h : (s.epAt dir n).epEna = true) :
    enableEndpointTransfer n dir type pid mps len buf s = .error (.refuse .ChannelBusy) s := by
  rw [enableEndpointTransfer, get_bind_apply, refuseIf_bind_neg hmps, refuseIf_bind_neg (by simp [hactive]),
    refuseIf_bind_neg (by simp [htype, hsize]), refuseIf_bind_pos h]

theorem enableEndpointTransfer_wraps (hidle : (s.epAt dir n).epEna = false)
    (h : 2 ^ 32 < buf.toNat + (clampPackets len mps.toNat).2) :
    enableEndpointTransfer n dir type pid mps len buf s = .error (.refuse .AddrWrap) s := by
  rw [enableEndpointTransfer, get_bind_apply, refuseIf_bind_neg hmps, refuseIf_bind_neg (by simp [hactive]),
    refuseIf_bind_neg (by simp [htype, hsize]), refuseIf_bind_neg (by simp [hidle]), submitTransfer_wraps h]

end Endpoint

/-- The registers of the channel that a submission leaves. -/
theorem State.HostArmed.hcAt_eq {t : State} {c : Ch} {dir : Dir} {pid : Pid} {mps len pk : Nat} {buf : Addr}
    (h : s.HostArmed t c dir pid mps len pk buf) : t.hcAt c = (s.hcAt c).programmed s.frameNum pid len pk := by
  obtain ⟨W, l, d, -, rfl⟩ := h
  exact s.hcAt_setHc_same c _

end Sys2Proof.Machine

open Sys2Proof Sys2Proof.Machine

/-- Settles O16: past the checks of the operands XFEREN is `EnableTransfer` (`xferen_host`), which submits the transfer
(`enableChannelTransfer_ok`) or fails one of its own checks. -/
theorem xferenHostResult : Obligations.XferenHostResult := by
  intro s c dir type pid mps hm hmps
  have hrun := xferen_host hm c dir type pid hmps
  refine ⟨fun hdir htype hsize hidle hfit => ?_,
    fun h => commandOutcome_refuse (hrun.trans (enableChannelTransfer_mismatch hmps h)),
    fun hdir htype hsize h => commandOutcome_refuse (hrun.trans (enableChannelTransfer_busy hmps hdir htype hsize h)),
    fun hdir htype hsize hidle h =>
      commandOutcome_refuse (hrun.trans (enableChannelTransfer_wraps hmps hdir htype hsize hidle h))⟩
  obtain ⟨t, harmed, hok⟩ := enableChannelTransfer_ok hm c pid hmps hdir htype hsize hidle hfit
  exact ⟨t, harmed, commandOutcome_ok (hrun.trans hok)⟩

/-- Settles O17: past the checks of the operands XFEREN is `EnableTransfer` (`xferen_device`), which submits the transfer
(`enableEndpointTransfer_ok`) or fails one of its own checks. -/
theorem xferenDeviceResult : Obligations.XferenDeviceResult := by
  intro s n dir type pid mps hm hmps
  have hrun := xferen_device hm n dir type pid hmps
  refine ⟨fun hactive htype hsize hidle hfit => ?_,
    fun h => commandOutcome_refuse (hrun.trans (enableEndpointTransfer_notActive hmps h)),
    fun hactive h => commandOutcome_refuse (hrun.trans (enableEndpointTransfer_mismatch hmps hactive h)),
    fun hactive htype hsize h =>
      commandOutcome_refuse (hrun.trans (enableEndpointTransfer_armed hmps hactive htype hsize h)),
    fun hactive htype hsize hidle h =>
      commandOutcome_refuse (hrun.trans (enableEndpointTransfer_wraps hmps hactive htype hsize hidle h))⟩
  obtain ⟨t, harmed, hok⟩ := enableEndpointTransfer_ok n pid hmps hactive htype hsize hidle hfit
  exact ⟨t, harmed, commandOutcome_ok (hrun.trans hok)⟩

/-- Settles O18: XFEREN programs what `clampPackets` answers (`xferenHostResult`), which follows the law
(`clampPackets_fst`, `clampPackets_snd`, `pktCount_eq`) and fits the register fields. -/
theorem packetCountLaw : Obligations.PacketCountLaw := by
  refine ⟨fun s c pid len mps pk n hm hlen hmps hpos hpk hn hidle hfit => ?_, fun len mps hpos hmax => ?_, by decide⟩
  · rw [← pktCount_eq hpos len] at hpk
    have hclamp : (clampPackets len mps).2 = n := by rw [clampPackets_snd, hn, hpk]
    have hmax := (s.hcAt c).mps.isLt
    have hle := clampPackets_snd_le_max hpos (by omega) len
    have hcount := clampPackets_fst_le len mps
    have hsize : (s.hcAt c).mps ≠ 0 := fun h => by rw [hmps, h] at hpos; exact absurd hpos (lt_irrefl 0)
    obtain ⟨hcompletes, -⟩ := xferenHostResult s c (s.hcAt c).dir (s.hcAt c).epType pid (s.hcAt c).mps hm hsize
    obtain ⟨t, harmed, hok⟩ := hcompletes rfl rfl rfl hidle (by rw [← hmps, ← hlen, hclamp]; exact hfit)
    rw [← hmps, ← hlen] at harmed hok
    refine ⟨_, hok, ?_, ?_, ?_⟩
    · show (t.hcAt c).pktCnt.toNat = _
      rw [harmed.hcAt_eq, hpk, ← clampPackets_fst]
      exact Nat.mod_eq_of_lt (by omega)
    · show (t.hcAt c).xferSize.toNat = _
      rw [harmed.hcAt_eq, ← hclamp]
      exact Nat.mod_eq_of_lt (by omega)
    · rw [← hclamp]
      exact Nat.mod_eq_of_lt (by omega)
  · have hle := clampPackets_snd_le_max hpos hmax len
    rw [← pktCount_eq hpos]
    exact ⟨clampPackets_fst len mps, clampPackets_snd len mps, hle, by omega⟩

end

section
/-! ## The BUS agent (R157, R405 to R413) -/

namespace Sys2Proof.Machine

variable {s : State}

theorem runBus_next {m : BusMove} {t : State} (hmay : s.busAllowed m = true)
    (heffect : (s.logged (.bus m)).busEffect m = t) : runBus m s = .next t := by
  rw [runBus, if_pos hmay, heffect]

theorem runBus_refused {m : BusMove} (hmay : s.busAllowed m = false) :
    runBus m s = .refused (.busMoveNotAllowed m) := by
  rw [runBus, hmay, if_neg Bool.false_ne_true]

/-- A BUS move is taken exactly when it is allowed, and refused otherwise (entry 20). -/
theorem runBus_of_iff {m : BusMove} {may : Prop} {t : State} (hmay : s.busAllowed m = true ↔ may)
    (heffect : (s.logged (.bus m)).busEffect m = t) :
    (may → runBus m s = .next t) ∧ (¬ may → runBus m s = .refused (.busMoveNotAllowed m)) :=
  ⟨fun h => runBus_next (hmay.2 h) heffect, fun h => runBus_refused (Bool.eq_false_iff.2 (mt hmay.1 h))⟩

/-! ### What the history says -/

theorem portLost_cons (e : LogEntry) (l : List LogEntry) : portLost (e :: l) = true ↔
    e = .bus .disconnect ∨ (∀ sp, e ≠ .bus (.portEnable sp)) ∧ portLost l = true := by
  cases e with
  | bus m => cases m <;> simp [portLost]
  | _ => simp [portLost]

/-- The newest entry that is a detach or a port enable decides. -/
theorem portLost_iff (l : List LogEntry) : portLost l = true ↔
    ∃ new old, l = new ++ .bus .disconnect :: old ∧ ∀ sp, .bus (.portEnable sp) ∉ new := by
  induction l with
  | nil => simp [portLost]
  | cons e l ih =>
    rw [portLost_cons, ih]
    constructor
    · rintro (rfl | ⟨he, new, old, rfl, hnew⟩)
      · exact ⟨[], l, rfl, fun sp => List.not_mem_nil⟩
      · exact ⟨e :: new, old, rfl, fun sp => List.not_mem_cons_of_ne_of_not_mem (he sp).symm (hnew sp)⟩
    · rintro ⟨new, old, heq, hnew⟩
      cases new with
      | nil => exact .inl (List.cons.inj heq).1
      | cons x new =>
        obtain ⟨rfl, rfl⟩ := List.cons.inj heq
        exact .inr ⟨fun sp he => hnew sp (he ▸ List.mem_cons_self), new, old, rfl,
          fun sp h => hnew sp (List.mem_cons_of_mem _ h)⟩

theorem resetSeen_iff (l : List LogEntry) : resetSeen l = true ↔ .bus .busReset ∈ l := by
  rw [resetSeen, List.any_eq_true]
  constructor
  · rintro ⟨e, he, hreset⟩
    split at hreset
    · exact he
    · exact absurd hreset Bool.false_ne_true
  · exact fun h => ⟨_, h, rfl⟩

theorem setupDones_eq (l : List LogEntry) : setupDones l = (l.filter fun e => e = .bus .setupDone).length := by
  rw [setupDones, ← List.countP_eq_length_filter]
  refine List.countP_congr fun e _ => ?_
  cases e with
  | bus m => cases m <;> simp
  | _ => simp

theorem armedFor_eq_none {n : EpIx} {l : List LogEntry} (h : ∀ k, .armed n k ∉ l) : ∀ e ∈ l, armedFor n e = none := by
  intro e he
  unfold armedFor
  split
  · next m k =>
    refine if_neg fun hm => ?_
    subst hm
    exact h k he
  · rfl

theorem outReceived_of_armed {n : EpIx} {new old : List LogEntry} {packets : Nat} (hnew : ∀ k, .armed n k ∉ new)
    (mps : Nat) :
    outReceived n mps (new ++ .armed n packets :: old) = true ↔
      packets ≤ (new.filterMap (packetFor n)).length ∨ ∃ b ∈ new.filterMap (packetFor n), b < mps := by
  have hnone := armedFor_eq_none hnew
  have harmed : armedFor n (.armed n packets) = some packets := if_pos rfl
  have hfind : (new ++ .armed n packets :: old).findSome? (armedFor n) = some packets := by
    rw [List.findSome?_append, List.findSome?_eq_none_iff.2 hnone, List.findSome?_cons, harmed]; rfl
  have hsince : outPackets n (new ++ .armed n packets :: old) = new.filterMap (packetFor n) := by
    rw [outPackets, List.takeWhile_append_of_pos (by simpa using hnone), List.takeWhile_cons_of_neg (by simp [harmed]),
      List.append_nil]
  rw [outReceived, hfind, hsince]
  simp only [Bool.or_eq_true, decide_eq_true_eq, List.any_eq_true]

theorem outReceived_of_not_armed {n : EpIx} {l : List LogEntry} (h : ∀ k, .armed n k ∉ l) (mps : Nat) :
    outReceived n mps l = false := by
  rw [outReceived, List.findSome?_eq_none_iff.2 (armedFor_eq_none h)]

theorem packetFor_eq (n : EpIx) : packetFor n = fun
    | .bus (.rxPush st _) =>
      if st.extractLsb' 17 4 = 2 ∧ st.extractLsb' 0 4 = .ofNat 4 n then some (st.extractLsb' 4 11).toNat else none
    | _ => none := by
  funext e
  cases e with
  | bus m =>
    cases m with
    | rxPush st data =>
      have hnum : (stNum st).toNat = n.val ↔ st.extractLsb' 0 4 = .ofNat 4 n := by
        rw [← BitVec.toNat_inj, BitVec.toNat_ofNat, Nat.mod_eq_of_lt (by omega)]; rfl
      simp only [packetFor, hnum]
      rfl
    | _ => rfl
  | _ => rfl

/-! ### When a move is allowed -/

theorem State.mayTake_iff (s : State) (c : Ch) : s.mayTake c = true ↔
    s.mode = .HOST ∧ (s.hcAt c).chEna = true ∧ (s.hcAt c).dir = .OUT ∨
      ∃ n : EpIx, s.mode = .DEVICE ∧ c.val = n.val ∧ (s.epAt .IN n).epEna = true := by
  unfold State.mayTake
  split
  · next hm => simp [hm, State.runState_idle_iff]
  · next hm =>
    simp only [hm, reduceCtorEq, false_and, false_or, true_and]
    split
    · next h =>
      refine ⟨fun hena => ⟨⟨c.val, h⟩, rfl, hena⟩, ?_⟩
      rintro ⟨n, hn, hena⟩
      obtain rfl : (⟨c.val, h⟩ : EpIx) = n := Fin.ext hn
      exact hena
    · next h =>
      refine ⟨fun hena => absurd hena Bool.false_ne_true, ?_⟩
      rintro ⟨n, hn, -⟩
      omega

/-- An entry is pushed if it is well formed, fits, and is no host IN_DATA entry after a detach (R405, R410). -/
theorem State.busAllowed_rxPush_iff (s : State) (st : Word) (data : List Word) :
    s.busAllowed (.rxPush st data) = true ↔
      (st.extractLsb' 21 11 = 0 ∧ data.length = wordsOf (st.extractLsb' 4 11).toNat ∧
        s.fifo.rxq.length + 1 + wordsOf (st.extractLsb' 4 11).toNat ≤ s.env.par.rxFifoWords) ∧
      ¬ (portLost s.env.log = true ∧ s.mode = .HOST ∧ st.extractLsb' 17 4 = 2) := by
  have hfits : (entryWellFormed st data && s.rxFits data) = true ↔
      st.extractLsb' 21 11 = 0 ∧ data.length = wordsOf (st.extractLsb' 4 11).toNat ∧
        s.fifo.rxq.length + 1 + wordsOf (st.extractLsb' 4 11).toNat ≤ s.env.par.rxFifoWords := by
    simp only [entryWellFormed, State.rxFits, Bool.and_eq_true, decide_eq_true_eq, and_assoc]
    exact and_congr_right fun _ => and_congr_right fun hlen => by rw [hlen]; rfl
  have hlost : (s.isInData st && portLost s.env.log) = true ↔
      portLost s.env.log = true ∧ s.mode = .HOST ∧ st.extractLsb' 17 4 = 2 := by
    rw [Bool.and_eq_true, and_comm, State.isInData, Bool.and_eq_true, beq_iff_eq, beq_iff_eq]; rfl
  rw [State.busAllowed, Bool.and_eq_true, hfits, Bool.not_eq_true', ← Bool.not_eq_true, hlost]

theorem State.busAllowed_chFlag_iff (s : State) (i : Ch) (f : ChFlag) : s.busAllowed (.chFlag i f) = true ↔
    (s.hcAt i).chEna = true ∧ (s.hcAt i).chDis = false ∧ f ≠ .CHH ∧ ¬ portLost s.env.log = true := by
  simp only [State.busAllowed, Bool.and_eq_true, beq_iff_eq, bne_iff_ne, Bool.not_eq_true', Bool.not_eq_true,
    State.runState_active_iff, and_assoc]

theorem State.busAllowed_txTake_iff (s : State) (c : Ch) (count : Nat) : s.busAllowed (.txTake c count) = true ↔
    1 ≤ count ∧ count ≤ (s.txqAt c).length ∧ s.mayTake c = true := by
  simp only [State.busAllowed, Bool.and_eq_true, decide_eq_true_eq, and_assoc]

theorem State.busAllowed_setupDone_iff (hm : s.mode = .DEVICE) :
    s.busAllowed .setupDone = true ↔ setupDones s.env.log < setupPushes s.env.log := by
  simp [State.busAllowed, hm]

theorem State.busAllowed_enumDone_iff (hm : s.mode = .DEVICE) (sp : Speed) :
    s.busAllowed (.enumDone sp) = true ↔ .bus .busReset ∈ s.env.log := by
  simp [State.busAllowed, hm, resetSeen_iff]

theorem State.busAllowed_outDone_iff (hm : s.mode = .DEVICE) (n : EpIx) : s.busAllowed (.outDone n) = true ↔
    (s.epAt .OUT n).epEna = true ∧ outReceived n (s.epMps .OUT n).toNat s.env.log = true := by
  simp [State.busAllowed, hm]

theorem State.busAllowed_inDone_iff (hm : s.mode = .DEVICE) (n : EpIx) : s.busAllowed (.inDone n) = true ↔
    (s.epAt .IN n).epEna = true ∧ s.txqAt (Tgt.ep .IN n).num = [] ∧ (s.epbAt .IN n).bufLen = 0 := by
  simp [State.busAllowed, hm, State.epTxfe_eq, and_assoc]

/-! ### What a move does -/

/-- A flush bit is cleared with the completion of the halt, that of the channel's own queue (R157). -/
theorem State.setQFlush_false_eq (s : State) (p : Bool) : s.setQFlush p false = { s with
    fifo.qFlushNP := s.fifo.qFlushNP && p
    fifo.qFlushP := s.fifo.qFlushP && !p } := by
  cases p <;> simp [State.setQFlush]

theorem State.haltDone_eq (s : State) (i : Ch) :
    s.haltDone i = { (s.setHc i { s.hcAt i with
        chEna := false, chDis := false, int := (s.hcAt i).int ||| 0x002 }).setTxq i [] with
      fifo.qFlushNP := s.fifo.qFlushNP && periodicType (s.hcAt i).epType
      fifo.qFlushP := s.fifo.qFlushP && !periodicType (s.hcAt i).epType } := by
  simp only [State.haltDone, State.setQFlush_false_eq, State.hcAt_setHc_same]
  rfl

end Sys2Proof.Machine

open Sys2Proof Sys2Proof.Machine

/-- Settles O15: a move is taken exactly when it is allowed (`runBus_of_iff`); the history's part in that is said by
`portLost_iff`, `resetSeen_iff` and `outReceived_of_armed`. -/
theorem busMoves : Obligations.BusMoves := by
  intro s
  have hboth {p q : Prop} [Decidable p] [Decidable q] : (decide p && decide q) = true ↔ p ∧ q := by simp
  refine ⟨fun i => ?_, fun lost hlost => ⟨fun st data fits hfits => ?_, fun i f => ?_⟩, fun i pk sz => ?_,
    fun n pk sz => ?_, fun c count may hmay => ?_, fun hpcsts => ?_, fun hpcsts => ?_, fun hpena => ?_, fun hpena => ?_,
    ?_, fun np p => ?_, fun hm => ⟨?_, ?_, ?_, fun sp => ?_, fun pushes dones hpushes hdones => ?_,
      fun n packets new old lengths done hlog hnew hlengths hdone => ?_, fun n hnever => ?_, fun n done hdone => ?_⟩,
    fun hm n sp => ?_⟩
  · exact runBus_of_iff (beq_iff_eq.trans (s.runState_halting_iff i)) (State.haltDone_eq _ i)
  · rw [← portLost_iff] at hlost
    obtain ⟨htaken, hrefused⟩ := runBus_of_iff (s.busAllowed_rxPush_iff st data) rfl
    rw [← hfits, ← hlost] at htaken hrefused
    exact ⟨fun hf hl => htaken ⟨hf, hl⟩, fun h => hrefused fun ⟨hf, hl⟩ => h.elim (absurd hf) hl⟩
  · rw [← portLost_iff] at hlost
    rw [hlost]
    exact runBus_of_iff (s.busAllowed_chFlag_iff i f) rfl
  · exact runBus_of_iff hboth rfl
  · exact runBus_of_iff hboth rfl
  · rw [← State.mayTake_iff] at hmay
    exact runBus_of_iff ((s.busAllowed_txTake_iff c count).trans hmay.symm) rfl
  · exact ⟨runBus_next (congrArg not hpcsts) rfl, runBus_refused hpcsts, fun sp => runBus_refused hpcsts⟩
  · exact ⟨runBus_refused (congrArg not hpcsts), runBus_next hpcsts rfl, fun sp => runBus_next hpcsts rfl⟩
  · exact runBus_next hpena rfl
  · exact runBus_refused hpena
  · have hnext : BitVec.ofNat 16 (s.frameNum.toNat + 1) = s.frameNum + 1 := by simp [BitVec.ofNat_add]
    rw [hnext]
    exact runBus_next rfl rfl
  · exact runBus_of_iff hboth rfl
  · exact runBus_next (beq_iff_eq.2 hm) rfl
  · exact runBus_next (beq_iff_eq.2 hm) rfl
  · exact runBus_next (beq_iff_eq.2 hm) rfl
  · exact runBus_of_iff (State.busAllowed_enumDone_iff hm sp) rfl
  · obtain rfl : pushes = setupPushes s.env.log := hpushes.trans List.countP_eq_length_filter.symm
    obtain rfl : dones = setupDones s.env.log := hdones.trans (setupDones_eq _).symm
    obtain ⟨htaken, hrefused⟩ := runBus_of_iff (State.busAllowed_setupDone_iff hm) rfl
    exact ⟨htaken, fun h => hrefused h.not_gt⟩
  · refine runBus_of_iff ((State.busAllowed_outDone_iff hm n).trans ?_) rfl
    have hpackets : lengths = new.filterMap (packetFor n) :=
      hlengths.trans (congrArg (List.filterMap · new) (packetFor_eq n).symm)
    rw [hdone, hlog, outReceived_of_armed hnew, hpackets]
  · refine runBus_refused ?_
    rw [State.busAllowed, outReceived_of_not_armed hnever, Bool.and_false]
  · exact runBus_of_iff ((State.busAllowed_inDone_iff hm n).trans hdone.symm) rfl
  · simp only [List.forall_mem_cons]
    refine ⟨?_, ?_, ?_, ?_, ?_, ?_, ?_, List.forall_mem_nil _⟩ <;> exact runBus_refused (by simp [State.busAllowed, hm])

end

section
/-! ## The mode (R23, R185)

Every computation but INIT keeps it: one lemma per computation, which follows the computation's pseudocode and cites the
lemmas of those it calls. What `RunKept` says does not include the mode. -/

-- As in the tests: many proofs elaborated at once exhaust the threads of the sandbox.
set_option Elab.async false

namespace Sys2Proof.Machine

/-- Two states of one mode. -/
abbrev SameMode (s t : State) : Prop := t.mode = s.mode

theorem sameMode_chain : Chain SameMode := ⟨fun _ => rfl, fun h h' => h'.trans h⟩

/-- Every run of `m` keeps the mode, however it ends. -/
abbrev KeepsMode {α : Type} (m : M α) : Prop := Moves SameMode m

/-! ### The ways of building a computation -/

section Build
variable {α β : Type} {c : Prop} [Decidable c]

theorem KeepsMode.bind {m : M α} {f : α → M β} (hm : KeepsMode m) (hf : ∀ a, KeepsMode (f a)) : KeepsMode (m >>= f) :=
  moves_bind sameMode_chain hm hf
theorem KeepsMode.done {m : M α} (hm : KeepsMode m) : KeepsMode (do let _ ← m; pure ()) :=
  hm.bind fun _ => moves_pure sameMode_chain ()
theorem KeepsMode.ite {m n : M α} (hm : KeepsMode m) (hn : KeepsMode n) : KeepsMode (if c then m else n) :=
  moves_ite hm hn
theorem KeepsMode.dite {m : c → M α} {n : ¬ c → M α} (hm : ∀ h, KeepsMode (m h)) (hn : ∀ h, KeepsMode (n h)) :
    KeepsMode (if h : c then m h else n h) := moves_dite hm hn
theorem KeepsMode.forEach {l : List α} {f : α → M Unit} (h : ∀ a, KeepsMode (f a)) : KeepsMode (Machine.forEach l f) :=
  moves_forEach sameMode_chain h
theorem KeepsMode.pure {a : α} : KeepsMode (pure a : M α) := moves_pure sameMode_chain a
theorem KeepsMode.get : KeepsMode (get : M State) := moves_get sameMode_chain
theorem KeepsMode.look {f : State → α} : KeepsMode (look f) := moves_look sameMode_chain f
/-- Most updates do not write the mode, so `rfl` shows that they keep it. -/
theorem KeepsMode.upd {f : State → State} (h : ∀ s, SameMode s (f s) := by exact fun _ => rfl) : KeepsMode (upd f) :=
  moves_upd h
theorem KeepsMode.refuseIf {r : RefuseName} : KeepsMode (refuseIf c r) := moves_refuseIf sameMode_chain c r
theorem KeepsMode.raise {f : FaultName} : KeepsMode (raise f : M α) := moves_raise (fun _ _ => rfl) f
theorem KeepsMode.raiseIf {f : FaultName} : KeepsMode (raiseIf c f) := moves_raiseIf sameMode_chain (fun _ _ => rfl) c f
theorem KeepsMode.stuck : KeepsMode (stuck : M α) := moves_stuck sameMode_chain
theorem KeepsMode.needHost : KeepsMode needHost := moves_needHost sameMode_chain
theorem KeepsMode.needDevice : KeepsMode needDevice := moves_needDevice sameMode_chain
theorem KeepsMode.chOperand {n : BitVec 4} : KeepsMode (chOperand n) := moves_chOperand sameMode_chain n
theorem KeepsMode.epOperand {n : BitVec 4} : KeepsMode (epOperand n) := moves_epOperand sameMode_chain n
theorem KeepsMode.needPair : KeepsMode needPair := fun s => by
  cases ho : s.host.hcCtlOut <;> cases hi : s.host.hcCtlIn <;> simp [Machine.needPair, finalState, ho, hi]

end Build

/-- A choice between two updates. -/
theorem SameMode.ite {s t u : State} {c : Prop} [Decidable c] (ht : SameMode s t) (hu : SameMode s u) :
    SameMode s (if c then t else u) := by split <;> assumption

/-! ### Memory, events and free values -/

theorem KeepsMode.memRead8 {a : Addr} : KeepsMode (memRead8 a) := fun _ => rfl
theorem KeepsMode.memRead16 {a : Addr} : KeepsMode (memRead16 a) := fun _ => rfl
theorem KeepsMode.memRead32 {a : Addr} : KeepsMode (memRead32 a) := fun _ => rfl
theorem KeepsMode.memWrite8 {a : Addr} {b : Byte} : KeepsMode (memWrite8 a b) := .upd
theorem KeepsMode.memWrite16 {a : Addr} {v : BitVec 16} : KeepsMode (memWrite16 a v) := .upd
theorem KeepsMode.memWrite32 {a : Addr} {w : Word} : KeepsMode (memWrite32 a w) :=
  .upd fun s => s.setWord_mode a w
theorem KeepsMode.emit {e : Event} : KeepsMode (emit e) := .upd
theorem KeepsMode.drawPad : KeepsMode drawPad := fun _ => rfl
theorem KeepsMode.askHook {call : Event} : KeepsMode (askHook call) := fun s => by
  unfold finalState Machine.askHook; cases s.env.hookAnswers <;> rfl
theorem KeepsMode.askAck {call : Event} : KeepsMode (askAck call) := fun s => by
  unfold finalState Machine.askAck; cases s.env.ackAnswers <;> rfl
theorem KeepsMode.readCode : KeepsMode readCode := .bind .look fun _ => .memRead16
theorem KeepsMode.readValue : KeepsMode readValue := .bind .look fun _ => .memRead16
theorem KeepsMode.readIndex : KeepsMode readIndex := .bind .look fun _ => .memRead16
theorem KeepsMode.readLength : KeepsMode readLength := .bind .look fun _ => .memRead16
theorem KeepsMode.readRequest : KeepsMode readRequest :=
  .bind .look fun _ => .bind .memRead32 fun _ => .bind .memRead32 fun _ => .pure

/-! ### FIFO transport -/

theorem KeepsMode.rxPop : KeepsMode rxPop := fun s => by
  unfold finalState Machine.rxPop; cases s.fifo.rxq <;> rfl
theorem KeepsMode.txPush {num : Ch} {w : Word} : KeepsMode (txPush num w) := fun s => by
  by_cases h : s.txSpace (s.classOf num) = 0
  · rw [finalState_error (txPush_overflow w h)]
  · rw [finalState_ok (txPush_ok w (Nat.pos_of_ne_zero h))]; rfl

theorem KeepsMode.readWords {n : Nat} {dst : Addr} : KeepsMode (readWords dst n) := by
  induction n generalizing dst with
  | zero => exact .pure
  | succ n ih => exact .bind .rxPop fun _ => .bind .memWrite32 fun _ => ih
theorem KeepsMode.readTail {r : Nat} {dst : Addr} {w : Word} : KeepsMode (readTail dst w r) := by
  induction r generalizing dst w with
  | zero => exact .pure
  | succ r ih => exact .bind .memWrite8 fun _ => ih
theorem KeepsMode.readPacket {dst : Addr} {len : Nat} : KeepsMode (readPacket dst len) :=
  .bind .readWords fun _ => .ite .pure (.bind .rxPop fun _ => .readTail)
theorem KeepsMode.writeWords {num : Ch} {n : Nat} {src : Addr} : KeepsMode (writeWords num src n) := by
  induction n generalizing src with
  | zero => exact .pure
  | succ n ih => exact .bind .memRead32 fun _ => .bind .txPush fun _ => ih
theorem KeepsMode.gatherTail {r : Nat} {src : Addr} : KeepsMode (gatherTail src r) := by
  induction r generalizing src with
  | zero => exact .pure
  | succ r ih => exact .bind .memRead8 fun _ => ih.bind fun _ => .pure
theorem KeepsMode.writePacket {num : Ch} {src : Addr} {len : Nat} : KeepsMode (writePacket num src len) :=
  .bind .writeWords fun _ => .ite .pure (.bind .gatherTail fun _ => .bind .drawPad fun _ => .txPush)

/-! ### State updates -/

section Updates
variable (s : State)

@[simp] theorem State.setBuf_mode (x : Tgt) (b : XferBuf) : (s.setBuf x b).mode = s.mode := by
  cases x <;> simp [State.setBuf]
@[simp] theorem State.setQFlush_mode (p b : Bool) : (s.setQFlush p b).mode = s.mode := by cases p <;> rfl
@[simp] theorem State.activateEp_mode (n : EpIx) (type : EpType) (mps : BitVec 11) (d : Dir) :
    (s.activateEp n type mps d).mode = s.mode := by cases d <;> rfl
@[simp] theorem State.programRegs_mode (x : Tgt) (len pk : Nat) (pid : Pid) :
    (s.programRegs x len pk pid).mode = s.mode := by rcases x with c | ⟨_ | _, n⟩ <;> rfl
@[simp] theorem State.submitBuf_mode (x : Tgt) (len pk : Nat) (buf : Addr) :
    (s.submitBuf x len pk buf).mode = s.mode := by cases x <;> exact s.setBuf_mode _ _
@[simp] theorem State.enableTxfe_mode (x : Tgt) : (s.enableTxfe x).mode = s.mode := by
  cases x with
  | ch c => simp only [State.enableTxfe]; split <;> rfl
  | ep d n => rfl
@[simp] theorem State.urbError_mode : s.urbError.mode = s.mode := SameMode.ite rfl rfl
@[simp] theorem State.urbNoReady_mode : s.urbNoReady.mode = s.mode := SameMode.ite rfl rfl
@[simp] theorem State.loggedBytes_mode (buf : Addr) (p n : Nat) : (s.loggedBytes buf p n).mode = s.mode := by
  obtain ⟨l, h⟩ := s.loggedBytes_eq buf p n; rw [h]
@[simp] theorem State.recordHalt_mode (i : Ch) (x : PipeState) : (s.recordHalt i x).mode = s.mode :=
  (s.setPipeState i x).halt_mode i
@[simp] theorem State.backOff_mode (i : Ch) (x : PipeState) : (s.backOff i x).mode = s.mode := by
  unfold State.backOff
  cases (s.hcAt i).epType with
  | CONTROL | BULK => exact SameMode.ite rfl rfl
  | INTERRUPT => exact s.recordHalt_mode i x
  | ISOCHRONOUS => rfl
@[simp] theorem State.serveChFlag_mode (i : Ch) (f : ChFlag) : (s.serveChFlag i f).mode = s.mode := by
  cases f with
  | AHBERR | ACK | CHH => rfl
  | STALL | DTERR | FRMOR | XFRC | XACTERR | BBLERR => exact s.recordHalt_mode i _
  | NAK | NYET => exact s.backOff_mode i _
@[simp] theorem State.serveChannel_mode (i : Ch) : (s.serveChannel i).mode = s.mode := by
  refine SameMode.ite ?_ rfl
  split
  · exact (s.clearChFlag i _).serveChFlag_mode i _
  · rfl
@[simp] theorem State.busEffect_mode (m : BusMove) : (s.busEffect m).mode = s.mode := by
  cases m with
  | haltDone i => exact State.setQFlush_mode _ _ _
  | _ => rfl
@[simp] theorem State.setArg_mode (k : Fin 4) (v : Word) : (s.setArg k v).mode = s.mode :=
  SameMode.ite rfl (SameMode.ite rfl (SameMode.ite rfl rfl))

end Updates

/-! ### The channel and endpoint driver -/

theorem KeepsMode.openChannel {c : Ch} {devAddr : BitVec 7} {type : EpType} {mps : BitVec 11} {dir : Dir}
    {epn : BitVec 4} : KeepsMode (openChannel c devAddr type mps dir epn) :=
  .bind .get fun _ => .bind .refuseIf fun _ => .upd
theorem KeepsMode.sendPacket {x : Tgt} {n : Nat} : KeepsMode (sendPacket x n) :=
  .bind .look fun _ => .bind .writePacket fun _ => .upd fun s => s.setBuf_mode x _
theorem KeepsMode.startTransfer {x : Tgt} {dir : Dir} {pid : Pid} {mps len pk : Nat} {buf : Addr} :
    KeepsMode (startTransfer x dir pid mps len pk buf) := by
  have hfirst : KeepsMode (txFirstPacket x len mps) :=
    .bind .get fun _ => .ite .pure <| .ite
      (.bind .sendPacket fun _ => .upd fun s => SameMode.ite (s.enableTxfe_mode x) rfl)
      (.upd fun s => s.enableTxfe_mode x)
  exact .bind (.upd fun s => s.programRegs_mode x len pk pid) fun _ =>
    .bind (.upd fun s => s.submitBuf_mode x len pk buf) fun _ => .ite (hfirst.bind fun _ => .pure) .pure
theorem KeepsMode.submitTransfer {x : Tgt} {dir : Dir} {pid : Pid} {mps len : Nat} {buf : Addr} :
    KeepsMode (submitTransfer x dir pid mps len buf) := .bind .refuseIf fun _ => .startTransfer
theorem KeepsMode.enableChannelTransfer {c : Ch} {dir : Dir} {type : EpType} {pid : Pid} {mps : BitVec 11} {len : Nat}
    {buf : Addr} : KeepsMode (enableChannelTransfer c dir type pid mps len buf) :=
  .bind .get fun _ => .bind .refuseIf fun _ => .bind .refuseIf fun _ => .bind .refuseIf fun _ => .submitTransfer
theorem KeepsMode.enableEndpointTransfer {n : EpIx} {dir : Dir} {type : EpType} {pid : Pid} {mps : BitVec 11}
    {len : Nat} {buf : Addr} : KeepsMode (enableEndpointTransfer n dir type pid mps len buf) :=
  .bind .get fun _ => .bind .refuseIf fun _ => .bind .refuseIf fun _ => .bind .refuseIf fun _ =>
    .bind .refuseIf fun _ => .submitTransfer
theorem KeepsMode.xferen {num : BitVec 4} {dir : Dir} {type : EpType} {pid : BitVec 2} {mps : BitVec 11} :
    KeepsMode (xferen num dir type pid mps) :=
  .bind .get fun s => .bind .refuseIf fun _ => by
    cases s.mode with
    | HOST => exact .bind .chOperand fun _ => .enableChannelTransfer
    | DEVICE => exact .bind .epOperand fun _ => .enableEndpointTransfer

/-! ### Bookkeeping -/

theorem KeepsMode.challoc : KeepsMode challoc :=
  .bind .needHost fun _ => .bind .get fun s => by
    cases s.firstFree with
    | some i => exact .bind .upd fun _ => .pure
    | none => exact .pure
theorem KeepsMode.pipeget {num : BitVec 4} {dir : Dir} : KeepsMode (pipeget num dir) :=
  .bind .get fun s => by
    cases s.mode with
    | HOST => exact .bind .chOperand fun _ => by cases dir <;> exact .pure
    | DEVICE => exact .bind .epOperand fun _ => .pure

/-! ### The host sequencer -/

theorem KeepsMode.openPair {o i : Ch} {mps : BitVec 11} {devAddr : BitVec 7} : KeepsMode (openPair o i mps devAddr) :=
  .bind .openChannel fun _ => .bind .openChannel fun _ => .bind .upd fun _ => .pure
theorem KeepsMode.ctrlOpen {mps : BitVec 11} {devAddr : BitVec 7} : KeepsMode (ctrlOpen mps devAddr) :=
  .bind .get fun s => .bind .refuseIf fun _ => by
    split
    · exact .bind .refuseIf fun _ => .bind .refuseIf fun _ => .openPair
    · split
      · exact .pure
      · exact .bind .upd fun _ => .openPair
theorem KeepsMode.ctrlSubmit {buf : Addr} {w0 w1 : Word} : KeepsMode (ctrlSubmit buf w0 w1) :=
  .bind .needHost fun _ => .bind .needPair fun _ => .bind .get fun _ => .bind .refuseIf fun _ =>
    .bind .refuseIf fun _ => .bind .memWrite32 fun _ => .bind .memWrite32 fun _ => .upd
theorem KeepsMode.issuePhase {o i : Ch} : KeepsMode (issuePhase o i) :=
  .bind .get fun s => by
    cases s.host.ctrlState with
    | SETUP => exact .bind .upd fun _ => .done .enableChannelTransfer
    | DATA_IN | DATA_OUT | STATUS_IN | STATUS_OUT => exact .done .enableChannelTransfer
    | STALL | ERROR | COMPLETE => exact .pure
theorem KeepsMode.urbOk : KeepsMode urbOk :=
  .bind .get fun s => by
    cases s.host.ctrlState with
    | SETUP => exact .bind .memRead8 fun _ => .upd fun _ => .ite rfl (.ite rfl (.ite rfl rfl))
    | DATA_IN | DATA_OUT | STATUS_IN | STATUS_OUT => exact .upd
    | STALL | ERROR | COMPLETE => exact .pure
theorem KeepsMode.urbRow {u : UrbStatus} : KeepsMode (urbRow u) := by
  cases u with
  | OK => exact .urbOk
  | ERROR => exact .upd State.urbError_mode
  | STALL => exact .upd
  | NOREADY => exact .upd State.urbNoReady_mode
  | IDLE | PING => exact .pure
theorem KeepsMode.ctrlPoll : KeepsMode ctrlPoll :=
  .bind .needHost fun _ => .bind .needPair fun _ => .bind .get fun s => .ite .pure <| by
    split
    · exact .pure
    · exact .ite (.bind .issuePhase fun _ => .upd) .urbRow
theorem KeepsMode.ctrlReq {buf : Addr} {w0 w1 : Word} : KeepsMode (ctrlReq buf w0 w1) :=
  .bind .needHost fun _ => .bind .needPair fun _ => .bind .get fun s => by
    cases s.host.xferState with
    | WAITING => exact .bind .ctrlPoll fun _ => .bind .upd fun _ => .look
    | START | OK => exact .bind .ctrlSubmit fun _ => .bind .upd fun _ => .pure

/-! ### Endpoint 0 -/

theorem KeepsMode.ep0Arm {d : Dir} {len : Nat} {buf : Addr} : KeepsMode (ep0Arm d len buf) :=
  .bind .get fun _ => .startTransfer
theorem KeepsMode.ctrlInData {buf : Addr} {len : Nat} : KeepsMode (ctrlInData buf len) :=
  .bind .readLength fun _ => .bind .upd fun _ => .ep0Arm
theorem KeepsMode.ctrlOutData {buf : Addr} {len : Nat} : KeepsMode (ctrlOutData buf len) :=
  .bind .upd fun _ => .ep0Arm
theorem KeepsMode.ep0Command {d : Dir} : KeepsMode (ep0Command d) :=
  .bind .needDevice fun _ => .bind .get fun _ => .bind .refuseIf fun _ => .bind .refuseIf fun _ => .refuseIf
theorem KeepsMode.stallRequest : KeepsMode stallRequest := .upd
theorem KeepsMode.sendStatus : KeepsMode sendStatus := .bind .upd fun _ => .bind .get fun _ => .done .ep0Arm
theorem KeepsMode.awaitStatus : KeepsMode awaitStatus := .bind .upd fun _ => .bind .get fun _ => .done .ep0Arm
theorem KeepsMode.sendData {addr : Addr} {len : Nat} : KeepsMode (sendData addr len) :=
  .bind .readLength fun _ => .ite .awaitStatus (.done .ctrlInData)
theorem KeepsMode.receiveData {addr : Addr} {len : Nat} : KeepsMode (receiveData addr len) :=
  .bind .readLength fun _ => .done .ctrlOutData

/-! ### The requests -/

theorem KeepsMode.getStatus {recipient : BitVec 5} : KeepsMode (getStatus recipient) :=
  .bind .get fun _ => .ite (.bind .memWrite16 fun _ => .sendData) <| .ite
    (.bind .readIndex fun _ => .dite (fun _ => .bind .memWrite16 fun _ => .sendData)
      fun _ => .stallRequest) .stallRequest
/-- SET_FEATURE and CLEAR_FEATURE, where the change of an endpoint keeps the mode. -/
theorem KeepsMode.featureRequest {recipient : BitVec 5} {wake : Bool} {onEp : State → Dir → EpIx → State}
    (h : ∀ s d n, SameMode s (onEp s d n)) : KeepsMode (featureRequest recipient wake onEp) :=
  .bind .readValue fun _ => .ite (.bind .upd fun _ => .sendStatus) <| .ite
    (.bind .get fun _ => .ite .stallRequest <| .bind .readIndex fun _ => .dite
      (fun _ => .bind (.upd fun s => .ite (h s _ _) rfl) fun _ => .sendStatus)
      fun _ => .stallRequest) .stallRequest
theorem KeepsMode.setAddress {recipient : BitVec 5} : KeepsMode (setAddress recipient) :=
  .ite (.bind .get fun _ => .ite .stallRequest <| .bind .readValue fun _ => .ite .stallRequest <|
    .bind .upd fun _ => .sendStatus) .stallRequest
theorem KeepsMode.setConfiguration {recipient : BitVec 5} : KeepsMode (setConfiguration recipient) := by
  refine .ite (.bind .readValue fun w => .bind .get fun s => ?_) .stallRequest
  cases s.dev.devState with
  | DEFAULT => exact .stallRequest
  | ADDRESS => exact .ite (.bind .upd fun _ => .bind .emit fun _ => .sendStatus) .sendStatus
  | CONFIGURED =>
    exact .ite (.bind .emit fun _ => .bind .upd fun _ => .sendStatus) <| .ite
      (.bind .emit fun _ => .bind .upd fun _ => .bind .emit fun _ => .sendStatus) .sendStatus
theorem KeepsMode.getDescriptor {recipient : BitVec 5} : KeepsMode (getDescriptor recipient) :=
  .ite (.bind .get fun _ => .bind .readValue fun _ => by
    split
    · exact .sendData
    · exact .stallRequest) .stallRequest
theorem KeepsMode.applyHook {dir : Dir} {r : HookResult} : KeepsMode (applyHook dir r) :=
  .bind .readLength fun _ => by
    cases r with
    | Stall => exact .stallRequest
    | NoData => exact .ite .sendStatus .stallRequest
    | DataIn addr len => exact .ite .sendData .stallRequest
    | DataOut addr len => exact .ite .receiveData .stallRequest
/-- What a class, a vendor and a SET_DESCRIPTOR request share (R241). -/
theorem KeepsMode.hookRequest {dir : Dir} {call : BitVec 64 → Event} :
    KeepsMode (do let req ← Machine.readRequest; let r ← Machine.askHook (call req); Machine.applyHook dir r) :=
  .bind .readRequest fun _ => .bind .askHook fun _ => .applyHook
theorem KeepsMode.setDescriptor {dir : Dir} {recipient : BitVec 5} : KeepsMode (setDescriptor dir recipient) :=
  .ite (.bind .get fun _ => .ite .hookRequest .stallRequest) .stallRequest
theorem KeepsMode.getConfiguration {recipient : BitVec 5} : KeepsMode (getConfiguration recipient) :=
  .ite (.bind .get fun _ => .bind .memWrite8 fun _ => .sendData) .stallRequest
theorem KeepsMode.getInterface {recipient : BitVec 5} : KeepsMode (getInterface recipient) :=
  .ite (.bind .get fun _ => .bind .memWrite8 fun _ => .sendData) .stallRequest
theorem KeepsMode.setInterface {recipient : BitVec 5} : KeepsMode (setInterface recipient) :=
  .ite (.bind .readIndex fun _ => .bind .readValue fun _ => .bind .upd fun _ => .sendStatus)
    .stallRequest

/-! ### The configuration parser and the enumeration sequencer -/

theorem KeepsMode.readRaw {n : Nat} {buf : Addr} {p bl : Nat} : KeepsMode (readRaw n buf p bl) := fun s =>
  s.loggedBytes_mode buf p _
theorem KeepsMode.keepInterface {buf : Addr} {p bl : Nat} : KeepsMode (keepInterface buf p bl) :=
  .bind .get fun _ => .dite (fun _ => .bind .readRaw fun _ => .bind .upd fun _ => .pure)
    fun _ => .pure
theorem KeepsMode.keepEndpoint {cur : Option (Fin 2)} {buf : Addr} {p bl : Nat} :
    KeepsMode (keepEndpoint cur buf p bl) :=
  .bind .get fun s => by
    cases cur with
    | none => exact .pure
    | some j => exact .dite (fun _ => .bind .readRaw fun _ => .upd) fun _ => .pure
theorem KeepsMode.walk {buf : Addr} {stop fuel p : Nat} {cur : Option (Fin 2)} :
    KeepsMode (walk buf stop fuel p cur) := by
  induction fuel generalizing p cur with
  | zero => exact .pure
  | succ fuel ih =>
    exact .ite .pure <| .bind .memRead8 fun _ => .bind .memRead8 fun _ => .ite .stuck <|
      .ite .pure <| .ite (.bind .keepInterface fun _ => ih) <| .ite (.bind .keepEndpoint fun _ => ih) ih
theorem KeepsMode.cfgParse {buf : Addr} {len : Nat} : KeepsMode (cfgParse buf len) :=
  .bind .needHost fun _ => .bind .refuseIf fun _ => .bind .upd fun _ => .ite .pure
    (.bind .memRead16 fun _ => .walk)
theorem KeepsMode.toEnum {e : EnumState} : KeepsMode (toEnum e) := .upd
theorem KeepsMode.enumStep {w0 w1 : Word} {buf : Addr} {done : M Unit} (h : KeepsMode done) :
    KeepsMode (enumStep w0 w1 buf done) := .bind .ctrlReq fun _ => .ite h .pure
theorem KeepsMode.enumStart : KeepsMode enumStart :=
  .bind .get fun _ => .ite .pure <| .bind .ctrlOpen fun _ => .bind .refuseIf fun _ => .upd
theorem KeepsMode.learnMps : KeepsMode learnMps :=
  .bind .get fun _ => .bind .memRead8 fun _ => .ite .toEnum (.bind .ctrlOpen fun _ => .toEnum)
theorem KeepsMode.addressed : KeepsMode addressed :=
  .bind .upd fun _ => .bind .get fun _ => .bind .ctrlOpen fun _ => .toEnum
theorem KeepsMode.enumPoll : KeepsMode enumPoll :=
  .bind .needHost fun _ => .bind .get fun s => by
    cases s.host.enumState with
    | IDLE => exact .enumStart
    | GET_DEV_DESC8 => exact .enumStep .learnMps
    | SET_ADDR => exact .enumStep .addressed
    | GET_DEV_DESC | GET_CFG_DESC9 => exact .enumStep .toEnum
    | GET_CFG_DESC =>
      exact .bind .get fun _ => .bind .memRead16 fun _ => .enumStep (.bind .cfgParse fun _ => .toEnum)
    | GET_MFC_STR | GET_PROD_STR => exact .bind .memRead8 fun _ => .enumStep .toEnum
    | GET_SER_STR => exact .bind .memRead8 fun _ => .ite .toEnum (.enumStep .toEnum)
    | SET_CFG => exact .bind .memRead8 fun _ => .enumStep (.bind .toEnum fun _ => .emit)
    | CONFIGURED => exact .pure

/-! ### The instructions -/

section Exec
variable {s t : State}

theorem handlerOutcome_mode {m : M Unit} (hm : KeepsMode m) (h : handlerOutcome m s = .next t) : SameMode s t := by
  cases h; exact hm s
theorem commandOutcome_mode {m : M Word} (hm : KeepsMode m) (h : commandOutcome m s = .next t) : SameMode s t := by
  cases h; exact moves_command sameMode_chain hm (fun _ _ => rfl) (fun _ _ => rfl) (fun _ => rfl) s

/-- INIT is the only instruction that changes the mode (R185). -/
theorem exec_mode {i : Instr} (hi : i ≠ .init) (h : exec i s = .next t) : SameMode s t := by
  cases i with
  | init => exact absurd rfl hi
  | portreset => exact commandOutcome_mode (.bind .needHost fun _ => .bind .emit fun _ => .pure) h
  | rdpkt =>
    exact commandOutcome_mode (.bind .get fun _ => .bind .refuseIf fun _ => .bind .readPacket fun _ => .pure) h
  | wrpkt =>
    exact commandOutcome_mode (.bind .get fun _ => .bind .chOperand fun _ => .bind .refuseIf fun _ =>
      .bind .refuseIf fun _ => .bind .writePacket fun _ => .pure) h
  | chopen =>
    exact commandOutcome_mode (.bind .needHost fun _ => .bind .get fun _ => .bind .chOperand fun _ =>
      .bind .refuseIf fun _ => .bind .openChannel fun _ => .pure) h
  | epact =>
    exact commandOutcome_mode (.bind .needDevice fun _ => .bind .epOperand fun _ => .bind .refuseIf fun _ =>
      .bind .refuseIf fun _ => .bind .get fun _ => .bind .refuseIf fun _ =>
      .bind (.upd fun s => s.activateEp_mode _ _ _ _) fun _ => .pure) h
  | chhalt =>
    exact commandOutcome_mode (.bind .needHost fun _ => .bind .chOperand fun _ =>
      .bind (.upd fun s => s.halt_mode _) fun _ => .pure) h
  | xferen => exact commandOutcome_mode .xferen h
  | chena | chfree =>
    exact commandOutcome_mode (.bind .needHost fun _ => .bind .chOperand fun _ => .bind .upd fun _ => .pure) h
  | epstall | epclrstall =>
    exact commandOutcome_mode (.bind .needDevice fun _ => .bind .epOperand fun _ =>
      .bind (.upd fun s => s.setEp_mode _ _ _) fun _ => .pure) h
  | challoc => exact commandOutcome_mode .challoc h
  | pipeget => exact commandOutcome_mode .pipeget h
  | ctrlopen =>
    exact commandOutcome_mode (.bind .needHost fun _ => .bind .get fun _ => .bind .refuseIf fun _ =>
      .bind .ctrlOpen fun _ => .pure) h
  | ctrlsubmit => exact commandOutcome_mode (.bind .get fun _ => .bind .ctrlSubmit fun _ => .pure) h
  | ctrlpoll => exact commandOutcome_mode (.bind .ctrlPoll fun _ => .bind .get fun _ => .pure) h
  | ctrlreq => exact commandOutcome_mode (.bind .get fun _ => .bind .ctrlReq fun _ => .pure) h
  | ctrlin => exact commandOutcome_mode (.bind .ep0Command fun _ => .bind .get fun _ => .ctrlInData) h
  | ctrlout => exact commandOutcome_mode (.bind .ep0Command fun _ => .bind .get fun _ => .ctrlOutData) h
  | ctrlstall => exact commandOutcome_mode (.bind .needDevice fun _ => .bind .stallRequest fun _ => .pure) h
  | enumpoll => exact commandOutcome_mode (.bind .enumPoll fun _ => .bind .get fun _ => .pure) h
  | cfgparse =>
    exact commandOutcome_mode (.bind .get fun _ => .bind .cfgParse fun _ => .bind .get fun _ => .pure) h
  | getStatus => exact handlerOutcome_mode .getStatus h
  | clearFeature | setFeature => exact handlerOutcome_mode (.featureRequest fun s _ _ => s.setEp_mode _ _ _) h
  | setAddress => exact handlerOutcome_mode .setAddress h
  | getDescriptor => exact handlerOutcome_mode .getDescriptor h
  | setDescriptor => exact handlerOutcome_mode .setDescriptor h
  | getConfiguration => exact handlerOutcome_mode .getConfiguration h
  | setConfiguration => exact handlerOutcome_mode .setConfiguration h
  | getInterface => exact handlerOutcome_mode .getInterface h
  | setInterface => exact handlerOutcome_mode .setInterface h
  | classRequest | vendorRequest => exact handlerOutcome_mode .hookRequest h
  | reservedTypeRequest => exact handlerOutcome_mode .stallRequest h

end Exec

/-! ### The handlers -/

theorem KeepsMode.receivePacket {x : Tgt} {bcnt : Nat} : KeepsMode (receivePacket x bcnt) :=
  .bind .look fun _ => .bind .raiseIf fun _ => .bind .readPacket fun _ => .upd fun s => s.setBuf_mode x _
theorem KeepsMode.receiveOut {num : BitVec 4} {bcnt : Nat} : KeepsMode (receiveOut num bcnt) :=
  .dite (fun _ => .receivePacket) fun _ => .raise
theorem KeepsMode.receiveSetup {bcnt : Nat} : KeepsMode (receiveSetup bcnt) :=
  .bind .raiseIf fun _ => .bind .get fun _ => .readPacket
theorem KeepsMode.receiveIn {num : BitVec 4} {bcnt : Nat} : KeepsMode (receiveIn num bcnt) :=
  .dite (fun _ => .bind .receivePacket fun _ => .upd fun _ => .ite rfl rfl) fun _ => .raise
theorem KeepsMode.receiveEntry {st : Word} : KeepsMode (receiveEntry st) :=
  .bind .get fun s => by
    cases s.mode with
    | DEVICE => exact .ite .receiveOut (.ite .receiveSetup .pure)
    | HOST => exact .ite .receiveIn .pure
theorem KeepsMode.rxflvlHandler : KeepsMode rxflvlHandler :=
  .bind .upd fun _ => .bind .rxPop fun _ => .bind .receiveEntry fun _ => .upd

theorem KeepsMode.drainLoop {x : Tgt} {mps fuel : Nat} : KeepsMode (drainLoop x mps fuel) := by
  induction fuel with
  | zero => exact .pure
  | succ fuel ih => exact .bind .get fun _ => .ite (.bind .sendPacket fun _ => ih) .pure
theorem KeepsMode.drain {x : Tgt} {mps : Nat} : KeepsMode (drain x mps) := .bind .look fun _ => .drainLoop
theorem KeepsMode.txfeHandler {k : TxClass} {f : GFlag} : KeepsMode (txfeHandler k f) := by
  have last : KeepsMode (Machine.upd fun s => if allCh.any (s.waiting k) then s else s.setGmask f false) :=
    .upd fun _ => .ite rfl rfl
  refine .bind .get fun s => ?_
  cases allCh.find? (s.waiting k) with
  | some c => exact .bind .drain fun _ => last
  | none => exact last

theorem KeepsMode.portEnabled : KeepsMode portEnabled := by
  refine .bind .upd fun _ => .bind .get fun s => ?_
  extract_lets announce
  have hann : ∀ u, KeepsMode (announce u) := fun _ => .bind .upd fun _ => .emit
  exact .ite (.bind .upd fun _ => .bind .emit hann) (hann ())
theorem KeepsMode.hprtHandler : KeepsMode hprtHandler := by
  refine .bind .get fun s => ?_
  extract_lets change
  have hchange : ∀ u, KeepsMode (change u) := fun _ => .bind .get fun _ =>
    .ite (.bind .upd fun _ => .ite .portEnabled .upd) .pure
  have hconnect : KeepsMode portConnect := .bind .upd fun _ => .emit
  exact .ite (hconnect.bind hchange) (hchange ())

/-- A setup packet holds a request, which is never INIT (`isRequest_of_decodeSetup`). -/
theorem KeepsMode.runRequest {code : BitVec 16} : KeepsMode (runRequest code) := fun s => by
  unfold finalState Machine.runRequest
  cases hd : decodeSetup code with
  | error => rfl
  | ok i =>
    obtain ⟨t, ht⟩ := exec_next i s
    have hi : i ≠ .init := by rintro rfl; cases isRequest_of_decodeSetup hd
    simp only [ht]
    exact exec_mode hi ht
theorem KeepsMode.setupStage : KeepsMode setupStage :=
  .bind .upd fun _ => .bind .readCode fun _ => .runRequest
theorem KeepsMode.dataInStage : KeepsMode dataInStage :=
  .bind .get fun s => by
    cases s.dev.ctrlState with
    | DATA_IN => exact .ite (.bind .upd fun _ => .done .ep0Arm) .awaitStatus
    | STATUS_IN => exact .upd
    | SETUP | DATA_OUT | STATUS_OUT | STALL | ERROR | COMPLETE => exact .pure
theorem KeepsMode.dataOutStage : KeepsMode dataOutStage :=
  .bind .get fun s => by
    cases s.dev.ctrlState with
    | DATA_OUT =>
      exact .bind .readRequest fun _ => .bind .askAck fun _ => .ite .sendStatus .stallRequest
    | STATUS_OUT => exact .upd
    | SETUP | DATA_IN | STATUS_IN | STALL | ERROR | COMPLETE => exact .pure
theorem KeepsMode.serveOut {n : EpIx} : KeepsMode (serveOut n) := by
  refine .bind .get fun s => .ite ?_ .pure
  extract_lets stup
  have hstup : ∀ u, KeepsMode (stup u) := fun _ =>
    .bind .get fun _ => .ite (.bind .upd fun _ => .ite .setupStage .pure) .pure
  have hcomplete : KeepsMode (outComplete n) := .ite .dataOutStage .emit
  exact .ite (.bind .upd fun _ => hcomplete.bind hstup) (hstup ())
theorem KeepsMode.epTxfeHandler {n : EpIx} : KeepsMode (epTxfeHandler n) := by
  refine .bind .get fun s => ?_
  extract_lets mask
  have hmask : ∀ u, KeepsMode (mask u) := fun _ => .upd fun _ => .ite rfl rfl
  exact .ite (.bind .drain hmask) (hmask ())
theorem KeepsMode.serveIn {n : EpIx} : KeepsMode (serveIn n) := by
  refine .bind .get fun s => .ite ?_ .pure
  extract_lets txfe
  have htxfe : ∀ u, KeepsMode (txfe u) := fun _ => .bind .get fun _ => .ite .epTxfeHandler .pure
  have hcomplete : KeepsMode (inComplete n) := .ite .dataInStage .emit
  exact .ite (.bind .upd fun _ => hcomplete.bind htxfe) (htxfe ())

theorem KeepsMode.handler (f : GFlag) : KeepsMode (handler f) := by
  cases f with
  | RXFLVL => exact .rxflvlHandler
  | NPTXFE | PTXFE => exact .txfeHandler
  | HCINT => exact .forEach fun i => .upd fun s => s.serveChannel_mode i
  | HPRTINT => exact .hprtHandler
  | DISCINT => exact .bind .upd fun _ => .emit
  | SOF | ENUMDNE => exact .upd
  | USBRST => exact .bind .upd fun _ => .emit
  | IEPINT => exact .forEach fun _ => .serveIn
  | OEPINT => exact .forEach fun _ => .serveOut
  | USBSUSP | WKUPINT => exact .bind .upd fun _ => .emit
theorem KeepsMode.pass : KeepsMode pass :=
  .bind .get fun _ => .forEach fun f => .bind .get fun _ => .ite (.bind .upd fun _ => .handler f) .pure

/-! ### The step -/

section Step
variable {s t : State}

theorem runIrq_mode (h : runIrq s = .next t) : SameMode s t := by
  unfold runIrq at h
  split at h
  · have hpass : SameMode (s.logged .pass) t := handlerOutcome_mode .pass h
    exact hpass
  · cases h; rfl
theorem runBus_mode {m : BusMove} (h : runBus m s = .next t) : SameMode s t := by
  unfold runBus at h
  split at h
  · cases h; exact State.busEffect_mode _ m
  · cases h
theorem regWrite_mode {off : Nat} {w : Word} (h : regWrite off w s = .next t) : SameMode s t := by
  unfold regWrite at h
  dsimp only at h
  split_ifs at h <;> cases h
  · exact s.setArg_mode 0 w
  · exact s.setArg_mode 1 w
  · exact s.setArg_mode 2 w
  · exact s.setArg_mode 3 w
  · exact KeepsMode.txPush s
  · rfl
  · rfl

/-- A command that changes the mode is INIT. -/
theorem runCommand_mode {w : Word} (h : runCommand w s = .next t) (hmode : t.mode ≠ s.mode) :
    decodeCommand w = .ok .init := by
  unfold runCommand at h
  split at h
  · next i hdec =>
    by_cases hi : i = .init
    · rw [hdec, hi]
    · exact absurd (exec_mode hi h) hmode
  · cases h; exact absurd rfl hmode

/-- A move that changes the mode is a write of INIT to CMD, through the command port or through its register (R106). -/
theorem runMove_mode {m : Move} (h : runMove m s = .next t) (hmode : t.mode ≠ s.mode) :
    ∃ w, (m = .cmd w ∨ m = .regWrite 0x040 w) ∧ decodeCommand w = .ok .init := by
  cases m with
  | cmd w => exact ⟨w, .inl rfl, runCommand_mode (foreground_next h) hmode⟩
  | setArg k v =>
    cases foreground_next (k := fun s => .next ((s.setArg k v).logged (.argWrite k v))) h
    exact absurd (s.setArg_mode k v) hmode
  | poke a b =>
    cases foreground_next (k := fun s => .next ((s.setByte a b).logged (.poke a b))) h
    exact absurd rfl hmode
  | regRead off =>
    cases foreground_next (k := fun s => .next (finalState (regRead off) (s.logged (.regRead off)))) h
    have hread : KeepsMode (regRead off) := .ite (.bind .rxPop fun _ => .upd) .upd
    exact absurd (hread _) hmode
  | regWrite off w =>
    dsimp only [runMove] at h
    have hrun := foreground_next h
    split at hrun
    · next hoff => exact ⟨w, .inr (by rw [hoff]), runCommand_mode hrun hmode⟩
    · exact absurd (regWrite_mode hrun) hmode
  | irq => exact absurd (runIrq_mode h) hmode
  | bus m => exact absurd (runBus_mode h) hmode

end Step

end Sys2Proof.Machine

open Sys2Proof Sys2Proof.Machine

/-- Settles O25: a step makes a move, and the only move that changes the mode is a write of INIT to CMD
(`runMove_mode`), since INIT is the only instruction that does (`exec_mode`). -/
theorem onlyInitChangesMode : Obligations.OnlyInitChangesMode := by
  intro s t hstep hmode
  unfold step State.nextMove at hstep
  split at hstep
  · exact absurd (runIrq_mode hstep) hmode
  · next m rest hsched =>
    obtain ⟨w, rfl | rfl, hdec⟩ := runMove_mode hstep hmode
    · exact ⟨w, rest, .inl hsched, hdec⟩
    · exact ⟨w, rest, .inr hsched, hdec⟩

end

section
/-! ## Bookkeeping (R180 to R182, R185, R341) -/

namespace Sys2Proof.Machine

variable {s : State}

/-! ### Channels -/

theorem allCh_eq : allCh = List.finRange 12 := by decide

theorem State.firstFree_eq_some_iff {i : Ch} : s.firstFree = some i ↔
    (s.pipeAt i).alloc = false ∧ ∀ j < i, (s.pipeAt j).alloc = true := by
  rw [State.firstFree, allCh_eq, List.find?_eq_some_iff_getElem]
  simp only [Bool.not_eq_true', List.getElem_finRange, Bool.not_not]
  refine and_congr_right fun _ => ⟨?_, fun h => ⟨i.val, by simp, rfl, fun k hk => h _ hk⟩⟩
  rintro ⟨k, hk, rfl, hlow⟩ j hj
  exact hlow j.val hj

theorem State.firstFree_eq_none_iff : s.firstFree = none ↔ ∀ j, (s.pipeAt j).alloc = true := by
  simp [State.firstFree, mem_allCh]

theorem exec_challoc_some (hm : s.mode = .HOST) {i : Ch} (hfree : s.firstFree = some i) :
    exec .challoc s = .next { s.usePipe i with port.res := BitVec.ofNat 32 i.val } :=
  commandOutcome_ok (by rw [challoc, needHost_bind_of hm, get_bind_apply, hfree]; rfl)

theorem exec_challoc_none (hm : s.mode = .HOST) (hfree : s.firstFree = none) :
    exec .challoc s = .next { s with port.res := Config.noChannel } :=
  commandOutcome_ok (by rw [challoc, needHost_bind_of hm, get_bind_apply, hfree]; rfl)

theorem exec_chfree (hm : s.mode = .HOST) (c : Ch) :
    exec (.chfree (.ofNat 4 c)) s = .next { s.setPipe c .zero with port.res := 0 } :=
  commandOutcome_ok (by rw [chfree, needHost_bind_of hm, chOperand_ofNat_bind]; rfl)

/-- A channel freed while every lower one is used is the least free one. -/
theorem State.firstFree_setPipe_zero {c : Ch} (hlow : ∀ j < c, (s.pipeAt j).alloc = true) :
    (s.setPipe c .zero).firstFree = some c := by
  refine State.firstFree_eq_some_iff.2 ⟨by rw [State.pipeAt_setPipe_same]; rfl, fun j hj => ?_⟩
  rw [State.pipeAt_setPipe_ne _ _ hj.ne]
  exact hlow j hj

/-! ### The status word of PIPEGET -/

theorem HostChannel.runState_code (c : HostChannel) :
    c.runState.code = if c.chEna = false then 0 else if c.chDis = false then 1 else 2 := by
  unfold HostChannel.runState
  split_ifs <;> rfl

theorem setWidth_bitWord (b : Bool) : (bitWord b : BitVec 1).setWidth 32 = bitWord b := by cases b <;> rfl

/-- Fields side by side in a word are the fields shifted to their places (R182). -/
theorem State.pipeStatus_eq (s : State) (c : Ch) : s.pipeStatus c = (0 : BitVec 20) ++ (s.runState c).code ++
    (bitWord (s.pipeAt c).alloc : BitVec 1) ++ (bitWord (s.pipeAt c).buf.toggle : BitVec 1) ++ (0 : BitVec 1) ++
    (s.pipeAt c).buf.pipeState.code ++ (0 : BitVec 1) ++ (s.pipeAt c).buf.urbStatus.code := by
  rw [← BitVec.setWidth_eq (_ ++ _)]
  simp only [BitVec.setWidth_append_eq_shiftLeft_setWidth_or, BitVec.shiftLeft_or_distrib, ← BitVec.shiftLeft_add]
  simp only [Nat.reduceAdd, BitVec.ofNat_eq_ofNat, BitVec.setWidth_zero, BitVec.zero_shiftLeft, BitVec.zero_or,
    BitVec.or_zero, setWidth_bitWord, State.pipeStatus]
  ac_rfl

theorem exec_pipeget_host (hm : s.mode = .HOST) (c : Ch) :
    exec (.pipeget (.ofNat 4 c) .OUT) s = .next { s with port.res := s.pipeStatus c } ∧
    exec (.pipeget (.ofNat 4 c) .IN) s = .next { s with port.res := (s.pipeAt c).buf.xferCount } := by
  constructor <;> exact commandOutcome_ok (by rw [pipeget, get_bind_apply, hm]; exact chOperand_ofNat_bind c s _)

theorem exec_pipeget_device (hm : s.mode = .DEVICE) (n : EpIx) (dir : Dir) :
    exec (.pipeget (.ofNat 4 n) dir) s = .next { s with port.res := (s.epbAt dir n).xferCount } :=
  commandOutcome_ok (by rw [pipeget, get_bind_apply, hm]; exact epOperand_ofNat_bind n s _)

/-! ### INIT and PORTRESET -/

/-- With a side to run in ARG0, INIT runs the register writes of R185. -/
theorem exec_init {m : Mode} (harg : s.port.arg0 = if m = .HOST then 1 else 0) :
    exec .init s = .next (s.initialise m) := by
  have hok : ¬ (s.port.arg0 >>> 1 ≠ 0) := by rw [harg]; cases m <;> decide
  have hside : (if s.port.arg0.getLsbD 0 then Mode.HOST else .DEVICE) = m := by rw [harg]; cases m <;> rfl
  refine commandOutcome_ok (t := s.initialise m) (r := 0) ?_
  rw [init, get_bind_apply, refuseIf_bind_neg hok, upd_bind_apply, hside]
  rfl

theorem exec_portreset (hm : s.mode = .HOST) :
    exec .portreset s = .next { s with port.res := 0, env.log := .event .portReset :: s.env.log } :=
  commandOutcome_ok (t := s.logged (.event .portReset)) (by rw [portreset, needHost_bind_of hm]; rfl)

end Sys2Proof.Machine

open Sys2Proof Sys2Proof.Machine

/-- Settles O21: `exec_challoc_some` and `exec_challoc_none`, with the channel that `State.firstFree_eq_some_iff` says is
the least free one. -/
theorem challocResult : Obligations.ChallocResult := by
  refine ⟨fun s i hm hfree hlow => ?_, fun s hm hused => ?_, fun s hm => ?_, by decide⟩
  · exact exec_challoc_some hm (State.firstFree_eq_some_iff.2 ⟨hfree, hlow⟩)
  · exact exec_challoc_none hm (State.firstFree_eq_none_iff.2 hused)
  · exact commandOutcome_refuse (needHost_bind_device hm)

/-- Settles O22: `exec_chfree`, the two checks before it, and the channel that the next CHALLOC takes
(`State.firstFree_setPipe_zero`). -/
theorem chfreeResult : Obligations.ChfreeResult := by
  refine ⟨fun s c hm => exec_chfree hm c, fun s num hm => ?_, fun s num hm hnum => ?_, fun s t c hm hlow ht => ?_,
    by decide⟩
  · exact commandOutcome_refuse (needHost_bind_device hm)
  · exact exec_host_badChannel hm hnum 0 .OUT .CONTROL 0 0 (.chfree num) (by simp)
  · cases (exec_chfree hm c).symm.trans ht
    have halloc := exec_challoc_some (s := { s.setPipe c .zero with port.res := 0 }) hm
      (State.firstFree_setPipe_zero hlow)
    exact ⟨_, halloc, rfl, congrArg Pipe.alloc (State.pipeAt_setPipe_same _ c _)⟩

/-- Settles O23: `exec_pipeget_host`, whose status word `State.pipeStatus_eq` lays out, and `exec_pipeget_device`. -/
theorem pipegetResult : Obligations.PipegetResult := by
  refine ⟨fun s c hm => ?_, fun s n dir hm => exec_pipeget_device hm n dir⟩
  have h := exec_pipeget_host hm c
  rw [State.pipeStatus_eq, State.runState, HostChannel.runState_code] at h
  exact h

/-- Settles O24: `exec_init`, whose register writes are those the rule lists, and `exec_portreset`. -/
theorem initAndPortreset : Obligations.InitAndPortreset := by
  refine ⟨fun s m harg => ?_, fun s hm => exec_portreset hm⟩
  rw [exec_init harg]
  cases m <;> rfl

end

section
/-! ## The host control sequencer: opening the pair (R190) -/

namespace Sys2Proof.Machine

variable {s : State}

/-! ### Opening both channels -/

/-- The registers of a channel of the pair opened with its operands of R190. -/
def HostChannel.openedCtrl (r : HostChannel) (mps : BitVec 11) (devAddr : BitVec 7) (dir : Dir) (ping : Bool) :
    HostChannel :=
  { r with
    mps := mps, epNum := 0, dir := dir, epType := .CONTROL, devAddr := devAddr
    doPing := ping, int := 0, intMsk := chMask .CONTROL dir }

/-- The record of a channel of the pair opened with its operands of R190. -/
def Pipe.openedCtrl (p : Pipe) (mps : BitVec 11) (dir : Dir) : Pipe :=
  { p with dir := dir, mps := mps, epType := .CONTROL }

/-- Both channels of the pair opened and the packet size recorded (R190). -/
def State.pairOpened (s : State) (o i : Ch) (mps : BitVec 11) (devAddr : BitVec 7) : State :=
  { s with
    hc := (s.hc.set o ((s.hcAt o).openedCtrl mps devAddr .OUT (decide (s.host.speed = .HIGH)))).set i
      ((s.hcAt i).openedCtrl mps devAddr .IN false)
    pipe := (s.pipe.set o ((s.pipeAt o).openedCtrl mps .OUT)).set i ((s.pipeAt i).openedCtrl mps .IN)
    haintmsk := s.haintmsk ||| BitVec.twoPow 12 o.val ||| BitVec.twoPow 12 i.val
    gintmsk := s.gintmsk ||| 0x008
    host.ctrlMps := mps }

/-- CHOPEN writes the same fields whatever they were, so the second open may start from the first state's records, even
on one channel. -/
theorem openPair_eq (o i : Ch) (mps : BitVec 11) (devAddr : BitVec 7) :
    { (s.openChannel o devAddr .CONTROL mps .OUT 0).openChannel i devAddr .CONTROL mps .IN 0 with
      host.ctrlMps := mps } = s.pairOpened o i mps devAddr := by
  have hmask : s.gintmsk ||| 0x008 ||| 0x008 = s.gintmsk ||| 0x008 := by rw [BitVec.or_assoc, BitVec.or_self]
  have hhc : ((s.setHc o ((s.hcAt o).openedCtrl mps devAddr .OUT (decide (s.host.speed = .HIGH)))).hcAt i).openedCtrl
      mps devAddr .IN false = (s.hcAt i).openedCtrl mps devAddr .IN false := by
    rw [State.hcAt_setHc]
    split
    · next h => rw [h]; rfl
    · rfl
  have hpipe : ((s.setPipe o ((s.pipeAt o).openedCtrl mps .OUT)).pipeAt i).openedCtrl mps .IN =
      (s.pipeAt i).openedCtrl mps .IN := by
    rw [State.pipeAt_setPipe]
    split
    · next h => rw [h]; rfl
    · rfl
  rw [State.pairOpened, ← hhc, ← hpipe, ← hmask]
  simp only [State.openChannel_eq, true_or, and_true, reduceCtorEq, and_false, decide_false]
  rfl

theorem openPair_ok {o i : Ch} (mps : BitVec 11) (devAddr : BitVec 7) (ho : (s.hcAt o).chEna = false)
    (hi : (s.hcAt i).chEna = false) :
    openPair o i mps devAddr s = .ok (some (o, i)) (s.pairOpened o i mps devAddr) := by
  have hi' : ((s.openChannel o devAddr .CONTROL mps .OUT 0).hcAt i).chEna = false := by
    show ((s.setHc o _).hcAt i).chEna = false
    rw [State.hcAt_setHc]
    split
    · exact ho
    · exact hi
  rw [openPair, bind_ok (openChannel_ok _ _ _ _ _ ho), bind_ok (openChannel_ok _ _ _ _ _ hi'), upd_bind_apply,
    openPair_eq]
  rfl

theorem openPair_busy {o i : Ch} (mps : BitVec 11) (devAddr : BitVec 7)
    (h : (s.hcAt o).chEna = true ∨ (s.hcAt i).chEna = true) :
    ∃ t, openPair o i mps devAddr s = .error (.refuse .ChannelBusy) t := by
  cases ho : (s.hcAt o).chEna with
  | true => exact ⟨_, bind_error (openChannel_busy _ _ _ _ _ ho)⟩
  | false =>
    have hi : (s.hcAt i).chEna = true := h.resolve_left (by simp [ho])
    have hne : i ≠ o := by rintro rfl; simp [ho] at hi
    have hi' : ((s.openChannel o devAddr .CONTROL mps .OUT 0).hcAt i).chEna = true := by
      show ((s.setHc o _).hcAt i).chEna = true
      rw [State.hcAt_setHc_ne _ _ hne, hi]
    exact ⟨_, by rw [openPair, bind_ok (openChannel_ok _ _ _ _ _ ho), bind_error (openChannel_busy _ _ _ _ _ hi')]⟩

/-! ### The two lowest free channels -/

theorem State.pipeAt_usePipe_same (s : State) (c : Ch) : (s.usePipe c).pipeAt c = { s.pipeAt c with alloc := true } :=
  s.pipeAt_setPipe_same c _
theorem State.pipeAt_usePipe_ne (s : State) {c j : Ch} (h : j ≠ c) : (s.usePipe c).pipeAt j = s.pipeAt j :=
  s.pipeAt_setPipe_ne _ h

theorem State.usePipe_alloc_iff (s : State) (c j : Ch) :
    ((s.usePipe c).pipeAt j).alloc = true ↔ j = c ∨ (s.pipeAt j).alloc = true := by
  by_cases h : j = c
  · simp [h, State.pipeAt_usePipe_same]
  · simp [h, State.pipeAt_usePipe_ne s h]

theorem State.allocPair_eq_some {o i : Ch} (ho : (s.pipeAt o).alloc = false) (hlow : ∀ j < o, (s.pipeAt j).alloc = true)
    (hoi : o < i) (hi : (s.pipeAt i).alloc = false) (hbetween : ∀ j, o < j → j < i → (s.pipeAt j).alloc = true) :
    s.allocPair = some (o, i) := by
  have hsecond : (s.usePipe o).firstFree = some i := by
    refine State.firstFree_eq_some_iff.2 ⟨?_, fun j hj => (s.usePipe_alloc_iff o j).2 ?_⟩
    · rw [← Bool.not_eq_true, State.usePipe_alloc_iff, hi]
      simp [hoi.ne']
    · rcases lt_trichotomy j o with h | h | h
      · exact .inr (hlow j h)
      · exact .inl h
      · exact .inr (hbetween j h hj)
  rw [State.allocPair, State.firstFree_eq_some_iff.2 ⟨ho, hlow⟩]
  simp only [hsecond]

theorem State.allocPair_eq_none (h : ∀ i j, (s.pipeAt i).alloc = false → (s.pipeAt j).alloc = false → i = j) :
    s.allocPair = none := by
  rw [State.allocPair]
  cases hfree : s.firstFree with
  | none => rfl
  | some o =>
    obtain ⟨ho, -⟩ := State.firstFree_eq_some_iff.1 hfree
    have hnone : (s.usePipe o).firstFree = none := by
      refine State.firstFree_eq_none_iff.2 fun j => (s.usePipe_alloc_iff o j).2 ?_
      cases hj : (s.pipeAt j).alloc with
      | true => exact .inr rfl
      | false => exact .inl (h j o hj ho)
    simp only [hnone]

/-- The first open of R190: the claimed channels are opened as they stand, with `alloc` set. -/
theorem State.claimPair_pairOpened (s : State) {o i : Ch} (hne : o ≠ i) (mps : BitVec 11) (devAddr : BitVec 7) :
    (s.claimPair o i).pairOpened o i mps devAddr = { s.pairOpened o i mps devAddr with
      pipe := (s.pipe.set o (({ s.pipeAt o with alloc := true } : Pipe).openedCtrl mps .OUT)).set i
        (({ s.pipeAt i with alloc := true } : Pipe).openedCtrl mps .IN)
      host := { (s.claimPair o i).host with ctrlMps := mps } } := by
  have hval : o.val ≠ i.val := fun h => hne (Fin.ext h)
  have ho : (s.claimPair o i).pipeAt o = { s.pipeAt o with alloc := true } :=
    ((s.usePipe o).pipeAt_usePipe_ne hne).trans (s.pipeAt_usePipe_same o)
  have hi : (s.claimPair o i).pipeAt i = { s.pipeAt i with alloc := true } := by
    rw [← s.pipeAt_usePipe_ne hne.symm]
    exact (s.usePipe o).pipeAt_usePipe_same i
  have hpipe (p q : Pipe) : ((s.claimPair o i).pipe.set o p).set i q = (s.pipe.set o p).set i q := by
    show (((s.pipe.set o _).set i _).set o p).set i q = _
    rw [Vector.set_comm _ _ hval.symm, Vector.set_set, Vector.set_set]
  rw [State.pairOpened, ho, hi, hpipe]
  rfl

theorem pairCode_some (o i : Ch) : pairCode (some (o, i)) = BitVec.ofNat 32 (o.val + 256 * i.val) := by
  revert o i; decide

/-! ### CTRLOPEN -/

/-- With its operands in range CTRLOPEN is `CtrlOpen`. -/
theorem ctrlopen_of_inRange (hm : s.mode = .HOST) (mps : BitVec 11) (haddr : s.port.arg0.toNat < 128) :
    ctrlopen mps s = (ctrlOpen mps s.devAddrArg >>= fun r => pure (pairCode r)) s := by
  rw [ctrlopen, needHost_bind_of hm, get_bind_apply, refuseIf_bind_neg (not_not.2 (shiftRight_eq_zero haddr))]

theorem ctrlOpen_first {o i : Ch} {mps : BitVec 11} (devAddr : BitVec 7) (hmps : mps ≠ 0)
    (hclosed : s.host.hcCtlOut = none) (hpair : s.allocPair = some (o, i)) :
    ctrlOpen mps devAddr s = openPair o i mps devAddr (s.claimPair o i) := by
  rw [ctrlOpen, get_bind_apply, refuseIf_bind_neg hmps, hclosed, hpair]
  rfl

theorem ctrlOpen_noPair {mps : BitVec 11} (devAddr : BitVec 7) (hmps : mps ≠ 0) (hclosed : s.host.hcCtlOut = none)
    (hpair : s.allocPair = none) : ctrlOpen mps devAddr s = .ok none s := by
  rw [ctrlOpen, get_bind_apply, refuseIf_bind_neg hmps, hclosed, hpair]
  rfl

theorem ctrlOpen_again {o i : Ch} {mps : BitVec 11} (devAddr : BitVec 7) (hmps : mps ≠ 0)
    (ho : s.host.hcCtlOut = some o) (hi : s.host.hcCtlIn = some i) :
    ctrlOpen mps devAddr s = (refuseIf (s.host.verdict = .BUSY) .CtrlBusy >>= fun _ =>
      refuseIf (s.runState o ≠ .IDLE ∨ s.runState i ≠ .IDLE) .ChannelBusy >>= fun _ => openPair o i mps devAddr) s := by
  rw [ctrlOpen, get_bind_apply, refuseIf_bind_neg hmps, ho, hi]

theorem State.pair_busy_iff (s : State) (o i : Ch) : (s.runState o ≠ .IDLE ∨ s.runState i ≠ .IDLE) ↔
    (s.hcAt o).chEna = true ∨ (s.hcAt i).chEna = true := by
  simp only [Ne, State.runState_idle_iff, Bool.not_eq_false]

theorem exec_ctrlopen_ok {mps : BitVec 11} {r : Option (Ch × Ch)} {t : State} (hm : s.mode = .HOST)
    (haddr : s.port.arg0.toNat < 128) (h : ctrlOpen mps s.devAddrArg s = .ok r t) :
    exec (.ctrlopen mps) s = .next { t with port.res := pairCode r } :=
  commandOutcome_ok ((ctrlopen_of_inRange hm mps haddr).trans (bind_ok h))

theorem exec_ctrlopen_refuse {mps : BitVec 11} {r : RefuseName} {t : State} (hm : s.mode = .HOST)
    (haddr : s.port.arg0.toNat < 128) (h : ctrlOpen mps s.devAddrArg s = .error (.refuse r) t) :
    exec (.ctrlopen mps) s = .next (s.refusedWith r) :=
  commandOutcome_refuse ((ctrlopen_of_inRange hm mps haddr).trans (bind_error h))

end Sys2Proof.Machine

open Sys2Proof Sys2Proof.Machine

/-- Settles O26: CTRLOPEN claims the two lowest free channels (`State.allocPair_eq_some`) and opens them, which it does
(`openPair_ok`) or refuses (`openPair_busy`); with fewer than two free there is no pair (`State.allocPair_eq_none`). -/
theorem ctrlopenFirst : Obligations.CtrlopenFirst := by
  refine ⟨fun s o i mps hm hmps haddr hclosed ho hlow hoi hi hbetween hoidle hiidle => ?_,
    fun s o i mps hm hmps haddr hclosed ho hlow hoi hi hbetween hbusy => ?_, fun s mps hm hmps haddr hclosed hone => ?_⟩
  · have hrun := ctrlOpen_first s.devAddrArg hmps hclosed (State.allocPair_eq_some ho hlow hoi hi hbetween)
    have hopen := openPair_ok (s := s.claimPair o i) mps s.devAddrArg hoidle hiidle
    rw [State.claimPair_pairOpened s hoi.ne] at hopen
    rw [exec_ctrlopen_ok hm haddr (hrun.trans hopen), pairCode_some]
    rfl
  · have hrun := ctrlOpen_first s.devAddrArg hmps hclosed (State.allocPair_eq_some ho hlow hoi hi hbetween)
    obtain ⟨t, ht⟩ := openPair_busy (s := s.claimPair o i) mps s.devAddrArg hbusy
    exact exec_ctrlopen_refuse hm haddr (hrun.trans ht)
  · exact exec_ctrlopen_ok hm haddr (ctrlOpen_noPair s.devAddrArg hmps hclosed (State.allocPair_eq_none hone))

/-- Settles O27: with the pair open CTRLOPEN makes its two checks (`ctrlOpen_again`) and opens both channels
(`openPair_ok`). -/
theorem ctrlopenAgain : Obligations.CtrlopenAgain := by
  intro s o i mps hm hmps haddr ho hi
  have hrun := ctrlOpen_again s.devAddrArg hmps ho hi
  refine ⟨fun hv hoidle hiidle => ?_,
    fun hv => exec_ctrlopen_refuse hm haddr (hrun.trans (refuseIf_bind_pos hv)), fun hv hbusy => ?_⟩
  · rw [refuseIf_bind_neg hv, refuseIf_bind_neg (by simp [State.pair_busy_iff, hoidle, hiidle]),
      openPair_ok _ _ hoidle hiidle] at hrun
    rw [exec_ctrlopen_ok hm haddr hrun, pairCode_some]
    rfl
  · rw [refuseIf_bind_neg hv, refuseIf_bind_pos ((s.pair_busy_iff o i).2 hbusy)] at hrun
    exact exec_ctrlopen_refuse hm haddr hrun

end

section
/-! ## The host control sequencer: submitting a request (R191) -/

namespace Sys2Proof.Machine

variable {s : State}

/-! ### Two words side by side -/

/-- An address of the second of two words, from the first word's address. -/
theorem addr_add_four (a : Addr) (j : Nat) : a + 4 + BitVec.ofNat 32 j = a + BitVec.ofNat 32 (4 + j) := by
  rw [BitVec.ofNat_add, BitVec.add_assoc]
  rfl

/-- Memory with the four bytes of a word written (R72). -/
def putWord (m : Memory) (a : Addr) (w : Word) : Memory :=
  memPut (memPut (memPut (memPut m a.toNat (byteOf w 0)) (a + 1).toNat (byteOf w 1)) (a + 2).toNat (byteOf w 2))
    (a + 3).toNat (byteOf w 3)

theorem State.setWord_eq (s : State) (a : Addr) (w : Word) : s.setWord a w = { s with mem := putWord s.mem a w } := by
  simp only [State.setWord, State.setByte, putWord]

theorem State.byte_setWord_setWord (s : State) (a b : Addr) (v w : Word) (x : Addr) :
    ((s.setWord a v).setWord b w).byte x = memGet (putWord (putWord s.mem a v) b w) x.toNat := by
  rw [State.setWord_eq, State.setWord_eq]
  rfl

section Words
variable (hm : memWf s.mem = true) (a : Addr) (w0 w1 : Word)
include hm

/-- Two words written side by side are read back as the eight bytes they carry. -/
theorem State.byte_setWords_at {k : Nat} (hk : k < 8) :
    ((s.setWord a w0).setWord (a + 4) w1).byte (a + BitVec.ofNat 32 k) = wordsByte [w0, w1] k := by
  have hm' := State.wf_setWord hm a w0
  by_cases hlow : k < 4
  · have hword : wordsByte [w0, w1] k = byteOf w0 k := by
      rw [wordsByte, Nat.div_eq_of_lt hlow, Nat.mod_eq_of_lt hlow]
      rfl
    rw [State.byte_setWord_off hm', State.byte_setWord_at hm a w0 hlow, hword]
    intro j hj
    rw [addr_add_four]
    exact addr_add_ne (by omega) (by omega) (by omega)
  · obtain ⟨j, rfl⟩ := Nat.exists_eq_add_of_le (not_lt.1 hlow)
    have hword : wordsByte [w0, w1] (4 + j) = byteOf w1 j := by
      rw [wordsByte, show (4 + j) / 4 = 1 by omega, show (4 + j) % 4 = j by omega]
      rfl
    rw [← addr_add_four, State.byte_setWord_at hm' _ w1 (by omega), hword]

theorem State.byte_setWords_off {x : Addr} (hx : ∀ k < 8, x ≠ a + BitVec.ofNat 32 k) :
    ((s.setWord a w0).setWord (a + 4) w1).byte x = s.byte x := by
  have hsecond : ∀ j < 4, x ≠ a + 4 + BitVec.ofNat 32 j := fun j hj => by
    rw [addr_add_four]
    exact hx (4 + j) (by omega)
  rw [State.byte_setWord_off (State.wf_setWord hm a w0) _ _ hsecond,
    State.byte_setWord_off hm _ _ fun j hj => hx j (by omega)]

end Words

/-! ### CTRLSUBMIT -/

section Submit
variable {o i : Ch} {buf : Addr} {w0 w1 : Word} (hm : s.mode = .HOST) (ho : s.host.hcCtlOut = some o)
  (hi : s.host.hcCtlIn = some i)
include hm ho hi

/-- With the pair open CTRLSUBMIT makes two checks. -/
theorem ctrlSubmit_open : ctrlSubmit buf w0 w1 s = (refuseIf (s.host.verdict = .BUSY) .CtrlBusy >>= fun _ =>
    refuseIf (wraps buf (w1.extractLsb' 16 16).toNat) .AddrWrap >>= fun _ =>
    memWrite32 s.scratch w0 >>= fun _ => memWrite32 (s.scratch + 4) w1 >>= fun _ =>
    upd fun s => { s with
      host.ctrlBuf := buf, host.ctrlLen := w1.extractLsb' 16 16, host.ctrlState := .SETUP
      host.ctrlWait := false, host.errCnt := 0, host.verdict := .BUSY }) s := by
  rw [ctrlSubmit, needHost_bind_of hm, needPair_bind_of ho hi, get_bind_apply]

theorem ctrlSubmit_ok (hv : s.host.verdict ≠ .BUSY) (hfit : buf.toNat + (w1.extractLsb' 16 16).toNat ≤ 2 ^ 32) :
    ctrlSubmit buf w0 w1 s = .ok () { s with
      mem := putWord (putWord s.mem s.scratch w0) (s.scratch + 4) w1
      env.log := .memWrite (s.scratch + 4) 4 w1 :: .memWrite s.scratch 4 w0 :: s.env.log
      host := { s.host with
        ctrlBuf := buf, ctrlLen := w1.extractLsb' 16 16, ctrlState := .SETUP
        ctrlWait := false, errCnt := 0, verdict := .BUSY } } := by
  rw [ctrlSubmit_open hm ho hi, refuseIf_bind_neg hv, refuseIf_bind_neg (by rw [wraps_iff]; omega),
    memWrite32_bind_apply, memWrite32_bind_apply, State.setWord_eq, State.setWord_eq]
  rfl

theorem ctrlSubmit_busy (hv : s.host.verdict = .BUSY) : ctrlSubmit buf w0 w1 s = .error (.refuse .CtrlBusy) s := by
  rw [ctrlSubmit_open hm ho hi, refuseIf_bind_pos hv]

theorem ctrlSubmit_wraps (hv : s.host.verdict ≠ .BUSY) (hwrap : 2 ^ 32 < buf.toNat + (w1.extractLsb' 16 16).toNat) :
    ctrlSubmit buf w0 w1 s = .error (.refuse .AddrWrap) s := by
  rw [ctrlSubmit_open hm ho hi, refuseIf_bind_neg hv, refuseIf_bind_pos ((wraps_iff _ _).2 hwrap)]

end Submit

theorem exec_ctrlsubmit_ok {t : State} (h : ctrlSubmit s.port.arg1 s.port.arg2 s.port.arg3 s = .ok () t) :
    exec .ctrlsubmit s = .next { t with port.res := 0 } :=
  commandOutcome_ok ((get_bind_apply s _).trans (bind_ok h))

theorem exec_ctrlsubmit_refuse {r : RefuseName} {t : State}
    (h : ctrlSubmit s.port.arg1 s.port.arg2 s.port.arg3 s = .error (.refuse r) t) :
    exec .ctrlsubmit s = .next (s.refusedWith r) :=
  commandOutcome_refuse ((get_bind_apply s _).trans (bind_error h))

/-- Without a pair the three commands of the sequencer that need it are refused (R191, R192, R203). -/
theorem exec_sequencer_notOpen (hm : s.mode = .HOST) (hclosed : s.host.hcCtlOut = none) :
    ∀ c ∈ [.ctrlsubmit, .ctrlpoll, .ctrlreq], exec c s = .next (s.refusedWith .NotOpen) := by
  have hcheck {α : Type} (f : Unit → Ch × Ch → M α) :
      (needHost >>= fun u => needPair >>= f u) s = .error (.refuse .NotOpen) s := by
    rw [needHost_bind_of hm, needPair_bind_none hclosed]
  have hsubmit (buf : Addr) (w0 w1 : Word) : ctrlSubmit buf w0 w1 s = .error (.refuse .NotOpen) s := hcheck _
  have hreq (buf : Addr) (w0 w1 : Word) : ctrlReq buf w0 w1 s = .error (.refuse .NotOpen) s := hcheck _
  have hpoll : ctrlPoll s = .error (.refuse .NotOpen) s := hcheck _
  simp only [List.forall_mem_cons]
  exact ⟨exec_ctrlsubmit_refuse (hsubmit _ _ _), commandOutcome_refuse (bind_error hpoll),
    commandOutcome_refuse ((get_bind_apply s _).trans (bind_error (hreq _ _ _))), List.forall_mem_nil _⟩

end Sys2Proof.Machine

open Sys2Proof Sys2Proof.Machine

/-- Settles O28: past its checks CTRLSUBMIT stores two words (`ctrlSubmit_ok`), whose eight bytes, and no others, are
written (`State.byte_setWords_at`, `State.byte_setWords_off`). -/
theorem ctrlsubmitResult : Obligations.CtrlsubmitResult := by
  refine ⟨fun s o i hwf hm ho hi => ⟨fun hv hfit => ?_, fun hv => exec_ctrlsubmit_refuse (ctrlSubmit_busy hm ho hi hv),
    fun hv hwrap => exec_ctrlsubmit_refuse (ctrlSubmit_wraps hm ho hi hv hwrap)⟩,
    fun s hm hclosed => exec_sequencer_notOpen hm hclosed⟩
  refine ⟨_, _, exec_ctrlsubmit_ok (ctrlSubmit_ok hm ho hi hv hfit), fun k hk => ?_, fun x hx => ?_⟩
  · rw [← State.byte_setWord_setWord, State.byte_setWords_at hwf _ _ _ hk]
  · rw [← State.byte_setWord_setWord, State.byte_setWords_off hwf _ _ _ hx]

end

section
/-! ## The host control sequencer: polling a request (R192 to R202) -/

namespace Sys2Proof.Machine

variable {s : State}

/-! ### The rows of R193 -/

/-- A row of R193: the channel of a phase and the operands of its transfer. -/
structure PhaseXfer where
  ch  : Ch
  dir : Dir
  pid : Pid
  len : Nat
  buf : Addr

/-- The row of a phase. -/
def State.phaseXfer (s : State) (o i : Ch) : CtrlState → Option PhaseXfer
  | .SETUP => some ⟨o, .OUT, .SETUP, 8, s.scratch⟩
  | .DATA_IN => some ⟨i, .IN, .DATA1, s.host.ctrlLen.toNat, s.host.ctrlBuf⟩
  | .DATA_OUT => some ⟨o, .OUT, .DATA1, s.host.ctrlLen.toNat, s.host.ctrlBuf⟩
  | .STATUS_IN => some ⟨i, .IN, .DATA1, 0, s.host.ctrlBuf⟩
  | .STATUS_OUT => some ⟨o, .OUT, .DATA1, 0, s.host.ctrlBuf⟩
  | .STALL | .ERROR | .COMPLETE => none

theorem phaseChannel_eq (s : State) (o i : Ch) (ph : CtrlState) :
    phaseChannel o i ph = (s.phaseXfer o i ph).map PhaseXfer.ch := by cases ph <;> rfl

theorem phaseChannel_of_row {o i : Ch} {ph : CtrlState} {x : PhaseXfer} (hx : s.phaseXfer o i ph = some x) :
    phaseChannel o i ph = some x.ch := by rw [phaseChannel_eq s, hx]; rfl

/-- `toggle <- 1` -/
def Pipe.toggled (p : Pipe) : Pipe := { p with buf := { p.buf with toggle := true } }

/-- The state in which the transfer of phase `ph` is enabled: SETUP has set both toggles before (R194). -/
def State.phaseStart (s : State) (o i : Ch) (ph : CtrlState) : State :=
  if ph = .SETUP then (s.setPipe o (s.pipeAt o).toggled).setPipe i (s.pipeAt i).toggled else s

/-- The second toggle may be set in the first state's record, even on one channel. -/
theorem State.toggleOne_toggleOne (s : State) (o i : Ch) : (s.toggleOne o).toggleOne i = s.phaseStart o i .SETUP := by
  have hrec : ((s.setPipe o (s.pipeAt o).toggled).pipeAt i).toggled = (s.pipeAt i).toggled := by
    rw [State.pipeAt_setPipe]
    split
    · next h => rw [h]; rfl
    · rfl
  rw [State.phaseStart, if_pos rfl, ← hrec]
  rfl

theorem State.phaseStart_mode (s : State) (o i : Ch) (ph : CtrlState) : (s.phaseStart o i ph).mode = s.mode := by
  unfold State.phaseStart; split <;> rfl
theorem State.phaseStart_host (s : State) (o i : Ch) (ph : CtrlState) : (s.phaseStart o i ph).host = s.host := by
  unfold State.phaseStart; split <;> rfl
theorem State.hcAt_phaseStart (s : State) (o i c : Ch) (ph : CtrlState) : (s.phaseStart o i ph).hcAt c = s.hcAt c := by
  unfold State.phaseStart; split <;> rfl

/-- `IssuePhase` is `EnableTransfer` with the operands of the row (R193 to R195). -/
theorem issuePhase_row {o i : Ch} {x : PhaseXfer} (hx : s.phaseXfer o i s.host.ctrlState = some x) :
    issuePhase o i s = (enableChannelTransfer x.ch x.dir .CONTROL x.pid s.host.ctrlMps x.len x.buf >>= fun _ => pure ())
      (s.phaseStart o i s.host.ctrlState) := by
  rw [issuePhase, get_bind_apply]
  cases hph : s.host.ctrlState with
  | SETUP =>
    rw [hph] at hx
    cases hx
    rw [← State.toggleOne_toggleOne]
    rfl
  | DATA_IN | DATA_OUT | STATUS_IN | STATUS_OUT =>
    rw [hph] at hx
    cases hx
    rfl
  | STALL | ERROR | COMPLETE =>
    rw [hph] at hx
    cases hx

theorem State.HostArmed.host_eq {t : State} {c : Ch} {dir : Dir} {pid : Pid} {mps len pk : Nat} {buf : Addr}
    (h : s.HostArmed t c dir pid mps len pk buf) : t.host = s.host := by
  obtain ⟨W, l, d, -, rfl⟩ := h
  rfl

/-! ### CTRLPOLL -/

theorem exec_ctrlpoll_ok {t : State} (h : ctrlPoll s = .ok () t) :
    exec .ctrlpoll s = .next { t with port.res := t.host.verdict.code } := commandOutcome_ok (bind_ok h)

theorem exec_ctrlpoll_refuse {r : RefuseName} {t : State} (h : ctrlPoll s = .error (.refuse r) t) :
    exec .ctrlpoll s = .next (s.refusedWith r) := commandOutcome_refuse (bind_error h)

section Issue
variable {o i : Ch} {x : PhaseXfer} (hm : s.mode = .HOST) (ho : s.host.hcCtlOut = some o)
  (hi : s.host.hcCtlIn = some i) (hv : s.host.verdict = .BUSY) (hw : s.host.ctrlWait = false)
  (hx : s.phaseXfer o i s.host.ctrlState = some x)
include hm ho hi hv hw hx

theorem ctrlPoll_issues {a : Word} {t : State}
    (h : enableChannelTransfer x.ch x.dir .CONTROL x.pid s.host.ctrlMps x.len x.buf
      (s.phaseStart o i s.host.ctrlState) = .ok a t) :
    ctrlPoll s = .ok () { t with host.ctrlWait := true } := by
  have hissue : issuePhase o i s = .ok () t := (issuePhase_row hx).trans (bind_ok h)
  rw [ctrlPoll_issue hm ho hi hv (phaseChannel_of_row hx) hw, bind_ok hissue]
  rfl

theorem ctrlPoll_issue_refuse {r : RefuseName} {t : State}
    (h : enableChannelTransfer x.ch x.dir .CONTROL x.pid s.host.ctrlMps x.len x.buf
      (s.phaseStart o i s.host.ctrlState) = .error (.refuse r) t) :
    ctrlPoll s = .error (.refuse r) t := by
  have hissue : issuePhase o i s = .error (.refuse r) t := (issuePhase_row hx).trans (bind_error h)
  rw [ctrlPoll_issue hm ho hi hv (phaseChannel_of_row hx) hw, bind_error hissue]

end Issue

/-! ### The transition table (R198 to R202) -/

/-- The sequencer fields and the history after a row of the table. -/
def State.sequenced (s : State) (st : CtrlState) (wait : Bool) (err : BitVec 2) (v : Verdict)
    (l : List LogEntry := s.env.log) : State :=
  { s with
    host.ctrlState := st, host.ctrlWait := wait, host.errCnt := err, host.verdict := v, env.log := l }

/-- The phase after the setup stage: the direction bit of the request and its length decide (R198). -/
def State.afterSetup (s : State) : CtrlState :=
  if (s.byte s.scratch).getLsbD 7 then (if s.host.ctrlLen ≠ 0 then .DATA_IN else .STATUS_OUT)
  else if s.host.ctrlLen ≠ 0 then .DATA_OUT else .STATUS_IN

theorem State.toPhase_afterSetup (s : State) :
    (if (s.byte s.scratch).getLsbD 7 = true ∧ s.host.ctrlLen ≠ 0 then s.toPhase .DATA_IN
      else if (s.byte s.scratch).getLsbD 7 = false ∧ s.host.ctrlLen ≠ 0 then s.toPhase .DATA_OUT
      else if (s.byte s.scratch).getLsbD 7 = true then s.toPhase .STATUS_OUT
      else s.toPhase .STATUS_IN) = s.toPhase s.afterSetup := by
  unfold State.afterSetup
  cases (s.byte s.scratch).getLsbD 7 <;> by_cases hlen : s.host.ctrlLen = 0#16 <;> simp [hlen]

theorem urbRow_ok_setup (h : s.host.ctrlState = .SETUP) : ∃ l,
    urbRow .OK s = .ok () (s.sequenced s.afterSetup false s.host.errCnt s.host.verdict l) := by
  refine ⟨.memRead s.scratch 1 ((s.byte s.scratch).setWidth 32) :: s.env.log, ?_⟩
  have hnext := (s.logged (.memRead s.scratch 1 ((s.byte s.scratch).setWidth 32))).toPhase_afterSetup
  show urbOk s = _
  rw [urbOk, get_bind_apply, h]
  exact congrArg (EStateM.Result.ok ()) hnext

theorem urbRow_ok_dataOut (h : s.host.ctrlState = .DATA_OUT) :
    urbRow .OK s = .ok () (s.sequenced .STATUS_IN false s.host.errCnt s.host.verdict) := by
  show urbOk s = _
  rw [urbOk, get_bind_apply, h]
  rfl

theorem urbRow_ok_dataIn (h : s.host.ctrlState = .DATA_IN) :
    urbRow .OK s = .ok () (s.sequenced .STATUS_OUT false s.host.errCnt s.host.verdict) := by
  show urbOk s = _
  rw [urbOk, get_bind_apply, h]
  rfl

theorem urbRow_ok_status (h : s.host.ctrlState = .STATUS_IN ∨ s.host.ctrlState = .STATUS_OUT) :
    urbRow .OK s = .ok () (s.sequenced .SETUP false 0 .COMPLETE) := by
  show urbOk s = _
  rw [urbOk, get_bind_apply]
  rcases h with h | h <;> rw [h] <;> rfl

theorem urbRow_error_retry (h : s.host.errCnt.toNat < 2) :
    urbRow .ERROR s = .ok () (s.sequenced .SETUP false (s.host.errCnt + 1) s.host.verdict) := by
  show EStateM.Result.ok () s.urbError = _
  rw [State.urbError, if_pos (show s.host.errCnt.toNat + 1 ≤ Config.ctrlRetry from h)]
  rfl

theorem urbRow_error_giveUp (h : 2 ≤ s.host.errCnt.toNat) :
    urbRow .ERROR s = .ok () (s.sequenced .SETUP false 0 .ERROR) := by
  show EStateM.Result.ok () s.urbError = _
  rw [State.urbError, if_neg (show ¬ s.host.errCnt.toNat + 1 ≤ Config.ctrlRetry from not_le.2 (Nat.lt_succ_of_le h))]
  rfl

theorem urbRow_stall : urbRow .STALL s = .ok () (s.sequenced .SETUP false 0 .STALL) := rfl

/-- Only an OUT data stage that was not ready is issued again (R201). -/
theorem urbRow_noReady : urbRow .NOREADY s = .ok () (s.sequenced s.host.ctrlState
    (if s.host.ctrlState = .DATA_OUT then false else s.host.ctrlWait) s.host.errCnt s.host.verdict) := by
  show EStateM.Result.ok () s.urbNoReady = _
  rw [State.urbNoReady]
  split <;> rfl

theorem urbRow_pending {u : UrbStatus} (h : u = .IDLE ∨ u = .PING) :
    urbRow u s = .ok () (s.sequenced s.host.ctrlState s.host.ctrlWait s.host.errCnt s.host.verdict) := by
  rcases h with rfl | rfl <;> rfl

/-- A poll that reads an outcome takes the row of the phase channel's `urbStatus`. -/
theorem exec_ctrlpoll_row {o i c : Ch} (hm : s.mode = .HOST) (ho : s.host.hcCtlOut = some o)
    (hi : s.host.hcCtlIn = some i) (hv : s.host.verdict = .BUSY) (hw : s.host.ctrlWait = true)
    (hc : phaseChannel o i s.host.ctrlState = some c) {u : UrbStatus} (hu : (s.pipeAt c).buf.urbStatus = u)
    {st : CtrlState} {wait : Bool} {err : BitVec 2} {v : Verdict} {l : List LogEntry}
    (hrow : urbRow u s = .ok () (s.sequenced st wait err v l)) :
    exec .ctrlpoll s = .next { s with
      host.ctrlState := st, host.ctrlWait := wait, host.errCnt := err, host.verdict := v
      port.res := v.code, env.log := l } := by
  subst hu
  exact exec_ctrlpoll_ok ((ctrlPoll_wait hm ho hi hv hc hw).trans hrow)

end Sys2Proof.Machine

open Sys2Proof Sys2Proof.Machine

/-- Settles O29: the row of R193 fixes the operands (`State.phaseXfer`), and CTRLPOLL ends as `EnableTransfer` with them
does (`ctrlPoll_issues`, `ctrlPoll_issue_refuse`). -/
theorem ctrlpollIssues : Obligations.CtrlpollIssues := by
  rintro s o i c ph dir pid len buf hm ho hi hv hw rfl hrow hmps hsize hdir htype hfit
  have hx : s.phaseXfer o i s.host.ctrlState = some ⟨c, dir, pid, len, buf⟩ := by
    rcases hrow with ⟨hph, rfl, rfl, rfl, rfl, rfl⟩ | ⟨hph, rfl, rfl, rfl, rfl, rfl⟩ | ⟨hph, rfl, rfl, rfl, rfl, rfl⟩ |
      ⟨hph, rfl, rfl, rfl, rfl, rfl⟩ | ⟨hph, rfl, rfl, rfl, rfl, rfl⟩ <;> rw [hph] <;> rfl
  have hhc := s.hcAt_phaseStart o i c s.host.ctrlState
  refine ⟨fun hidle => ?_, fun hbusy => ?_⟩
  · obtain ⟨t, harmed, hok⟩ := enableChannelTransfer_ok (s := s.phaseStart o i s.host.ctrlState)
      ((s.phaseStart_mode o i _).trans hm) c pid (type := .CONTROL) hmps (by rw [hhc, hdir]) (by rw [hhc, htype])
      (by rw [hhc, hsize]) (by rw [hhc, hidle]) hfit
    refine ⟨t, harmed, ?_⟩
    rw [exec_ctrlpoll_ok (ctrlPoll_issues hm ho hi hv hw hx hok)]
    have hverdict : t.host.verdict = .BUSY := by rw [harmed.host_eq, s.phaseStart_host, hv]
    simp only [hverdict]
    rfl
  · exact exec_ctrlpoll_refuse (ctrlPoll_issue_refuse hm ho hi hv hw hx
      (enableChannelTransfer_busy hmps (by rw [hhc, hdir]) (by rw [hhc, htype]) (by rw [hhc, hsize])
        (by rw [hhc, hbusy])))

/-- Settles O30: CTRLPOLL takes the row of the URB status (`exec_ctrlpoll_row`), one `urbRow_` lemma per row. -/
theorem ctrlpollRows : Obligations.CtrlpollRows := by
  refine ⟨fun s o i c hm ho hi hv hw hphase => ?_, fun s o i hm ho hi hv => ?_⟩
  · have hc : phaseChannel o i s.host.ctrlState = some c := by
      rcases hphase with ⟨h | h | h, rfl⟩ | ⟨h | h, rfl⟩ <;> rw [h] <;> rfl
    generalize hu : (s.pipeAt c).buf.urbStatus = u
    have hexec {st wait err v l} := exec_ctrlpoll_row (st := st) (wait := wait) (err := err) (v := v) (l := l)
      hm ho hi hv hw hc hu
    cases u with
    | OK =>
      rcases hphase with ⟨h | h | h, -⟩ | ⟨h | h, -⟩
      · obtain ⟨l, hrow⟩ := urbRow_ok_setup h
        exact ⟨_, _, _, _, l, hexec hrow, by simp [h, hv, State.afterSetup]⟩
      · exact ⟨_, _, _, _, _, hexec (urbRow_ok_dataOut h), by simp [h, hv]⟩
      · exact ⟨_, _, _, _, _, hexec (urbRow_ok_status (.inr h)), by simp [h]⟩
      · exact ⟨_, _, _, _, _, hexec (urbRow_ok_dataIn h), by simp [h, hv]⟩
      · exact ⟨_, _, _, _, _, hexec (urbRow_ok_status (.inl h)), by simp [h]⟩
    | ERROR =>
      rcases lt_or_ge s.host.errCnt.toNat 2 with h | h
      · exact ⟨_, _, _, _, _, hexec (urbRow_error_retry h), by simp [h, hv]⟩
      · exact ⟨_, _, _, _, _, hexec (urbRow_error_giveUp h), by simp [not_lt.2 h]⟩
    | STALL => exact ⟨_, _, _, _, _, hexec urbRow_stall, by simp⟩
    | NOREADY => exact ⟨_, _, _, _, _, hexec urbRow_noReady, by simp [hv, hw]⟩
    | IDLE => exact ⟨_, _, _, _, _, hexec (urbRow_pending (.inl rfl)), by simp [hv, hw]⟩
    | PING => exact ⟨_, _, _, _, _, hexec (urbRow_pending (.inr rfl)), by simp [hv, hw]⟩
  · rw [exec_ctrlpoll_ok (ctrlPoll_idle hm ho hi hv)]
    cases h : s.host.verdict with
    | BUSY => exact absurd h hv
    | COMPLETE | STALL | ERROR => rfl

end

section
/-! ## The host control sequencer: CTRLREQ (R203) -/

namespace Sys2Proof.Machine

variable {s : State}

/-! ### How a poll ends -/

/-- `EnableTransfer` on a host channel is refused or submits the transfer, which does not touch the sequencer. -/
theorem enableChannelTransfer_ends (hm : s.mode = .HOST) (c : Ch) (dir : Dir) (type : EpType) (pid : Pid)
    (mps : BitVec 11) (len : Nat) (buf : Addr) :
    (∃ r, enableChannelTransfer c dir type pid mps len buf s = .error (.refuse r) s) ∨
      ∃ a t, enableChannelTransfer c dir type pid mps len buf s = .ok a t ∧ t.host = s.host := by
  by_cases hmps : mps = 0
  · exact .inl ⟨.BadOperand, refuseIf_bind_pos hmps⟩
  by_cases hops : dir ≠ (s.hcAt c).dir ∨ type ≠ (s.hcAt c).epType ∨ mps ≠ (s.hcAt c).mps
  · exact .inl ⟨_, enableChannelTransfer_mismatch hmps hops⟩
  simp only [not_or, not_not] at hops
  obtain ⟨hdir, htype, hsize⟩ := hops
  cases hena : (s.hcAt c).chEna with
  | true => exact .inl ⟨_, enableChannelTransfer_busy hmps hdir htype hsize hena⟩
  | false =>
    rcases lt_or_ge (2 ^ 32) (buf.toNat + (clampPackets len mps.toNat).2) with hwrap | hfit
    · exact .inl ⟨_, enableChannelTransfer_wraps hmps hdir htype hsize hena hwrap⟩
    · obtain ⟨t, harmed, hok⟩ := enableChannelTransfer_ok hm c pid hmps hdir htype hsize hena hfit
      exact .inr ⟨_, t, hok, harmed.host_eq⟩

/-- Every row completes, and none writes the transfer state of CTRLREQ. -/
theorem urbRow_ends (s : State) (u : UrbStatus) :
    ∃ t, urbRow u s = .ok () t ∧ t.host.xferState = s.host.xferState := by
  cases u with
  | OK =>
    cases h : s.host.ctrlState with
    | SETUP => exact (urbRow_ok_setup h).elim fun l hrow => ⟨_, hrow, rfl⟩
    | DATA_OUT => exact ⟨_, urbRow_ok_dataOut h, rfl⟩
    | DATA_IN => exact ⟨_, urbRow_ok_dataIn h, rfl⟩
    | STATUS_IN => exact ⟨_, urbRow_ok_status (.inl h), rfl⟩
    | STATUS_OUT => exact ⟨_, urbRow_ok_status (.inr h), rfl⟩
    | STALL | ERROR | COMPLETE =>
      have hrow : urbRow .OK s = .ok () s := by
        show urbOk s = _
        rw [urbOk, get_bind_apply, h]
        rfl
      exact ⟨s, hrow, rfl⟩
  | ERROR =>
    rcases lt_or_ge s.host.errCnt.toNat 2 with h | h
    · exact ⟨_, urbRow_error_retry h, rfl⟩
    · exact ⟨_, urbRow_error_giveUp h, rfl⟩
  | STALL => exact ⟨_, urbRow_stall, rfl⟩
  | NOREADY => exact ⟨_, urbRow_noReady, rfl⟩
  | IDLE => exact ⟨_, urbRow_pending (.inl rfl), rfl⟩
  | PING => exact ⟨_, urbRow_pending (.inr rfl), rfl⟩

section Pair
variable {o i : Ch} (hm : s.mode = .HOST) (ho : s.host.hcCtlOut = some o) (hi : s.host.hcCtlIn = some i)
include hm ho hi

/-- In a state that is no phase CTRLPOLL changes nothing (entry 25). -/
theorem ctrlPoll_noPhase (hv : s.host.verdict = .BUSY) (hc : phaseChannel o i s.host.ctrlState = none) :
    ctrlPoll s = .ok () s := by
  rw [ctrlPoll, needHost_bind_of hm, needPair_bind_of ho hi]
  show (if s.host.verdict ≠ .BUSY then (pure () : M Unit) else _) s = _
  rw [if_neg (not_not.2 hv), hc]
  rfl

/-- With the pair open CTRLPOLL is refused, or completes without a fault and without writing the transfer state. -/
theorem ctrlPoll_ends : (∃ r t, ctrlPoll s = .error (.refuse r) t) ∨
    ∃ t, ctrlPoll s = .ok () t ∧ t.host.xferState = s.host.xferState := by
  by_cases hv : s.host.verdict = .BUSY
  · cases hx : s.phaseXfer o i s.host.ctrlState with
    | none =>
      have hc : phaseChannel o i s.host.ctrlState = none := by rw [phaseChannel_eq s, hx]; rfl
      exact .inr ⟨s, ctrlPoll_noPhase hm ho hi hv hc, rfl⟩
    | some x =>
      cases hw : s.host.ctrlWait with
      | false =>
        have hstart := (s.phaseStart_mode o i s.host.ctrlState).trans hm
        rcases enableChannelTransfer_ends hstart x.ch x.dir .CONTROL x.pid s.host.ctrlMps x.len x.buf with
          ⟨r, hrefused⟩ | ⟨a, t, hok, hhost⟩
        · exact .inl ⟨r, _, ctrlPoll_issue_refuse hm ho hi hv hw hx hrefused⟩
        · refine .inr ⟨_, ctrlPoll_issues hm ho hi hv hw hx hok, ?_⟩
          show t.host.xferState = _
          rw [hhost, s.phaseStart_host]
      | true =>
        obtain ⟨t, hrow, hxfer⟩ := urbRow_ends s (s.pipeAt x.ch).buf.urbStatus
        exact .inr ⟨t, (ctrlPoll_wait hm ho hi hv (phaseChannel_of_row hx) hw).trans hrow, hxfer⟩
  · exact .inr ⟨s, ctrlPoll_idle hm ho hi hv, rfl⟩

/-! ### CTRLREQ -/

theorem ctrlReq_load (hx : s.host.xferState ≠ .WAITING) (buf : Addr) (w0 w1 : Word) :
    ctrlReq buf w0 w1 s = (ctrlSubmit buf w0 w1 >>= fun _ =>
      upd (fun s => { s with host.xferState := .WAITING }) >>= fun _ => pure .BUSY) s := by
  rw [ctrlReq, needHost_bind_of hm, needPair_bind_of ho hi, get_bind_apply]
  cases h : s.host.xferState with
  | WAITING => exact absurd h hx
  | START | OK => rfl

theorem ctrlReq_poll (hx : s.host.xferState = .WAITING) (buf : Addr) (w0 w1 : Word) :
    ctrlReq buf w0 w1 s = (ctrlPoll >>= fun _ =>
      upd (fun s => { s with host.xferState := xferAfter s.host.xferState s.host.verdict }) >>= fun _ =>
      look fun s => s.host.verdict) s := by
  rw [ctrlReq, needHost_bind_of hm, needPair_bind_of ho hi, get_bind_apply, hx]

theorem ctrlReq_polls (hx : s.host.xferState = .WAITING) {t : State} (hpoll : ctrlPoll s = .ok () t) (buf : Addr)
    (w0 w1 : Word) : ctrlReq buf w0 w1 s =
      .ok t.host.verdict { t with host.xferState := xferAfter t.host.xferState t.host.verdict } :=
  (ctrlReq_poll hm ho hi hx buf w0 w1).trans (bind_ok hpoll)

end Pair

theorem exec_ctrlreq_ok {v : Verdict} {t : State} (h : ctrlReq s.port.arg1 s.port.arg2 s.port.arg3 s = .ok v t) :
    exec .ctrlreq s = .next { t with port.res := v.code } :=
  commandOutcome_ok ((get_bind_apply s _).trans (bind_ok h))

theorem exec_ctrlreq_refuse {r : RefuseName} {t : State}
    (h : ctrlReq s.port.arg1 s.port.arg2 s.port.arg3 s = .error (.refuse r) t) :
    exec .ctrlreq s = .next (s.refusedWith r) :=
  commandOutcome_refuse ((get_bind_apply s _).trans (bind_error h))

end Sys2Proof.Machine

open Sys2Proof Sys2Proof.Machine

/-- Settles O31: CTRLREQ runs CTRLSUBMIT (`ctrlReq_load`) or CTRLPOLL (`ctrlReq_poll`), and a poll is refused or
completes with the transfer state as it was (`ctrlPoll_ends`). -/
theorem ctrlreqResult : Obligations.CtrlreqResult := by
  intro s o i hm ho hi
  refine ⟨fun hx hv hfit => ?_, fun hx hrefused => ?_, fun hx => ?_⟩
  · have hsubmit := ctrlSubmit_ok (w0 := s.port.arg2) hm ho hi hv hfit
    exact ⟨_, exec_ctrlsubmit_ok hsubmit,
      exec_ctrlreq_ok ((ctrlReq_load hm ho hi hx _ _ _).trans (bind_ok hsubmit))⟩
  · have hends : ∃ r, ctrlSubmit s.port.arg1 s.port.arg2 s.port.arg3 s = .error (.refuse r) s := by
      by_cases hv : s.host.verdict = .BUSY
      · exact ⟨_, ctrlSubmit_busy hm ho hi hv⟩
      · exact ⟨_, ctrlSubmit_wraps hm ho hi hv (hrefused.resolve_left hv)⟩
    obtain ⟨r, hsubmit⟩ := hends
    rw [exec_ctrlsubmit_refuse hsubmit,
      exec_ctrlreq_refuse ((ctrlReq_load hm ho hi hx _ _ _).trans (bind_error hsubmit))]
  · rcases ctrlPoll_ends hm ho hi with ⟨r, t, hpoll⟩ | ⟨t, hpoll, hxfer⟩
    · exact ⟨_, exec_ctrlpoll_refuse hpoll,
        .inl ⟨r, rfl, exec_ctrlreq_refuse ((ctrlReq_poll hm ho hi hx _ _ _).trans (bind_error hpoll))⟩⟩
    · refine ⟨_, exec_ctrlpoll_ok hpoll, .inr ⟨rfl, ?_⟩⟩
      rw [exec_ctrlreq_ok (ctrlReq_polls hm ho hi hx hpoll _ _ _), hxfer, hx]
      cases t.host.verdict <;> rfl

end

section
/-! ## Endpoint 0: the data-stage commands (R235 to R238) -/

namespace Sys2Proof.Machine

variable {s : State}

/-! ### The checks that CTRLIN and CTRLOUT share -/

section Ep0Command
variable {d : Dir}

theorem ep0Command_ok (hm : s.mode = .DEVICE) (hact : (s.epAt d 0).active = true) (hena : (s.epAt d 0).epEna = false)
    (hfit : s.port.arg1.toNat + s.port.arg0.toNat ≤ 2 ^ 32) : ep0Command d s = .ok () s := by
  rw [ep0Command, needDevice_bind_of hm, get_bind_apply, refuseIf_bind_neg (by simp [hact]),
    refuseIf_bind_neg (by simp [hena]), refuseIf_apply, if_neg (by rw [wraps_iff]; omega)]

theorem ep0Command_notActive (hm : s.mode = .DEVICE) (hact : (s.epAt d 0).active = false) :
    ep0Command d s = .error (.refuse .NotActive) s := by
  rw [ep0Command, needDevice_bind_of hm, get_bind_apply, refuseIf_bind_pos hact]

theorem ep0Command_busy (hm : s.mode = .DEVICE) (hact : (s.epAt d 0).active = true) (hena : (s.epAt d 0).epEna = true) :
    ep0Command d s = .error (.refuse .ChannelBusy) s := by
  rw [ep0Command, needDevice_bind_of hm, get_bind_apply, refuseIf_bind_neg (by simp [hact]), refuseIf_bind_pos hena]

theorem ep0Command_wraps (hm : s.mode = .DEVICE) (hact : (s.epAt d 0).active = true)
    (hena : (s.epAt d 0).epEna = false) (hwrap : 2 ^ 32 < s.port.arg1.toNat + s.port.arg0.toNat) :
    ep0Command d s = .error (.refuse .AddrWrap) s := by
  rw [ep0Command, needDevice_bind_of hm, get_bind_apply, refuseIf_bind_neg (by simp [hact]),
    refuseIf_bind_neg (by simp [hena]), refuseIf_apply, if_pos ((wraps_iff _ _).2 hwrap)]

end Ep0Command

/-! ### The commands -/

theorem exec_ctrlin_ok (h : ep0Command .IN s = .ok () s) : ∃ t, s.DataIn t s.port.arg1 s.port.arg0.toNat ∧
    exec .ctrlin s = .next { t with port.res := BitVec.ofNat 32 (clampPackets s.port.arg0.toNat s.m0).2 } := by
  obtain ⟨t, hrun, hdata⟩ := ctrlInData_ok s s.port.arg1 s.port.arg0.toNat
  exact ⟨t, hdata, commandOutcome_ok ((bind_ok h).trans hrun)⟩

theorem exec_ctrlout_ok (h : ep0Command .OUT s = .ok () s) : ∃ t, s.DataOut t s.port.arg1 s.port.arg0.toNat ∧
    exec .ctrlout s = .next { t with port.res := BitVec.ofNat 32 (clampPackets s.port.arg0.toNat s.m0).2 } := by
  obtain ⟨t, hrun, hdata⟩ := ctrlOutData_ok s s.port.arg1 s.port.arg0.toNat
  exact ⟨t, hdata, commandOutcome_ok ((bind_ok h).trans hrun)⟩

theorem exec_ctrlin_refuse {r : RefuseName} (h : ep0Command .IN s = .error (.refuse r) s) :
    exec .ctrlin s = .next (s.refusedWith r) := commandOutcome_refuse (bind_error h)
theorem exec_ctrlout_refuse {r : RefuseName} (h : ep0Command .OUT s = .error (.refuse r) s) :
    exec .ctrlout s = .next (s.refusedWith r) := commandOutcome_refuse (bind_error h)

theorem exec_ctrlstall (hm : s.mode = .DEVICE) : exec .ctrlstall s = .next { s.ep0Stalled with port.res := 0 } :=
  commandOutcome_ok (needDevice_bind_of hm)

end Sys2Proof.Machine

open Sys2Proof Sys2Proof.Machine

/-- Settles O32: both commands make the checks of `ep0Command` and then run the primitive of their data stage
(`ctrlInData_ok`, `ctrlOutData_ok`). -/
theorem dataStageCommands : Obligations.DataStageCommands := fun _ hm =>
  ⟨fun hact hena hfit => exec_ctrlin_ok (ep0Command_ok hm hact hena hfit),
    fun hact hena hfit => exec_ctrlout_ok (ep0Command_ok hm hact hena hfit),
    fun hact => exec_ctrlin_refuse (ep0Command_notActive hm hact),
    fun hact => exec_ctrlout_refuse (ep0Command_notActive hm hact),
    fun hact hena => exec_ctrlin_refuse (ep0Command_busy hm hact hena),
    fun hact hena => exec_ctrlout_refuse (ep0Command_busy hm hact hena),
    fun hact hena hwrap => exec_ctrlin_refuse (ep0Command_wraps hm hact hena hwrap),
    fun hact hena hwrap => exec_ctrlout_refuse (ep0Command_wraps hm hact hena hwrap), exec_ctrlstall hm⟩

end

section
/-! ## Setup packets that stall endpoint 0 (R221, R222, R234) -/

namespace Sys2Proof.Machine

variable {s : State}

/-! ### Codes that decode to nothing (R114, R234) -/

/-- A row of a decode table that names a request is passed over by a code that decodes to nothing. -/
theorem ite_never_ok {c : Prop} [Decidable c] {j : Instr} {rest : Except Reject Instr} :
    (∀ i, (if c then .ok j else rest) ≠ .ok i) ↔ ¬ c ∧ ∀ i, rest ≠ .ok i := by
  by_cases hc : c
  · simp [hc]
  · simp [hc]

theorem decodeStandard_never_ok {f : SetupFields} :
    (∀ i, decodeStandard f ≠ .ok i) ↔ f.bRequest = 2 ∨ f.bRequest = 4 ∨ 12 ≤ f.bRequest.toNat := by
  have hlast : ∀ i : Instr, (.error .unrecognizedRequest : Except Reject Instr) ≠ .ok i := nofun
  unfold decodeStandard
  iterate 10 rw [ite_never_ok]
  rw [iff_true_intro hlast, and_true]
  bv_omega

theorem decodeSetup_never_ok {code : BitVec 16} : (∀ i, decodeSetup code ≠ .ok i) ↔
    code.extractLsb' 5 2 = 0 ∧
      (code.extractLsb' 8 8 = 2 ∨ code.extractLsb' 8 8 = 4 ∨ 12 ≤ (code.extractLsb' 8 8).toNat) := by
  rw [decodeSetup, decodeSetupFields]
  show (∀ i, (if code.extractLsb' 5 2 = 0 then _ else _) ≠ _) ↔ _
  by_cases hstd : code.extractLsb' 5 2 = 0
  · rw [if_pos hstd, decodeStandard_never_ok]
    exact (and_iff_right hstd).symm
  · rw [if_neg hstd]
    simp only [ite_never_ok]
    exact ⟨fun h => absurd rfl (h.2.2 _), fun h => absurd h.1 hstd⟩

theorem runRequest_undecoded {code : BitVec 16} (h : ∀ i, decodeSetup code ≠ .ok i) :
    runRequest code s = .ok () s.ep0Stalled := by
  rw [runRequest]
  split
  · rfl
  · next i hi => exact absurd hi (h i)

/-! ### Requests whose recipient is not in their row -/

theorem exec_deviceRequest_stalls {r : BitVec 5} (hr : r ≠ 0) (dir : Dir) :
    ∀ i ∈ [.setAddress dir r, .getDescriptor dir r, .setDescriptor dir r, .getConfiguration dir r,
      .setConfiguration dir r], exec i s = .next s.ep0Stalled := by
  have hstall (m : M Unit) : handlerOutcome (if r = 0 then m else stallRequest) s = .next s.ep0Stalled :=
    handlerOutcome_ok (congrFun (if_neg hr) s)
  simp only [List.forall_mem_cons]
  exact ⟨hstall _, hstall _, hstall _, hstall _, hstall _, List.forall_mem_nil _⟩

theorem exec_interfaceRequest_stalls {r : BitVec 5} (hr : r ≠ 1) (dir : Dir) :
    ∀ i ∈ [.getInterface dir r, .setInterface dir r], exec i s = .next s.ep0Stalled := by
  have hstall (m : M Unit) : handlerOutcome (if r = 1 then m else stallRequest) s = .next s.ep0Stalled :=
    handlerOutcome_ok (congrFun (if_neg hr) s)
  simp only [List.forall_mem_cons]
  exact ⟨hstall _, hstall _, List.forall_mem_nil _⟩

/-- A feature request that neither branch of R225 and R226 takes has read wValue. -/
theorem featureRequest_stalls {r : BitVec 5} (hdev : ¬ (r = 0 ∧ s.reqValue = 1)) (hep : ¬ (r = 2 ∧ s.reqValue = 0))
    (wake : Bool) (onEp : State → Dir → EpIx → State) :
    ∃ l, featureRequest r wake onEp s = .ok () { s.ep0Stalled with env.log := l } := by
  refine ⟨.memRead (s.scratch + 2) 2 (s.reqValue.setWidth 32) :: s.env.log, ?_⟩
  rw [featureRequest, readValue_bind_apply, if_neg hdev, if_neg hep]
  rfl

/-- SET_FEATURE and CLEAR_FEATURE stall where what they share does. -/
theorem exec_featureRequest_stalls {r : BitVec 5} (dir : Dir)
    (h : ∀ wake onEp, ∃ l, featureRequest r wake onEp s = .ok () { s.ep0Stalled with env.log := l }) :
    ∀ i ∈ [.setFeature dir r, .clearFeature dir r], ∃ l, exec i s = .next { s.ep0Stalled with env.log := l } := by
  simp only [List.forall_mem_cons]
  exact ⟨(h _ _).imp fun _ => handlerOutcome_ok, (h _ _).imp fun _ => handlerOutcome_ok, List.forall_mem_nil _⟩

theorem getStatus_otherRecipient_stalls {r : BitVec 5} (h0 : r ≠ 0) (h2 : r ≠ 2) :
    getStatus r s = .ok () s.ep0Stalled := by
  rw [getStatus, get_bind_apply, if_neg h0, if_neg h2]
  rfl

theorem exec_twoRecipientRequest_stalls {r : BitVec 5} (h0 : r ≠ 0) (h2 : r ≠ 2) (dir : Dir) :
    ∀ i ∈ [.getStatus dir r, .setFeature dir r, .clearFeature dir r],
      ∃ l, exec i s = .next { s.ep0Stalled with env.log := l } :=
  List.forall_mem_cons.2 ⟨⟨s.env.log, handlerOutcome_ok (getStatus_otherRecipient_stalls h0 h2)⟩,
    exec_featureRequest_stalls dir (featureRequest_stalls (fun h => h0 h.1) fun h => h2 h.1)⟩

theorem getStatus_noEndpoint_stalls (h : 8 ≤ (s.reqIndex.extractLsb' 0 4).toNat) :
    ∃ l, getStatus 2 s = .ok () { s.ep0Stalled with env.log := l } := by
  refine ⟨.memRead (s.scratch + 4) 2 (s.reqIndex.setWidth 32) :: s.env.log, ?_⟩
  rw [getStatus, get_bind_apply, if_neg (by decide), if_pos rfl, readIndex_bind_apply,
    dif_neg (show ¬ (idxEp _).toNat < 8 from not_lt.2 h)]
  rfl

end Sys2Proof.Machine

open Sys2Proof Sys2Proof.Machine

/-- Settles O6 (`decodeSetup_never_ok`, `runRequest_undecoded`). -/
theorem unknownRequestStalls : Obligations.UnknownRequestStalls :=
  ⟨fun _ => decodeSetup_never_ok, fun _ _ => runRequest_undecoded⟩

/-- Settles O39: one lemma for each set of recipients that the rows of R222 admit, and one for the endpoint number. -/
theorem stalledRequests : Obligations.StalledRequests :=
  ⟨fun _ dir _ hr => exec_deviceRequest_stalls hr dir, fun _ dir _ hr => exec_interfaceRequest_stalls hr dir,
    fun _ dir _ h0 h2 => exec_twoRecipientRequest_stalls h0 h2 dir,
    fun _ _ h => (getStatus_noEndpoint_stalls h).imp fun _ => handlerOutcome_ok, fun _ _ _ _ => rfl⟩

end

section
/-! ## Requests that send a reply (R224, R228, R230, R232) -/

namespace Sys2Proof.Machine

variable {s : State}

/-! ### Staged replies -/

theorem stageHalf_ok (s : State) (l : List LogEntry) (v : BitVec 16) :
    ∃ t, (s.setHalf s.stage v).Reply t s.stage 2 ∧
      (memWrite16 s.stage v >>= fun _ => sendData s.stage 2) { s with env.log := l } = .ok () t := by
  obtain ⟨t, hrun, hreply⟩ := sendData_ok { s.setHalf s.stage v with
    env.log := .memWrite s.stage 2 (v.setWidth 32) :: l } s.stage 2
  exact ⟨t, hreply.of_log, hrun⟩

theorem stageByte_ok (s : State) (b : Byte) : ∃ t, (s.setByte s.stage b).Reply t s.stage 1 ∧
    (memWrite8 s.stage b >>= fun _ => sendData s.stage 1) s = .ok () t := by
  obtain ⟨t, hrun, hreply⟩ := sendData_ok { s.setByte s.stage b with
    env.log := .memWrite s.stage 1 (b.setWidth 32) :: s.env.log } s.stage 1
  exact ⟨t, hreply.of_log, hrun⟩

theorem statusWord_eq (powered wakeup : Bool) : (bitWord powered ||| bitWord wakeup <<< 1 : BitVec 16) =
    (if powered then 1 else 0) ||| (if wakeup then 2 else 0) := by
  cases powered <;> cases wakeup <;> rfl

theorem exec_getStatus_device (s : State) (dir : Dir) :
    ∃ t, (s.setHalf s.stage ((if s.dev.selfPowered then 1 else 0) ||| (if s.dev.remoteWakeup then 2 else 0))).Reply t
      s.stage 2 ∧ exec (.getStatus dir 0) s = .next t := by
  obtain ⟨t, hreply, hrun⟩ := stageHalf_ok s s.env.log (bitWord s.dev.selfPowered ||| bitWord s.dev.remoteWakeup <<< 1)
  rw [statusWord_eq] at hreply
  exact ⟨t, hreply, handlerOutcome_ok hrun⟩

/-! ### The endpoint that wIndex names (R115) -/

theorem idxDir_eq (w : BitVec 16) : idxDir w = if w.getLsbD 7 then .IN else .OUT := by
  have hbit : w.extractLsb' 7 1 = if w.getLsbD 7 then 1 else 0 := extract_eq fun i hi => by
    obtain rfl : i = 0 := by omega
    cases w.getLsbD 7 <;> simp
  rw [idxDir, hbit]
  cases w.getLsbD 7 <;> rfl

theorem idxEp_toNat {w : BitVec 16} {n : EpIx} (h : w.extractLsb' 0 4 = .ofNat 4 n) : (idxEp w).toNat = n.val := by
  rw [idxEp, h, BitVec.toNat_ofNat]
  omega

theorem idxEp_lt {w : BitVec 16} {n : EpIx} (h : w.extractLsb' 0 4 = .ofNat 4 n) : (idxEp w).toNat < 8 := by
  rw [idxEp_toNat h]; exact n.isLt
theorem idxEp_fin {w : BitVec 16} {n : EpIx} (h : w.extractLsb' 0 4 = .ofNat 4 n) :
    (⟨(idxEp w).toNat, idxEp_lt h⟩ : EpIx) = n := Fin.ext (idxEp_toNat h)

theorem idxEp_eq_zero_iff {w : BitVec 16} {n : EpIx} (h : w.extractLsb' 0 4 = .ofNat 4 n) : idxEp w = 0 ↔ n = 0 := by
  rw [← BitVec.toNat_inj, idxEp_toNat h, Fin.ext_iff]; rfl

theorem getStatus_endpoint {n : EpIx} (h : s.reqIndex.extractLsb' 0 4 = .ofNat 4 n) :
    getStatus 2 s = (memWrite16 s.stage (bitWord (s.epAt (idxDir s.reqIndex) n).stall) >>= fun _ => sendData s.stage 2)
      (s.logged (.memRead (s.scratch + 4) 2 (s.reqIndex.setWidth 32))) := by
  rw [getStatus, get_bind_apply, if_neg (by decide), if_pos rfl, readIndex_bind_apply, dif_pos (idxEp_lt h),
    idxEp_fin h]

theorem exec_getStatus_endpoint (dir : Dir) {n : EpIx} (h : s.reqIndex.extractLsb' 0 4 = .ofNat 4 n) :
    ∃ t, (s.setHalf s.stage (if (s.epAt (if s.reqIndex.getLsbD 7 then .IN else .OUT) n).stall then 1 else 0)).Reply t
      s.stage 2 ∧ exec (.getStatus dir 2) s = .next t := by
  rw [← idxDir_eq]
  obtain ⟨t, hreply, hrun⟩ := stageHalf_ok s (.memRead (s.scratch + 4) 2 (s.reqIndex.setWidth 32) :: s.env.log)
    (bitWord (s.epAt (idxDir s.reqIndex) n).stall)
  exact ⟨t, hreply, handlerOutcome_ok ((getStatus_endpoint h).trans hrun)⟩

theorem exec_getConfiguration (s : State) (dir : Dir) :
    ∃ t, (s.setByte s.stage s.dev.curConfiguration).Reply t s.stage 1 ∧ exec (.getConfiguration dir 0) s = .next t :=
  (stageByte_ok s s.dev.curConfiguration).imp fun _ ⟨hreply, hrun⟩ => ⟨hreply, handlerOutcome_ok hrun⟩

theorem exec_getInterface (s : State) (dir : Dir) :
    ∃ t, (s.setByte s.stage s.dev.curAltSetting).Reply t s.stage 1 ∧ exec (.getInterface dir 1) s = .next t :=
  (stageByte_ok s s.dev.curAltSetting).imp fun _ ⟨hreply, hrun⟩ => ⟨hreply, handlerOutcome_ok hrun⟩

/-! ### Descriptors -/

/-- The table that wValue selects (R228). -/
def State.selectedTable (s : State) : Option Table :=
  descriptorTable s.env.par (s.reqValue.extractLsb' 8 8).toNat (s.reqValue.extractLsb' 0 8).toNat

theorem exec_getDescriptor_table (dir : Dir) {b : Table} (h : s.selectedTable = some b) :
    ∃ u, s.Reply u b.addr b.len ∧ exec (.getDescriptor dir 0) s = .next u := by
  obtain ⟨u, hrun, hreply⟩ :=
    sendData_ok (s.logged (.memRead (s.scratch + 2) 2 (s.reqValue.setWidth 32))) b.addr b.len
  refine ⟨u, hreply.of_log, handlerOutcome_ok ?_⟩
  rw [State.selectedTable] at h
  rw [getDescriptor, if_pos rfl, get_bind_apply, readValue_bind_apply, h]
  exact hrun

theorem exec_getDescriptor_none (dir : Dir) (h : s.selectedTable = none) :
    ∃ l, exec (.getDescriptor dir 0) s = .next { s.ep0Stalled with env.log := l } := by
  refine ⟨.memRead (s.scratch + 2) 2 (s.reqValue.setWidth 32) :: s.env.log, handlerOutcome_ok ?_⟩
  rw [State.selectedTable] at h
  rw [getDescriptor, if_pos rfl, get_bind_apply, readValue_bind_apply, h]
  rfl

theorem descriptorTable_eq_some {p : Params} {t k : Nat} {b : Table}
    (h : t = 1 ∧ b = p.tblDevice ∨ t = 2 ∧ b = p.tblConfiguration ∨ t = 3 ∧ p.tblStrings[k]? = some b ∨
      t = 6 ∧ b = p.tblQualifier ∧ b.len ≠ 0) : descriptorTable p t k = some b := by
  rcases h with ⟨rfl, rfl⟩ | ⟨rfl, rfl⟩ | ⟨rfl, hb⟩ | ⟨rfl, rfl, hlen⟩
  · rfl
  · rfl
  · exact hb
  · exact if_neg hlen

theorem descriptorTable_eq_none {p : Params} {t k : Nat}
    (h : t ≠ 1 ∧ t ≠ 2 ∧ t ≠ 3 ∧ t ≠ 6 ∨ t = 3 ∧ p.tblStrings.length ≤ k ∨ t = 6 ∧ p.tblQualifier.len = 0) :
    descriptorTable p t k = none := by
  rcases h with ⟨h1, h2, h3, h6⟩ | ⟨rfl, hlen⟩ | ⟨rfl, hlen⟩
  · rw [descriptorTable, if_neg h1, if_neg h2, if_neg h3, if_neg h6]
  · exact List.getElem?_eq_none hlen
  · exact if_pos hlen

end Sys2Proof.Machine

open Sys2Proof Sys2Proof.Machine

/-- Settles O33: the reply is staged and sent (`stageHalf_ok`, `stageByte_ok`). -/
theorem statusReplies : Obligations.StatusReplies := fun s dir =>
  ⟨exec_getStatus_device s dir, fun _ h => exec_getStatus_endpoint dir h, exec_getConfiguration s dir,
    exec_getInterface s dir⟩

/-- Settles O36: GET_DESCRIPTOR sends the table that wValue selects, or stalls where it selects none. -/
theorem getDescriptorReply : Obligations.GetDescriptorReply := by
  rintro s dir _ _ rfl rfl
  exact ⟨fun b h => exec_getDescriptor_table dir (descriptorTable_eq_some h),
    fun h => exec_getDescriptor_none dir (descriptorTable_eq_none h)⟩

end

section
/-! ## Requests that record a value and arm the status stage (R225 to R227, R231, R233) -/

namespace Sys2Proof.Machine

variable {s : State}

/-! ### Features -/

/-- The codes of two recipients (R113). -/
theorem endpoint_ne_device : (2 : BitVec 5) ≠ 0 := by decide

@[simp] theorem State.reqIndex_logged (s : State) (e : LogEntry) : (s.logged e).reqIndex = s.reqIndex := rfl

/-- `s` with the history after a request that has read wValue and then wIndex. -/
def State.valueIndexRead (s : State) : State :=
  (s.logged (.memRead (s.scratch + 2) 2 (s.reqValue.setWidth 32))).logged
    (.memRead (s.scratch + 4) 2 (s.reqIndex.setWidth 32))

section Feature
variable {wake : Bool} {onEp : State → Dir → EpIx → State}

theorem featureRequest_wakeup (h : s.reqValue = 1) : featureRequest 0 wake onEp s =
    .ok () { s.statusIn with
      dev.ctrlState := .STATUS_IN, dev.remoteWakeup := wake
      env.log := .memRead (s.scratch + 2) 2 (s.reqValue.setWidth 32) :: s.env.log } := by
  rw [featureRequest, readValue_bind_apply, if_pos ⟨rfl, h⟩, upd_bind_apply, sendStatus_ok]
  rfl

/-- An endpoint-halt request while unconfigured: a change of the endpoint wIndex names, if it is not endpoint 0, and the
status stage. -/
theorem featureRequest_halt (h : s.reqValue = 0) (hcfg : s.dev.curConfiguration = 0) {n : EpIx}
    (hn : s.reqIndex.extractLsb' 0 4 = .ofNat 4 n) : featureRequest 2 wake onEp s =
      .ok () (if n ≠ 0 then onEp s.valueIndexRead (idxDir s.reqIndex) n else s.valueIndexRead).statusIn := by
  rw [featureRequest, readValue_bind_apply, if_neg (fun h => endpoint_ne_device h.1), if_pos ⟨rfl, h⟩,
    get_bind_apply, State.logged_dev, if_neg (not_not.2 hcfg), readIndex_bind_apply, State.reqIndex_logged,
    dif_pos (idxEp_lt hn), idxEp_fin hn, upd_bind_apply, sendStatus_ok]
  simp only [Ne, idxEp_eq_zero_iff hn]
  rfl

theorem featureRequest_halt_stalls (h : s.reqValue = 0)
    (hguard : s.dev.curConfiguration ≠ 0 ∨ 8 ≤ (s.reqIndex.extractLsb' 0 4).toNat) :
    ∃ l, featureRequest 2 wake onEp s = .ok () { s.ep0Stalled with env.log := l } := by
  rw [featureRequest, readValue_bind_apply, if_neg (fun h => endpoint_ne_device h.1), if_pos ⟨rfl, h⟩,
    get_bind_apply, State.logged_dev]
  by_cases hcfg : s.dev.curConfiguration = 0
  · have h8 : ¬ (idxEp s.reqIndex).toNat < 8 := not_lt.2 (hguard.resolve_left (not_not.2 hcfg))
    rw [if_neg (not_not.2 hcfg), readIndex_bind_apply, State.reqIndex_logged, dif_neg h8]
    exact ⟨_, rfl⟩
  · rw [if_pos hcfg]
    exact ⟨_, rfl⟩

end Feature

theorem exec_featureRequest_wakeup (dir : Dir) (h : s.reqValue = 1) : ∃ l,
    exec (.setFeature dir 0) s = .next { s.statusIn with
      dev.ctrlState := .STATUS_IN, dev.remoteWakeup := true, env.log := l } ∧
    exec (.clearFeature dir 0) s = .next { s.statusIn with
      dev.ctrlState := .STATUS_IN, dev.remoteWakeup := false, env.log := l } :=
  ⟨_, handlerOutcome_ok (featureRequest_wakeup h), handlerOutcome_ok (featureRequest_wakeup h)⟩

theorem exec_featureRequest_halt (dir : Dir) (h : s.reqValue = 0) (hcfg : s.dev.curConfiguration = 0) {n : EpIx}
    {d : Dir} (hn : s.reqIndex.extractLsb' 0 4 = .ofNat 4 n) (hd : idxDir s.reqIndex = d) (h0 : n ≠ 0) : ∃ l,
    exec (.setFeature dir 2) s = .next { (s.setEp d n { s.epAt d n with stall := true }).statusIn with env.log := l } ∧
    exec (.clearFeature dir 2) s = .next { (s.setEp d n
      { s.epAt d n with stall := false, dpid := .DATA0 }).statusIn with env.log := l } := by
  subst hd
  refine ⟨s.valueIndexRead.env.log, handlerOutcome_ok ((featureRequest_halt h hcfg hn).trans ?_),
    handlerOutcome_ok ((featureRequest_halt h hcfg hn).trans ?_)⟩
  · rw [if_pos h0]; cases idxDir s.reqIndex <;> rfl
  · rw [if_pos h0]; cases idxDir s.reqIndex <;> rfl

theorem exec_featureRequest_ep0 (dir : Dir) (h : s.reqValue = 0) (hcfg : s.dev.curConfiguration = 0)
    (hn : s.reqIndex.extractLsb' 0 4 = .ofNat 4 (0 : EpIx).val) : ∃ l, ∀ i ∈ [.setFeature dir 2, .clearFeature dir 2],
      exec i s = .next { s.statusIn with env.log := l } := by
  have hack (wake : Bool) (onEp : State → Dir → EpIx → State) : handlerOutcome (featureRequest 2 wake onEp) s =
      .next { s.statusIn with env.log := s.valueIndexRead.env.log } :=
    handlerOutcome_ok (featureRequest_halt h hcfg hn)
  refine ⟨s.valueIndexRead.env.log, ?_⟩
  simp only [List.forall_mem_cons]
  exact ⟨hack _ _, hack _ _, List.forall_mem_nil _⟩

end Sys2Proof.Machine

open Sys2Proof Sys2Proof.Machine

/-- Settles O34: one lemma for each branch of `featureRequest`, which both requests run. -/
theorem featureRequests : Obligations.FeatureRequests := by
  intro s dir
  refine ⟨exec_featureRequest_wakeup dir, ?_,
    fun h hguard => exec_featureRequest_stalls dir fun _ _ => featureRequest_halt_stalls h hguard,
    fun h => exec_featureRequest_stalls dir (featureRequest_stalls ?_ ?_),
    fun h => exec_featureRequest_stalls dir (featureRequest_stalls ?_ ?_)⟩
  · rintro h hcfg n d hn rfl
    exact ⟨exec_featureRequest_halt dir h hcfg hn (idxDir_eq _),
      by rintro rfl; exact exec_featureRequest_ep0 dir h hcfg hn⟩
  · exact fun hdev => h hdev.2
  · exact fun hep => endpoint_ne_device hep.1.symm
  · exact fun hdev => endpoint_ne_device hdev.1
  · exact fun hep => h hep.2

end

section
/-! ## Requests that record a value and arm the status stage: address, interface, configuration (R227, R231, R233) -/

namespace Sys2Proof.Machine

variable {s : State}

/-! ### Address and interface -/

/-- Bits 6:0 of a value below 128 are the value. -/
theorem addressBits_eq_zero_iff {v : BitVec 16} (h : v.toNat ≤ 127) : v.extractLsb' 0 7 = 0 ↔ v = 0 := by
  rw [← BitVec.toNat_inj, ← BitVec.toNat_inj, BitVec.extractLsb'_toNat, Nat.shiftRight_zero]
  show v.toNat % 128 = 0 ↔ v.toNat = 0
  omega

theorem setAddress_ok (hst : s.dev.devState ≠ .CONFIGURED) (hv : s.reqValue.toNat ≤ 127) :
    setAddress 0 s = .ok () { s.statusIn with
      dev := { s.dev with
        ctrlState := .STATUS_IN, addr := s.reqValue.extractLsb' 0 7
        devState := if s.reqValue = 0 then .DEFAULT else .ADDRESS }
      env.log := .memRead (s.scratch + 2) 2 (s.reqValue.setWidth 32) :: s.env.log } := by
  rw [setAddress, if_pos rfl, get_bind_apply, if_neg hst, readValue_bind_apply, if_neg (not_lt.2 hv), upd_bind_apply,
    sendStatus_ok]
  simp only [ne_eq, ite_not, addressBits_eq_zero_iff hv]
  rfl

theorem setAddress_stalls (h : s.dev.devState = .CONFIGURED ∨ 127 < s.reqValue.toNat) :
    ∃ l, setAddress 0 s = .ok () { s.ep0Stalled with env.log := l } := by
  rw [setAddress, if_pos rfl, get_bind_apply]
  by_cases hst : s.dev.devState = .CONFIGURED
  · rw [if_pos hst]
    exact ⟨_, rfl⟩
  · rw [if_neg hst, readValue_bind_apply, if_pos (h.resolve_left hst)]
    exact ⟨_, rfl⟩

theorem setInterface_ok (s : State) : ∃ l, setInterface 1 s = .ok () { s.statusIn with
    dev := { s.dev with
      ctrlState := .STATUS_IN, curInterface := s.reqIndex.extractLsb' 0 8
      curAltSetting := s.reqValue.extractLsb' 0 8 }
    env.log := l } := by
  rw [setInterface, if_pos rfl, readIndex_bind_apply, readValue_bind_apply, upd_bind_apply, sendStatus_ok]
  exact ⟨_, rfl⟩

/-! ### Configuration -/

/-- A configuration and a device state recorded, the status stage armed; `calls` are the hook calls, newest first, after
the read of wValue. -/
def State.reconfigured (s : State) (cfg : Byte) (st : DevState) (calls : List Event) : State :=
  { s.statusIn with
    dev := { s.dev with ctrlState := .STATUS_IN, curConfiguration := cfg, devState := st }
    env.log := calls.map .event ++ .memRead (s.scratch + 2) 2 (s.reqValue.setWidth 32) :: s.env.log }

theorem State.events_reconfigured (s : State) (cfg : Byte) (st : DevState) (calls : List Event) :
    (s.reconfigured cfg st calls).events = calls ++ s.events := by
  induction calls with
  | nil => rfl
  | cons e calls ih => exact congrArg (e :: ·) ih

theorem setConfiguration_stalls (hst : s.dev.devState = .DEFAULT) :
    ∃ l, setConfiguration 0 s = .ok () { s.ep0Stalled with env.log := l } := by
  rw [setConfiguration, if_pos rfl, readValue_bind_apply, get_bind_apply, State.logged_dev, hst]
  exact ⟨_, rfl⟩

section Rows
variable {v : Byte} (hv : s.reqValue.extractLsb' 0 8 = v)
include hv

theorem setConfiguration_configures (hst : s.dev.devState = .ADDRESS) (h0 : v ≠ 0) :
    setConfiguration 0 s = .ok () (s.reconfigured v .CONFIGURED [.classInit v]) := by
  subst hv
  rw [setConfiguration, if_pos rfl, readValue_bind_apply, get_bind_apply, State.logged_dev, hst]
  refine (congrFun (if_pos h0) _).trans ?_
  rw [upd_bind_apply, emit_bind_apply]
  exact sendStatus_ok _

theorem setConfiguration_staysAddressed (hst : s.dev.devState = .ADDRESS) (h0 : v = 0) :
    setConfiguration 0 s = .ok () (s.reconfigured s.dev.curConfiguration .ADDRESS []) := by
  subst hv
  rw [setConfiguration, if_pos rfl, readValue_bind_apply, get_bind_apply, State.logged_dev, hst]
  refine (congrFun (if_neg (not_not.2 h0)) _).trans ((sendStatus_ok _).trans ?_)
  rw [State.reconfigured, ← hst]
  rfl

theorem setConfiguration_deconfigures (hst : s.dev.devState = .CONFIGURED) (h0 : v = 0) :
    setConfiguration 0 s = .ok () (s.reconfigured 0 .ADDRESS [.classDeInit s.dev.curConfiguration]) := by
  subst hv
  rw [setConfiguration, if_pos rfl, readValue_bind_apply, get_bind_apply, State.logged_dev, hst]
  refine (congrFun (if_pos h0) _).trans ?_
  rw [emit_bind_apply, upd_bind_apply]
  exact sendStatus_ok _

theorem setConfiguration_reconfigures (hst : s.dev.devState = .CONFIGURED) (h0 : v ≠ 0)
    (hnew : v ≠ s.dev.curConfiguration) : setConfiguration 0 s =
      .ok () (s.reconfigured v .CONFIGURED [.classInit v, .classDeInit s.dev.curConfiguration]) := by
  subst hv
  rw [setConfiguration, if_pos rfl, readValue_bind_apply, get_bind_apply, State.logged_dev, hst]
  refine (congrFun ((if_neg h0).trans (if_pos hnew)) _).trans ?_
  rw [emit_bind_apply, upd_bind_apply, emit_bind_apply]
  refine (sendStatus_ok _).trans ?_
  rw [State.reconfigured, ← hst]
  rfl

theorem setConfiguration_staysConfigured (hst : s.dev.devState = .CONFIGURED) (h0 : v ≠ 0)
    (hold : v = s.dev.curConfiguration) :
    setConfiguration 0 s = .ok () (s.reconfigured v .CONFIGURED []) := by
  subst hv
  rw [setConfiguration, if_pos rfl, readValue_bind_apply, get_bind_apply, State.logged_dev, hst]
  refine (congrFun ((if_neg h0).trans (if_neg (not_not.2 hold))) _).trans ((sendStatus_ok _).trans ?_)
  rw [State.reconfigured, ← hst, hold]
  rfl

end Rows

end Sys2Proof.Machine

open Sys2Proof Sys2Proof.Machine

/-- Settles O35 (`setAddress_ok`, `setAddress_stalls`, `setInterface_ok`). -/
theorem addressAndInterface : Obligations.AddressAndInterface := fun s _ =>
  ⟨fun hst hv => ⟨_, handlerOutcome_ok (setAddress_ok hst hv)⟩,
    fun h => (setAddress_stalls h).imp fun _ => handlerOutcome_ok, (setInterface_ok s).imp fun _ => handlerOutcome_ok⟩

/-- Settles O37: one lemma for each row of R231, which fixes what `State.reconfigured` records and the hooks called. -/
theorem setConfigurationRequest : Obligations.SetConfigurationRequest := by
  rintro s dir _ rfl
  refine ⟨fun hst => (setConfiguration_stalls hst).imp fun _ => handlerOutcome_ok, fun hst => ?_⟩
  have row {cfg st calls} (h : setConfiguration 0 s = .ok () (s.reconfigured cfg st calls)) :=
    And.intro (handlerOutcome_ok h) (s.events_reconfigured cfg st calls)
  cases hdev : s.dev.devState with
  | DEFAULT => exact absurd hdev hst
  | ADDRESS =>
    by_cases h0 : s.reqValue.extractLsb' 0 8 = 0
    · obtain ⟨hrun, hev⟩ := row (setConfiguration_staysAddressed rfl hdev h0)
      exact ⟨_, hrun, rfl, fun _ h => absurd h0 h, fun _ _ => ⟨rfl, rfl, hev⟩, nofun, nofun, nofun⟩
    · obtain ⟨hrun, hev⟩ := row (setConfiguration_configures rfl hdev h0)
      exact ⟨_, hrun, rfl, fun _ _ => ⟨rfl, rfl, hev⟩, fun _ h => absurd h h0, nofun, nofun, nofun⟩
  | CONFIGURED =>
    by_cases h0 : s.reqValue.extractLsb' 0 8 = 0
    · obtain ⟨hrun, hev⟩ := row (setConfiguration_deconfigures rfl hdev h0)
      exact ⟨_, hrun, rfl, nofun, nofun, fun _ _ => ⟨rfl, rfl, hev⟩, fun _ h => absurd h0 h,
        fun _ h => absurd h0 h⟩
    · by_cases hcur : s.reqValue.extractLsb' 0 8 = s.dev.curConfiguration
      · obtain ⟨hrun, hev⟩ := row (setConfiguration_staysConfigured rfl hdev h0 hcur)
        exact ⟨_, hrun, rfl, nofun, nofun, fun _ h => absurd h h0, fun _ _ h => absurd hcur h,
          fun _ _ _ => ⟨rfl, rfl, hev⟩⟩
      · obtain ⟨hrun, hev⟩ := row (setConfiguration_reconfigures rfl hdev h0 hcur)
        exact ⟨_, hrun, rfl, nofun, nofun, fun _ h => absurd h h0, fun _ _ _ => ⟨rfl, rfl, hev⟩,
          fun _ _ h => absurd h hcur⟩

end

section
/-! ## Requests that a hook answers (R44, R229, R241)

What the endpoint-0 engine leaves alone: it emits no event and writes no enable that decides which OUT endpoints a pass
serves. One lemma per computation, which follows the computation's pseudocode. -/

-- As in the tests: many proofs elaborated at once exhaust the threads of the sandbox.
set_option Elab.async false

namespace Sys2Proof.Machine

/-- The enables that decide whether a pass serves an OUT endpoint: `gintmsk` and `daintmsk` (R25, R36). -/
def State.outEnables (s : State) : BitVec 13 × BitVec 8 := (s.gintmsk, s.dep.daintmskOut)

/-- The same enables, and no event in between. -/
abbrev Quiet (s t : State) : Prop := (t.outEnables, t.events) = (s.outEnables, s.events)

theorem quiet_chain : Chain Quiet := ⟨fun _ => rfl, fun h h' => h'.trans h⟩

theorem Quiet.outEnables {s t : State} (h : Quiet s t) : t.outEnables = s.outEnables := congrArg Prod.fst h
theorem Quiet.events {s t : State} (h : Quiet s t) : t.events = s.events := congrArg Prod.snd h
theorem Quiet.ite {s t u : State} {c : Prop} [Decidable c] (ht : Quiet s t) (hu : Quiet s u) :
    Quiet s (if c then t else u) := by split <;> assumption

/-- Every run of `m` is quiet, however it ends. -/
abbrev RunsQuiet {α : Type} (m : M α) : Prop := Moves Quiet m

/-! ### The ways of building a computation -/

section Build
variable {α β : Type} {c : Prop} [Decidable c]

theorem RunsQuiet.bind {m : M α} {f : α → M β} (hm : RunsQuiet m) (hf : ∀ a, RunsQuiet (f a)) : RunsQuiet (m >>= f) :=
  moves_bind quiet_chain hm hf
theorem RunsQuiet.done {m : M α} (hm : RunsQuiet m) : RunsQuiet (do let _ ← m; pure ()) :=
  hm.bind fun _ => moves_pure quiet_chain ()
theorem RunsQuiet.ite {m n : M α} (hm : RunsQuiet m) (hn : RunsQuiet n) : RunsQuiet (if c then m else n) :=
  moves_ite hm hn
theorem RunsQuiet.pure {a : α} : RunsQuiet (pure a : M α) := moves_pure quiet_chain a
theorem RunsQuiet.get : RunsQuiet (get : M State) := moves_get quiet_chain
theorem RunsQuiet.look {f : State → α} : RunsQuiet (look f) := moves_look quiet_chain f
theorem RunsQuiet.upd {f : State → State} (h : ∀ s, Quiet s (f s) := by exact fun _ => rfl) : RunsQuiet (upd f) :=
  moves_upd h

end Build

/-! ### Packets into the transmit queue of an endpoint -/

theorem RunsQuiet.memRead8 {a : Addr} : RunsQuiet (memRead8 a) := fun _ => rfl
theorem RunsQuiet.memRead32 {a : Addr} : RunsQuiet (memRead32 a) := fun _ => rfl
theorem RunsQuiet.readLength : RunsQuiet readLength := fun _ => rfl
theorem RunsQuiet.drawPad : RunsQuiet drawPad := fun _ => rfl
theorem RunsQuiet.txPush {num : Ch} {w : Word} : RunsQuiet (txPush num w) := fun s => by
  by_cases h : s.txSpace (s.classOf num) = 0
  · rw [finalState_error (txPush_overflow w h)]; rfl
  · rw [finalState_ok (txPush_ok w (Nat.pos_of_ne_zero h))]; rfl
theorem RunsQuiet.writeWords {num : Ch} {n : Nat} {src : Addr} : RunsQuiet (writeWords num src n) := by
  induction n generalizing src with
  | zero => exact .pure
  | succ n ih => exact .bind .memRead32 fun _ => .bind .txPush fun _ => ih
theorem RunsQuiet.gatherTail {r : Nat} {src : Addr} : RunsQuiet (gatherTail src r) := by
  induction r generalizing src with
  | zero => exact .pure
  | succ r ih => exact .bind .memRead8 fun _ => ih.bind fun _ => .pure
theorem RunsQuiet.writePacket {num : Ch} {src : Addr} {len : Nat} : RunsQuiet (writePacket num src len) :=
  .bind .writeWords fun _ => .ite .pure (.bind .gatherTail fun _ => .bind .drawPad fun _ => .txPush)

section Endpoint
variable {d : Dir} {n : EpIx}

theorem Quiet.setBuf (s : State) (b : XferBuf) : Quiet s (s.setBuf (.ep d n) b) := by cases d <;> rfl
theorem Quiet.programRegs (s : State) (len pk : Nat) (pid : Pid) : Quiet s (s.programRegs (.ep d n) len pk pid) := by
  cases d <;> rfl
theorem RunsQuiet.sendPacket {k : Nat} : RunsQuiet (sendPacket (.ep d n) k) :=
  .bind .look fun _ => .bind .writePacket fun _ => .upd fun s => .setBuf s _
theorem RunsQuiet.startTransfer {dir : Dir} {pid : Pid} {mps len pk : Nat} {buf : Addr} :
    RunsQuiet (startTransfer (.ep d n) dir pid mps len pk buf) := by
  have hfirst : RunsQuiet (txFirstPacket (.ep d n) len mps) :=
    .bind .get fun _ => .ite .pure <| .ite (.bind .sendPacket fun _ => .upd fun _ => .ite rfl rfl) .upd
  exact .bind (.upd fun s => .programRegs s len pk pid) fun _ => .bind (.upd fun s => .setBuf s _) fun _ =>
    .ite (hfirst.bind fun _ => .pure) .pure

end Endpoint

/-! ### The reply primitives (R223) and `ApplyHook` -/

theorem RunsQuiet.ep0Arm {d : Dir} {len : Nat} {buf : Addr} : RunsQuiet (ep0Arm d len buf) :=
  .bind .get fun _ => .startTransfer
theorem RunsQuiet.ctrlInData {buf : Addr} {len : Nat} : RunsQuiet (ctrlInData buf len) :=
  .bind .readLength fun _ => .bind .upd fun _ => .ep0Arm
theorem RunsQuiet.stallRequest : RunsQuiet stallRequest := .upd
theorem RunsQuiet.sendStatus : RunsQuiet sendStatus := .bind .upd fun _ => .bind .get fun _ => .done .ep0Arm
theorem RunsQuiet.awaitStatus : RunsQuiet awaitStatus := .bind .upd fun _ => .bind .get fun _ => .done .ep0Arm
theorem RunsQuiet.sendData {addr : Addr} {len : Nat} : RunsQuiet (sendData addr len) :=
  .bind .readLength fun _ => .ite .awaitStatus (.done .ctrlInData)
theorem RunsQuiet.receiveData {addr : Addr} {len : Nat} : RunsQuiet (receiveData addr len) :=
  .bind .readLength fun _ => .done (.bind .upd fun _ => .ep0Arm)
theorem RunsQuiet.applyHook {dir : Dir} {r : HookResult} : RunsQuiet (applyHook dir r) :=
  .bind .readLength fun _ => by
    cases r with
    | Stall => exact .stallRequest
    | NoData => exact .ite .sendStatus .stallRequest
    | DataIn addr len => exact .ite .sendData .stallRequest
    | DataOut addr len => exact .ite .receiveData .stallRequest

/-! ### The hook requests -/

/-- What a class, a vendor and a SET_DESCRIPTOR request share (R221, R229, R241). -/
def hookRequest (dir : Dir) (call : BitVec 64 → Event) : M Unit := do
  let req ← readRequest
  let r ← askHook (call req)
  applyHook dir r

/-- The state with the next hook answer taken from those the run supplies, or drawn (entry 12). -/
def State.answerTaken (s : State) : State :=
  { s with
    env.hookAnswers := s.env.hookAnswers.tail
    env.draws := if s.env.hookAnswers = [] then s.env.draws + 1 else s.env.draws }

/-- A hook is called and answers (R44); both are in the history. -/
theorem askHook_ok (call : Event) (s : State) : askHook call s =
    .ok s.nextAnswer { s.answerTaken with env.log := .hookAnswer s.nextAnswer :: .event call :: s.env.log } := by
  unfold askHook State.answerTaken State.nextAnswer
  cases h : s.env.hookAnswers <;> simp [State.logged, h]

theorem State.HookApplied.of_log {s t : State} {l : List LogEntry} {dir : Dir} {r : HookResult}
    (h : State.HookApplied { s with env.log := l } t dir r) : s.HookApplied t dir r := by
  have hlen : State.reqLength { s with env.log := l } = s.reqLength := rfl
  cases r with
  | Stall => exact h
  | NoData => exact h
  | DataIn addr len =>
    rw [State.HookApplied] at h ⊢
    split at h
    · next hd => rw [if_pos hd]; exact h.of_log
    · next hd => rw [if_neg hd]; exact h
  | DataOut addr len =>
    rw [State.HookApplied, hlen] at h
    rw [State.HookApplied]
    split at h
    · next hd => rw [if_pos hd]; exact h.of_log
    · next hd => rw [if_neg hd]; exact h

/-- The hook is called with the request bytes, and its answer is applied without a further event. -/
theorem hookRequest_ok (s : State) (dir : Dir) (call : BitVec 64 → Event) : ∃ t,
    s.answerTaken.HookApplied t dir s.nextAnswer ∧ hookRequest dir call s = .ok () t ∧
      t.events = call s.reqBytes :: s.events := by
  obtain ⟨u, hu⟩ : ∃ u : State, u = { s.answerTaken with
    env.log := .hookAnswer s.nextAnswer :: .event (call s.reqBytes) ::
      .memRead (s.scratch + 4) 4 (s.word (s.scratch + 4)) ::
      .memRead s.scratch 4 (s.word s.scratch) :: s.env.log } := ⟨_, rfl⟩
  obtain ⟨t, hrun, happ⟩ := applyHook_ok u dir s.nextAnswer
  have hquiet : Quiet u t := by
    have := RunsQuiet.applyHook (dir := dir) (r := s.nextAnswer) u
    rwa [finalState_ok hrun] at this
  refine ⟨t, ?_, ?_, ?_⟩
  · rw [hu] at happ; exact happ.of_log
  · rw [hookRequest, readRequest_bind_apply, bind_ok (askHook_ok _ _), ← hrun, hu]
    rfl
  · rw [hquiet.events, hu]; rfl

end Sys2Proof.Machine

open Sys2Proof Sys2Proof.Machine

/-- Settles O38: the three requests share `hookRequest` (`hookRequest_ok`). -/
theorem hookRequests : Obligations.HookRequests := by
  have exec_ok {s : State} {dir : Dir} {call : BitVec 64 → Event} {m : M Unit} (hm : m s = hookRequest dir call s) :
      ∃ t, s.answerTaken.HookApplied t dir s.nextAnswer ∧ handlerOutcome m s = .next t ∧
        t.events = call s.reqBytes :: s.events :=
    (hookRequest_ok s dir call).imp fun _ ⟨happ, hrun, hev⟩ => ⟨happ, handlerOutcome_ok (hm.trans hrun), hev⟩
  refine ⟨fun s bRequest dir r => ?_, fun s dir => ⟨fun hhook => ?_, fun hhook => ?_⟩⟩
  · simp only [List.forall_mem_cons]
    exact ⟨exec_ok (call := .classRequest) rfl, exec_ok (call := .vendorRequest) rfl, List.forall_mem_nil _⟩
  · refine exec_ok (call := .setDescriptor) ?_
    rw [setDescriptor, if_pos rfl, get_bind_apply, if_pos hhook]
    rfl
  · refine handlerOutcome_ok ?_
    rw [setDescriptor, if_pos rfl, get_bind_apply, if_neg (by simp [hhook])]
    rfl

end

section
/-! ## A pass that serves a setup packet (R220, R221, R300, R351)

No request writes an enable of the pass, so a pass that begins with one source enabled serves that source alone. -/

-- As in the tests: many proofs elaborated at once exhaust the threads of the sandbox.
set_option Elab.async false

namespace Sys2Proof.Machine

/-! ### What a request keeps -/

/-- The same enables: `Quiet` where hook calls are allowed. -/
abbrev SameEnables (s t : State) : Prop := t.outEnables = s.outEnables

theorem sameEnables_chain : Chain SameEnables := ⟨fun _ => rfl, fun h h' => h'.trans h⟩

/-- Every run of `m` keeps the enables, however it ends. -/
abbrev KeepsEnables {α : Type} (m : M α) : Prop := Moves SameEnables m

theorem RunsQuiet.enables {α : Type} {m : M α} (h : RunsQuiet m) : KeepsEnables m := fun s => (h s).outEnables

section Build
variable {α β : Type} {c : Prop} [Decidable c]

theorem KeepsEnables.bind {m : M α} {f : α → M β} (hm : KeepsEnables m) (hf : ∀ a, KeepsEnables (f a)) :
    KeepsEnables (m >>= f) := moves_bind sameEnables_chain hm hf
theorem KeepsEnables.ite {m n : M α} (hm : KeepsEnables m) (hn : KeepsEnables n) :
    KeepsEnables (if c then m else n) := moves_ite hm hn
theorem KeepsEnables.dite {m : c → M α} {n : ¬ c → M α} (hm : ∀ h, KeepsEnables (m h)) (hn : ∀ h, KeepsEnables (n h)) :
    KeepsEnables (if h : c then m h else n h) := moves_dite hm hn
theorem KeepsEnables.get : KeepsEnables (get : M State) := moves_get sameEnables_chain
theorem KeepsEnables.upd {f : State → State} (h : ∀ s, SameEnables s (f s) := by exact fun _ => rfl) :
    KeepsEnables (upd f) := moves_upd h
theorem KeepsEnables.emit {e : Event} : KeepsEnables (emit e) := .upd
theorem KeepsEnables.readValue : KeepsEnables readValue := fun _ => rfl
theorem KeepsEnables.readIndex : KeepsEnables readIndex := fun _ => rfl
theorem KeepsEnables.memWrite8 {a : Addr} {b : Byte} : KeepsEnables (memWrite8 a b) := .upd
theorem KeepsEnables.memWrite16 {a : Addr} {v : BitVec 16} : KeepsEnables (memWrite16 a v) := .upd

end Build

theorem SameEnables.setEp (s : State) (d : Dir) (n : EpIx) (e : DevEp) : SameEnables s (s.setEp d n e) := by
  cases d <;> rfl

theorem KeepsEnables.stallRequest : KeepsEnables stallRequest := RunsQuiet.stallRequest.enables
theorem KeepsEnables.sendStatus : KeepsEnables sendStatus := RunsQuiet.sendStatus.enables
theorem KeepsEnables.sendData {addr : Addr} {len : Nat} : KeepsEnables (sendData addr len) :=
  RunsQuiet.sendData.enables
theorem KeepsEnables.hookRequest {dir : Dir} {call : BitVec 64 → Event} : KeepsEnables (hookRequest dir call) := by
  refine .bind (fun _ => rfl) fun _ => .bind (fun s => ?_) fun _ => RunsQuiet.applyHook.enables
  rw [finalState_ok (askHook_ok _ s)]; rfl
theorem KeepsEnables.getStatus {r : BitVec 5} : KeepsEnables (getStatus r) :=
  .bind .get fun _ => .ite (.bind .memWrite16 fun _ => .sendData) <| .ite
    (.bind .readIndex fun _ => .dite (fun _ => .bind .memWrite16 fun _ => .sendData) fun _ => .stallRequest)
    .stallRequest
theorem KeepsEnables.featureRequest {r : BitVec 5} {wake : Bool} {onEp : State → Dir → EpIx → State}
    (h : ∀ s d n, SameEnables s (onEp s d n)) : KeepsEnables (featureRequest r wake onEp) :=
  .bind .readValue fun _ => .ite (.bind .upd fun _ => .sendStatus) <| .ite
    (.bind .get fun _ => .ite .stallRequest <| .bind .readIndex fun _ => .dite
      (fun _ => .bind (.upd fun s => by split; exacts [h s _ _, rfl]) fun _ => .sendStatus) fun _ => .stallRequest)
    .stallRequest
theorem KeepsEnables.setAddress {r : BitVec 5} : KeepsEnables (setAddress r) :=
  .ite (.bind .get fun _ => .ite .stallRequest <| .bind .readValue fun _ => .ite .stallRequest <|
    .bind .upd fun _ => .sendStatus) .stallRequest
theorem KeepsEnables.getDescriptor {r : BitVec 5} : KeepsEnables (getDescriptor r) :=
  .ite (.bind .get fun _ => .bind .readValue fun _ => by
    split
    · exact .sendData
    · exact .stallRequest) .stallRequest
theorem KeepsEnables.setDescriptor {dir : Dir} {r : BitVec 5} : KeepsEnables (setDescriptor dir r) :=
  .ite (.bind .get fun _ => .ite .hookRequest .stallRequest) .stallRequest
theorem KeepsEnables.getConfiguration {r : BitVec 5} : KeepsEnables (getConfiguration r) :=
  .ite (.bind .get fun _ => .bind .memWrite8 fun _ => .sendData) .stallRequest
theorem KeepsEnables.setConfiguration {r : BitVec 5} : KeepsEnables (setConfiguration r) := by
  refine .ite (.bind .readValue fun w => .bind .get fun s => ?_) .stallRequest
  cases s.dev.devState with
  | DEFAULT => exact .stallRequest
  | ADDRESS => exact .ite (.bind .upd fun _ => .bind .emit fun _ => .sendStatus) .sendStatus
  | CONFIGURED =>
    exact .ite (.bind .emit fun _ => .bind .upd fun _ => .sendStatus) <| .ite
      (.bind .emit fun _ => .bind .upd fun _ => .bind .emit fun _ => .sendStatus) .sendStatus
theorem KeepsEnables.getInterface {r : BitVec 5} : KeepsEnables (getInterface r) :=
  .ite (.bind .get fun _ => .bind .memWrite8 fun _ => .sendData) .stallRequest
theorem KeepsEnables.setInterface {r : BitVec 5} : KeepsEnables (setInterface r) :=
  .ite (.bind .readIndex fun _ => .bind .readValue fun _ => .bind .upd fun _ => .sendStatus) .stallRequest

theorem execRequest_enables {i : Instr} {s t : State} (hi : isRequest i = true) (h : exec i s = .next t) :
    SameEnables s t := by
  have ends {m : M Unit} (hm : KeepsEnables m) (h : handlerOutcome m s = .next t) : SameEnables s t := by
    cases h; exact hm s
  cases i with
  | getStatus => exact ends .getStatus h
  | clearFeature | setFeature => exact ends (.featureRequest fun s _ _ => .setEp s _ _ _) h
  | setAddress => exact ends .setAddress h
  | getDescriptor => exact ends .getDescriptor h
  | setDescriptor => exact ends .setDescriptor h
  | getConfiguration => exact ends .getConfiguration h
  | setConfiguration => exact ends .setConfiguration h
  | getInterface => exact ends .getInterface h
  | setInterface => exact ends .setInterface h
  | classRequest | vendorRequest => exact ends .hookRequest h
  | reservedTypeRequest => exact ends .stallRequest h
  | _ => cases hi

/-! ### A list of sources or endpoints with one to serve -/

theorem forEach_of_idle {α : Type} {l : List α} {f : α → M Unit} {s : State} (h : ∀ a ∈ l, f a s = .ok () s) :
    forEach l f s = .ok () s := by
  induction l with
  | nil => rfl
  | cons a l ih =>
    rw [forEach, bind_ok (h a List.mem_cons_self)]
    exact ih fun b hb => h b (List.mem_cons_of_mem a hb)

/-- Only `a` does anything: those before it find nothing to do, and those after it neither. -/
theorem forEach_of_one {α : Type} {before after : List α} {a : α} {f : α → M Unit} {s t : State}
    (hbefore : ∀ b ∈ before, f b s = .ok () s) (ha : f a s = .ok () t) (hafter : ∀ b ∈ after, f b t = .ok () t) :
    forEach (before ++ a :: after) f s = .ok () t := by
  induction before with
  | nil =>
    show (f a >>= fun _ => forEach after f) s = _
    rw [bind_ok ha]
    exact forEach_of_idle hafter
  | cons b before ih =>
    show (f b >>= fun _ => forEach (before ++ a :: after) f) s = _
    rw [bind_ok (hbefore b List.mem_cons_self)]
    exact ih fun c hc => hbefore c (List.mem_cons_of_mem b hc)

variable {s : State}

theorem State.pending_of_onlyOepint {f : GFlag} (hmask : s.gintmsk = BitVec.twoPow 13 10) (hf : f ≠ .OEPINT) :
    ¬ s.pending f = true := by
  rw [State.pending_iff, hmask]
  rintro ⟨-, hbit⟩
  cases f with
  | OEPINT => exact hf rfl
  | _ => exact absurd hbit (by decide)

theorem serveOut_of_disabled {n : EpIx} (h : s.dep.daintmskOut.getLsbD n.val = false) : serveOut n s = .ok () s := by
  rw [serveOut, get_bind_apply, if_neg (ne_true_of_eq_false h)]
  rfl

theorem State.pending_oepint (hmask : s.gintmsk = BitVec.twoPow 13 10) (hdaint : s.dep.daintmskOut = 1)
    (hstup : (s.epAt .OUT 0).stup = true) (haux : (s.epAt .OUT 0).mAux = true) : s.pending .OEPINT = true := by
  refine (State.pending_iff s _).2 ⟨List.any_eq_true.2 ⟨0, mem_allEp 0, ?_⟩, by rw [hmask]; rfl⟩
  simp [State.outPending, hdaint, hstup, haux]

/-- With the setup-done flag the only one pending, OUT endpoint 0 runs the setup stage (R351). -/
theorem serveOut_setup (hena : s.dep.daintmskOut.getLsbD (0 : EpIx).val = true) (hxfrc : (s.epAt .OUT 0).xfrc = false)
    (hstup : (s.epAt .OUT 0).stup = true) (haux : (s.epAt .OUT 0).mAux = true) :
    serveOut 0 s = setupStage (s.setEp .OUT 0 { s.epAt .OUT 0 with stup := false }) := by
  rw [serveOut, get_bind_apply, if_pos hena]
  refine (congrFun (if_neg (by simp [hxfrc])) _).trans ?_
  dsimp only
  rw [get_bind_apply, if_pos (by simp [hstup, haux])]
  rfl

/-! ### The setup stage -/

/-- The state in which the request of a setup packet runs, but for the history. -/
def State.setupStart (s : State) : State :=
  { ((s.setEp .IN 0 { s.epAt .IN 0 with stall := false, epEna := false, mAux := false }).setEp .OUT 0
      { s.epAt .OUT 0 with stup := false, stall := false, epEna := false }).setTxq 0 [] with
    dev.zlpPending := false
    dev.ctrlState := .SETUP }

/-- `SetupStage()` clears the rest once STUP is cleared. -/
theorem State.beginSetup_eq (s : State) :
    (s.setEp .OUT 0 { s.epAt .OUT 0 with stup := false }).beginSetup = s.setupStart := by
  simp [State.beginSetup, State.setupStart, State.setEp, State.epAt]

theorem State.outEnables_setupStart (s : State) : s.setupStart.outEnables = s.outEnables := rfl
theorem State.reqCode_setupStart (s : State) : s.setupStart.reqCode = s.reqCode := rfl
theorem State.setupStart_logged (s : State) (e : LogEntry) :
    (s.logged e).setupStart = { s.setupStart with env.log := e :: s.env.log } := rfl
theorem State.reqCode_logged (s : State) (e : LogEntry) : (s.logged e).reqCode = s.reqCode := rfl
theorem State.outEnables_logged (s : State) (e : LogEntry) : (s.logged e).outEnables = s.outEnables := rfl

/-- The state in which the request runs: the stage has read its code. -/
def State.requestStart (s : State) : State :=
  s.setupStart.logged (.memRead s.setupStart.scratch 2 (s.setupStart.reqCode.setWidth 32))

/-- With the setup-done flag the only one pending, OUT endpoint 0 runs the request that the setup packet decodes to. -/
theorem serveOut_request {i : Instr} {t : State} (hdaint : s.dep.daintmskOut = 1)
    (hxfrc : (s.epAt .OUT 0).xfrc = false) (hstup : (s.epAt .OUT 0).stup = true) (haux : (s.epAt .OUT 0).mAux = true)
    (hdec : decodeSetup s.reqCode = .ok i) (h : exec i s.requestStart = .next t) : serveOut 0 s = .ok () t := by
  have hrun : runRequest s.setupStart.reqCode s.requestStart = .ok () t := by
    rw [runRequest, State.reqCode_setupStart, hdec]
    simp only [h]
  rw [serveOut_setup (by rw [hdaint]; rfl) hxfrc hstup haux, setupStage, upd_bind_apply, State.beginSetup_eq,
    bind_ok (readCode_apply _)]
  exact hrun

/-- A pass with the setup-done flag of OUT endpoint 0 the only enabled source. -/
theorem pass_setup {i : Instr} (hmode : s.mode = .DEVICE) (hmask : s.gintmsk = BitVec.twoPow 13 10)
    (hdaint : s.dep.daintmskOut = 1) (hxfrc : (s.epAt .OUT 0).xfrc = false) (hstup : (s.epAt .OUT 0).stup = true)
    (haux : (s.epAt .OUT 0).mAux = true) (hdec : decodeSetup s.reqCode = .ok i) :
    ∃ t, exec i (s.logged (.source .OEPINT)).requestStart = .next t ∧ pass s = .ok () t := by
  obtain ⟨t, ht⟩ := exec_next i (s.logged (.source .OEPINT)).requestStart
  have hkept : t.outEnables = s.outEnables := by
    rw [execRequest_enables (isRequest_of_decodeSetup hdec) ht, State.requestStart, State.outEnables_logged,
      State.outEnables_setupStart, State.outEnables_logged]
  have hmask' : t.gintmsk = BitVec.twoPow 13 10 := (congrArg Prod.fst hkept).trans hmask
  have hdaint' : t.dep.daintmskOut = 1 := (congrArg Prod.snd hkept).trans hdaint
  have hstage : serveOut 0 (s.logged (.source .OEPINT)) = .ok () t :=
    serveOut_request hdaint hxfrc hstup haux (by rwa [State.reqCode_logged]) ht
  have hothers : ∀ n ∈ ([1, 2, 3, 4, 5, 6, 7] : List EpIx), serveOut n t = .ok () t := fun n hn =>
    serveOut_of_disabled (by rw [hdaint']; revert n; decide)
  have hserve : serve .OEPINT s = .ok () t := by
    rw [serve_pending (State.pending_oepint hmask hdaint hstup haux)]
    exact forEach_of_one (before := []) nofun hstage hothers
  refine ⟨t, ht, ?_⟩
  rw [pass, get_bind_apply, hmode]
  exact forEach_of_one (before := [GFlag.RXFLVL, .USBRST, .ENUMDNE, .IEPINT]) (after := [.USBSUSP, .WKUPINT, .SOF])
    (fun f hf => serve_idle (State.pending_of_onlyOepint hmask (by rintro rfl; revert hf; decide))) hserve
    fun f hf => serve_idle (State.pending_of_onlyOepint hmask' (by rintro rfl; revert hf; decide))

theorem State.irq_of_pending {f : GFlag} (h : s.pending f = true) : s.irq = true :=
  List.any_eq_true.2 ⟨f, by cases f <;> decide, h⟩

end Sys2Proof.Machine

open Sys2Proof Sys2Proof.Machine

/-- Settles O5: the pass of the next move serves the setup packet alone (`pass_setup`). -/
theorem stepRunsRequest : Obligations.StepRunsRequest := by
  intro s i rest hsched hmode hmask hdaint hxfrc hstup haux hdec
  obtain ⟨t, hexec, hpass⟩ := pass_setup (s := { s with env.sched := rest, env.log := .pass :: s.env.log })
    hmode hmask hdaint hxfrc hstup haux hdec
  have hirq : State.irq { s with env.sched := rest } = true :=
    State.irq_of_pending (State.pending_oepint hmask hdaint hstup haux)
  have hmove : s.nextMove = (.irq, { s with env.sched := rest }) := by rw [State.nextMove, hsched]
  refine ⟨_, t, hexec, ?_⟩
  rw [step, hmove]
  exact (if_pos hirq).trans (handlerOutcome_ok hpass)

end

section
/-! ## The configuration parser (R285, R286) -/

namespace Sys2Proof.Machine

variable {s : State} {f : Nat → Byte}

/-! ### The slots as a fold over the descriptors walked -/

/-- What the walk has kept so far: the slot of the latest interface, the interfaces counted, the slots. -/
structure Parse where
  cur   : Option (Fin 2)
  count : BitVec 8
  itf   : Vector ItfSlot 2

/-- An endpoint descriptor kept while slots remain. -/
def ItfSlot.keep (f : Nat → Byte) (i : ItfSlot) (p : Nat) : ItfSlot :=
  if h : i.epCount.toNat < 2 then { i with ep := i.ep.set _ (rawDescriptor 7 f p) h, epCount := i.epCount + 1 } else i

/-- An interface descriptor kept while slots remain. -/
def Parse.keepInterface (f : Nat → Byte) (x : Parse) (p : Nat) : Parse :=
  if h : x.count.toNat < 2 then
    ⟨some ⟨_, h⟩, x.count + 1, x.itf.set _ { x.itf[x.count.toNat] with raw := rawDescriptor 9 f p, epCount := 0 } h⟩
  else { x with cur := none }

/-- Endpoint descriptors kept in the latest interface kept. -/
def Parse.keepEndpoints (f : Nat → Byte) (x : Parse) (ps : List Nat) : Parse :=
  match x.cur with
  | none => x
  | some j => { x with itf := x.itf.set j (ps.foldl (ItfSlot.keep f) x.itf[j]) }

/-- One descriptor walked: an interface (type 4), an endpoint (type 5), or one that is skipped. -/
def Parse.keep (f : Nat → Byte) (x : Parse) (p : Nat) : Parse :=
  if f (p + 1) = 4 then x.keepInterface f p else if f (p + 1) = 5 then x.keepEndpoints f [p] else x

/-- Where a parse starts: no interface, the bytes of the slots as they were (entry 29). -/
def Parse.start (itf : Vector ItfSlot 2) : Parse := ⟨none, 0, itf.map fun i => { i with epCount := 0 }⟩

/-- The parsed configuration and the history in a state. -/
def State.withParse (s : State) (x : Parse) (l : List LogEntry) : State :=
  { s with host.itfCount := x.count, host.itf := x.itf, env.log := l }

theorem Parse.keepEndpoints_cur (x : Parse) (f : Nat → Byte) (ps : List Nat) : (x.keepEndpoints f ps).cur = x.cur := by
  obtain ⟨cur, count, itf⟩ := x
  cases cur <;> rfl

/-! ### The walk is that fold -/

/-- How a walk ends: stuck at a length of 0 (entry 10). -/
def endOfWalk (zero : Bool) (t : State) : EStateM.Result Stop State Unit :=
  if zero then .error .stuck t else .ok () t

section Walk
variable {buf : Addr} (hf : ∀ k, f k = s.byte (buf + BitVec.ofNat 32 k))
include hf

theorem State.rawBytes_withParse (n p : Nat) (x : Parse) (l : List LogEntry) :
    (s.withParse x l).rawBytes n buf p (f p).toNat = rawDescriptor n f p := by
  unfold State.rawBytes rawDescriptor
  simp only [hf]
  rfl

theorem keepInterface_withParse (p : Nat) (x : Parse) (l : List LogEntry) : ∃ l',
    Machine.keepInterface buf p (f p).toNat (s.withParse x l) =
      .ok (x.keepInterface f p).cur (s.withParse (x.keepInterface f p) l') := by
  rw [Machine.keepInterface, get_bind_apply, Parse.keepInterface]
  by_cases h : x.count.toNat < 2
  · obtain ⟨l', hl⟩ := (s.withParse x l).loggedBytes_eq buf p (min (f p).toNat 9)
    refine ⟨l', ?_⟩
    have h' : (s.withParse x l).host.itfCount.toNat < 2 := h
    rw [dif_pos h', dif_pos h, readRaw_bind_apply, hl, State.rawBytes_withParse hf]
    rfl
  · have h' : ¬ (s.withParse x l).host.itfCount.toNat < 2 := h
    rw [dif_neg h', dif_neg h]
    exact ⟨l, rfl⟩

theorem keepEndpoint_withParse (p : Nat) (x : Parse) (l : List LogEntry) : ∃ l',
    Machine.keepEndpoint x.cur buf p (f p).toNat (s.withParse x l) =
      .ok () (s.withParse (x.keepEndpoints f [p]) l') := by
  obtain ⟨cur, count, itf⟩ := x
  cases cur with
  | none => exact ⟨l, rfl⟩
  | some j =>
    rw [Machine.keepEndpoint, get_bind_apply, Parse.keepEndpoints]
    simp only [List.foldl_cons, List.foldl_nil, ItfSlot.keep]
    by_cases h : itf[j].epCount.toNat < 2
    · obtain ⟨l', hl⟩ := (s.withParse ⟨some j, count, itf⟩ l).loggedBytes_eq buf p (min (f p).toNat 7)
      refine ⟨l', ?_⟩
      have h' : (s.withParse ⟨some j, count, itf⟩ l).host.itf[j].epCount.toNat < 2 := h
      rw [dif_pos h', dif_pos h, readRaw_bind_apply, hl, State.rawBytes_withParse hf]
      rfl
    · have h' : ¬ (s.withParse ⟨some j, count, itf⟩ l).host.itf[j].epCount.toNat < 2 := h
      rw [dif_neg h', dif_neg h]
      exact ⟨l, by simp⟩

theorem bufByte_withParse {β : Type} (p : Nat) (x : Parse) (l : List LogEntry) (g : Byte → M β) : ∃ e,
    (bufByte buf p >>= g) (s.withParse x l) = g (f p) (s.withParse x (e :: l)) := by
  rw [hf]
  exact ⟨_, rfl⟩

/-- The walk keeps what the fold keeps, and is stuck where the descriptors end with a length of 0. -/
theorem walk_withParse {stop : Nat} (fuel p : Nat) (x : Parse) (l : List LogEntry) : ∃ l',
    walk buf stop fuel p x.cur (s.withParse x l) = endOfWalk (descriptorWalkFrom f stop fuel p).2
      (s.withParse ((descriptorWalkFrom f stop fuel p).1.foldl (Parse.keep f) x) l') := by
  induction fuel generalizing p x l with
  | zero => exact ⟨l, rfl⟩
  | succ fuel ih =>
    rw [walk, descriptorWalkFrom]
    by_cases hshort : stop < p + 2
    · rw [if_pos hshort, if_pos hshort]
      exact ⟨l, rfl⟩
    obtain ⟨e, hlen⟩ := bufByte_withParse (s := s) hf p x l _
    obtain ⟨e', htype⟩ := bufByte_withParse (s := s) hf (p + 1) x (e :: l) _
    rw [if_neg hshort, if_neg hshort, hlen, htype]
    by_cases hzero : f p = 0
    · rw [if_pos hzero, if_pos hzero]
      exact ⟨_, rfl⟩
    rw [if_neg hzero, if_neg hzero]
    by_cases hlong : stop < p + (f p).toNat
    · rw [if_pos hlong, if_pos hlong]
      exact ⟨_, rfl⟩
    rw [if_neg hlong, if_neg hlong, List.foldl_cons, Parse.keep]
    by_cases hitf : f (p + 1) = 4
    · obtain ⟨l', hkeep⟩ := keepInterface_withParse hf p x (e' :: e :: l)
      rw [if_pos hitf, if_pos hitf, bind_ok hkeep]
      exact ih _ _ _
    rw [if_neg hitf, if_neg hitf]
    by_cases hep : f (p + 1) = 5
    · obtain ⟨l', hkeep⟩ := keepEndpoint_withParse hf p x (e' :: e :: l)
      rw [if_pos hep, if_pos hep, bind_ok hkeep, ← x.keepEndpoints_cur f [p]]
      exact ih _ _ _
    · rw [if_neg hep, if_neg hep]
      exact ih _ _ _

end Walk

/-! ### The descriptors, grouped by interface -/

/-- The endpoint descriptors before the first interface descriptor. -/
def leadingEndpoints (f : Nat → Byte) (ds : List Nat) : List Nat :=
  (ds.takeWhile fun q => f (q + 1) ≠ 4).filter fun q => f (q + 1) = 5

/-- The interface descriptors, each with the endpoint descriptors up to the next. -/
def groups (f : Nat → Byte) : List Nat → List (Nat × List Nat)
  | [] => []
  | p :: ds => if f (p + 1) = 4 then (p, leadingEndpoints f ds) :: groups f ds else groups f ds

/-- An interface kept, with its endpoints. -/
def Parse.keepGroup (f : Nat → Byte) (x : Parse) (g : Nat × List Nat) : Parse :=
  (x.keepInterface f g.1).keepEndpoints f g.2

theorem Parse.keepEndpoints_nil (x : Parse) : x.keepEndpoints f [] = x := by
  obtain ⟨cur, count, itf⟩ := x
  cases cur <;> simp [Parse.keepEndpoints]

theorem Parse.keepEndpoints_cons (x : Parse) (p : Nat) (ps : List Nat) :
    (x.keepEndpoints f [p]).keepEndpoints f ps = x.keepEndpoints f (p :: ps) := by
  obtain ⟨cur, count, itf⟩ := x
  cases cur <;> simp [Parse.keepEndpoints]

theorem Parse.foldl_keep (ds : List Nat) (x : Parse) : ds.foldl (Parse.keep f) x =
    (groups f ds).foldl (Parse.keepGroup f) (x.keepEndpoints f (leadingEndpoints f ds)) := by
  induction ds generalizing x with
  | nil => exact x.keepEndpoints_nil.symm
  | cons p ds ih =>
    rw [List.foldl_cons, ih, Parse.keep, groups]
    by_cases hitf : f (p + 1) = 4
    · have hnone : leadingEndpoints f (p :: ds) = [] := by
        simp [leadingEndpoints, hitf]
      rw [if_pos hitf, if_pos hitf, hnone, x.keepEndpoints_nil]
      rfl
    rw [if_neg hitf, if_neg hitf]
    by_cases hep : f (p + 1) = 5
    · have hcons : leadingEndpoints f (p :: ds) = p :: leadingEndpoints f ds := by simp [leadingEndpoints, hep]
      rw [if_pos hep, hcons, x.keepEndpoints_cons]
    · have hskip : leadingEndpoints f (p :: ds) = leadingEndpoints f ds := by
        simp only [leadingEndpoints, List.takeWhile_cons, List.filter_cons, ne_eq, hitf, hep, not_false_eq_true,
          decide_true, decide_false, if_true, Bool.false_eq_true, if_false]
      rw [if_neg hep, hskip]

theorem keptInterfaces_eq (ds : List Nat) : keptInterfaces f ds = ((groups f ds).map Prod.fst).take 2 := by
  unfold keptInterfaces
  congr 1
  induction ds with
  | nil => rfl
  | cons p ds ih =>
    rw [List.filter_cons, groups, ih]
    simp only [decide_eq_true_eq]
    split
    · rfl
    · rfl

theorem mem_of_mem_groups {ds : List Nat} {g : Nat × List Nat} (hg : g ∈ groups f ds) : g.1 ∈ ds := by
  induction ds with
  | nil => cases hg
  | cons p ds ih =>
    rw [groups] at hg
    split at hg
    · rcases List.mem_cons.1 hg with rfl | hg
      · exact List.mem_cons_self
      · exact List.mem_cons_of_mem _ (ih hg)
    · exact List.mem_cons_of_mem _ (ih hg)

/-- In rising order the descriptors past an interface are those that follow it. -/
theorem leadingEndpoints_after {ds : List Nat} (hds : ds.Pairwise (· < ·)) {g : Nat × List Nat}
    (hg : g ∈ groups f ds) : leadingEndpoints f (ds.filter fun q => g.1 < q) = g.2 := by
  induction ds with
  | nil => cases hg
  | cons p ds ih =>
    obtain ⟨hp, hds⟩ := List.pairwise_cons.1 hds
    have hlater (hg : g ∈ groups f ds) : leadingEndpoints f ((p :: ds).filter fun q => g.1 < q) = g.2 := by
      rw [List.filter_cons_of_neg (by simpa using (hp _ (mem_of_mem_groups hg)).le)]
      exact ih hds hg
    rw [groups] at hg
    split at hg
    · rcases List.mem_cons.1 hg with rfl | hg
      · rw [List.filter_cons_of_neg (by simp), List.filter_eq_self.2 (by simpa using hp)]
      · exact hlater hg
    · exact hlater hg

theorem keptEndpoints_eq {ds : List Nat} (hds : ds.Pairwise (· < ·)) {g : Nat × List Nat} (hg : g ∈ groups f ds) :
    keptEndpoints f ds g.1 = g.2.take 2 := congrArg (List.take 2) (leadingEndpoints_after hds hg)

theorem descriptorWalkFrom_rising (f : Nat → Byte) (stop fuel p : Nat) :
    (descriptorWalkFrom f stop fuel p).1.Pairwise (· < ·) ∧ ∀ q ∈ (descriptorWalkFrom f stop fuel p).1, p ≤ q := by
  induction fuel generalizing p with
  | zero => exact ⟨.nil, nofun⟩
  | succ fuel ih =>
    rw [descriptorWalkFrom]
    split_ifs with hshort hzero hlong
    · exact ⟨.nil, nofun⟩
    · exact ⟨.nil, nofun⟩
    · exact ⟨.nil, nofun⟩
    · obtain ⟨hrise, hlow⟩ := ih (p + (f p).toNat)
      have hpos : 0 < (f p).toNat := Nat.pos_of_ne_zero fun h => hzero (BitVec.eq_of_toNat_eq h)
      refine ⟨List.pairwise_cons.2 ⟨fun q hq => ?_, hrise⟩, List.forall_mem_cons.2 ⟨le_rfl, fun q hq => ?_⟩⟩ <;>
        linarith [hlow q hq]

theorem descriptorWalk_rising {stop : Nat} {ds : List Nat} {zero : Bool} (h : descriptorWalk f stop = (ds, zero)) :
    ds.Pairwise (· < ·) := by
  have hrise := (descriptorWalkFrom_rising f stop stop 0).1
  rwa [← descriptorWalk, h] at hrise

/-! ### What the slots hold -/

theorem ItfSlot.foldl_keep_full {i : ItfSlot} (hi : ¬ i.epCount.toNat < 2) (ps : List Nat) :
    ps.foldl (ItfSlot.keep f) i = i := by
  induction ps with
  | nil => rfl
  | cons p ps ih => rw [List.foldl_cons, ItfSlot.keep, dif_neg hi, ih]

/-- A slot without endpoints takes the first two; an endpoint slot not filled keeps its bytes. -/
theorem ItfSlot.foldl_keep {i : ItfSlot} (hi : i.epCount = 0) (ps : List Nat) :
    (ps.foldl (ItfSlot.keep f) i).raw = i.raw ∧
    (ps.foldl (ItfSlot.keep f) i).epCount = BitVec.ofNat 8 (ps.take 2).length ∧
    ∀ k : Fin 2, (ps.foldl (ItfSlot.keep f) i).ep[k] = match (ps.take 2)[k.val]? with
      | some q => rawDescriptor 7 f q
      | none => i.ep[k] := by
  obtain ⟨raw, epCount, ep⟩ := i
  cases hi
  match ps with
  | [] => exact ⟨rfl, rfl, fun k => rfl⟩
  | [p] => exact ⟨rfl, rfl, fun k => by fin_cases k <;> simp [ItfSlot.keep]⟩
  | p :: q :: ps =>
    rw [List.foldl_cons, List.foldl_cons, ItfSlot.foldl_keep_full (lt_irrefl 2)]
    exact ⟨rfl, rfl, fun k => by fin_cases k <;> simp [ItfSlot.keep]⟩

theorem Parse.keepGroup_eq {x : Parse} (h : x.count.toNat < 2) (g : Nat × List Nat) : x.keepGroup f g =
    ⟨some ⟨_, h⟩, x.count + 1, x.itf.set _ (g.2.foldl (ItfSlot.keep f)
      { x.itf[x.count.toNat] with raw := rawDescriptor 9 f g.1, epCount := 0 }) h⟩ := by
  rw [Parse.keepGroup, Parse.keepInterface, dif_pos h, Parse.keepEndpoints]
  simp

theorem Parse.foldl_keepGroup_full {x : Parse} (h : ¬ x.count.toNat < 2) (gs : List (Nat × List Nat)) :
    (gs.foldl (Parse.keepGroup f) x).count = x.count ∧ (gs.foldl (Parse.keepGroup f) x).itf = x.itf := by
  induction gs generalizing x with
  | nil => exact ⟨rfl, rfl⟩
  | cons g gs ih =>
    rw [List.foldl_cons, Parse.keepGroup, Parse.keepInterface, dif_neg h]
    exact ih h

/-- The slots from `n` groups of descriptors on. -/
theorem Parse.foldl_keepGroup (itf : Vector ItfSlot 2) (gs : List (Nat × List Nat)) :
    (gs.foldl (Parse.keepGroup f) (.start itf)).count = BitVec.ofNat 8 (gs.take 2).length ∧
    ∀ j : Fin 2, (gs.foldl (Parse.keepGroup f) (.start itf)).itf[j] = match (gs.take 2)[j.val]? with
      | some g => g.2.foldl (ItfSlot.keep f) { itf[j] with raw := rawDescriptor 9 f g.1, epCount := 0 }
      | none => { itf[j] with epCount := 0 } := by
  have hstart : (Parse.start itf).count.toNat < 2 := Nat.zero_lt_two
  match gs with
  | [] => exact ⟨rfl, fun j => by simp [Parse.start]⟩
  | [g] =>
    rw [List.foldl_cons, Parse.keepGroup_eq hstart]
    exact ⟨rfl, fun j => by fin_cases j <;> simp [Parse.start]⟩
  | g :: g' :: gs =>
    rw [List.foldl_cons, List.foldl_cons, Parse.keepGroup_eq hstart, 
      Parse.keepGroup_eq (x := ⟨_, (Parse.start itf).count + 1, _⟩) Nat.one_lt_two]
    have hfull {cur : Option (Fin 2)} {slots : Vector ItfSlot 2} := Parse.foldl_keepGroup_full (f := f)
      (x := ⟨cur, (Parse.start itf).count + 1 + 1, slots⟩) (lt_irrefl 2) gs
    exact ⟨hfull.1, fun j => by rw [hfull.2]; fin_cases j <;> simp [Parse.start]⟩

/-- What is kept of descriptors in rising order (R285). -/
theorem Parse.slots {ds : List Nat} (hds : ds.Pairwise (· < ·)) (itf : Vector ItfSlot 2) :
    (ds.foldl (Parse.keep f) (.start itf)).count = BitVec.ofNat 8 (keptInterfaces f ds).length ∧
    ∀ j : Fin 2,
      (∀ p, (keptInterfaces f ds)[j.val]? = some p →
        (ds.foldl (Parse.keep f) (.start itf)).itf[j].raw = rawDescriptor 9 f p ∧
        (ds.foldl (Parse.keep f) (.start itf)).itf[j].epCount = BitVec.ofNat 8 (keptEndpoints f ds p).length ∧
        ∀ k : Fin 2, (ds.foldl (Parse.keep f) (.start itf)).itf[j].ep[k] = match (keptEndpoints f ds p)[k.val]? with
          | some q => rawDescriptor 7 f q
          | none => itf[j].ep[k]) ∧
      ((keptInterfaces f ds)[j.val]? = none →
        (ds.foldl (Parse.keep f) (.start itf)).itf[j] = { itf[j] with epCount := 0 }) := by
  have hfold : ds.foldl (Parse.keep f) (.start itf) = (groups f ds).foldl (Parse.keepGroup f) (.start itf) :=
    Parse.foldl_keep ds _
  obtain ⟨hcount, hslots⟩ := Parse.foldl_keepGroup (f := f) itf (groups f ds)
  rw [keptInterfaces_eq, ← List.map_take, List.length_map, hfold]
  refine ⟨hcount, fun j => ?_⟩
  rw [List.getElem?_map, hslots j]
  cases hg : ((groups f ds).take 2)[j.val]? with
  | none => exact ⟨nofun, fun _ => rfl⟩
  | some g =>
    refine ⟨fun p hp => ?_, nofun⟩
    cases hp
    rw [keptEndpoints_eq hds (List.mem_of_mem_take (List.mem_of_getElem? hg))]
    exact ItfSlot.foldl_keep rfl g.2

/-! ### CFGPARSE -/

/-- What the parse of `len` bytes keeps, and whether it meets a length of 0. -/
def parseOf (f : Nat → Byte) (len : Nat) (itf : Vector ItfSlot 2) : Parse × Bool :=
  if len < 4 then (.start itf, false)
  else
    let walked := descriptorWalk f (min (256 * (f 3).toNat + (f 2).toNat) len)
    (walked.1.foldl (Parse.keep f) (.start itf), walked.2)

theorem parseOf_walked {len : Nat} {itf : Vector ItfSlot 2} {ds : List Nat} {zero : Bool} (hlen : ¬ len < 4)
    (h : descriptorWalk f (min (256 * (f 3).toNat + (f 2).toNat) len) = (ds, zero)) :
    parseOf f len itf = (ds.foldl (Parse.keep f) (.start itf), zero) := by
  rw [parseOf, if_neg hlen, h]

section CfgParse
variable {buf : Addr} {len : Nat} (hm : s.mode = .HOST) (hfit : buf.toNat + len ≤ 2 ^ 32)
include hm hfit

/-- Past its checks `CfgParse` empties the slots and walks. -/
theorem cfgParse_inRange : cfgParse buf len s = (if len < 4 then pure () else memRead16 (buf + 2) >>= fun total =>
    walk buf (min total.toNat len) (min total.toNat len) 0 none) (s.withParse (.start s.host.itf) s.env.log) := by
  rw [cfgParse, needHost_bind_of hm, refuseIf_bind_neg (by rw [wraps_iff]; omega), upd_bind_apply]
  rfl

theorem cfgParse_short (hlen : len < 4) :
    cfgParse buf len s = .ok () (s.withParse (.start s.host.itf) s.env.log) := by
  rw [cfgParse_inRange hm hfit, if_pos hlen]
  rfl

theorem cfgParse_eq (hf : ∀ k, f k = s.byte (buf + BitVec.ofNat 32 k)) : ∃ l,
    cfgParse buf len s = endOfWalk (parseOf f len s.host.itf).2 (s.withParse (parseOf f len s.host.itf).1 l) := by
  by_cases hlen : len < 4
  · rw [cfgParse_short hm hfit hlen, parseOf, if_pos hlen]
    exact ⟨_, rfl⟩
  have htotal : (s.half (buf + 2)).toNat = 256 * (f 3).toNat + (f 2).toNat := by
    rw [State.half, BitVec.add_assoc, BitVec.toNat_append, Nat.shiftLeft_eq, Nat.mul_comm, ← Nat.two_pow_add_eq_or_of_lt
      (BitVec.isLt _), hf 3, hf 2]
    rfl
  rw [cfgParse_inRange hm hfit, if_neg hlen, parseOf, if_neg hlen, ← htotal]
  exact walk_withParse hf _ 0 (.start s.host.itf) _

end CfgParse

theorem cfgParse_wraps (hm : s.mode = .HOST) {buf : Addr} {len : Nat} (hwrap : 2 ^ 32 < buf.toNat + len) :
    cfgParse buf len s = .error (.refuse .AddrWrap) s := by
  rw [cfgParse, needHost_bind_of hm, refuseIf_bind_pos ((wraps_iff _ _).2 hwrap)]

theorem exec_cfgparse {zero : Bool} {t : State}
    (h : cfgParse s.port.arg1 s.port.arg0.toNat s = endOfWalk zero t) :
    exec .cfgparse s = .next (if zero then { t with env.fgStuck := true }
      else { t with port.res := t.host.itfCount.setWidth 32 }) := by
  have hrun : exec .cfgparse s = .next (settle s (cfgparse s)) := commandOutcome_eq s cfgparse
  rw [hrun, cfgparse, get_bind_apply, bind_apply, h]
  cases zero <;> rfl

theorem setWidth_ofNat_le_two {n : Nat} (h : n ≤ 2) : (BitVec.ofNat 8 n).setWidth 32 = BitVec.ofNat 32 n := by
  interval_cases n <;> rfl

end Sys2Proof.Machine

open Sys2Proof Sys2Proof.Machine

/-- Settles O43: past its checks CFGPARSE walks (`cfgParse_eq`), and the slots hold what the descriptors walked give
(`Parse.slots`). -/
theorem cfgparseResult : Obligations.CfgparseResult := by
  intro s f hm hfit hf
  refine ⟨fun hlen => exec_cfgparse (zero := false) (cfgParse_short hm hfit hlen), fun hlen ds zero hwalk => ?_⟩
  obtain ⟨l, hrun⟩ := cfgParse_eq hm hfit hf
  rw [parseOf_walked (not_lt.2 hlen) hwalk] at hrun
  obtain ⟨hcount, hslots⟩ := Parse.slots (descriptorWalk_rising hwalk) s.host.itf
  refine ⟨_, l, ?_, hslots⟩
  have hres : BitVec.ofNat 32 (keptInterfaces f ds).length =
      (ds.foldl (Parse.keep f) (.start s.host.itf)).count.setWidth 32 := by
    rw [hcount, setWidth_ofNat_le_two (by simp [keptInterfaces])]
  rw [exec_cfgparse hrun, ← hcount, hres]
  cases zero <;> rfl

end

section
/-! ## What the host sequencer does not depend on

Neither the command port, nor the state of the enumeration, nor the history so far is read or written by the commands
that ENUMPOLL contains; they only add to the history (R85, R270). -/

namespace Sys2Proof.Machine

/-- The machine with another command port, another state of the enumeration and another history. -/
def State.over (s : State) (p : CmdPort) (e : EnumState) (l : List LogEntry) : State :=
  { s with port := p, host.enumState := e, env.log := l }

/-- The same end of a computation in such a machine. -/
def endOver {α : Type} (r : EStateM.Result Stop State α) (p : CmdPort) (e : EnumState) (l : List LogEntry) :
    EStateM.Result Stop State α :=
  match r with
  | .ok a t => .ok a (t.over p e l)
  | .error x t => .error x (t.over p e l)

/-- Whatever the port, the state of the enumeration and the history are, `m` ends in one way, keeps the first two and
adds the same entries to the third. -/
def Oblivious {α : Type} (m : M α) : Prop :=
  ∀ s : State, ∃ (r : EStateM.Result Stop State α) (new : List LogEntry), ∀ p e l,
    m (s.over p e l) = endOver r p e (new ++ l)

/-- An update that does so. -/
def ObliviousUpd (f : State → State) : Prop :=
  ∀ s : State, ∃ new : List LogEntry, ∀ p e l,
    f (s.over p e l) = (f s).over p e (new ++ l)

/-! ### The ways of building a computation -/

section Build
variable {α β : Type} {c : Prop} [Decidable c]

theorem Oblivious.bind {m : M α} {f : α → M β} (hm : Oblivious m) (hf : ∀ a, Oblivious (f a)) :
    Oblivious (m >>= f) := fun s => by
  obtain ⟨r, new, h⟩ := hm s
  cases r with
  | error x t => exact ⟨.error x t, new, fun p e l => bind_error (h p e l)⟩
  | ok a t =>
    obtain ⟨r', new', h'⟩ := hf a t
    refine ⟨r', new' ++ new, fun p e l => ?_⟩
    rw [bind_ok (h p e l), List.append_assoc]
    exact h' p e (new ++ l)
theorem Oblivious.pure {a : α} : Oblivious (pure a : M α) := fun s => ⟨.ok a s, [], fun _ _ _ => rfl⟩
/-- After `get`, what follows depends on other fields only; `rfl` shows it of most continuations. -/
theorem Oblivious.get_bind {f : State → M β} (hf : ∀ s, Oblivious (f s))
    (h : ∀ s p e l, f (s.over p e l) = f s := by exact fun _ _ _ _ => rfl) : Oblivious (get >>= f) := fun s => by
  obtain ⟨r, new, hr⟩ := hf s s
  refine ⟨r, new, fun p e l => ?_⟩
  rw [get_bind_apply, h]
  exact hr p e l
theorem Oblivious.look {f : State → α} (h : ∀ s p e l, f (s.over p e l) = f s := by exact fun _ _ _ _ => rfl) :
    Oblivious (look f) := fun s =>
  ⟨.ok (f s) s, [], fun p e l => congrArg (EStateM.Result.ok · (s.over p e l)) (h s p e l)⟩
theorem Oblivious.ite {m n : M α} (hm : Oblivious m) (hn : Oblivious n) : Oblivious (if c then m else n) := by
  split <;> assumption
theorem Oblivious.refuseIf {r : RefuseName} : Oblivious (refuseIf c r) := fun s => by
  by_cases h : c
  · exact ⟨.error (.refuse r) s, [], fun _ _ _ => if_pos h⟩
  · exact ⟨.ok () s, [], fun _ _ _ => if_neg h⟩

theorem ObliviousUpd.of_eq {f : State → State} (h : ∀ s p e l, f (s.over p e l) = (f s).over p e l) :
    ObliviousUpd f := fun s => ⟨[], h s⟩
theorem Oblivious.upd {f : State → State}
    (h : ObliviousUpd f := by exact .of_eq fun _ _ _ _ => rfl) : Oblivious (upd f) := fun s => by
  obtain ⟨new, hf⟩ := h s
  exact ⟨.ok () (f s), new, fun p e l => congrArg (EStateM.Result.ok ()) (hf p e l)⟩
theorem State.over_ite (a b : State) (p : CmdPort) (e : EnumState) (l : List LogEntry) :
    (if c then a.over p e l else b.over p e l) = (if c then a else b).over p e l :=
  (apply_ite (State.over · p e l) c a b).symm

end Build

theorem Oblivious.needHost : Oblivious needHost := fun s => by
  by_cases h : s.mode = .HOST
  · exact ⟨.ok () s, [], fun _ _ _ => if_neg (not_not.2 h)⟩
  · exact ⟨.error (.refuse .WrongMode) s, [], fun _ _ _ => if_pos h⟩
/-- The pair is open, or a channel of it is not held (entry 17). -/
theorem needPair_cases (s : State) :
    (∃ o i, s.host.hcCtlOut = some o ∧ s.host.hcCtlIn = some i) ∨
      (s.host.hcCtlOut = none ∨ s.host.hcCtlIn = none) ∧ needPair s = .error (.refuse .NotOpen) s := by
  unfold needPair
  cases s.host.hcCtlOut with
  | none => exact .inr ⟨.inl rfl, rfl⟩
  | some o =>
    cases s.host.hcCtlIn with
    | none => exact .inr ⟨.inr rfl, rfl⟩
    | some i => exact .inl ⟨o, i, rfl, rfl⟩
theorem Oblivious.needPair : Oblivious needPair := fun s => by
  refine ⟨Machine.needPair s, [], fun p e l => ?_⟩
  cases ho : s.host.hcCtlOut <;> cases hi : s.host.hcCtlIn <;> simp [Machine.needPair, State.over, endOver, ho, hi]

/-! ### Memory and the FIFOs -/

theorem Oblivious.memRead8 {a : Addr} : Oblivious (memRead8 a) := fun s =>
  ⟨.ok (s.byte a) s, [.memRead a 1 ((s.byte a).setWidth 32)], fun _ _ _ => rfl⟩
theorem Oblivious.memRead32 {a : Addr} : Oblivious (memRead32 a) := fun s =>
  ⟨.ok (s.word a) s, [.memRead a 4 (s.word a)], fun _ _ _ => rfl⟩
theorem Oblivious.memWrite32 {a : Addr} {w : Word} : Oblivious (memWrite32 a w) := fun s =>
  ⟨.ok () (s.setWord a w), [_], fun _ _ _ => rfl⟩
theorem Oblivious.drawPad : Oblivious drawPad := fun s =>
  ⟨.ok (Config.freePad s.env.draws) { s with env.draws := s.env.draws + 1 }, [], fun _ _ _ => rfl⟩

theorem Oblivious.txPush {num : Ch} {w : Word} : Oblivious (txPush num w) := fun s => by
  by_cases h : s.txSpace (s.classOf num) = 0
  · exact ⟨.error .raised { s with fault := s.fault.record .TxOverflow }, [], fun _ _ _ => if_pos h⟩
  · exact ⟨.ok () (s.setTxq num (s.txqAt num ++ [w])), [.txPush num w], fun _ _ _ => if_neg h⟩
theorem Oblivious.writeWords {num : Ch} {n : Nat} {src : Addr} : Oblivious (writeWords num src n) := by
  induction n generalizing src with
  | zero => exact .pure
  | succ n ih => exact .bind .memRead32 fun _ => .bind .txPush fun _ => ih
theorem Oblivious.gatherTail {r : Nat} {src : Addr} : Oblivious (gatherTail src r) := by
  induction r generalizing src with
  | zero => exact .pure
  | succ r ih => exact .bind .memRead8 fun _ => ih.bind fun _ => .pure
theorem Oblivious.writePacket {num : Ch} {src : Addr} {len : Nat} : Oblivious (writePacket num src len) :=
  .bind .writeWords fun _ => .ite .pure (.bind .gatherTail fun _ => .bind .drawPad fun _ => .txPush)

/-! ### Transfers on a channel -/

theorem State.enableTxfe_over (s : State) (c : Ch) (p : CmdPort) (e : EnumState) (l : List LogEntry) :
    (s.over p e l).enableTxfe (.ch c) = (s.enableTxfe (.ch c)).over p e l := by
  have hclass : (s.over p e l).classOf c = s.classOf c := rfl
  simp only [State.enableTxfe, hclass]
  cases s.classOf c <;> rfl

theorem Oblivious.sendPacket {c : Ch} {n : Nat} : Oblivious (sendPacket (.ch c) n) :=
  .bind .look fun _ => .bind .writePacket fun _ => .upd
theorem Oblivious.txFirstPacket {c : Ch} {len mps : Nat} : Oblivious (txFirstPacket (.ch c) len mps) :=
  .get_bind fun _ => .ite .pure <| .ite
    (.bind .sendPacket fun _ => .upd <| .of_eq fun s p e l => by
      rw [State.enableTxfe_over]
      exact State.over_ite _ _ p e l)
    (.upd <| .of_eq fun s => s.enableTxfe_over c)
theorem Oblivious.enableChannelTransfer {c : Ch} {dir : Dir} {type : EpType} {pid : Pid} {mps : BitVec 11} {len : Nat}
    {buf : Addr} : Oblivious (enableChannelTransfer c dir type pid mps len buf) :=
  .get_bind fun _ => .bind .refuseIf fun _ => .bind .refuseIf fun _ => .bind .refuseIf fun _ =>
    .bind .refuseIf fun _ => .bind .upd fun _ => .bind .upd fun _ =>
    .ite (.bind .txFirstPacket fun _ => .pure) .pure

/-! ### The host sequencer -/

theorem Oblivious.openChannel {c : Ch} {devAddr : BitVec 7} {type : EpType} {mps : BitVec 11} {dir : Dir}
    {epn : BitVec 4} : Oblivious (openChannel c devAddr type mps dir epn) :=
  .get_bind fun _ => .bind .refuseIf fun _ => .upd
theorem Oblivious.openPair {o i : Ch} {mps : BitVec 11} {devAddr : BitVec 7} : Oblivious (openPair o i mps devAddr) :=
  .bind .openChannel fun _ => .bind .openChannel fun _ => .bind .upd fun _ => .pure
theorem Oblivious.ctrlOpen {mps : BitVec 11} {devAddr : BitVec 7} : Oblivious (ctrlOpen mps devAddr) :=
  .get_bind fun s => .bind .refuseIf fun _ => by
    split
    · exact .bind .refuseIf fun _ => .bind .refuseIf fun _ => .openPair
    · split
      · exact .pure
      · exact .bind .upd fun _ => .openPair
theorem Oblivious.ctrlSubmit {buf : Addr} {w0 w1 : Word} : Oblivious (ctrlSubmit buf w0 w1) :=
  .bind .needHost fun _ => .bind .needPair fun _ => .get_bind fun _ => .bind .refuseIf fun _ =>
    .bind .refuseIf fun _ => .bind .memWrite32 fun _ => .bind .memWrite32 fun _ => .upd
theorem Oblivious.issuePhase {o i : Ch} : Oblivious (issuePhase o i) :=
  .get_bind fun s => by
    cases s.host.ctrlState with
    | SETUP => exact .bind .upd fun _ => .bind .enableChannelTransfer fun _ => .pure
    | DATA_IN | DATA_OUT | STATUS_IN | STATUS_OUT => exact .bind .enableChannelTransfer fun _ => .pure
    | STALL | ERROR | COMPLETE => exact .pure
theorem Oblivious.urbOk : Oblivious urbOk :=
  .get_bind fun s => by
    cases s.host.ctrlState with
    | SETUP =>
      exact .bind .memRead8 fun b => .upd <| .of_eq fun s p e l => by
        rw [← State.over_ite, ← State.over_ite, ← State.over_ite]
        rfl
    | DATA_IN | DATA_OUT | STATUS_IN | STATUS_OUT => exact .upd
    | STALL | ERROR | COMPLETE => exact .pure
theorem Oblivious.urbRow {u : UrbStatus} : Oblivious (urbRow u) := by
  cases u with
  | OK => exact .urbOk
  | ERROR =>
    exact .upd <| .of_eq fun s p e l => by
      rw [State.urbError, State.urbError, ← State.over_ite]
      rfl
  | STALL => exact .upd
  | NOREADY =>
    exact .upd <| .of_eq fun s p e l => by
      rw [State.urbNoReady, State.urbNoReady, ← State.over_ite]
      rfl
  | IDLE | PING => exact .pure
theorem Oblivious.ctrlPoll : Oblivious ctrlPoll :=
  .bind .needHost fun _ => .bind .needPair fun _ => .get_bind fun s => .ite .pure <| by
    split
    · exact .pure
    · exact .ite (.bind .issuePhase fun _ => .upd) .urbRow
theorem Oblivious.ctrlReq {buf : Addr} {w0 w1 : Word} : Oblivious (ctrlReq buf w0 w1) :=
  .bind .needHost fun _ => .bind .needPair fun _ => .get_bind fun s => by
    cases s.host.xferState with
    | WAITING => exact .bind .ctrlPoll fun _ => .bind .upd fun _ => .look
    | START | OK => exact .bind .ctrlSubmit fun _ => .bind .upd fun _ => .pure

/-! ### How they end -/

section Ends
variable {α : Type} {m : M α} {s t : State}

theorem Oblivious.ok (hm : Oblivious m) {a : α} (h : m s = .ok a t) :
    ∃ new, ∀ p e l, m (s.over p e l) = .ok a (t.over p e (new ++ l)) := by
  obtain ⟨r, new, hr⟩ := hm s
  have hs : m s = endOver r s.port s.host.enumState (new ++ s.env.log) := hr _ _ _
  cases r with
  | error => cases hs.symm.trans h
  | ok b u =>
    cases hs.symm.trans h
    exact ⟨new, hr⟩

theorem Oblivious.error (hm : Oblivious m) {x : Stop} (h : m s = .error x t) (p : CmdPort) (e : EnumState)
    (l : List LogEntry) : ∃ u, m (s.over p e l) = .error x u := by
  obtain ⟨r, new, hr⟩ := hm s
  have hs : m s = endOver r s.port s.host.enumState (new ++ s.env.log) := hr _ _ _
  cases r with
  | ok => cases hs.symm.trans h
  | error y u =>
    cases hs.symm.trans h
    exact ⟨_, hr p e l⟩

/-- CTRLREQ completes or is refused: none of its paths takes a fault. -/
theorem ctrlReq_ends (hm : s.mode = .HOST) (buf : Addr) (w0 w1 : Word) :
    (∃ r t, ctrlReq buf w0 w1 s = .error (.refuse r) t) ∨ ∃ v t, ctrlReq buf w0 w1 s = .ok v t := by
  rcases needPair_cases s with ⟨o, i, ho, hi⟩ | ⟨-, hclosed⟩
  · by_cases hx : s.host.xferState = .WAITING
    · rcases ctrlPoll_ends hm ho hi with ⟨r, t, hpoll⟩ | ⟨t, hpoll, -⟩
      · exact .inl ⟨r, t, (ctrlReq_poll hm ho hi hx buf w0 w1).trans (bind_error hpoll)⟩
      · exact .inr ⟨_, _, ctrlReq_polls hm ho hi hx hpoll buf w0 w1⟩
    · have hload := ctrlReq_load hm ho hi hx buf w0 w1
      by_cases hv : s.host.verdict = .BUSY
      · exact .inl ⟨_, s, hload.trans (bind_error (ctrlSubmit_busy hm ho hi hv))⟩
      rcases le_or_gt (buf.toNat + (w1.extractLsb' 16 16).toNat) (2 ^ 32) with hfit | hwrap
      · exact .inr ⟨_, _, hload.trans (bind_ok (ctrlSubmit_ok hm ho hi hv hfit))⟩
      · exact .inl ⟨_, s, hload.trans (bind_error (ctrlSubmit_wraps hm ho hi hv hwrap))⟩
  · exact .inl ⟨_, s, by rw [ctrlReq, needHost_bind_of hm, bind_error hclosed]⟩

theorem openPair_ends (o i : Ch) (mps : BitVec 11) (devAddr : BitVec 7) (s : State) :
    (∃ r t, openPair o i mps devAddr s = .error (.refuse r) t) ∨ ∃ a t, openPair o i mps devAddr s = .ok a t := by
  by_cases hbusy : (s.hcAt o).chEna = true ∨ (s.hcAt i).chEna = true
  · exact .inl ⟨_, openPair_busy mps devAddr hbusy⟩
  · simp only [not_or, Bool.not_eq_true] at hbusy
    exact .inr ⟨_, _, openPair_ok mps devAddr hbusy.1 hbusy.2⟩

theorem ctrlOpen_badSize (devAddr : BitVec 7) (s : State) : ctrlOpen 0 devAddr s = .error (.refuse .BadOperand) s := by
  rw [ctrlOpen, get_bind_apply, refuseIf_bind_pos rfl]

/-- With a channel of the pair not held CTRLOPEN claims a pair. -/
theorem ctrlOpen_closed {mps : BitVec 11} (devAddr : BitVec 7) (hmps : mps ≠ 0)
    (hclosed : s.host.hcCtlOut = none ∨ s.host.hcCtlIn = none) :
    (s.allocPair = none → ctrlOpen mps devAddr s = .ok none s) ∧
      ∀ o i, s.allocPair = some (o, i) → ctrlOpen mps devAddr s = openPair o i mps devAddr (s.claimPair o i) := by
  refine ⟨fun hpair => ?_, fun o i hpair => ?_⟩ <;>
    rw [ctrlOpen, get_bind_apply, refuseIf_bind_neg hmps, hpair] <;>
    rcases hclosed with h | h <;> rw [h] <;> cases s.host.hcCtlOut <;> rfl

/-- CTRLOPEN completes or is refused. -/
theorem ctrlOpen_ends (mps : BitVec 11) (devAddr : BitVec 7) (s : State) :
    (∃ r t, ctrlOpen mps devAddr s = .error (.refuse r) t) ∨ ∃ a t, ctrlOpen mps devAddr s = .ok a t := by
  by_cases hmps : mps = 0
  · exact .inl ⟨_, s, hmps ▸ ctrlOpen_badSize devAddr s⟩
  rcases needPair_cases s with ⟨o, i, ho, hi⟩ | ⟨hclosed, -⟩
  · rw [ctrlOpen_again devAddr hmps ho hi, refuseIf_bind_apply, refuseIf_bind_apply]
    split_ifs
    · exact .inl ⟨_, s, rfl⟩
    · exact .inl ⟨_, s, rfl⟩
    · exact openPair_ends o i mps devAddr s
  · obtain ⟨hnone, hsome⟩ := ctrlOpen_closed devAddr hmps hclosed
    cases hpair : s.allocPair with
    | none => exact .inr ⟨_, s, hnone hpair⟩
    | some oi =>
      rw [hsome oi.1 oi.2 hpair]
      exact openPair_ends _ _ mps devAddr _

end Ends

end Sys2Proof.Machine
end

section
/-! ## The enumeration sequencer (R270 to R283) -/

namespace Sys2Proof.Machine

variable {s : State}

theorem exec_enumpoll_ok {t : State} (h : enumPoll s = .ok () t) :
    exec .enumpoll s = .next { t with port.res := t.host.enumState.code } := commandOutcome_ok (bind_ok h)

theorem exec_enumpoll_refuse {r : RefuseName} {t : State} (h : enumPoll s = .error (.refuse r) t) :
    exec .enumpoll s = .next (s.refusedWith r) := commandOutcome_refuse (bind_error h)

/-! ### Where nothing is sent -/

theorem enumPoll_idle (hm : s.mode = .HOST) (he : s.host.enumState = .IDLE) : enumPoll s = enumStart s := by
  rw [enumPoll, needHost_bind_of hm, get_bind_apply, he]

theorem enumPoll_configured (hm : s.mode = .HOST) (he : s.host.enumState = .CONFIGURED) : enumPoll s = .ok () s := by
  rw [enumPoll, needHost_bind_of hm, get_bind_apply, he]
  rfl

theorem enumPoll_noSerial (hm : s.mode = .HOST) (he : s.host.enumState = .GET_SER_STR)
    (hindex : s.byte (s.devDesc + 16) = 0) : ∃ l,
    enumPoll s = .ok () { s with host.enumState := .SET_CFG, env.log := l } := by
  refine ⟨.memRead (s.devDesc + 16) 1 ((s.byte (s.devDesc + 16)).setWidth 32) :: s.env.log, ?_⟩
  rw [enumPoll, needHost_bind_of hm, get_bind_apply, he]
  exact congrFun (if_pos hindex) _

theorem enumStart_noPort (hport : s.host.portEnabled = false) : enumStart s = .ok () s := by
  rw [enumStart, get_bind_apply, if_pos hport]
  rfl

/-- With an enabled port the start is CTRLOPEN at address 0 (R271). -/
theorem enumStart_port (hport : s.host.portEnabled = true) : enumStart s = (ctrlOpen (ctrlMpsInit s.host.speed) 0 >>=
    fun r => refuseIf (r = none) .NoChannel >>= fun _ =>
    upd fun s => { s with host.devAddr := 0, host.itfCount := 0, host.enumState := .GET_DEV_DESC8 }) s := by
  rw [enumStart, get_bind_apply, if_neg (by simp [hport])]

theorem ctrlMpsInit_eq (speed : Speed) : ctrlMpsInit speed = if speed = .LOW then 8 else 64 := by cases speed <;> rfl

theorem pairCode_some_ne (o i : Ch) : pairCode (some (o, i)) ≠ 0xFFFFFFFF ∧ pairCode (some (o, i)) ≠ 0xFF := by
  revert o i; decide

/-! ### The words of a setup packet -/

/-- Bytes side by side are the bytes shifted to their places (R72). -/
theorem wordOfBytes_eq (b0 b1 b2 b3 : Byte) : wordOfBytes b0 b1 b2 b3 =
    b3.setWidth 32 <<< 24 ||| b2.setWidth 32 <<< 16 ||| b1.setWidth 32 <<< 8 ||| b0.setWidth 32 := by
  rw [wordOfBytes, ← BitVec.setWidth_eq (_ ++ _)]
  simp only [BitVec.setWidth_append_eq_shiftLeft_setWidth_or, BitVec.shiftLeft_or_distrib, ← BitVec.shiftLeft_add]

/-- Byte 2 of a setup packet is bits 23:16 of its first word (R112). -/
theorem setup0_eq (bmRequestType bRequest vLo vHi : Byte) : setup0 bmRequestType bRequest vLo vHi =
    setup0 bmRequestType bRequest 0 vHi ||| vLo.setWidth 32 <<< 16 := by
  have hzero : (0 : Byte).setWidth 32 <<< 16 = 0#32 := by decide
  simp only [setup0, wordOfBytes_eq, hzero, BitVec.or_zero, BitVec.or_assoc]
  rw [BitVec.or_comm (vLo.setWidth 32 <<< 16), BitVec.or_assoc]

theorem wordOfBytes_toNat (b0 b1 b2 b3 : Byte) :
    (wordOfBytes b0 b1 b2 b3).toNat = b0.toNat + 2 ^ 8 * b1.toNat + 2 ^ 16 * b2.toNat + 2 ^ 24 * b3.toNat := by
  simp only [wordOfBytes, BitVec.toNat_append, Nat.shiftLeft_eq, Nat.mul_comm _ (2 ^ 8),
    ← Nat.two_pow_add_eq_or_of_lt (BitVec.isLt _)]
  omega

/-- `wLength` is the high half of the second word of a setup packet (R112). -/
theorem setup1_length (n : Nat) :
    setup1 0 0 ((BitVec.ofNat 16 n).extractLsb' 0 8) ((BitVec.ofNat 16 n).extractLsb' 8 8) =
      BitVec.ofNat 32 (65536 * n) := by
  apply BitVec.eq_of_toNat_eq
  have hzero : (0 : Byte).toNat = 0 := rfl
  simp only [setup1, wordOfBytes_toNat, BitVec.extractLsb'_toNat, BitVec.toNat_ofNat, Nat.shiftRight_eq_div_pow, hzero]
  omega

/-! ### The requests -/

/-- The request of a state: its two words and its buffer, from the cached descriptors (R270, R276, R277, R279, R281). -/
def State.enumRequest (s : State) : EnumState → Option (Word × Word × Addr)
  | .GET_DEV_DESC8 => some (0x01000680, 0x00080000, s.devDesc)
  | .SET_ADDR => some (0x00010500, 0, s.devDesc)
  | .GET_DEV_DESC => some (0x01000680, 0x00120000, s.devDesc)
  | .GET_CFG_DESC9 => some (0x02000680, 0x00090000, s.cfgDesc)
  | .GET_CFG_DESC =>
    some (0x02000680, BitVec.ofNat 32 (65536 * min (s.half (s.cfgDesc + 2)).toNat Config.cfgBuf), s.cfgDesc)
  | .GET_MFC_STR =>
    some (0x03000680 ||| (s.byte (s.devDesc + 14)).setWidth 32 <<< 16, 0x00FF0409, s.strDesc 0)
  | .GET_PROD_STR =>
    some (0x03000680 ||| (s.byte (s.devDesc + 15)).setWidth 32 <<< 16, 0x00FF0409, s.strDesc 1)
  | .GET_SER_STR =>
    if s.byte (s.devDesc + 16) = 0 then none
    else some (0x03000680 ||| (s.byte (s.devDesc + 16)).setWidth 32 <<< 16, 0x00FF0409, s.strDesc 2)
  | .SET_CFG => some (0x00000900 ||| (s.byte (s.cfgDesc + 5)).setWidth 32 <<< 16, 0, s.devDesc)
  | .IDLE | .CONFIGURED => none

/-- What follows the completion of a state's request (R272 to R281). -/
def State.onComplete (s : State) : EnumState → M Unit
  | .GET_DEV_DESC8 => learnMps
  | .SET_ADDR => addressed
  | .GET_DEV_DESC => toEnum .GET_CFG_DESC9
  | .GET_CFG_DESC9 => toEnum .GET_CFG_DESC
  | .GET_CFG_DESC => do
    cfgParse s.cfgDesc (min (s.half (s.cfgDesc + 2)).toNat Config.cfgBuf)
    toEnum .GET_MFC_STR
  | .GET_MFC_STR => toEnum .GET_PROD_STR
  | .GET_PROD_STR => toEnum .GET_SER_STR
  | .GET_SER_STR => toEnum .SET_CFG
  | .SET_CFG => do
    toEnum .CONFIGURED
    emit .enumDone
  | .IDLE | .CONFIGURED => pure ()

theorem strStep_eq (index : Byte) (buf : Addr) (next : EnumState) : strStep index buf next =
    enumStep (0x03000680 ||| index.setWidth 32 <<< 16) 0x00FF0409 buf (toEnum next) := by
  rw [strStep, setup0_eq]
  rfl

/-- In a state that sends a request ENUMPOLL is `Step` of that request; before, it may read its cache. -/
theorem enumPoll_request (hm : s.mode = .HOST) {e : EnumState} (he : s.host.enumState = e) {w0 w1 : Word} {buf : Addr}
    (hq : s.enumRequest e = some (w0, w1, buf)) : ∃ l, State.events { s with env.log := l } = s.events ∧
      enumPoll s = enumStep w0 w1 buf (s.onComplete e) { s with env.log := l } := by
  rw [enumPoll, needHost_bind_of hm, get_bind_apply, he]
  cases e with
  | IDLE | CONFIGURED => cases hq
  | GET_DEV_DESC8 | SET_ADDR | GET_DEV_DESC | GET_CFG_DESC9 =>
    cases hq
    exact ⟨s.env.log, rfl, rfl⟩
  | GET_CFG_DESC =>
    cases hq
    rw [← setup1_length]
    exact ⟨.memRead (s.cfgDesc + 2) 2 ((s.half (s.cfgDesc + 2)).setWidth 32) :: s.env.log, rfl, rfl⟩
  | GET_MFC_STR =>
    cases hq
    exact ⟨.memRead (s.devDesc + 14) 1 ((s.byte (s.devDesc + 14)).setWidth 32) :: s.env.log, rfl,
      congrFun (strStep_eq _ _ _) _⟩
  | GET_PROD_STR =>
    cases hq
    exact ⟨.memRead (s.devDesc + 15) 1 ((s.byte (s.devDesc + 15)).setWidth 32) :: s.env.log, rfl,
      congrFun (strStep_eq _ _ _) _⟩
  | GET_SER_STR =>
    simp only [State.enumRequest, Option.ite_none_left_eq_some, Option.some.injEq, Prod.mk.injEq] at hq
    obtain ⟨hindex, rfl, rfl, rfl⟩ := hq
    exact ⟨.memRead (s.devDesc + 16) 1 ((s.byte (s.devDesc + 16)).setWidth 32) :: s.env.log, rfl,
      congrFun ((if_neg hindex).trans (strStep_eq _ _ _)) _⟩
  | SET_CFG =>
    cases hq
    refine ⟨.memRead (s.cfgDesc + 5) 1 ((s.byte (s.cfgDesc + 5)).setWidth 32) :: s.env.log, rfl, ?_⟩
    exact congrArg (fun w => enumStep w _ _ _ _) (setup0_eq 0x00 0x09 _ 0x00)

section Step
variable {w0 w1 : Word} {buf : Addr} {done : M Unit} {t : State}

theorem enumStep_refuse {r : RefuseName} (h : ctrlReq buf w0 w1 s = .error (.refuse r) t) :
    enumStep w0 w1 buf done s = .error (.refuse r) t := bind_error h
/-- Anything but COMPLETE leaves the state of the enumeration (R283). -/
theorem enumStep_pending {v : Verdict} (h : ctrlReq buf w0 w1 s = .ok v t) (hv : v ≠ .COMPLETE) :
    enumStep w0 w1 buf done s = .ok () t := by
  rw [enumStep, bind_ok h, if_neg hv]
  rfl
theorem enumStep_complete (h : ctrlReq buf w0 w1 s = .ok .COMPLETE t) : enumStep w0 w1 buf done s = done t := by
  rw [enumStep, bind_ok h, if_pos rfl]

end Step

/-- A completion that only moves on (R277, R279, R281), from any later state. -/
theorem onComplete_advances {e e' : EnumState}
    (h : e = .GET_DEV_DESC ∧ e' = .GET_CFG_DESC9 ∨ e = .GET_CFG_DESC9 ∧ e' = .GET_CFG_DESC ∨
      e = .GET_MFC_STR ∧ e' = .GET_PROD_STR ∨ e = .GET_PROD_STR ∧ e' = .GET_SER_STR ∨
      e = .GET_SER_STR ∧ e' = .SET_CFG ∨ e = .SET_CFG ∧ e' = .CONFIGURED) (t : State) :
    ∃ l, s.onComplete e t = .ok () { t with host.enumState := e', env.log := l } ∧
      State.events { t with env.log := l } = if e = .SET_CFG then .enumDone :: t.events else t.events := by
  rcases h with ⟨rfl, rfl⟩ | ⟨rfl, rfl⟩ | ⟨rfl, rfl⟩ | ⟨rfl, rfl⟩ | ⟨rfl, rfl⟩ | ⟨rfl, rfl⟩
  iterate 5 exact ⟨t.env.log, rfl, rfl⟩
  exact ⟨.event .enumDone :: t.env.log, rfl, rfl⟩

theorem Verdict.code_ne (v : Verdict) : v.code ≠ 0xFFFFFFFF := by cases v <;> decide
theorem Verdict.code_eq_seven {v : Verdict} : v.code = 7 ↔ v = .COMPLETE := by cases v <;> decide

/-- The events after the same entries are the same where the events before are. -/
theorem State.events_append {t u : State} {new l : List LogEntry} (ht : t.env.log = new ++ s.env.log)
    (hu : u.env.log = new ++ l) (hl : State.events { s with env.log := l } = s.events) : u.events = t.events := by
  have hl' : l.filterMap _ = s.env.log.filterMap _ := hl
  rw [State.events, State.events, ht, hu, List.filterMap_append, List.filterMap_append, hl']

/-- How CTRLREQ ends as a command is how it ends inside ENUMPOLL, whatever was read before. -/
theorem ctrlReq_of_exec (hm : s.mode = .HOST) {buf : Addr} {w0 w1 : Word} {t : State}
    (hexec : exec .ctrlreq { s with port := { s.port with arg1 := buf, arg2 := w0, arg3 := w1 } } = .next t) :
    (∃ r, t.port.res = 0xFFFFFFFF ∧ ∀ l, ∃ u, ctrlReq buf w0 w1 { s with env.log := l } = .error (.refuse r) u) ∨
    ∃ v new, t.port.res = v.code ∧ t.env.log = new ++ s.env.log ∧ t.host.enumState = s.host.enumState ∧
      ∀ l, ctrlReq buf w0 w1 { s with env.log := l } = .ok v { t with port := s.port, env.log := new ++ l } := by
  rcases ctrlReq_ends hm buf w0 w1 with ⟨r, u, hreq⟩ | ⟨v, u, hreq⟩
  · obtain ⟨_, hcommand⟩ := Oblivious.ctrlReq.error hreq { s.port with arg1 := buf, arg2 := w0, arg3 := w1 }
      s.host.enumState s.env.log
    have hend := exec_ctrlreq_refuse (s := s.over { s.port with arg1 := buf, arg2 := w0, arg3 := w1 } s.host.enumState
      s.env.log) hcommand
    cases hend.symm.trans hexec
    exact .inl ⟨r, rfl, fun l => Oblivious.ctrlReq.error hreq s.port s.host.enumState l⟩
  · obtain ⟨new, hover⟩ := Oblivious.ctrlReq.ok hreq
    have hend := exec_ctrlreq_ok (s := s.over { s.port with arg1 := buf, arg2 := w0, arg3 := w1 } s.host.enumState
      s.env.log) (hover _ _ _)
    cases hend.symm.trans hexec
    exact .inr ⟨v, new, rfl, rfl, rfl, fun l => hover s.port s.host.enumState l⟩

end Sys2Proof.Machine

open Sys2Proof Sys2Proof.Machine

/-- Settles O40: `enumPoll_idle` with `enumStart_noPort` or `enumStart_port`, `enumPoll_configured` and
`enumPoll_noSerial`; CTRLOPEN depends on the port in no more than its operand (`Oblivious.ctrlOpen`). -/
theorem enumpollIdle : Obligations.EnumpollIdle := by
  intro s hm
  refine ⟨fun he hport => ?_, fun he => ?_, fun he hindex => ?_, fun he hport => ?_⟩
  · rw [exec_enumpoll_ok ((enumPoll_idle hm he).trans (enumStart_noPort hport)), he]
    rfl
  · rw [exec_enumpoll_ok (enumPoll_configured hm he), he]
    rfl
  · obtain ⟨l, hpoll⟩ := enumPoll_noSerial hm he hindex
    exact ⟨l, exec_enumpoll_ok hpoll⟩
  · have hstart := (enumPoll_idle hm he).trans (enumStart_port hport)
    have haddr : (0 : Word).toNat < 128 := by decide
    rw [← ctrlMpsInit_eq]
    rcases ctrlOpen_ends (ctrlMpsInit s.host.speed) 0 s with ⟨r, u, hopen⟩ | ⟨pair, u, hopen⟩
    · obtain ⟨v, hover⟩ := Oblivious.ctrlOpen.error hopen { s.port with arg0 := 0 } s.host.enumState s.env.log
      refine ⟨_, exec_ctrlopen_refuse hm haddr hover,
        fun _ => ⟨r, exec_enumpoll_refuse (hstart.trans (bind_error hopen))⟩, fun hres => ?_,
        fun hres => absurd rfl hres⟩
      exact absurd hres (show (0xFFFFFFFF : Word) ≠ 0xFF by decide)
    · obtain ⟨new, hover⟩ := Oblivious.ctrlOpen.ok hopen
      have hself := hover s.port s.host.enumState s.env.log
      refine ⟨_, exec_ctrlopen_ok hm haddr (hover { s.port with arg0 := 0 } s.host.enumState s.env.log), ?_⟩
      cases pair with
      | none =>
        refine ⟨fun hres => ?_, fun _ => ?_, fun _ hres => absurd rfl hres⟩
        · exact absurd hres (show (0xFF : Word) ≠ 0xFFFFFFFF by decide)
        · exact exec_enumpoll_refuse (hstart.trans ((bind_ok hself).trans (refuseIf_bind_pos rfl)))
      | some pair =>
        obtain ⟨hrefused, hnone⟩ := pairCode_some_ne pair.1 pair.2
        refine ⟨fun hres => absurd hres hrefused, fun hres => absurd hres hnone, fun _ _ => ?_⟩
        exact exec_enumpoll_ok (hstart.trans ((bind_ok hself).trans (refuseIf_bind_neg nofun)))

/-- Settles O41: in a requesting state ENUMPOLL is `Step` (`enumPoll_request`), whose CTRLREQ ends as the command does
(`ctrlReq_ends`, `Oblivious.ctrlReq`); the completions are `onComplete_advances`. -/
theorem enumpollRequests : Obligations.EnumpollRequests := by
  intro s t e w0 w1 buf hm he hrow hexec
  have hq : s.enumRequest e = some (w0, w1, buf) := by
    rcases hrow with ⟨rfl, rfl, rfl, rfl⟩ | ⟨rfl, rfl, rfl, rfl⟩ | ⟨rfl, rfl, rfl, rfl⟩ | ⟨rfl, rfl, rfl, rfl⟩ |
      ⟨rfl, rfl, rfl, rfl⟩ | ⟨rfl, rfl, rfl, rfl⟩ | ⟨rfl, rfl, rfl, rfl⟩ | ⟨rfl, rfl, rfl, rfl, hindex⟩ |
      ⟨rfl, rfl, rfl, rfl⟩
    iterate 7 exact rfl
    · exact if_neg hindex
    · rfl
  obtain ⟨l, hevents, hpoll⟩ := enumPoll_request hm he hq
  rcases ctrlReq_of_exec hm hexec with ⟨r, hrefused, hreq⟩ | ⟨v, new, hcode, hlog, henum, hreq⟩
  · obtain ⟨u, hstep⟩ := hreq l
    rw [hrefused]
    exact ⟨fun _ => ⟨r, exec_enumpoll_refuse (hpoll.trans (enumStep_refuse hstep))⟩, fun hres => absurd rfl hres,
      fun hres => absurd hres (by decide)⟩
  · rw [hcode]
    refine ⟨fun hres => absurd hres v.code_ne, fun _ hv => ⟨new ++ l, ?_⟩, fun hv e' hnext => ?_⟩
    · rw [exec_enumpoll_ok (hpoll.trans (enumStep_pending (hreq l) fun h => hv (Verdict.code_eq_seven.2 h))), ← he,
        ← henum]
    · cases Verdict.code_eq_seven.1 hv
      obtain ⟨l', hdone, hlog'⟩ := onComplete_advances (s := s) hnext { t with port := s.port, env.log := new ++ l }
      refine ⟨_, exec_enumpoll_ok (hpoll.trans ((enumStep_complete (hreq l)).trans hdone)), rfl, ?_⟩
      have ht : State.events { t with port := s.port, env.log := new ++ l } = t.events :=
        State.events_append hlog rfl hevents
      rw [← ht]
      exact hlog'

end

section
/-! ## The enumeration sequencer: completed requests (R272, R273, R276) -/

namespace Sys2Proof.Machine

variable {s t : State}

/-! ### The poll that completes a request -/

/-- Only the end of a status stage completes a request (R198). -/
theorem urbRow_complete {u : UrbStatus} (hbusy : s.host.verdict = .BUSY) (hrow : urbRow u s = .ok () t)
    (hv : t.host.verdict = .COMPLETE) : t = s.sequenced .SETUP false 0 .COMPLETE := by
  have hkept : t.host.verdict ≠ s.host.verdict := by simp [hv, hbusy]
  cases u with
  | OK =>
    cases h : s.host.ctrlState with
    | SETUP =>
      obtain ⟨l, hok⟩ := urbRow_ok_setup h
      cases hok.symm.trans hrow
      exact absurd rfl hkept
    | DATA_OUT => cases (urbRow_ok_dataOut h).symm.trans hrow; exact absurd rfl hkept
    | DATA_IN => cases (urbRow_ok_dataIn h).symm.trans hrow; exact absurd rfl hkept
    | STATUS_IN => cases (urbRow_ok_status (.inl h)).symm.trans hrow; rfl
    | STATUS_OUT => cases (urbRow_ok_status (.inr h)).symm.trans hrow; rfl
    | STALL | ERROR | COMPLETE =>
      have hok : urbRow .OK s = .ok () s := by
        show urbOk s = _
        rw [urbOk, get_bind_apply, h]
        rfl
      cases hok.symm.trans hrow
      exact absurd rfl hkept
  | ERROR =>
    rcases lt_or_ge s.host.errCnt.toNat 2 with h | h
    · cases (urbRow_error_retry h).symm.trans hrow; exact absurd rfl hkept
    · cases (urbRow_error_giveUp h).symm.trans hrow; cases hv
  | STALL => cases urbRow_stall.symm.trans hrow; cases hv
  | NOREADY => cases urbRow_noReady.symm.trans hrow; exact absurd rfl hkept
  | IDLE => cases (urbRow_pending (.inl rfl)).symm.trans hrow; exact absurd rfl hkept
  | PING => cases (urbRow_pending (.inr rfl)).symm.trans hrow; exact absurd rfl hkept

/-- A poll that ends COMPLETE wrote four fields of the sequencer at most. -/
theorem ctrlPoll_complete {o i : Ch} (hm : s.mode = .HOST) (ho : s.host.hcCtlOut = some o)
    (hi : s.host.hcCtlIn = some i) (hpoll : ctrlPoll s = .ok () t) (hv : t.host.verdict = .COMPLETE) :
    ∃ st wait err, t = s.sequenced st wait err .COMPLETE := by
  by_cases hbusy : s.host.verdict = .BUSY
  swap
  · cases (ctrlPoll_idle hm ho hi hbusy).symm.trans hpoll
    exact ⟨s.host.ctrlState, s.host.ctrlWait, s.host.errCnt, by rw [State.sequenced, ← hv]⟩
  have hkept : t.host.verdict ≠ s.host.verdict := by simp [hv, hbusy]
  cases hx : s.phaseXfer o i s.host.ctrlState with
  | none =>
    have hc : phaseChannel o i s.host.ctrlState = none := by rw [phaseChannel_eq s, hx]; rfl
    cases (ctrlPoll_noPhase hm ho hi hbusy hc).symm.trans hpoll
    exact absurd rfl hkept
  | some x =>
    cases hw : s.host.ctrlWait with
    | false =>
      have hstart := (s.phaseStart_mode o i s.host.ctrlState).trans hm
      rcases enableChannelTransfer_ends hstart x.ch x.dir .CONTROL x.pid s.host.ctrlMps x.len x.buf with
        ⟨r, hrefused⟩ | ⟨a, u, hok, hhost⟩
      · cases (ctrlPoll_issue_refuse hm ho hi hbusy hw hx hrefused).symm.trans hpoll
      · cases (ctrlPoll_issues hm ho hi hbusy hw hx hok).symm.trans hpoll
        exact absurd (congrArg HostSess.verdict (hhost.trans (s.phaseStart_host o i _))) hkept
    | true =>
      rw [ctrlPoll_wait hm ho hi hbusy (phaseChannel_of_row hx) hw] at hpoll
      exact ⟨_, _, _, urbRow_complete hbusy hpoll hv⟩

/-- A CTRLPOLL that answers COMPLETE has the pair open. -/
theorem ctrlPoll_of_exec (hm : s.mode = .HOST) (hexec : exec .ctrlpoll s = .next t) (hres : t.port.res = 7) :
    ∃ o i st wait err, s.host.hcCtlOut = some o ∧ s.host.hcCtlIn = some i ∧
      ctrlPoll s = .ok () (s.sequenced st wait err .COMPLETE) ∧
      t = { s.sequenced st wait err .COMPLETE with port.res := 7 } := by
  have hrefused (r : RefuseName) (u : State) : ctrlPoll s ≠ .error (.refuse r) u := fun hpoll => by
    cases (exec_ctrlpoll_refuse hpoll).symm.trans hexec
    exact absurd hres (show (0xFFFFFFFF : Word) ≠ 7 by decide)
  rcases needPair_cases s with ⟨o, i, ho, hi⟩ | ⟨-, hclosed⟩
  swap
  · exact absurd (by rw [ctrlPoll, needHost_bind_of hm, bind_error hclosed]) (hrefused .NotOpen s)
  rcases ctrlPoll_ends hm ho hi with ⟨r, u, hpoll⟩ | ⟨u, hpoll, -⟩
  · exact absurd hpoll (hrefused r u)
  · cases (exec_ctrlpoll_ok hpoll).symm.trans hexec
    obtain ⟨st, wait, err, rfl⟩ := ctrlPoll_complete hm ho hi hpoll (Verdict.code_eq_seven.1 hres)
    exact ⟨o, i, st, wait, err, ho, hi, hpoll, rfl⟩

/-- The state in which ENUMPOLL goes on after that poll (R203). -/
def State.completed (s : State) (st : CtrlState) (wait : Bool) (err : BitVec 2) (l : List LogEntry) : State :=
  { s.sequenced st wait err .COMPLETE l with host.xferState := .OK }

/-- After that poll ENUMPOLL goes on with what follows the request. -/
theorem enumPoll_completes (hm : s.mode = .HOST) (hx : s.host.xferState = .WAITING)
    (hexec : exec .ctrlpoll s = .next t) (hres : t.port.res = 7) :
    ∃ o i st wait err, s.host.hcCtlOut = some o ∧ s.host.hcCtlIn = some i ∧
      t = { s.sequenced st wait err .COMPLETE with port.res := 7 } ∧
      ∀ e w0 w1 buf, s.host.enumState = e → s.enumRequest e = some (w0, w1, buf) → ∃ l,
        enumPoll s = s.onComplete e (s.completed st wait err l) := by
  obtain ⟨o, i, st, wait, err, ho, hi, hpoll, rfl⟩ := ctrlPoll_of_exec hm hexec hres
  refine ⟨o, i, st, wait, err, ho, hi, rfl, fun e w0 w1 buf he hq => ?_⟩
  obtain ⟨l, -, hrequest⟩ := enumPoll_request hm he hq
  obtain ⟨new, hover⟩ := Oblivious.ctrlPoll.ok hpoll
  have hreq := ctrlReq_polls (s := s.over s.port s.host.enumState l) hm ho hi hx (hover _ _ _) buf w0 w1
  exact ⟨new ++ l, hrequest.trans (enumStep_complete hreq)⟩

/-! ### What follows -/

section Reopen
variable {o i : Ch} {mps : BitVec 11} (devAddr : BitVec 7) (hmps : mps ≠ 0) (ho : s.host.hcCtlOut = some o)
  (hi : s.host.hcCtlIn = some i) (hv : s.host.verdict ≠ .BUSY)
include hmps ho hi hv

theorem ctrlOpen_open (hoidle : (s.hcAt o).chEna = false) (hiidle : (s.hcAt i).chEna = false) :
    ctrlOpen mps devAddr s = .ok (some (o, i)) (s.pairOpened o i mps devAddr) := by
  rw [ctrlOpen_again devAddr hmps ho hi, refuseIf_bind_neg hv,
    refuseIf_bind_neg (by simp [State.pair_busy_iff, hoidle, hiidle]), openPair_ok _ _ hoidle hiidle]

theorem ctrlOpen_busy (hbusy : (s.hcAt o).chEna = true ∨ (s.hcAt i).chEna = true) :
    ctrlOpen mps devAddr s = .error (.refuse .ChannelBusy) s := by
  rw [ctrlOpen_again devAddr hmps ho hi, refuseIf_bind_neg hv, refuseIf_bind_pos ((s.pair_busy_iff o i).2 hbusy)]

end Reopen

/-- The machine with other fields that CTRLOPEN of an open pair neither reads nor writes. -/
def State.aside (t : State) (p : CmdPort) (x : XferState) (a : BitVec 7) (l : List LogEntry) : State :=
  { t with port := p, host.xferState := x, host.devAddr := a, env.log := l }

/-- CTRLOPEN of an open pair, where the command completes, opens it the same way inside ENUMPOLL. -/
theorem ctrlOpen_reopens {u : State} {o i : Ch} {arg : Word} {mps : BitVec 11} (hm : t.mode = .HOST)
    (ho : t.host.hcCtlOut = some o) (hi : t.host.hcCtlIn = some i) (hv : t.host.verdict ≠ .BUSY)
    (harg : arg.toNat < 128) (hexec : exec (.ctrlopen mps) { t with port.arg0 := arg } = .next u)
    (hres : u.port.res ≠ 0xFFFFFFFF) : u.host.devAddr = t.host.devAddr ∧ ∀ p x a l,
      ctrlOpen mps (arg.extractLsb' 0 7) (t.aside p x a l) = .ok (some (o, i)) (u.aside p x a l) := by
  have hrefused (r : RefuseName) (v : State) :
      ctrlOpen mps (arg.extractLsb' 0 7) { t with port.arg0 := arg } ≠ .error (.refuse r) v := fun hopen => by
    cases (exec_ctrlopen_refuse (s := { t with port.arg0 := arg }) hm harg hopen).symm.trans hexec
    exact absurd rfl hres
  by_cases hmps : mps = 0
  · exact absurd (hmps ▸ ctrlOpen_badSize _ _) (hrefused _ _)
  by_cases hbusy : (t.hcAt o).chEna = true ∨ (t.hcAt i).chEna = true
  · exact absurd (ctrlOpen_busy (s := { t with port.arg0 := arg }) _ hmps ho hi hv hbusy) (hrefused _ _)
  obtain ⟨hoidle, hiidle⟩ : (t.hcAt o).chEna = false ∧ (t.hcAt i).chEna = false := by simpa using hbusy
  have hopen := ctrlOpen_open (s := { t with port.arg0 := arg }) (arg.extractLsb' 0 7) hmps ho hi hv hoidle hiidle
  cases (exec_ctrlopen_ok (s := { t with port.arg0 := arg }) hm harg hopen).symm.trans hexec
  exact ⟨rfl, fun p x a l => ctrlOpen_open (s := t.aside p x a l) _ hmps ho hi hv hoidle hiidle⟩

theorem learnMps_zero (hsize : s.byte (s.devDesc + 7) = 0) : ∃ l,
    learnMps s = .ok () { s with host.enumState := .SET_ADDR, env.log := l } := by
  rw [learnMps, get_bind_apply, memRead8_bind_apply]
  exact ⟨_, congrFun (if_pos hsize) _⟩

/-- A packet size other than 0 is used at once (R272). -/
theorem learnMps_opens (hsize : s.byte (s.devDesc + 7) ≠ 0) : ∃ l, learnMps s =
    (ctrlOpen ((s.byte (s.devDesc + 7)).setWidth 11) 0 >>= fun _ => toEnum .SET_ADDR) { s with env.log := l } := by
  refine ⟨.memRead (s.devDesc + 7) 1 ((s.byte (s.devDesc + 7)).setWidth 32) :: s.env.log, ?_⟩
  rw [learnMps, get_bind_apply, memRead8_bind_apply]
  exact congrFun (if_neg hsize) _

theorem addressed_opens (s : State) : addressed s =
    (ctrlOpen s.host.ctrlMps 1 >>= fun _ => toEnum .GET_DEV_DESC) { s with host.devAddr := 1 } := rfl

/-- CFGPARSE, where the command returns, parses the same way inside ENUMPOLL. -/
theorem cfgParse_of_exec {u : State} {buf : Addr} {arg : Word} (hm : t.mode = .HOST)
    (hfit : buf.toNat + arg.toNat ≤ 2 ^ 32)
    (hexec : exec .cfgparse { t with port := { t.port with arg0 := arg, arg1 := buf } } = .next u)
    (hstuck : u.env.fgStuck = false) (p : CmdPort) (x : XferState) (l : List LogEntry) : ∃ l',
    cfgParse buf arg.toNat { t with port := p, host.xferState := x, env.log := l } =
      .ok () { u with port := p, host.xferState := x, env.log := l' } := by
  obtain ⟨_, hcommand⟩ := cfgParse_eq (f := fun k => t.byte (buf + BitVec.ofNat 32 k))
    (s := { t with port := { t.port with arg0 := arg, arg1 := buf } }) hm hfit fun _ => rfl
  obtain ⟨l', hstep⟩ := cfgParse_eq (f := fun k => t.byte (buf + BitVec.ofNat 32 k))
    (s := { t with port := p, host.xferState := x, env.log := l }) hm hfit fun _ => rfl
  have hend := (exec_cfgparse (s := { t with port := { t.port with arg0 := arg, arg1 := buf } }) hcommand).symm.trans
    hexec
  refine ⟨l', hstep.trans ?_⟩
  cases hzero : (parseOf (fun k => t.byte (buf + BitVec.ofNat 32 k)) arg.toNat t.host.itf).2 with
  | true =>
    rw [hzero] at hend
    cases hend
    cases hstuck
  | false =>
    rw [hzero] at hend
    cases hend
    rfl

end Sys2Proof.Machine

open Sys2Proof Sys2Proof.Machine

/-- Settles O42: after the poll that completes the request (`enumPoll_completes`) the two re-opens are CTRLOPEN
(`ctrlOpen_reopens`) and the parse is CFGPARSE (`cfgParse_eq`). -/
theorem enumpollCompletes : Obligations.EnumpollCompletes := by
  intro s t hm hx hexec hres
  obtain ⟨o, i, st, wait, err, ho, hi, ht, hpoll⟩ := enumPoll_completes hm hx hexec hres
  have hmode : t.mode = .HOST := by rw [ht]; exact hm
  have hout : t.host.hcCtlOut = some o := by rw [ht]; exact ho
  have hin : t.host.hcCtlIn = some i := by rw [ht]; exact hi
  have hidle : t.host.verdict ≠ .BUSY := by rw [ht]; nofun
  refine ⟨fun he hsize => ?_, fun he u hopen hsize hrefused _ => ?_, fun he u hopen hrefused _ => ?_,
    fun he n u hn hfit _ hparse hstuck => ?_, fun he hwrap => ?_⟩
  · obtain ⟨l, hrun⟩ := hpoll _ _ _ _ he rfl
    obtain ⟨l', hlearn⟩ := learnMps_zero (s := s.completed st wait err l) hsize
    subst ht
    exact ⟨l', exec_enumpoll_ok (hrun.trans hlearn)⟩
  · obtain ⟨l, hrun⟩ := hpoll _ _ _ _ he rfl
    obtain ⟨l', hlearn⟩ := learnMps_opens (s := s.completed st wait err l) hsize
    obtain ⟨haddr, hreopen⟩ := ctrlOpen_reopens (arg := 0) hmode hout hin hidle (by decide) hopen hrefused
    have hopened := hreopen s.port .OK t.host.devAddr l'
    rw [show u.aside s.port .OK t.host.devAddr l' = u.aside s.port .OK u.host.devAddr l' by rw [haddr]] at hopened
    subst ht
    exact ⟨l', exec_enumpoll_ok (hrun.trans (hlearn.trans (bind_ok hopened)))⟩
  · obtain ⟨l, hrun⟩ := hpoll _ _ _ _ he rfl
    obtain ⟨-, hreopen⟩ := ctrlOpen_reopens (arg := 1) hmode hout hin hidle (by decide) hopen hrefused
    have hopened := hreopen s.port .OK 1 l
    subst ht
    exact ⟨l, exec_enumpoll_ok (hrun.trans ((addressed_opens _).trans (bind_ok hopened)))⟩
  · obtain ⟨l, hrun⟩ := hpoll _ _ _ _ he rfl
    have hlen : (BitVec.ofNat 32 n).toNat = n := by rw [BitVec.toNat_ofNat, Nat.mod_eq_of_lt (by omega)]
    obtain ⟨l', hparsed⟩ := cfgParse_of_exec hmode (hlen.symm ▸ hfit) hparse hstuck s.port .OK l
    rw [hlen, hn] at hparsed
    subst ht
    exact ⟨l', exec_enumpoll_ok (hrun.trans (bind_ok hparsed))⟩
  · obtain ⟨l, hrun⟩ := hpoll _ _ _ _ he rfl
    exact exec_enumpoll_refuse (hrun.trans (bind_error (cfgParse_wraps (s := s.completed st wait err l) hm hwrap)))

end

section
/-! ## The RXFLVL handler (R310 to R315) -/

namespace Sys2Proof.Machine

variable {s t : State} {st : Word} {q : List Word}

/-! ### Around the entry: RXFLVL is disabled, the status word popped, RXFLVL enabled (R310, R315) -/

/-- The state in which the entry of a status word is received. -/
def State.entryPopped (s : State) (st : Word) (q : List Word) : State :=
  { s with fifo.rxq := q, gintmsk := s.gintmsk &&& 0x1FFE, env.log := .rxPop st :: s.env.log }

/-- RXFLVL disabled and enabled again is enabled. -/
theorem rxflvl_mask (g : BitVec 13) : (g &&& 0x1FFE) ||| 0x001 = g ||| 0x001 := by
  ext i hi
  rw [BitVec.getElem_or, BitVec.getElem_and, BitVec.getElem_or]
  interval_cases i <;> simp

theorem rxflvlHandler_ok (hq : s.fifo.rxq = st :: q) (hmask : t.gintmsk = s.gintmsk &&& 0x1FFE)
    (h : receiveEntry st (s.entryPopped st q) = .ok () t) :
    rxflvlHandler s = .ok () { t with gintmsk := s.gintmsk ||| 0x001 } := by
  rw [rxflvlHandler, upd_bind_apply, bind_ok (rxPop_cons (s := s.setGmask .RXFLVL false) hq)]
  refine (bind_ok h).trans ?_
  rw [upd_apply, ← rxflvl_mask, ← hmask]
  rfl

/-- A fault ends the handler before RXFLVL is enabled again (R315). -/
theorem rxflvlHandler_raised (hq : s.fifo.rxq = st :: q)
    (h : receiveEntry st (s.entryPopped st q) = .error .raised t) : rxflvlHandler s = .error .raised t := by
  rw [rxflvlHandler, upd_bind_apply, bind_ok (rxPop_cons (s := s.setGmask .RXFLVL false) hq)]
  exact bind_error h

/-! ### The entries by mode and packet type (R111) -/

@[simp] theorem State.entryPopped_mode (s : State) : (s.entryPopped st q).mode = s.mode := rfl

theorem receiveEntry_hostIn (hm : s.mode = .HOST) (hp : st.extractLsb' 17 4 = 2) :
    receiveEntry st (s.entryPopped st q) =
      receiveIn (st.extractLsb' 0 4) (st.extractLsb' 4 11).toNat (s.entryPopped st q) := by
  rw [receiveEntry, get_bind_apply, s.entryPopped_mode, hm]
  exact congrFun (if_pos hp) _

theorem receiveEntry_hostOther (hm : s.mode = .HOST) (hp : st.extractLsb' 17 4 ≠ 2) :
    receiveEntry st (s.entryPopped st q) = .ok () (s.entryPopped st q) := by
  rw [receiveEntry, get_bind_apply, s.entryPopped_mode, hm]
  exact congrFun (if_neg hp) _

theorem receiveEntry_deviceOut (hm : s.mode = .DEVICE) (hp : st.extractLsb' 17 4 = 2) :
    receiveEntry st (s.entryPopped st q) =
      receiveOut (st.extractLsb' 0 4) (st.extractLsb' 4 11).toNat (s.entryPopped st q) := by
  rw [receiveEntry, get_bind_apply, s.entryPopped_mode, hm]
  exact congrFun (if_pos hp) _

theorem receiveEntry_deviceSetup (hm : s.mode = .DEVICE) (hp : st.extractLsb' 17 4 = 6) :
    receiveEntry st (s.entryPopped st q) = receiveSetup (st.extractLsb' 4 11).toNat (s.entryPopped st q) := by
  have hne : stPktsts st ≠ 2 := by rw [stPktsts, hp]; decide
  rw [receiveEntry, get_bind_apply, s.entryPopped_mode, hm]
  exact (congrFun (if_neg hne) _).trans (congrFun (if_pos hp) _)

theorem receiveEntry_deviceOther (hm : s.mode = .DEVICE) (hp : st.extractLsb' 17 4 ≠ 2)
    (hp' : st.extractLsb' 17 4 ≠ 6) : receiveEntry st (s.entryPopped st q) = .ok () (s.entryPopped st q) := by
  rw [receiveEntry, get_bind_apply, s.entryPopped_mode, hm]
  exact (congrFun (if_neg hp) _).trans (congrFun (if_neg hp') _)

/-- Re-arm when more packets are expected and no halt is under way (R313). -/
def State.rearmed (s : State) (c : Ch) : State :=
  if (s.pipeAt c).buf.pktCnt ≠ 0 ∧ s.runState c ≠ .HALTING then s.enableChannel c else s

theorem receiveIn_channel {num : BitVec 4} {c : Ch} (h : num = .ofNat 4 c) (n : Nat) :
    receiveIn num n s = (receivePacket (.ch c) n >>= fun _ => upd fun u => u.rearmed c) s := by
  have hnum : num.toNat = c.val := by rw [h, BitVec.toNat_ofNat]; omega
  have hc (h') : (⟨num.toNat, h'⟩ : Ch) = c := Fin.ext hnum
  rw [receiveIn, dif_pos (by omega)]
  simp only [hc]
  rfl

theorem receiveOut_endpoint {num : BitVec 4} {e : EpIx} (h : num = .ofNat 4 e) (n : Nat) :
    receiveOut num n s = receivePacket (.ep .OUT e) n s := by
  have hnum : num.toNat = e.val := by rw [h, BitVec.toNat_ofNat]; omega
  have he (h') : (⟨num.toNat, h'⟩ : EpIx) = e := Fin.ext hnum
  rw [receiveOut, dif_pos (by omega)]
  simp only [he]

theorem receiveIn_noChannel {num : BitVec 4} (h : 11 < num.toNat) (n : Nat) :
    receiveIn num n s = .error .raised { s with fault.rxBadStatus := true } :=
  congrFun (dif_neg (by omega)) s

theorem receiveOut_noEndpoint {num : BitVec 4} (h : 7 < num.toNat) (n : Nat) :
    receiveOut num n s = .error .raised { s with fault.rxBadStatus := true } :=
  congrFun (dif_neg (by omega)) s

theorem receiveSetup_badLength {n : Nat} (h : n ≠ 8) :
    receiveSetup n s = .error .raised { s with fault.rxBadStatus := true } := by
  rw [receiveSetup, raiseIf_bind_apply, if_pos h]
  rfl

theorem receiveSetup_eight : receiveSetup 8 s = readPacket s.scratch 8 s := by
  rw [receiveSetup, raiseIf_bind_apply, if_neg (not_not.2 rfl), get_bind_apply]

/-! ### A packet into a registered buffer (R311, R313) -/

theorem decSat_eq (x : BitVec 10) : decSat x = BitVec.ofNat 10 (x.toNat - 1) := by
  unfold decSat
  split
  · next h => rw [h]; rfl
  · next h =>
    have hpos : x.toNat ≠ 0 := fun e => h (BitVec.eq_of_toNat_eq e)
    apply BitVec.eq_of_toNat_eq
    have := x.isLt
    simp
    omega

theorem decSat_ne_zero_iff (x : BitVec 10) : decSat x ≠ 0 ↔ 1 < x.toNat := by
  simp only [decSat_eq, ne_eq, ← BitVec.toNat_inj, BitVec.ofNat_eq_ofNat, BitVec.toNat_ofNat]
  omega

/-- The bookkeeping after a received packet of `n` bytes. -/
def XferBuf.received (b : XferBuf) (n : Nat) : XferBuf :=
  { b with
    bufPtr := b.bufPtr + BitVec.ofNat 32 n
    bufLen := b.bufLen - BitVec.ofNat 32 n
    xferCount := b.xferCount + BitVec.ofNat 32 n
    pktCnt := BitVec.ofNat 10 (b.pktCnt.toNat - 1) }

/-- `m` is the memory of `s` with the first `n` bytes that the words `q` carry at `a`. -/
def State.Copied (s : State) (m : Memory) (q : List Word) (a : Addr) (n : Nat) : Prop :=
  (∀ k < n, memGet m (a + BitVec.ofNat 32 k).toNat = wordsByte q k) ∧
    ∀ x : Addr, (∀ k < n, x ≠ a + BitVec.ofNat 32 k) → memGet m x.toNat = s.byte x

variable {x : Tgt} {n : Nat}

/-- `s` with words taken from the RxFIFO and bytes written. -/
def State.took (s : State) (rest : List Word) (m : Memory) (l : List LogEntry) : State :=
  { s with fifo.rxq := rest, mem := m, env.log := l }

theorem receivePacket_ok (hm : memWf s.mem = true) (hroom : n ≤ (s.bufAt x).bufLen.toNat)
    (hwords : wordsOf n ≤ s.fifo.rxq.length) : ∃ m l,
    receivePacket x n s =
      .ok () ((s.took (s.fifo.rxq.drop (wordsOf n)) m l).setBuf x ((s.bufAt x).received n)) ∧
      s.Copied m s.fifo.rxq (s.bufAt x).bufPtr n := by
  obtain ⟨_, hread, ⟨q, m, l, rfl⟩, hq, -, hcopy, hframe⟩ :=
    readPacket_ok (dst := (s.bufAt x).bufPtr) hm hwords (by omega)
  refine ⟨m, l, ?_, hcopy, hframe⟩
  rw [receivePacket, look_bind_apply, raiseIf_bind_apply, if_neg (by omega), bind_ok hread, upd_apply, ← hq]
  simp only [decSat_eq]
  cases x <;> rfl

theorem receivePacket_overrun (hroom : (s.bufAt x).bufLen.toNat < n) :
    receivePacket x n s = .error .raised { s with fault.rxOverrun := true } := by
  rw [receivePacket, look_bind_apply, raiseIf_bind_apply, if_pos hroom]
  rfl

/-- Too few words queued (R74): those queued are popped and copied. -/
theorem readPacket_short {a : Addr} (hm : memWf s.mem = true) (hlen : n ≤ 2 ^ 32)
    (hshort : s.fifo.rxq.length < wordsOf n) : ∃ m l,
    readPacket a n s = .error .raised { s with
      fifo.rxq := [], fault.rxUnderflow := true, mem := m, env.log := l } ∧
      s.Copied m s.fifo.rxq a (4 * s.fifo.rxq.length) := by
  obtain ⟨_, hread, ⟨q, m, l, rfl⟩, hq, -, hcopy, hframe⟩ := readPacket_underflow (dst := a) hm hshort hlen
  refine ⟨m, l, ?_, hcopy, hframe⟩
  rw [hread, ← hq]
  rfl

theorem receivePacket_underflow (hm : memWf s.mem = true) (hroom : n ≤ (s.bufAt x).bufLen.toNat)
    (hshort : s.fifo.rxq.length < wordsOf n) : ∃ m l,
    receivePacket x n s = .error .raised { s with
      fifo.rxq := [], fault.rxUnderflow := true, mem := m, env.log := l } ∧
      s.Copied m s.fifo.rxq (s.bufAt x).bufPtr (4 * s.fifo.rxq.length) := by
  obtain ⟨m, l, hread, hcopied⟩ := readPacket_short (a := (s.bufAt x).bufPtr) hm (by omega) hshort
  refine ⟨m, l, ?_, hcopied⟩
  rw [receivePacket, look_bind_apply, raiseIf_bind_apply, if_neg (by omega), bind_error hread]

/-- The re-arm test after a packet, in the terms of the state before it. -/
theorem State.rearms_received_iff (s : State) (c : Ch) (b : XferBuf) (n : Nat) :
    ((s.setBuf (.ch c) (b.received n)).pipeAt c).buf.pktCnt ≠ 0 ∧
        (s.setBuf (.ch c) (b.received n)).runState c ≠ .HALTING ↔
      1 < b.pktCnt.toNat ∧ ((s.hcAt c).chEna = false ∨ (s.hcAt c).chDis = false) := by
  refine and_congr ?_ ?_
  · rw [← decSat_ne_zero_iff, decSat_eq, State.setBuf, State.pipeAt_setPipe_same]
    rfl
  · rw [Ne, State.runState_halting_iff, not_and_or, Bool.not_eq_true, Bool.not_eq_true]
    rfl

theorem State.rearmed_of {c : Ch} {b : XferBuf}
    (h : 1 < b.pktCnt.toNat ∧ ((s.hcAt c).chEna = false ∨ (s.hcAt c).chDis = false)) (n : Nat) :
    (s.setBuf (.ch c) (b.received n)).rearmed c = (s.setBuf (.ch c) (b.received n)).enableChannel c :=
  if_pos ((s.rearms_received_iff c b n).2 h)

theorem State.rearmed_of_not {c : Ch} {b : XferBuf}
    (h : ¬ (1 < b.pktCnt.toNat ∧ ((s.hcAt c).chEna = false ∨ (s.hcAt c).chDis = false))) (n : Nat) :
    (s.setBuf (.ch c) (b.received n)).rearmed c = s.setBuf (.ch c) (b.received n) :=
  if_neg (mt (s.rearms_received_iff c b n).1 h)

end Sys2Proof.Machine

open Sys2Proof Sys2Proof.Machine

/-- Settles O44: an IN_DATA entry is `receivePacket` on the pipe's buffer and the re-arm (`receiveIn_channel`,
`receivePacket_ok`, `State.rearmed_of`). -/
theorem hostReceive : Obligations.HostReceive := by
  intro s st q hm hmode hq
  refine ⟨fun c n hp hnum hn hroom hwords => ?_, fun hp => ?_⟩
  · obtain ⟨m, l, hpacket, hcopied⟩ := receivePacket_ok (s := s.entryPopped st q) (x := .ch c) hm hroom hwords
    subst hn
    have hentry := (receiveEntry_hostIn hmode hp).trans ((receiveIn_channel hnum _).trans (bind_ok hpacket))
    rw [upd_apply] at hentry
    refine ⟨m, l, ?_, hcopied⟩
    by_cases hre : 1 < (s.pipeAt c).buf.pktCnt.toNat ∧ ((s.hcAt c).chEna = false ∨ (s.hcAt c).chDis = false)
    · rw [if_pos hre]
      rw [State.rearmed_of] at hentry
      · exact rxflvlHandler_ok hq rfl hentry
      · exact hre
    · rw [if_neg hre]
      rw [State.rearmed_of_not] at hentry
      · exact rxflvlHandler_ok hq rfl hentry
      · exact hre
  · exact ⟨_, rxflvlHandler_ok hq rfl (receiveEntry_hostOther hmode hp)⟩

/-- Settles O45: an OUT_DATA entry is `receivePacket` on the endpoint's buffer (`receivePacket_ok`), a SETUP_DATA entry
`ReadPacket` into the scratch region (`readPacket_ok`). -/
theorem deviceReceive : Obligations.DeviceReceive := by
  intro s st q hm hmode hq
  refine ⟨fun e n hp hnum hn hroom hwords => ?_, fun hp hlen hwords => ?_, fun hp hp' => ?_⟩
  · obtain ⟨m, l, hpacket, hcopied⟩ := receivePacket_ok (s := s.entryPopped st q) (x := .ep .OUT e) hm hroom hwords
    subst hn
    have hentry := (receiveEntry_deviceOut hmode hp).trans ((receiveOut_endpoint hnum _).trans hpacket)
    exact ⟨m, l, rxflvlHandler_ok hq rfl hentry, hcopied⟩
  · obtain ⟨_, hread, ⟨rest, m, l, rfl⟩, hrest, -, hcopied⟩ :=
      readPacket_ok (s := s.entryPopped st q) (dst := s.scratch) (len := 8) hm hwords (by omega)
    obtain rfl : rest = q.drop 2 := hrest
    have hentry := receiveEntry_deviceSetup (q := q) hmode hp
    rw [hlen] at hentry
    exact ⟨m, l, rxflvlHandler_ok hq rfl (hentry.trans (receiveSetup_eight.trans hread)), hcopied⟩
  · exact ⟨_, rxflvlHandler_ok hq rfl (receiveEntry_deviceOther hmode hp hp')⟩

/-- Settles O46: the entry that names nothing, the one without room (`receivePacket_overrun`), the one with words
missing (`receivePacket_underflow`, `readPacket_short`); each ends the handler (`rxflvlHandler_raised`). -/
theorem receiveFaults : Obligations.ReceiveFaults := by
  intro s st q hm hq
  refine ⟨fun h => rxflvlHandler_raised hq ?_, fun h => rxflvlHandler_raised hq ?_, fun a h hshort => ?_⟩
  · obtain ⟨hmode, hp, hnum⟩ | ⟨hmode, hp, hnum⟩ | ⟨hmode, hp, hlen⟩ := h
    · exact (receiveEntry_hostIn hmode hp).trans (receiveIn_noChannel hnum _)
    · exact (receiveEntry_deviceOut hmode hp).trans (receiveOut_noEndpoint hnum _)
    · exact (receiveEntry_deviceSetup hmode hp).trans
        (receiveSetup_badLength fun h8 => hlen (BitVec.eq_of_toNat_eq h8))
  · obtain ⟨c, hmode, hp, hnum, hroom⟩ | ⟨n, hmode, hp, hnum, hroom⟩ := h
    · exact (receiveEntry_hostIn hmode hp).trans
        ((receiveIn_channel hnum _).trans (bind_error (receivePacket_overrun hroom)))
    · exact (receiveEntry_deviceOut hmode hp).trans
        ((receiveOut_endpoint hnum _).trans (receivePacket_overrun hroom))
  · obtain ⟨c, hmode, hp, hnum, hroom, rfl⟩ | ⟨n, hmode, hp, hnum, hroom, rfl⟩ | ⟨hmode, hp, hlen, rfl⟩ := h
    · obtain ⟨m, l, hrun, hcopied⟩ :=
        receivePacket_underflow (s := s.entryPopped st q) (x := .ch c) hm hroom hshort
      exact ⟨m, l, rxflvlHandler_raised hq
        ((receiveEntry_hostIn hmode hp).trans ((receiveIn_channel hnum _).trans (bind_error hrun))), hcopied⟩
    · obtain ⟨m, l, hrun, hcopied⟩ :=
        receivePacket_underflow (s := s.entryPopped st q) (x := .ep .OUT n) hm hroom hshort
      exact ⟨m, l, rxflvlHandler_raised hq
        ((receiveEntry_deviceOut hmode hp).trans ((receiveOut_endpoint hnum _).trans hrun)), hcopied⟩
    · rw [hlen] at hshort
      obtain ⟨m, l, hrun, hcopied⟩ := readPacket_short (s := s.entryPopped st q) (a := s.scratch) (n := 8) hm
        (by omega) hshort
      have hentry := receiveEntry_deviceSetup (q := q) hmode hp
      rw [hlen] at hentry
      exact ⟨m, l, rxflvlHandler_raised hq (hentry.trans (receiveSetup_eight.trans hrun)), hcopied⟩

end

section
/-! ## The FIFO-empty handlers (R320, R357) -/

namespace Sys2Proof.Machine

variable {s t : State} {x : Tgt} {mps n : Nat}

/-! ### The state after packets sent -/

/-- `n` bytes of the target's buffer sent as the words `W`, whatever the history and the free values drawn. -/
def State.sent (s : State) (x : Tgt) (n : Nat) (W : List Word) (l : List LogEntry) (d : Nat) : State :=
  { s.setTxq x.num (s.txqAt x.num ++ W) with env.log := l, env.draws := d }.setBuf x ((s.bufAt x).advance n)

section Sent
variable {W : List Word} {l : List LogEntry} {d : Nat}

@[simp] theorem State.bufAt_sent : (s.sent x n W l d).bufAt x = (s.bufAt x).advance n := by
  cases x <;> simp [State.sent, State.setBuf, State.bufAt]

@[simp] theorem State.byte_sent (a : Addr) : (s.sent x n W l d).byte a = s.byte a := by
  rcases x with c | ⟨_ | _, e⟩ <;> rfl

@[simp] theorem State.classOf_sent (c : Ch) : (s.sent x n W l d).classOf c = s.classOf c := by
  rcases x with c | ⟨_ | _, e⟩ <;> rfl

/-- Words appended take as many words of space. -/
theorem State.txSpace_append (s : State) (num : Ch) (W : List Word) :
    (s.setTxq num (s.txqAt num ++ W)).txSpace (s.classOf num) = s.txSpace (s.classOf num) - W.length := by
  induction W generalizing s with
  | nil => rw [List.append_nil, setTxq_self]; rfl
  | cons w W ih =>
    have h := ih (s.setTxq num (s.txqAt num ++ [w]))
    rw [State.txqAt_setTxq_same, List.append_assoc, State.classOf_setTxq, State.txSpace_push] at h
    rw [List.length_cons, Nat.add_comm, Nat.sub_add_eq, ← h]
    simp [State.setTxq]

theorem State.txSpace_sent :
    (s.sent x n W l d).txSpace (s.classOf x.num) = s.txSpace (s.classOf x.num) - W.length := by
  rw [← s.txSpace_append]
  refine txSpace_congr (fun c => ?_) (fun c => ?_) ?_ _
  all_goals rcases x with c | ⟨_ | _, e⟩ <;> rfl

theorem XferBuf.advance_zero (b : XferBuf) : b.advance 0 = b := by simp [XferBuf.advance]

theorem XferBuf.advance_advance (b : XferBuf) (m n : Nat) : (b.advance m).advance n = b.advance (m + n) := by
  simp [XferBuf.advance, BitVec.ofNat_add, BitVec.add_assoc, BitVec.sub_sub]

/-- The whole buffer sent. -/
theorem XferBuf.advance_all (b : XferBuf) : b.advance b.bufLen.toNat =
    { b with bufPtr := b.bufPtr + b.bufLen, bufLen := 0, xferCount := b.xferCount + b.bufLen } := by
  simp [XferBuf.advance]

theorem State.setBuf_self (s : State) (x : Tgt) : s.setBuf x (s.bufAt x) = s := by
  rcases x with c | ⟨_ | _, e⟩
  · exact congrArg (fun p => { s with pipe := p }) (Vector.set_getElem_self c.isLt)
  · exact congrArg (fun p => { s with dep.epbOut := p }) (Vector.set_getElem_self e.isLt)
  · exact congrArg (fun p => { s with dep.epbIn := p }) (Vector.set_getElem_self e.isLt)

theorem State.sent_none (s : State) (x : Tgt) : s.sent x 0 [] s.env.log s.env.draws = s := by
  rw [State.sent, List.append_nil, setTxq_self, XferBuf.advance_zero]
  exact s.setBuf_self x

theorem State.sent_sent {m : Nat} {V : List Word} {k : List LogEntry} {e : Nat} :
    (s.sent x m V k e).sent x n W l d = s.sent x (m + n) (V ++ W) l d := by
  rcases x with c | ⟨_ | _, e⟩ <;>
    simp [State.sent, State.setBuf, State.bufAt, State.setPipe, State.pipeAt, State.setEpb, State.epbAt, State.setTxq,
      State.txqAt, XferBuf.advance_advance]

end Sent

/-- Packets of whole words follow one another in the words that carry them. -/
theorem State.Carries.append {V W : List Word} {a : Addr} {m n : Nat} (hV : s.Carries V a m)
    (hW : s.Carries W (a + BitVec.ofNat 32 m) n) (h4 : m % 4 = 0 ∨ n = 0) : s.Carries (V ++ W) a (m + n) := by
  obtain ⟨hVlen, hVbyte⟩ := hV
  obtain ⟨hWlen, hWbyte⟩ := hW
  refine ⟨?_, fun k hk => ?_⟩
  · rw [List.length_append, hVlen, hWlen]
    simp only [wordsOf_eq]
    omega
  · rw [wordsOf_eq] at hVlen
    by_cases hkm : k < m
    · rw [← hVbyte k hkm, wordsByte, wordsByte, List.getD_append _ _ _ _ (by omega)]
    · have hadd : a + BitVec.ofNat 32 m + BitVec.ofNat 32 (k - m) = a + BitVec.ofNat 32 k := by
        rw [BitVec.add_assoc, ← BitVec.ofNat_add, Nat.add_sub_cancel' (by omega)]
      have hW := hWbyte (k - m) (by omega)
      rw [hadd] at hW
      have hword : k / 4 - V.length = (k - m) / 4 := by omega
      have hbyte : k % 4 = (k - m) % 4 := by omega
      rw [← hW, wordsByte, wordsByte, List.getD_append_right _ _ _ _ (by omega), hword, hbyte]

theorem State.sent_channel_all (s : State) (c : Ch) (W : List Word) (l : List LogEntry) (d : Nat) :
    s.sent (.ch c) (s.bufAt (.ch c)).bufLen.toNat W l d = { (s.setPipe c { s.pipeAt c with
      buf := { (s.pipeAt c).buf with
        bufPtr := (s.pipeAt c).buf.bufPtr + (s.pipeAt c).buf.bufLen
        bufLen := 0
        xferCount := (s.pipeAt c).buf.xferCount + (s.pipeAt c).buf.bufLen } }).setTxq c (s.txqAt c ++ W) with
      env.log := l, env.draws := d } := by
  rw [← XferBuf.advance_all]
  rfl

theorem State.sent_endpoint_all (s : State) (e : EpIx) (W : List Word) (l : List LogEntry) (d : Nat) :
    s.sent (.ep .IN e) (s.bufAt (.ep .IN e)).bufLen.toNat W l d = { (s.setEpb .IN e { s.epbAt .IN e with
        bufPtr := (s.epbAt .IN e).bufPtr + (s.epbAt .IN e).bufLen
        bufLen := 0
        xferCount := (s.epbAt .IN e).xferCount + (s.epbAt .IN e).bufLen }).setTxq (Tgt.ep .IN e).num
          (s.txqAt (Tgt.ep .IN e).num ++ W) with
      env.log := l, env.draws := d } := by
  rw [← XferBuf.advance_all]
  rfl

theorem State.bufLen_sent_all (s : State) (x : Tgt) (W : List Word) (l : List LogEntry) (d : Nat) :
    ((s.sent x (s.bufAt x).bufLen.toNat W l d).bufAt x).bufLen = 0 := by
  rw [State.bufAt_sent, XferBuf.advance_all]

theorem State.carries_sent {V W : List Word} {l : List LogEntry} {d : Nat} {a : Addr} {m : Nat} :
    (s.sent x m V l d).Carries W a n ↔ s.Carries W a n := by simp [State.Carries]

/-! ### `Drain` (R320) -/

theorem drainLoop_succ (s : State) (x : Tgt) (mps fuel : Nat) : drainLoop x mps (fuel + 1) s =
    if (s.bufAt x).bufLen ≠ 0 ∧ wordsOf (s.bufAt x).bufLen.toNat < s.txSpace (s.classOf x.num) then
      (sendPacket x (min (s.bufAt x).bufLen.toNat mps) >>= fun _ => drainLoop x mps fuel) s
    else .ok () s := by
  rw [drainLoop, get_bind_apply, ite_apply']
  rfl

theorem drainLoop_stop {fuel : Nat} (h : (s.bufAt x).bufLen = 0 ∨
    s.txSpace (s.classOf x.num) ≤ wordsOf (s.bufAt x).bufLen.toNat) : drainLoop x mps fuel s = .ok () s := by
  cases fuel with
  | zero => rfl
  | succ fuel => rw [drainLoop_succ, if_neg fun ⟨hne, hroom⟩ => h.elim hne (Nat.not_le_of_lt hroom)]

/-- A packet that the loop sends fits. -/
theorem drainLoop_send {fuel len : Nat} (hlen : (s.bufAt x).bufLen.toNat = len) (h0 : len ≠ 0)
    (hroom : wordsOf len < s.txSpace (s.classOf x.num)) : ∃ W l d,
      s.Carries W (s.bufAt x).bufPtr (min len mps) ∧
      drainLoop x mps (fuel + 1) s = drainLoop x mps fuel (s.sent x (min len mps) W l d) := by
  obtain ⟨W, l, d, hW, hsend⟩ := sendPacket_ok (s := s) (x := x) (n := min len mps)
    ((wordsOf_mono (min_le_left _ _)).trans hroom.le)
  have hgo : (s.bufAt x).bufLen ≠ 0 := fun e => h0 (by rw [← hlen, e]; rfl)
  refine ⟨W, l, d, hW, ?_⟩
  rw [drainLoop_succ, hlen, if_pos ⟨hgo, hroom⟩, bind_ok hsend]
  rfl

/-- `Drain` never faults. -/
theorem drainLoop_ends (x : Tgt) (mps fuel : Nat) (s : State) : ∃ t, drainLoop x mps fuel s = .ok () t := by
  induction fuel generalizing s with
  | zero => exact ⟨s, rfl⟩
  | succ fuel ih =>
    by_cases h : (s.bufAt x).bufLen = 0 ∨ s.txSpace (s.classOf x.num) ≤ wordsOf (s.bufAt x).bufLen.toNat
    · exact ⟨s, drainLoop_stop h⟩
    · obtain ⟨hne, hroom⟩ := not_or.1 h
      obtain ⟨W, l, d, -, hstep⟩ := drainLoop_send (mps := mps) (fuel := fuel) rfl
        (fun e => hne (BitVec.eq_of_toNat_eq e)) (Nat.lt_of_not_le hroom)
      rw [hstep]
      exact ih _

/-- With packets of whole words and room for all that remains, all of it is sent. -/
theorem drainLoop_all (hmps : mps ≠ 0) (h4 : mps % 4 = 0) {fuel len : Nat} (hlen : (s.bufAt x).bufLen.toNat = len)
    (hfuel : len ≤ fuel) (hroom : wordsOf len < s.txSpace (s.classOf x.num)) : ∃ W l d,
      s.Carries W (s.bufAt x).bufPtr len ∧ drainLoop x mps fuel s = .ok () (s.sent x len W l d) := by
  induction fuel generalizing s len with
  | zero =>
    obtain rfl : len = 0 := by omega
    exact ⟨[], s.env.log, s.env.draws, ⟨rfl, nofun⟩, by rw [s.sent_none]; rfl⟩
  | succ fuel ih =>
    by_cases h0 : len = 0
    · subst h0
      exact ⟨[], s.env.log, s.env.draws, ⟨rfl, nofun⟩,
        by rw [s.sent_none, drainLoop_stop (.inl (BitVec.eq_of_toNat_eq hlen))]⟩
    obtain ⟨V, l, d, hV, hstep⟩ := drainLoop_send (mps := mps) (fuel := fuel) hlen h0 hroom
    have hrest : ((s.sent x (min len mps) V l d).bufAt x).bufLen.toNat = len - min len mps := by
      rw [State.bufAt_sent, XferBuf.advance, BitVec.toNat_sub, BitVec.toNat_ofNat]
      omega
    have hroom' : wordsOf (len - min len mps) < (s.sent x (min len mps) V l d).txSpace
        ((s.sent x (min len mps) V l d).classOf x.num) := by
      rw [State.classOf_sent, State.txSpace_sent, hV.1]
      simp only [wordsOf_eq] at hroom ⊢
      omega
    obtain ⟨W, l', d', hW, hdrain⟩ := ih hrest (by omega) hroom'
    rw [State.bufAt_sent, State.carries_sent] at hW
    have hcarries := hV.append hW (by omega)
    have hsplit : min len mps + (len - min len mps) = len := by omega
    rw [hsplit] at hcarries
    refine ⟨V ++ W, l', d', hcarries, ?_⟩
    rw [hstep, hdrain, State.sent_sent, hsplit]

/-! ### The host handlers (R320) -/

theorem State.waiting_iff (s : State) (k : TxClass) (c : Ch) : s.waiting k c = true ↔
    s.classOf c = k ∧ (s.hcAt c).dir = .OUT ∧ (s.hcAt c).chEna = true ∧ (s.hcAt c).chDis = false ∧
      (s.pipeAt c).buf.bufLen ≠ 0 := by
  simp only [State.waiting, Bool.and_eq_true, beq_iff_eq, bne_iff_ne, State.runState_active_iff, and_assoc]

theorem allCh_find?_eq_some_iff {p : Ch → Bool} {i : Ch} :
    allCh.find? p = some i ↔ p i = true ∧ ∀ j < i, p j = false := by
  rw [allCh_eq, List.find?_eq_some_iff_getElem]
  simp only [Bool.not_eq_true', List.getElem_finRange]
  refine and_congr_right fun _ => ⟨?_, fun h => ⟨i.val, by simp, rfl, fun k hk => h _ hk⟩⟩
  rintro ⟨k, hk, rfl, hlow⟩ j hj
  exact hlow j.val hj

variable {k : TxClass} {f : GFlag} {c : Ch}

/-- The interrupt of class `k` after its handler: disabled unless a channel waits. -/
def State.masked (s : State) (k : TxClass) (f : GFlag) : State :=
  if allCh.any (s.waiting k) then s else s.setGmask f false

theorem State.masked_of_waiting (h : s.waiting k c = true) : s.masked k f = s :=
  if_pos (List.any_eq_true.2 ⟨c, mem_allCh c, h⟩)

theorem State.masked_of_none (h : ∀ c, ¬ s.waiting k c = true) : s.masked k f = s.setGmask f false :=
  if_neg fun hany => by
    obtain ⟨c, -, hc⟩ := List.any_eq_true.1 hany
    exact h c hc

/-- With no waiting channel the interrupt is disabled. -/
theorem txfeHandler_none (h : ∀ c, ¬ s.waiting k c = true) : txfeHandler k f s = .ok () (s.setGmask f false) := by
  have hfind : allCh.find? (s.waiting k) = none := List.find?_eq_none.2 fun c _ => h c
  rw [txfeHandler, get_bind_apply, hfind]
  exact congrArg _ (State.masked_of_none h)

/-- The least waiting channel is drained. -/
theorem txfeHandler_least (hc : s.waiting k c = true) (hlow : ∀ j < c, ¬ s.waiting k j = true)
    (hdrain : drain (.ch c) (s.hcAt c).mps.toNat s = .ok () t) : txfeHandler k f s = .ok () (t.masked k f) := by
  have hfind : allCh.find? (s.waiting k) = some c :=
    allCh_find?_eq_some_iff.2 ⟨hc, fun j hj => Bool.eq_false_of_not_eq_true (hlow j hj)⟩
  rw [txfeHandler, get_bind_apply, hfind]
  exact bind_ok hdrain

theorem txfeHandler_ends (k : TxClass) (f : GFlag) (s : State) : ∃ t, txfeHandler k f s = .ok () t := by
  cases hfind : allCh.find? (s.waiting k) with
  | none => exact ⟨_, txfeHandler_none fun c => List.find?_eq_none.1 hfind c (mem_allCh c)⟩
  | some c =>
    obtain ⟨hc, hlow⟩ := allCh_find?_eq_some_iff.1 hfind
    obtain ⟨t, hdrain⟩ := drainLoop_ends (.ch c) (s.hcAt c).mps.toNat (s.bufAt (.ch c)).bufLen.toNat s
    exact ⟨_, txfeHandler_least hc (fun j hj => by simp [hlow j hj]) hdrain⟩

/-- Once all that remains of a channel is sent, it waits no more; every other channel waits as before. -/
theorem State.waiting_sent_all {W : List Word} {l : List LogEntry} {d : Nat} (j : Ch) :
    (s.sent (.ch c) (s.bufAt (.ch c)).bufLen.toNat W l d).waiting k j = true ↔ j ≠ c ∧ s.waiting k j = true := by
  simp only [State.waiting_iff, State.classOf_sent]
  by_cases hj : j = c
  · subst hj
    exact iff_of_false (fun ⟨_, _, _, _, hlen⟩ => hlen (s.bufLen_sent_all (.ch j) W l d)) fun h => h.1 rfl
  · have hpipe : (s.sent (.ch c) (s.bufAt (.ch c)).bufLen.toNat W l d).pipeAt j = s.pipeAt j :=
      State.pipeAt_setPipe_ne _ _ hj
    rw [hpipe]
    exact (and_iff_right hj).symm

/-! ### The endpoint handler (R357) -/

variable {e : EpIx}

/-- TXFE of endpoint `e` after its handler: disabled when the endpoint is unarmed or nothing is left. -/
def State.epMasked (s : State) (e : EpIx) : State :=
  if (s.epAt .IN e).epEna = false ∨ (s.epbAt .IN e).bufLen = 0 then
    s.setEp .IN e { s.epAt .IN e with mAux := false }
  else s

theorem epTxfeHandler_idle (h : (s.epAt .IN e).epEna = false ∨ (s.epbAt .IN e).bufLen = 0) :
    epTxfeHandler e s = .ok () (s.setEp .IN e { s.epAt .IN e with mAux := false }) := by
  rw [epTxfeHandler, get_bind_apply]
  have hstop : ¬ ((s.epAt .IN e).epEna = true ∧ (s.epbAt .IN e).bufLen ≠ 0) := fun ⟨hena, hlen⟩ =>
    h.elim (fun hoff => Bool.noConfusion (hoff.symm.trans hena)) hlen
  exact (congrFun (if_neg hstop) s).trans (congrArg _ (if_pos h))

theorem epTxfeHandler_drains (hena : (s.epAt .IN e).epEna = true) (hlen : (s.epbAt .IN e).bufLen ≠ 0)
    (hdrain : drain (.ep .IN e) (s.epMps .IN e).toNat s = .ok () t) :
    epTxfeHandler e s = .ok () (t.epMasked e) := by
  rw [epTxfeHandler, get_bind_apply]
  exact (congrFun (if_pos ⟨hena, hlen⟩) s).trans (bind_ok hdrain)

end Sys2Proof.Machine

open Sys2Proof Sys2Proof.Machine

/-- Settles O47: the handler drains the least waiting channel (`txfeHandler_least`), which sends all that remains
(`drainLoop_all`) or nothing (`drainLoop_stop`), and never faults (`txfeHandler_ends`). -/
theorem txfeDrain : Obligations.TxfeDrain := by
  intro s k f waits hmode hkf hwaits
  have hwait (c : Ch) : waits c ↔ s.waiting k c = true := (hwaits c).trans (s.waiting_iff k c).symm
  have hhandler : handler f = txfeHandler k f := by obtain ⟨rfl, rfl⟩ | ⟨rfl, rfl⟩ := hkf <;> rfl
  simp only [hwait, hhandler]
  refine ⟨txfeHandler_ends k f s, fun hnone => txfeHandler_none hnone, fun c hc hlow => ?_⟩
  have hclass : s.classOf c = k := ((s.waiting_iff k c).1 hc).1
  refine ⟨fun hfull => ?_, fun hroom hmps h4 => ?_⟩
  · have hdrain : drain (.ch c) (s.hcAt c).mps.toNat s = .ok () s :=
      drainLoop_stop (.inr (by rw [Tgt.num, hclass]; exact hfull))
    rw [txfeHandler_least hc hlow hdrain, State.masked_of_waiting hc]
  · obtain ⟨W, l, d, hW, hdrain⟩ := drainLoop_all (s := s) (x := .ch c) (packetSize_ne_zero hmps) h4 rfl le_rfl
      (by rw [Tgt.num, hclass]; exact hroom)
    have hrun := txfeHandler_least (f := f) hc hlow hdrain
    have hother (j : Ch) := s.waiting_sent_all (k := k) (c := c) (W := W) (l := l) (d := d) j
    by_cases hmore : ∃ j, j ≠ c ∧ s.waiting k j = true
    · obtain ⟨j, hj⟩ := hmore
      rw [State.masked_of_waiting ((hother j).2 hj), State.sent_channel_all] at hrun
      exact ⟨W, l, d, s.gintmsk, hW, hrun, fun _ => rfl, fun hnone => absurd hj.2 (hnone j hj.1)⟩
    · rw [State.masked_of_none fun j hj => hmore ⟨j, (hother j).1 hj⟩, State.sent_channel_all] at hrun
      exact ⟨W, l, d, _, hW, hrun, fun h => absurd h hmore, fun _ => rfl⟩

/-- Settles O48: an armed endpoint with bytes left is drained (`epTxfeHandler_drains`, `drainLoop_all`,
`drainLoop_stop`), any other one is masked (`epTxfeHandler_idle`). -/
theorem endpointTxfeDrain : Obligations.EndpointTxfeDrain := by
  intro s n hmode
  have hclass : s.classOf (Tgt.ep .IN n).num = .EP (Tgt.ep .IN n).num := by rw [State.classOf, hmode]
  refine ⟨?_, epTxfeHandler_idle, fun hena hlen => ⟨fun hfull => ?_, fun hroom hmps h4 => ?_⟩⟩
  · by_cases h : (s.epAt .IN n).epEna = false ∨ (s.epbAt .IN n).bufLen = 0
    · exact ⟨_, epTxfeHandler_idle h⟩
    · obtain ⟨hena, hlen⟩ := not_or.1 h
      obtain ⟨t, hdrain⟩ := drainLoop_ends (.ep .IN n) (s.epMps .IN n).toNat (s.bufAt (.ep .IN n)).bufLen.toNat s
      exact ⟨_, epTxfeHandler_drains (Bool.eq_true_of_not_eq_false hena) hlen hdrain⟩
  · have hdrain : drain (.ep .IN n) (s.epMps .IN n).toNat s = .ok () s :=
      drainLoop_stop (.inr (by rw [hclass]; exact hfull))
    rw [epTxfeHandler_drains hena hlen hdrain, State.epMasked, if_neg (not_or.2 ⟨by simp [hena], hlen⟩)]
  · obtain ⟨W, l, d, hW, hdrain⟩ := drainLoop_all (s := s) (x := .ep .IN n) (packetSize_ne_zero hmps) h4 rfl le_rfl
      (by rw [hclass]; exact hroom)
    refine ⟨W, l, d, hW, (epTxfeHandler_drains hena hlen hdrain).trans (congrArg _ ?_)⟩
    rw [State.epMasked, if_pos (.inr (s.bufLen_sent_all (.ep .IN n) W l d)), State.sent_endpoint_all]
    rfl

end

section
/-! ## The channel interrupt (R321 to R335) -/

namespace Sys2Proof.Machine

variable {s u : State} {i j : Ch} {f : ChFlag}

/-! ### What a flag does -/

/-- NAK and NYET on a control or bulk channel: re-enabled unless a halt is under way (R333, R335). -/
theorem State.backOff_retries (h : (s.hcAt i).epType = .CONTROL ∨ (s.hcAt i).epType = .BULK) (x : PipeState) :
    s.backOff i x = if (s.hcAt i).chEna = true ∧ (s.hcAt i).chDis = true then s
      else s.setHc i { s.hcAt i with chEna := true, chDis := false } := by
  rw [← if_congr (s.runState_halting_iff i) rfl rfl, ← ite_not]
  obtain h | h := h <;> rw [State.backOff, h] <;> rfl

theorem State.backOff_halts (h : (s.hcAt i).epType = .INTERRUPT) (x : PipeState) :
    s.backOff i x = s.recordHalt i x := by rw [State.backOff, h]

theorem State.backOff_isochronous (h : (s.hcAt i).epType = .ISOCHRONOUS) (x : PipeState) : s.backOff i x = s := by
  rw [State.backOff, h]

/-- The toggle after a successful transfer (R326): the parity of the packets moved, on a bulk or interrupt pipe. -/
theorem Pipe.flipped_eq {p : Pipe} (h : p.mps ≠ 0 ∨ p.epType = .CONTROL ∨ p.epType = .ISOCHRONOUS) :
    p.flipped = if p.epType = .BULK ∨ p.epType = .INTERRUPT then
        p.buf.toggle ^^ decide (max 1 ((p.buf.xferCount.toNat + p.mps.toNat - 1) / p.mps.toNat) % 2 = 1)
      else p.buf.toggle := by
  have hcount (hty : p.epType = .BULK ∨ p.epType = .INTERRUPT) : pktCount p.buf.xferCount.toNat p.mps.toNat =
      max 1 ((p.buf.xferCount.toNat + p.mps.toNat - 1) / p.mps.toNat) := by
    have hmps : p.mps ≠ 0 := h.resolve_right fun h' => by rcases hty with e | e <;> simp [e] at h'
    exact pktCount_eq (Nat.pos_of_ne_zero (packetSize_ne_zero hmps)) _
  cases hty : p.epType <;> simp [Pipe.flipped, hty, hcount]

/-! ### A change of one channel -/

/-- `s` with the records of channel `i` replaced, the flush bits set where `np` and `per` say, and entries recorded. -/
def State.touched (s : State) (i : Ch) (c : HostChannel) (p : Pipe) (np per : Bool) (l : List LogEntry) : State :=
  { (s.setHc i c).setPipe i p with
    fifo.qFlushNP := s.fifo.qFlushNP || np
    fifo.qFlushP := s.fifo.qFlushP || per
    env.log := l ++ s.env.log }

/-- What serving channel `i` reads is the same in both states. -/
structure SameAt (i : Ch) (s u : State) : Prop where
  hc : u.hcAt i = s.hcAt i
  pipe : u.pipeAt i = s.pipeAt i
  haintmsk : u.haintmsk = s.haintmsk
  slots : u.fifo.qSlotsNP = s.fifo.qSlotsNP ∧ u.fifo.qSlotsP = s.fifo.qSlotsP

/-- At `s`, `g` changes channel `i` only, and what it writes depends only on what serving the channel reads. -/
def ActsAt (i : Ch) (s : State) (g : State → State) : Prop :=
  ∃ c p np per l, ∀ u, SameAt i s u → g u = u.touched i c p np per l

section Touched
variable {c c' : HostChannel} {p p' : Pipe} {np np' per per' : Bool} {l l' : List LogEntry}

@[simp] theorem State.hcAt_touched : (s.touched i c p np per l).hcAt j = if j = i then c else s.hcAt j :=
  s.hcAt_setHc i j c

@[simp] theorem State.pipeAt_touched : (s.touched i c p np per l).pipeAt j = if j = i then p else s.pipeAt j :=
  (s.setHc i c).pipeAt_setPipe i j p

theorem State.touched_touched : (s.touched i c p np per l).touched i c' p' np' per' l' =
    s.touched i c' p' (np || np') (per || per') (l' ++ l) := by
  simp [State.touched, State.setHc, State.setPipe, Bool.or_assoc]

theorem State.setHc_eq_touched (s : State) (i : Ch) (c : HostChannel) :
    s.setHc i c = s.touched i c (s.pipeAt i) false false [] := by
  simp [State.touched, State.setHc, State.setPipe, State.pipeAt]

theorem State.setPipe_eq_touched (s : State) (i : Ch) (p : Pipe) :
    s.setPipe i p = s.touched i (s.hcAt i) p false false [] := by
  simp [State.touched, State.setHc, State.setPipe, State.hcAt]

theorem State.eq_touched (s : State) (i : Ch) : s = s.touched i (s.hcAt i) (s.pipeAt i) false false [] := by
  simp [State.touched, State.setHc, State.setPipe, State.hcAt, State.pipeAt]

theorem State.logged_eq_touched (s : State) (i : Ch) (e : LogEntry) :
    s.logged e = s.touched i (s.hcAt i) (s.pipeAt i) false false [e] := by
  simp [State.touched, State.setHc, State.setPipe, State.hcAt, State.pipeAt, State.logged]

theorem SameAt.refl (i : Ch) (s : State) : SameAt i s s := ⟨rfl, rfl, rfl, rfl, rfl⟩

theorem SameAt.touched (h : SameAt i s u) : SameAt i (s.touched i c p np per l) (u.touched i c p np per l) :=
  ⟨by simp, by simp, h.haintmsk, h.slots⟩

/-- A change of another channel is not seen. -/
theorem SameAt.touched_ne (h : SameAt j s u) (hj : j ≠ i) : SameAt j s (u.touched i c p np per l) :=
  ⟨by simp [hj, h.hc], by simp [hj, h.pipe], h.haintmsk, h.slots⟩

end Touched

variable {g g' : State → State}

theorem ActsAt.congr (h : ActsAt i s g) (hg : ∀ u, SameAt i s u → g' u = g u) : ActsAt i s g' := by
  obtain ⟨c, p, np, per, l, hrun⟩ := h
  exact ⟨c, p, np, per, l, fun u hu => (hg u hu).trans (hrun u hu)⟩

theorem ActsAt.id : ActsAt i s id :=
  ⟨s.hcAt i, s.pipeAt i, false, false, [], fun u hu => by rw [← hu.hc, ← hu.pipe]; exact u.eq_touched i⟩

theorem ActsAt.comp (h : ActsAt i s g) (h' : ∀ s, ActsAt i s g') : ActsAt i s fun s => g' (g s) := by
  obtain ⟨c, p, np, per, l, hrun⟩ := h
  obtain ⟨c', p', np', per', l', hrun'⟩ := h' (g s)
  refine ⟨c', p', np || np', per || per', l' ++ l, fun u hu => ?_⟩
  have hsame : SameAt i (g s) (g u) := by
    rw [hrun s (.refl i s), hrun u hu]
    exact hu.touched
  exact (hrun' _ hsame).trans (by rw [hrun u hu, State.touched_touched])

theorem ActsAt.setHc (c : HostChannel) : ActsAt i s fun s => s.setHc i c :=
  ⟨c, s.pipeAt i, false, false, [], fun u hu => by rw [← hu.pipe]; exact u.setHc_eq_touched i c⟩

theorem ActsAt.setPipe (p : Pipe) : ActsAt i s fun s => s.setPipe i p :=
  ⟨s.hcAt i, p, false, false, [], fun u hu => by rw [← hu.hc]; exact u.setPipe_eq_touched i p⟩

theorem ActsAt.logged (e : LogEntry) : ActsAt i s fun s => s.logged e :=
  ⟨s.hcAt i, s.pipeAt i, false, false, [e], fun u hu => by rw [← hu.hc, ← hu.pipe]; exact u.logged_eq_touched i e⟩

theorem ActsAt.halt : ActsAt i s fun s => s.halt i := by
  by_cases h : s.runState i = .ACTIVE
  · refine ⟨{ s.hcAt i with chDis := true }, s.pipeAt i,
      !periodicType (s.hcAt i).epType && decide (s.fifo.qSlotsNP = 0),
      periodicType (s.hcAt i).epType && decide (s.fifo.qSlotsP = 0), [], fun u hu => ?_⟩
    have hact : u.runState i = .ACTIVE := by rwa [State.runState, hu.hc]
    refine (State.halt_of_active hact).trans ?_
    rw [State.setHc_eq_touched, hu.hc, hu.pipe, hu.slots.1, hu.slots.2]
    simp [State.touched]
  · refine ActsAt.id.congr fun u hu => State.halt_of_not_active ?_
    rwa [State.runState, hu.hc]

theorem ActsAt.recordHalt (x : PipeState) : ActsAt i s fun s => s.recordHalt i x :=
  ActsAt.comp ((ActsAt.setPipe { s.pipeAt i with buf := { (s.pipeAt i).buf with pipeState := x } }).congr
    fun u hu => by rw [State.setPipeState, hu.pipe]) fun _ => .halt

theorem ActsAt.backOff (x : PipeState) : ActsAt i s fun s => s.backOff i x := by
  have hty {u : State} (hu : SameAt i s u) : (u.hcAt i).epType = (s.hcAt i).epType := by rw [hu.hc]
  cases h : (s.hcAt i).epType with
  | CONTROL | BULK =>
    by_cases hhalt : (s.hcAt i).chEna = true ∧ (s.hcAt i).chDis = true
    · refine ActsAt.id.congr fun u hu => ?_
      rw [State.backOff_retries (by rw [hty hu, h]; simp), hu.hc, if_pos hhalt]
      rfl
    · refine (ActsAt.setHc { s.hcAt i with chEna := true, chDis := false }).congr fun u hu => ?_
      rw [State.backOff_retries (by rw [hty hu, h]; simp), hu.hc, if_neg hhalt]
  | INTERRUPT => exact (ActsAt.recordHalt x).congr fun u hu => State.backOff_halts ((hty hu).trans h) x
  | ISOCHRONOUS => exact ActsAt.id.congr fun u hu => State.backOff_isochronous ((hty hu).trans h) x

theorem ActsAt.serveChFlag (f : ChFlag) : ActsAt i s fun s => s.serveChFlag i f := by
  cases f with
  | AHBERR | ACK => exact .id
  | STALL | DTERR | FRMOR | XFRC | XACTERR | BBLERR => exact .recordHalt _
  | NAK | NYET => exact .backOff _
  | CHH => exact (ActsAt.setPipe (s.pipeAt i).converge).congr fun u hu => by rw [State.serveChFlag, hu.pipe]

/-! ### Serving every channel (R321) -/

/-- Channel `i` is enabled and `f` is its first masked flag pending. -/
def State.serves (s : State) (i : Ch) (f : ChFlag) : Prop :=
  s.haintmsk.getLsbD i.val = true ∧ firstFlag (s.hcAt i).pending = some f

/-- The flag cleared and served. -/
def State.flagServed (s : State) (i : Ch) (f : ChFlag) : State := (s.clearChFlag i f).serveChFlag i f

theorem State.serveChannel_serves (h : s.serves i f) :
    s.serveChannel i = (s.flagServed i f).logged (.channel i f) := by
  rw [State.serveChannel, if_pos h.1, h.2]
  rfl

theorem State.serveChannel_idle (h : ∀ f, ¬ s.serves i f) : s.serveChannel i = s := by
  rw [State.serveChannel]
  split
  · next hmask =>
    have hnone : firstFlag (s.hcAt i).pending = none :=
      Option.eq_none_iff_forall_not_mem.2 fun f hf => h f ⟨hmask, hf⟩
    rw [hnone]
  · rfl

theorem ActsAt.serveChannel : ActsAt i s fun s => s.serveChannel i := by
  have hsame {u : State} (hu : SameAt i s u) (f : ChFlag) : u.serves i f ↔ s.serves i f := by
    rw [State.serves, State.serves, hu.hc, hu.haintmsk]
  by_cases h : ∃ f, s.serves i f
  · obtain ⟨f, hf⟩ := h
    have hclear : ActsAt i s fun s => s.clearChFlag i f :=
      (ActsAt.setHc ((s.hcAt i).setFlag f false)).congr fun u hu => by rw [State.clearChFlag, hu.hc]
    exact ((hclear.comp fun _ => .serveChFlag f).comp fun _ => .logged (.channel i f)).congr fun u hu =>
      State.serveChannel_serves ((hsame hu f).2 hf)
  · exact ActsAt.id.congr fun u hu => State.serveChannel_idle fun f hf => h ⟨f, (hsame hu f).1 hf⟩

/-- A handler that applies a change for each member of a list folds the change over it. -/
theorem forEach_upd {α : Type} (l : List α) (g : State → α → State) (s : State) :
    forEach l (fun a => upd fun s => g s a) s = .ok () (l.foldl g s) := by
  induction l generalizing s with
  | nil => rfl
  | cons a l ih => exact ih (g s a)

/-- What serving the channels of `l` in turn makes of `u`, where each is still as it is in `s`. -/
theorem foldl_serveChannel {c : Ch → HostChannel} {p : Ch → Pipe} {np per : Ch → Bool} {es : Ch → List LogEntry}
    (hacts : ∀ i u, SameAt i s u → u.serveChannel i = u.touched i (c i) (p i) (np i) (per i) (es i))
    {l : List Ch} (hl : l.Nodup) (hsame : ∀ i ∈ l, SameAt i s u) : ∃ hc pipe log,
      l.foldl State.serveChannel u = { u with
        hc := hc, pipe := pipe
        fifo.qFlushNP := u.fifo.qFlushNP || l.any np
        fifo.qFlushP := u.fifo.qFlushP || l.any per
        env.log := log } ∧
      ∀ i : Ch, hc[i] = (if i ∈ l then c i else u.hcAt i) ∧ pipe[i] = if i ∈ l then p i else u.pipeAt i := by
  induction l generalizing u with
  | nil => exact ⟨u.hc, u.pipe, u.env.log, by simp, fun i => ⟨rfl, rfl⟩⟩
  | cons j l ih =>
    obtain ⟨hj, hl⟩ := List.nodup_cons.1 hl
    obtain ⟨hc, pipe, log, hfold, hat⟩ := ih (u := u.touched j (c j) (p j) (np j) (per j) (es j)) hl fun i hi =>
      (hsame i (List.mem_cons_of_mem j hi)).touched_ne fun e => hj (e ▸ hi)
    refine ⟨hc, pipe, log, ?_, fun i => ?_⟩
    · rw [List.foldl_cons, hacts j u (hsame j List.mem_cons_self), hfold, List.any_cons, List.any_cons,
        ← Bool.or_assoc, ← Bool.or_assoc]
      rfl
    · obtain ⟨hhc, hpipe⟩ := hat i
      rw [State.hcAt_touched] at hhc
      rw [State.pipeAt_touched] at hpipe
      rw [hhc, hpipe]
      by_cases hij : i = j
      · subst hij; simp [hj]
      · simp [hij]

/-- A flush bit that a channel sets is set where its flag is served. -/
theorem flushed_iff {q : State → Bool} {a : Ch → Bool} (hlog : ∀ u e, q (State.logged u e) = q u)
    (hq : ∀ i, q (s.serveChannel i) = (q s || a i)) :
    (q s || allCh.any a) = true ↔ q s = true ∨ ∃ i f, s.serves i f ∧ q (s.flagServed i f) = true := by
  have hserved {i : Ch} {f : ChFlag} (h : s.serves i f) : q (s.flagServed i f) = (q s || a i) := by
    rw [← hq, State.serveChannel_serves h, hlog]
  rw [Bool.or_eq_true, List.any_eq_true]
  constructor
  · rintro (h | ⟨i, -, hi⟩)
    · exact .inl h
    by_cases hany : ∃ f, s.serves i f
    · obtain ⟨f, hf⟩ := hany
      exact .inr ⟨i, f, hf, by rw [hserved hf, hi, Bool.or_true]⟩
    · have hidle := hq i
      rw [State.serveChannel_idle fun f hf => hany ⟨f, hf⟩, hi, Bool.or_true] at hidle
      exact .inl hidle
  · rintro (h | ⟨i, f, hf, h⟩)
    · exact .inl h
    · rw [hserved hf, Bool.or_eq_true] at h
      exact h.imp_right fun hi => ⟨i, mem_allCh i, hi⟩

theorem State.not_serves {i : Ch} (h : s.haintmsk.getLsbD i.val = false ∨ (s.hcAt i).int &&& (s.hcAt i).intMsk = 0)
    (f : ChFlag) : ¬ s.serves i f := by
  rintro ⟨hmask, hfirst⟩
  obtain h | h := h
  · exact Bool.noConfusion (h.symm.trans hmask)
  · rw [HostChannel.pending, h] at hfirst
    exact absurd hfirst.symm (Option.some_ne_none f)

end Sys2Proof.Machine

open Sys2Proof Sys2Proof.Machine

/-- Settles O49: serving a channel acts on that channel alone (`ActsAt.serveChannel`), so that the channels served in
turn are each served as in the first state (`foldl_serveChannel`). -/
theorem hcintServesOneFlag : Obligations.HcintServesOneFlag := by
  intro s serves after hserves hafter
  obtain rfl : serves = s.serves := funext fun i => funext fun f => propext (hserves i f)
  obtain rfl : after = s.flagServed := funext fun i => funext fun f => hafter i f
  choose c p np per es hacts using fun i => ActsAt.serveChannel (i := i) (s := s)
  obtain ⟨hc, pipe, log, hfold, hat⟩ := foldl_serveChannel hacts allCh_nodup fun i _ => .refl i s
  have hserve (i : Ch) : s.serveChannel i = s.touched i (c i) (p i) (np i) (per i) (es i) := hacts i s (.refl i s)
  have hrec (i : Ch) : hc[i] = (s.serveChannel i).hcAt i ∧ pipe[i] = (s.serveChannel i).pipeAt i := by
    simpa [hserve i, mem_allCh i] using hat i
  refine ⟨_, (forEach_upd allCh State.serveChannel s).trans (congrArg _ hfold), rfl, ?_, ?_, fun i => ⟨?_, ?_⟩⟩
  · exact flushed_iff (q := fun u => u.fifo.qFlushNP) (fun _ _ => rfl) fun i => by rw [hserve i]; rfl
  · exact flushed_iff (q := fun u => u.fifo.qFlushP) (fun _ _ => rfl) fun i => by rw [hserve i]; rfl
  · intro hidle
    have hi := hrec i
    rwa [State.serveChannel_idle (State.not_serves hidle)] at hi
  · intro f hf
    have hi := hrec i
    rwa [State.serveChannel_serves hf] at hi

/-- Settles O50: one case per flag, and one per pipe state for CHH; the toggle is `Pipe.flipped_eq`. -/
theorem channelFlags : Obligations.ChannelFlags := by
  intro s i
  refine ⟨fun f hf => ?_, fun p hp => ?_, fun p hp => ?_, fun p hp hst => ?_, fun hst hmps => ?_⟩
  · fin_cases hf <;> rfl
  · fin_cases hp <;> rfl
  · fin_cases hp
    all_goals exact ⟨fun h => State.backOff_retries h _, fun h => State.backOff_halts h _,
      fun h => State.backOff_isochronous h _⟩
  · fin_cases hp
    all_goals rw [State.serveChFlag, Pipe.converge, hst]
  · rw [← Pipe.flipped_eq hmps, State.serveChFlag, Pipe.converge, hst]

end

section
/-! ## The port and detach (R340, R345) -/

namespace Sys2Proof.Machine

variable {s : State}

/-! ### HPRTINT (R340) -/

/-- The register writes of the connect branch. -/
def State.attached (s : State) : State :=
  { s with hprt.pcdet := false, host.connected := true, env.log := .event .deviceAttached :: s.env.log }

/-- HPRTINT after its connect branch: the change of port enable. -/
def portEnableChange : M Unit := do
  let s ← get
  if s.hprt.penchng then do
    upd fun s => { s with hprt.penchng := false }
    if s.hprt.pena then portEnabled else upd fun s => { s with host.portEnabled := false }
  else pure ()

theorem hprtHandler_attached (h : s.hprt.pcdet = true) : hprtHandler s = portEnableChange s.attached := by
  rw [hprtHandler, get_bind_apply]
  exact (congrFun (if_pos h) s).trans rfl

theorem hprtHandler_unattached (h : s.hprt.pcdet = false) : hprtHandler s = portEnableChange s := by
  rw [hprtHandler, get_bind_apply]
  exact (congrFun (if_neg (ne_true_of_eq_false h)) s).trans rfl

theorem portEnableChange_none (h : s.hprt.penchng = false) : portEnableChange s = .ok () s := by
  rw [portEnableChange, get_bind_apply, if_neg (ne_true_of_eq_false h)]
  rfl

theorem portEnableChange_disabled (h : s.hprt.penchng = true) (h' : s.hprt.pena = false) :
    portEnableChange s = .ok () { s with hprt.penchng := false, host.portEnabled := false } := by
  rw [portEnableChange, get_bind_apply, if_pos h, if_neg (ne_true_of_eq_false h')]
  rfl

theorem portEnableChange_enabled (h : s.hprt.penchng = true) (h' : s.hprt.pena = true) :
    portEnableChange s = portEnabled { s with hprt.penchng := false } := by
  rw [portEnableChange, get_bind_apply, if_pos h, if_pos h']
  rfl

/-- Port enable: the port is reset when the clock changes. -/
theorem portEnabled_ok (s : State) : portEnabled s = .ok () { s with
    host.speed := s.hprt.pspd
    host.portEnabled := true
    frameInterval := frivlOf s.env.par s.hprt.pspd
    hostClkSel := s.hprt.pspd
    gintmsk := s.gintmsk ||| 0x0020
    env.log := .event (.deviceSpeedDetected s.hprt.pspd) ::
      if s.hostClkSel = s.hprt.pspd then s.env.log else .event .portReset :: s.env.log } := by
  rw [portEnabled, upd_bind_apply, get_bind_apply]
  by_cases hclk : s.hostClkSel = s.hprt.pspd
  · rw [if_pos hclk]
    refine (congrFun (if_neg (not_not.2 hclk)) _).trans ?_
    cases s
    dsimp only at hclk
    subst hclk
    rfl
  · rw [if_neg hclk]
    exact (congrFun (if_pos hclk) _).trans rfl

/-! ### DISCINT (R345) -/

theorem State.hcAt_detached (s : State) (i : Ch) :
    s.detached.hcAt i = { s.hcAt i with intMsk := 0, chEna := false, chDis := false } :=
  Vector.getElem_map ..

theorem State.pipeAt_detached (s : State) (i : Ch) : s.detached.pipeAt i = { s.pipeAt i with buf := .zero } :=
  Vector.getElem_map ..

end Sys2Proof.Machine

open Sys2Proof Sys2Proof.Machine

/-- Settles O51: HPRTINT is its connect branch (`hprtHandler_attached`) and then one of the changes of port enable;
detach is `State.detached`. -/
theorem portAndDetach : Obligations.PortAndDetach := by
  intro s
  refine ⟨fun hdet hchg => ?_, fun hdet hchg hena => ?_, fun hdet hchg hena => ?_, fun hdet _ => ?_,
    fun hdet hchg => ?_, s.detached.logged (.event .deviceDetached), rfl, rfl,
    fun i => ⟨s.hcAt_detached i, s.pipeAt_detached i⟩⟩
  · exact (hprtHandler_attached hdet).trans (portEnableChange_none (s := s.attached) hchg)
  · exact (hprtHandler_unattached hdet).trans (portEnableChange_disabled hchg hena)
  · rw [hprtHandler_unattached hdet, portEnableChange_enabled hchg hena, portEnabled_ok]
    rfl
  · exact (hprtHandler_attached hdet).trans (hprtHandler_unattached (s := s.attached) rfl).symm
  · exact (hprtHandler_unattached hdet).trans (portEnableChange_none hchg)

end

section
/-! ## The latched device events (R347, R350, R353, R358, R359) -/

namespace Sys2Proof.Machine

variable (s : State) (n m : EpIx) (d d' : Dir) (type : EpType) (mps : BitVec 11)

theorem State.epAt_activateEp : (s.activateEp n type mps d).epAt d' m = if d' = d ∧ m = n then { s.epAt d n with
    active := true, epType := type, mps := mpsField n mps, stall := false, dpid := .DATA0
    xfrc := false, stup := false, mXfrc := true, mAux := decide (d = .OUT ∧ n = 0) } else s.epAt d' m := by
  rw [← State.epAt_setEp]
  cases d <;> cases d' <;> simp [State.activateEp] <;> rfl

theorem State.epbAt_activateEp : (s.activateEp n type mps d).epbAt d' m = s.epbAt d' m := by
  cases d <;> cases d' <;> rfl

/-- What USBRST resets (R350), before it activates endpoint 0. -/
def State.sessionReset (s : State) : State :=
  { s.resetEndpoints with
    lat.usbrst := false
    dev := { ctrlState := .SETUP, zlpPending := false, addr := 0, curConfiguration := 0, devState := .DEFAULT
             speed := s.dev.speed, curInterface := 0, curAltSetting := 0, remoteWakeup := false
             selfPowered := s.dev.selfPowered } }

theorem State.busReset_eq :
    s.busReset = (s.sessionReset.activateEp 0 .CONTROL 64 .OUT).activateEp 0 .CONTROL 64 .IN := rfl

theorem State.daintmsk_busReset : s.busReset.dep.daintmskIn = 1 ∧ s.busReset.dep.daintmskOut = 1 := by
  have hbit : BitVec.twoPow 8 0 = 1#8 := by decide
  simp [State.busReset_eq, State.activateEp_eq, State.sessionReset, State.resetEndpoints, DevEps.zero, hbit]

theorem State.txqAt_resetEndpoints (c : Ch) :
    s.resetEndpoints.txqAt c = if c.val < 8 then [] else s.txqAt c := by
  simp [State.resetEndpoints, State.txqAt]

theorem State.epbAt_busReset : s.busReset.epbAt d n = .zero := by
  rw [State.busReset_eq, State.epbAt_activateEp, State.epbAt_activateEp]
  exact DevEps.zero_epbAt rfl d n

/-- Only endpoint 0 is activated, in both directions. -/
theorem State.epAt_busReset : s.busReset.epAt d n = { DevEp.zero with
    active := decide (n = 0), mXfrc := decide (n = 0), mAux := decide (n = 0 ∧ d = .OUT) } := by
  have hzero (d : Dir) (n : EpIx) : s.sessionReset.epAt d n = .zero := DevEps.zero_epAt rfl d n
  have hcode : mpsField 0 64 = 0 := by decide
  simp only [State.busReset_eq, State.epAt_activateEp, hzero, hcode]
  by_cases hn : n = 0
  · cases d <;> simp [hn, DevEp.zero]
  · simp [hn, DevEp.zero]

end Sys2Proof.Machine

open Sys2Proof Sys2Proof.Machine

/-- Settles O52: USBRST is `State.busReset`, whose records are read by `State.epAt_busReset`, `State.epbAt_busReset` and
`State.daintmsk_busReset`; the other four are one update each. -/
theorem busResetSession : Obligations.BusResetSession := by
  intro s
  obtain ⟨hin, hout⟩ := s.daintmsk_busReset
  exact ⟨rfl, rfl, rfl, rfl, s.busReset.logged (.event .reset), rfl, rfl, hin, hout, s.txqAt_resetEndpoints,
    fun d n => ⟨s.epbAt_busReset n d, s.epAt_busReset n d⟩⟩

end

section
/-! ## The endpoint interrupts and the stages of endpoint 0 (R237, R239, R240, R351, R352, R355, R356) -/

namespace Sys2Proof.Machine

variable {s s1 s2 : State} {n : EpIx}

/-! ### The scans (R351, R355) -/

/-- A scan of the endpoints in ascending order. -/
theorem forEach_allEp (f : EpIx → M Unit) (s : State) : forEach allEp f s =
    (f 0 >>= fun _ => f 1 >>= fun _ => f 2 >>= fun _ => f 3 >>= fun _ =>
      f 4 >>= fun _ => f 5 >>= fun _ => f 6 >>= fun _ => f 7) s := by
  have hlast : forEach [7] f = f 7 := funext fun s => by
    rw [forEach, bind_apply]
    cases f 7 s <;> rfl
  rw [← hlast]
  rfl

theorem serveIn_of_disabled (h : s.dep.daintmskIn.getLsbD n.val = false) : serveIn n s = .ok () s := by
  rw [serveIn, get_bind_apply, if_neg (ne_true_of_eq_false h)]
  rfl

/-- STUP is served after XFRC, by the setup stage for endpoint 0 (R351). -/
def serveStup (n : EpIx) : M Unit := do
  let s ← get
  if (s.epAt .OUT n).stup && (s.epAt .OUT n).mAux then do
    upd fun s => s.setEp .OUT n { s.epAt .OUT n with stup := false }
    if n = 0 then setupStage else pure ()
  else pure ()

theorem serveOut_complete (hena : s.dep.daintmskOut.getLsbD n.val = true) (hx : (s.epAt .OUT n).xfrc = true)
    (hm : (s.epAt .OUT n).mXfrc = true)
    (h : outComplete n (s.setEp .OUT n { s.epAt .OUT n with xfrc := false }) = .ok () s2) :
    serveOut n s = serveStup n s2 := by
  rw [serveOut, get_bind_apply, if_pos hena]
  refine (congrFun (if_pos (by simp [hx, hm])) s).trans ?_
  exact bind_ok h

theorem serveOut_incomplete (hena : s.dep.daintmskOut.getLsbD n.val = true)
    (h : ¬ ((s.epAt .OUT n).xfrc = true ∧ (s.epAt .OUT n).mXfrc = true)) : serveOut n s = serveStup n s := by
  rw [serveOut, get_bind_apply, if_pos hena]
  exact congrFun (if_neg (by simpa using h)) s

theorem serveStup_eq (n : EpIx) (u : State) : serveStup n u =
    if (u.epAt .OUT n).stup = true ∧ (u.epAt .OUT n).mAux = true then
      (if n = 0 then setupStage else pure ()) (u.setEp .OUT n { u.epAt .OUT n with stup := false })
    else .ok () u := by
  rw [serveStup, get_bind_apply, ite_apply']
  exact if_congr Bool.and_eq_true_iff rfl rfl

/-- TXFE is served after XFRC (R355). -/
def serveTxfe (n : EpIx) : M Unit := do
  let s ← get
  if s.epTxfe n && (s.epAt .IN n).mAux then epTxfeHandler n else pure ()

theorem serveIn_complete (hena : s.dep.daintmskIn.getLsbD n.val = true) (hx : (s.epAt .IN n).xfrc = true)
    (hm : (s.epAt .IN n).mXfrc = true)
    (h : inComplete n (s.setEp .IN n { s.epAt .IN n with xfrc := false }) = .ok () s2) :
    serveIn n s = serveTxfe n s2 := by
  rw [serveIn, get_bind_apply, if_pos hena]
  refine (congrFun (if_pos (by simp [hx, hm])) s).trans ?_
  exact bind_ok h

theorem serveIn_incomplete (hena : s.dep.daintmskIn.getLsbD n.val = true)
    (h : ¬ ((s.epAt .IN n).xfrc = true ∧ (s.epAt .IN n).mXfrc = true)) : serveIn n s = serveTxfe n s := by
  rw [serveIn, get_bind_apply, if_pos hena]
  exact congrFun (if_neg (by simpa using h)) s

theorem serveTxfe_eq (n : EpIx) (u : State) : serveTxfe n u =
    if u.txqAt (Tgt.ep .IN n).num = [] ∧ (u.epAt .IN n).mAux = true then epTxfeHandler n u else .ok () u := by
  rw [serveTxfe, get_bind_apply, ite_apply', State.epTxfe_eq]
  exact if_congr (by rw [Bool.and_eq_true_iff, decide_eq_true_eq]) rfl rfl

/-! ### A completed transfer (R352, R356) -/

theorem outComplete_ok (h0 : n = 0 → dataOutStage s1 = .ok () s2)
    (hn : n ≠ 0 → s2 = { s1 with env.log := .event (.classCore .OUT n) :: s1.env.log }) :
    outComplete n s1 = .ok () s2 := by
  by_cases h : n = 0
  · exact (congrFun (if_pos h) s1).trans (h0 h)
  · rw [hn h]
    exact congrFun (if_neg h) s1

theorem inComplete_ok (h0 : n = 0 → dataInStage s1 = .ok () s2)
    (hn : n ≠ 0 → s2 = { s1 with env.log := .event (.classCore .IN n) :: s1.env.log }) :
    inComplete n s1 = .ok () s2 := by
  by_cases h : n = 0
  · exact (congrFun (if_pos h) s1).trans (h0 h)
  · rw [hn h]
    exact congrFun (if_neg h) s1

/-! ### The stages of endpoint 0 (R237, R239, R240) -/

theorem dataInStage_zlp (hst : s.dev.ctrlState = .DATA_IN) (hz : s.dev.zlpPending = true) :
    dataInStage s = .ok () { s.armZero .IN with dev.zlpPending := false } := by
  rw [dataInStage, get_bind_apply, hst]
  refine (congrFun (if_pos hz) s).trans ((upd_bind_apply _ _ _).trans ?_)
  exact bind_ok (ep0Arm_zero_in { s with dev.zlpPending := false })

theorem dataInStage_status (hst : s.dev.ctrlState = .DATA_IN) (hz : s.dev.zlpPending = false) :
    dataInStage s = .ok () (s.statusOut.logged (.armed 0 1)) := by
  rw [dataInStage, get_bind_apply, hst]
  exact (congrFun (if_neg (ne_true_of_eq_false hz)) s).trans (awaitStatus_ok s)

theorem dataInStage_closes (hst : s.dev.ctrlState = .STATUS_IN) :
    dataInStage s = .ok () { s with dev.ctrlState := .SETUP } := by
  rw [dataInStage, get_bind_apply, hst]
  rfl

theorem dataInStage_ignores (h : s.dev.ctrlState ≠ .DATA_IN) (h' : s.dev.ctrlState ≠ .STATUS_IN) :
    dataInStage s = .ok () s := by
  rw [dataInStage, get_bind_apply]
  cases hst : s.dev.ctrlState with
  | DATA_IN => exact absurd hst h
  | STATUS_IN => exact absurd hst h'
  | _ => rfl

theorem dataOutStage_closes (hst : s.dev.ctrlState = .STATUS_OUT) :
    dataOutStage s = .ok () { s with dev.ctrlState := .SETUP } := by
  rw [dataOutStage, get_bind_apply, hst]
  rfl

theorem dataOutStage_ignores (h : s.dev.ctrlState ≠ .DATA_OUT) (h' : s.dev.ctrlState ≠ .STATUS_OUT) :
    dataOutStage s = .ok () s := by
  rw [dataOutStage, get_bind_apply]
  cases hst : s.dev.ctrlState with
  | DATA_OUT => exact absurd hst h
  | STATUS_OUT => exact absurd hst h'
  | _ => rfl

/-- The data-stage hook takes the next answer supplied, or a free value (entry 12). -/
theorem askAck_ok {ack : Bool} {rest : List Bool} {d : Nat} (h : s.env.ackAnswers = ack :: rest ∧ d = s.env.draws ∨
      s.env.ackAnswers = [] ∧ rest = [] ∧ ack = Config.freeAck s.env.draws ∧ d = s.env.draws + 1) (call : Event) :
    askAck call s = .ok ack { s with env := { s.env with
      ackAnswers := rest, draws := d, log := .ackAnswer ack :: .event call :: s.env.log } } := by
  obtain ⟨hans, rfl⟩ | ⟨hans, rfl, rfl, rfl⟩ := h
  · rw [askAck, hans]
    rfl
  · rw [askAck, hans]
    simp [State.logged, hans]

/-- After the data stage of an OUT request the hook's answer arms the status stage or stalls (R240). -/
theorem dataOutStage_asks (hst : s.dev.ctrlState = .DATA_OUT) {ack : Bool} {rest : List Bool} {d : Nat}
    (h : s.env.ackAnswers = ack :: rest ∧ d = s.env.draws ∨
      s.env.ackAnswers = [] ∧ rest = [] ∧ ack = Config.freeAck s.env.draws ∧ d = s.env.draws + 1) :
    dataOutStage s = .ok () { (if ack then s.statusIn else s.ep0Stalled) with env := { s.env with
      ackAnswers := rest
      draws := d
      log := .ackAnswer ack :: .event (.ctrlOutDone s.reqBytes) ::
        .memRead (s.scratch + 4) 4 (s.word (s.scratch + 4)) :: .memRead s.scratch 4 (s.word s.scratch) ::
        s.env.log } } := by
  generalize hu : (s.logged (.memRead s.scratch 4 (s.word s.scratch))).logged
    (.memRead (s.scratch + 4) 4 (s.word (s.scratch + 4))) = u
  have hask := askAck_ok (s := u) (by rw [← hu]; exact h) (.ctrlOutDone s.reqBytes)
  have hrest := bind_ok (f := fun ack => if ack then sendStatus else stallRequest) hask
  rw [dataOutStage, get_bind_apply, hst]
  refine (readRequest_bind_apply s _).trans (Eq.trans ?_ (hrest.trans ?_))
  · rw [← hu]
  · cases ack with
    | false => refine (stallRequest_ok _).trans ?_; rw [← hu]; rfl
    | true => refine (sendStatus_ok _).trans ?_; rw [← hu]; rfl

end Sys2Proof.Machine

open Sys2Proof Sys2Proof.Machine

/-- Settles O53: the scans are `forEach_allEp`, an endpoint's flags are served in turn (`serveOut_complete`,
`serveStup_eq`, `serveIn_complete`, `serveTxfe_eq`), and each stage of endpoint 0 has its lemma. -/
theorem ep0Stages : Obligations.Ep0Stages := by
  intro s
  refine ⟨forEach_allEp serveOut s, forEach_allEp serveIn s,
    fun n => ⟨serveOut_of_disabled, serveIn_of_disabled, fun hena s1 s2 u hs1 h0 hn hu => ?_,
      fun hena s1 s2 u hs1 h0 hn hu => ?_⟩,
    fun hst hz => ⟨_, dataInStage_zlp hst hz⟩, fun hst hz => ⟨_, dataInStage_status hst hz⟩, dataInStage_closes,
    dataInStage_ignores, fun hst ack rest d hans => ?_, dataOutStage_closes, dataOutStage_ignores⟩
  · subst hs1
    rw [← serveStup_eq, hu]
    split
    · next hx => exact serveOut_complete hena hx.1 hx.2 (outComplete_ok h0 hn)
    · next hx => exact serveOut_incomplete hena hx
  · subst hs1
    rw [← serveTxfe_eq, hu]
    split
    · next hx => exact serveIn_complete hena hx.1 hx.2 (inComplete_ok h0 hn)
    · next hx => exact serveIn_incomplete hena hx
  · exact ⟨_, _, dataOutStage_asks hst hans, rfl, rfl⟩

end
